-- ==== Sys2Proof/Word.lean ====
section
/-!
DEFINITION. The two word types of PBX-CORE: every buffer access is one byte wide (R49), and the packed
formats split bytes into nibbles (R65, R70, R84). Byte order and bit fields are in Decode.lean.
-/

namespace Sys2Proof

/-- A buffer byte (R40, R49). -/
abbrev Byte := BitVec 8

/-- Four bits: a palette index (R70), a length nibble (R65), a hexadecimal digit (R84). -/
abbrev Nibble := BitVec 4

end Sys2Proof
end

