-- ==== Sys2Proof/Config.lean ====
section
/-!
DEFINITION. The parameters of 00_scope.md R4 and 92_eei_decisions.md section 6. A parameter the spec gives a value
is a number here; a parameter it leaves OPEN is an uninterpreted constant, so that no proof can rest on its value.
MAX_BUF is taken unbounded, as D3 allows (log entry 2).
-/

namespace Sys2Proof.Config

/-- LZ_TAG_SHIFT (R4, D20): lowest bit of the format tag in the LZ77 header word; the spec's rules use 0. -/
@[simp] abbrev lzTagShift : Nat := 0

/-- LZ_MIN_LEN (R4): added to the length nibble of a back-reference. -/
@[simp] abbrev lzMinLen : Nat := 3

/-- TILE_BYTES (R4). -/
@[simp] abbrev tileBytes : Nat := 32

/-- PAL_ENTRIES (R4). -/
@[simp] abbrev palEntries : Nat := 16

/-- SECTOR_BYTES (R4). -/
@[simp] abbrev sectorBytes : Nat := 0x1000

/-- SECTORS_PER_SLOT (R4). -/
@[simp] abbrev sectorsPerSlot : Nat := 14

/-- SLOT_BYTES (R4). -/
@[simp] abbrev slotBytes : Nat := 0xE000

/-- SLOTS_END (R4). -/
@[simp] abbrev slotsEnd : Nat := 0x1C000

/-- TRAILER_INDEX_OFF (R4). -/
@[simp] abbrev trailerIndexOff : Nat := 0xFF4

/-- COUNTER_OFF (R4, C4). -/
@[simp] abbrev counterOff : Nat := 0xFFC

/-- CHAN_LUT (R4, R135, D35): OPEN, the 32-entry channel table, the same for red, green and blue. A FREE VALUE:
no body, so nothing evaluates it (log entry 3). -/
opaque chanLut : BitVec 5 → Byte

/-- JIS0208 (R4, R168, D50): OPEN, the partial map from a byte pair (hi, lo) to a code point 1..0xFFFF. A FREE VALUE:
no body (log entry 4). -/
opaque jis0208 : Byte → Byte → Option { u : BitVec 16 // u ≠ 0 }

/-- REG_BASE (D2): OPEN, the bus address of register 0. No rule depends on it (log entry 5). -/
opaque regBase : Nat

end Sys2Proof.Config
end

