-- ==== Sys2Proof/Syntax.lean ====
section
/-!
DEFINITION. The instructions of PBX-CORE (R3): the host commands of R60 and the stream tokens, records and text
lines the units decode, one constructor per row of opcode_table.json, in the table's order.
-/

namespace Sys2Proof

/-- GBC's structured-text parser state PSTATE (R16). It selects the class of a text line (R82). -/
inductive PState where
  | scanning
  | inBitmap
  deriving DecidableEq, Repr

/-- The instructions, with their operands as fields. -/
inductive Instr where
  /-- LZD.DECOMPRESS, code 00xx (R60, R100). -/
  | lzdDecompress
  /-- TIU.UNPACK, code 01xx (R60, R130). -/
  | tiuUnpack
  /-- GBC.DECODE, code 1000 (R60, R177). -/
  | gbcDecode
  /-- GBC.ENC_HEX, code 1001 (R60, R160). -/
  | gbcEncHex
  /-- GBC.ENC_BDF, code 1010 (R60, R165). -/
  | gbcEncBdf
  /-- The reserved code 1011 (R60, R150). -/
  | gbcReserved
  /-- SSR.REASSEMBLE, code 11xx (R60, R200). -/
  | ssrReassemble
  /-- LZ.HDR (R62): the header word with a legal tag; `size` is bits 31:8, `ignored` the nibble not examined. -/
  | lzHdr (size : BitVec 24) (ignored : Nibble)
  /-- LZ.CTRL (R63): eight flags, bit 7 first. -/
  | lzCtrl (flags : Byte)
  /-- LIT (R64): the byte to append. -/
  | lit (d : Byte)
  /-- COPY (R65): `l` is the copy length minus 3, `d` the displacement. -/
  | copy (l : Nibble) (d : BitVec 12)
  /-- TILE.BYTE (R70): `h` is the right pixel, `l` the left one. -/
  | tileByte (h l : Nibble)
  /-- PAL.ENTRY (R72): `x` is bit 15, ignored; then blue, green, red. -/
  | palEntry (x : BitVec 1) (b g r : BitVec 5)
  /-- GLY.HDR (R75): the eight-byte glyph table header. -/
  | glyHdr (start count : BitVec 16) (width rows : Byte) (reserved : BitVec 16)
  /-- GLY.ROW8 (R76): row `r` of a halfwidth record; the row number is the byte's place in the record. -/
  | glyRow8 (r : Fin 16) (p : Byte)
  /-- GLY.ROW16 (R77): row `r` of a fullwidth record. -/
  | glyRow16 (r : Fin 16) (p : BitVec 16)
  /-- HEX.LINE (R81): the code point and the 16 or 32 payload bytes of an accepted line. -/
  | hexLine (cp : BitVec 32) (payload : List Byte)
  /-- BDF.CHARSET (R82): the charset name, quotes removed. -/
  | bdfCharset (name : List Byte)
  /-- BDF.ENCODING (R82, R167): the decimal code, or `none` when the operand is missing, not one or more decimal
  digits, or at least 2^32. -/
  | bdfEncoding (code : Option (BitVec 32))
  /-- BDF.BITMAP (R82). -/
  | bdfBitmap
  /-- BDF.ENDCHAR (R82). -/
  | bdfEndchar
  /-- BDF.ROW (R82, R84): the hex digits of the line, or `none` when some byte of it is not a hex digit. -/
  | bdfRow (digits : Option (List Nibble))
  /-- BDF.OTHER (R82). -/
  | bdfOther
  /-- SEC.TRAILER (R90): one 0x1000-byte sector by its fields. -/
  | secTrailer (data : List Byte) (index : BitVec 16) (undescribed : BitVec 48) (counter : BitVec 32)
  deriving DecidableEq, Repr

end Sys2Proof
end

