-- ==== Sys2Proof/WellFormed.lean ====
section
/-!
DEFINITION. What an instruction's fields must satisfy to have an encoding. Every other field is bounded by its type.
-/

namespace Sys2Proof

/-- The line feed, which ends a text line and never stands in one (R80). -/
abbrev lineFeed : Byte := 0x0A

/-- The instruction has an encoding: a hex-row payload is 16 or 32 bytes (R81); a charset name stands in one line
(R80); a hex row has at least one digit (R84); a sector's data is 0xFF4 bytes (R90). -/
def Instr.wellFormed : Instr → Bool
  | .hexLine _ payload => payload.length == 16 || payload.length == 32
  | .bdfCharset name => !name.contains lineFeed
  | .bdfRow (some digits) => !digits.isEmpty
  | .secTrailer data _ _ _ => data.length == Config.trailerIndexOff
  | .bdfRow none => true
  | .lzdDecompress | .tiuUnpack | .gbcDecode | .gbcEncHex | .gbcEncBdf | .gbcReserved | .ssrReassemble => true
  | .lzHdr _ _ | .lzCtrl _ | .lit _ | .copy _ _ | .tileByte _ _ | .palEntry _ _ _ _ => true
  | .glyHdr _ _ _ _ _ | .glyRow8 _ _ | .glyRow16 _ _ => true
  | .bdfEncoding _ | .bdfBitmap | .bdfEndchar | .bdfOther => true

end Sys2Proof
end

