-- ==== Sys2Proof/Decode.lean ====
section
/-!
DEFINITION. Byte order (R42), text scanning (R80 to R84), the decoder and the encoder.
A token's class is chosen by its place, not by its own bits (R63 to R66, R82), so the decoder takes the place as a
context beside the bytes. It is total, and a rejection has a name.
-/

namespace Sys2Proof

/-! ## Byte order (R6, R42) -/

/-- LE16 of two bytes, lowest address first (R6). -/
def le16 (b0 b1 : Byte) : BitVec 16 := b1 ++ b0

/-- BE16 of two bytes, lowest address first (R6). -/
def be16 (b0 b1 : Byte) : BitVec 16 := b0 ++ b1

/-- LE32 of four bytes, lowest address first (R6). -/
def le32 (b0 b1 b2 b3 : Byte) : BitVec 32 := b3 ++ b2 ++ b1 ++ b0

/-- Byte `k` of a word, byte 0 the least significant. -/
def byteOf (k : Nat) {n : Nat} (x : BitVec n) : Byte := x.extractLsb' (8 * k) 8

/-! ## Characters (R80: bytes are compared as ASCII) -/

/-- Space or tab (R80). -/
def isBlank (b : Byte) : Bool := b == 0x20 || b == 0x09

/-- The colon of a hex-row line (R81). -/
abbrev colon : Byte := 0x3A

/-- The double quote around a charset name (R82). -/
abbrev quote : Byte := 0x22

/-- The value of a hex digit of either case (R80). -/
def hexDigit? (b : Byte) : Option Nibble :=
  if 0x30 ≤ b ∧ b ≤ 0x39 then some ((b - 0x30).setWidth 4)
  else if 0x41 ≤ b ∧ b ≤ 0x46 then some ((b - 0x37).setWidth 4)
  else if 0x61 ≤ b ∧ b ≤ 0x66 then some ((b - 0x57).setWidth 4)
  else none

/-- The values of a line of hex digits, or `none` if some byte is not one. -/
def hexDigits? : List Byte → Option (List Nibble)
  | [] => some []
  | b :: bs =>
    match hexDigit? b, hexDigits? bs with
    | some d, some ds => some (d :: ds)
    | _, _ => none

/-- The number the digits spell, first digit most significant (R81, R84). -/
def hexValue (ds : List Nibble) : Nat := ds.foldl (fun v d => 16 * v + d.toNat) 0

/-- Payload byte j is the value of digits 2j and 2j+1, first digit most significant (R81). -/
def pairDigits : List Nibble → List Byte
  | h :: l :: rest => (h ++ l) :: pairDigits rest
  | _ => []

/-- The value of a decimal digit (R82). -/
def decDigit? (b : Byte) : Option Nat :=
  if 0x30 ≤ b ∧ b ≤ 0x39 then some (b - 0x30).toNat else none

/-- The number a string of decimal digits spells, starting from `acc`, or `none` if some byte is not a digit. -/
def decValue? (acc : Nat) : List Byte → Option Nat
  | [] => some acc
  | b :: bs =>
    match decDigit? b with
    | some d => decValue? (10 * acc + d) bs
    | none => none

/-! ## Lines (R80, R82) -/

/-- Leading blanks removed. -/
def trimStart (l : List Byte) : List Byte := l.dropWhile isBlank

/-- Trailing blanks removed. -/
def trimEnd (l : List Byte) : List Byte := (l.reverse.dropWhile isBlank).reverse

/-- Leading and trailing blanks removed. -/
def trim (l : List Byte) : List Byte := trimEnd (trimStart l)

/-- One trailing carriage return removed, if present (R80). -/
def dropReturn (l : List Byte) : List Byte := if l.getLast? = some 0x0D then l.dropLast else l

/-- The line of a raw line: one trailing carriage return, then all surrounding blanks, removed (R80). -/
def stripLine (raw : List Byte) : List Byte := trim (dropReturn raw)

/-- The bytes up to the first blank (R82). -/
def firstToken (l : List Byte) : List Byte := l.takeWhile fun b => !isBlank b

/-- The bytes from the first blank on. -/
def afterToken (l : List Byte) : List Byte := l.dropWhile fun b => !isBlank b

/-- A leading double quote removed, if present (R82). -/
def dropLeadQuote : List Byte → List Byte
  | b :: bs => if b = quote then bs else b :: bs
  | [] => []

/-- One leading and one trailing double quote removed, each if present (R82). DESIGN CHOICE for a name with only one of
the two: each is removed by itself, where D48 speaks of one pair (log entry 26). -/
def unquote (l : List Byte) : List Byte :=
  let l' := dropLeadQuote l
  if l'.getLast? = some quote then l'.dropLast else l'

/-- `CHARSET_REGISTRY` -/
def kwCharset : List Byte :=
  [0x43, 0x48, 0x41, 0x52, 0x53, 0x45, 0x54, 0x5F, 0x52, 0x45, 0x47, 0x49, 0x53, 0x54, 0x52, 0x59]

/-- `ENCODING` -/
def kwEncoding : List Byte := [0x45, 0x4E, 0x43, 0x4F, 0x44, 0x49, 0x4E, 0x47]

/-- `BITMAP` -/
def kwBitmap : List Byte := [0x42, 0x49, 0x54, 0x4D, 0x41, 0x50]

/-- `ENDCHAR` -/
def kwEndchar : List Byte := [0x45, 0x4E, 0x44, 0x43, 0x48, 0x41, 0x52]

/-! ## The decoder -/

/-- Where the unit stands when it fetches, which fixes the class of the bytes it reads. -/
inductive Place where
  /-- The host's command code, in the low four bits of one byte (R60). -/
  | command
  /-- Offset 0 of a compressed block (R62). -/
  | lzHeader
  /-- A control byte: BITS_LEFT = 0 (R63). -/
  | lzControl
  /-- A token whose control flag is `flag` (R64, R65). -/
  | lzToken (flag : Bool)
  /-- A byte of TILES (R70). -/
  | tile
  /-- An entry of PAL (R72). -/
  | palette
  /-- The first eight bytes of a glyph table (R75). -/
  | glyphHeader
  /-- Row `r` of a halfwidth record (R76). -/
  | glyphRow8 (r : Fin 16)
  /-- Row `r` of a fullwidth record (R77). -/
  | glyphRow16 (r : Fin 16)
  /-- A raw line of hex-row text (R81). -/
  | hexText
  /-- A raw line of structured text, met in parser state `st` (R82). -/
  | bdfText (st : PState)
  /-- A sector of the save image (R90). -/
  | sector
  deriving DecidableEq, Repr

/-- Why bytes are no instruction of a place. -/
inductive Reject where
  /-- The number of bytes is not that of the format. -/
  | wrongLength
  /-- A command code above 0b1111 (R60). -/
  | noCommandCode
  /-- The LZ77 tag nibble is not 1 (R62, R67). -/
  | badTag
  /-- The raw line holds a line feed, so it is not one line (R80). -/
  | notOneLine
  /-- The line is empty after stripping, and is ignored (R80). -/
  | emptyLine
  /-- A hex-row line that is not of the accepted form (R81, R159). -/
  | unrecognisedLine
  deriving DecidableEq, Repr

/-- The command a 4-bit code `{unit, mode}` names (R60): all sixteen codes are assigned. -/
def decodeCommand (code : BitVec 4) : Instr :=
  let unit := code.extractLsb' 2 2
  let mode := code.extractLsb' 0 2
  if unit = 0 then .lzdDecompress
  else if unit = 1 then .tiuUnpack
  else if unit = 3 then .ssrReassemble
  else if mode = 0 then .gbcDecode
  else if mode = 1 then .gbcEncHex
  else if mode = 2 then .gbcEncBdf
  else .gbcReserved

/-- The header word (R62): the tag at LZ_TAG_SHIFT must be 1; the other nibble of the low byte is not examined. -/
def decodeLzHdr (w : BitVec 32) : Except Reject Instr :=
  if w.extractLsb' Config.lzTagShift 4 = 1 then
    .ok (.lzHdr (w.extractLsb' 8 24) (w.extractLsb' (4 - Config.lzTagShift) 4))
  else .error .badTag

/-- The back-reference token as its 16-bit value (R65). -/
def decodeCopy (w : BitVec 16) : Instr := .copy (w.extractLsb' 12 4) (w.extractLsb' 0 12)

/-- The palette entry word (R72). -/
def decodePalEntry (c : BitVec 16) : Instr :=
  .palEntry (c.extractLsb' 15 1) (c.extractLsb' 10 5) (c.extractLsb' 5 5) (c.extractLsb' 0 5)

/-- A stripped hex-row line `C:P` (R81). -/
def decodeHexLine (line : List Byte) : Except Reject Instr :=
  match line.dropWhile (fun b => b != colon) with
  | [] => .error .unrecognisedLine
  | _ :: p =>
    match hexDigits? (line.takeWhile fun b => b != colon), hexDigits? p with
    | some cs, some ps =>
      if 1 ≤ cs.length ∧ cs.length ≤ 8 ∧ (ps.length = 32 ∨ ps.length = 64) then
        .ok (.hexLine (BitVec.ofNat 32 (hexValue cs)) (pairDigits ps))
      else .error .unrecognisedLine
    | _, _ => .error .unrecognisedLine

/-- The operand of an ENCODING line: its second token as a decimal code below 2^32, else `none` (R82, R167). -/
def decodeCode (rest : List Byte) : Option (BitVec 32) :=
  let tok := firstToken (trimStart rest)
  if tok.isEmpty then none
  else
    match decValue? 0 tok with
    | some n => if n < 2 ^ 32 then some (BitVec.ofNat 32 n) else none
    | none => none

/-- A stripped, non-empty structured-text line, classified by its first token and the parser state (R82). -/
def decodeBdfLine (st : PState) (line : List Byte) : Instr :=
  match st with
  | .scanning =>
    if firstToken line = kwCharset then .bdfCharset (unquote (trim (afterToken line)))
    else if firstToken line = kwEncoding then .bdfEncoding (decodeCode (afterToken line))
    else if firstToken line = kwBitmap then .bdfBitmap
    else .bdfOther
  | .inBitmap =>
    if firstToken line = kwEndchar then .bdfEndchar else .bdfRow (hexDigits? line)

/-- The fields of a sector's trailer, from the last twelve bytes of the sector (R90). -/
def decodeTrailer (data : List Byte) : List Byte → Except Reject Instr
  | [i0, i1, u0, u1, u2, u3, u4, u5, c0, c1, c2, c3] =>
    .ok (.secTrailer data (le16 i0 i1) (u5 ++ u4 ++ u3 ++ u2 ++ u1 ++ u0) (le32 c0 c1 c2 c3))
  | _ => .error .wrongLength

/-- A text line: one line, stripped, not empty (R80). -/
def decodeText (raw : List Byte) (k : List Byte → Except Reject Instr) : Except Reject Instr :=
  if raw.contains lineFeed then .error .notOneLine
  else if (stripLine raw).isEmpty then .error .emptyLine
  else k (stripLine raw)

/-- The instruction that bytes are at a place, or why they are none. -/
def decode : Place → List Byte → Except Reject Instr
  | .command, [b] =>
    if b.extractLsb' 4 4 = 0 then .ok (decodeCommand (b.extractLsb' 0 4)) else .error .noCommandCode
  | .lzHeader, [b0, b1, b2, b3] => decodeLzHdr (le32 b0 b1 b2 b3)
  | .lzControl, [b] => .ok (.lzCtrl b)
  | .lzToken false, [b] => .ok (.lit b)
  | .lzToken true, [b1, b2] => .ok (decodeCopy (be16 b1 b2))
  | .tile, [b] => .ok (.tileByte (b.extractLsb' 4 4) (b.extractLsb' 0 4))
  | .palette, [b0, b1] => .ok (decodePalEntry (le16 b0 b1))
  | .glyphHeader, [s0, s1, c0, c1, w, r, x0, x1] => .ok (.glyHdr (le16 s0 s1) (le16 c0 c1) w r (le16 x0 x1))
  | .glyphRow8 r, [b] => .ok (.glyRow8 r b)
  | .glyphRow16 r, [b0, b1] => .ok (.glyRow16 r (le16 b0 b1))
  | .hexText, raw => decodeText raw decodeHexLine
  | .bdfText st, raw => decodeText raw fun line => .ok (decodeBdfLine st line)
  | .sector, bytes => decodeTrailer (bytes.take Config.trailerIndexOff) (bytes.drop Config.trailerIndexOff)
  | _, _ => .error .wrongLength

/-! ## The encoder -/

/-- The place at which an instruction's bytes decode to it. -/
def Instr.place : Instr → Place
  | .lzdDecompress | .tiuUnpack | .gbcDecode | .gbcEncHex | .gbcEncBdf | .gbcReserved | .ssrReassemble => .command
  | .lzHdr _ _ => .lzHeader
  | .lzCtrl _ => .lzControl
  | .lit _ => .lzToken false
  | .copy _ _ => .lzToken true
  | .tileByte _ _ => .tile
  | .palEntry _ _ _ _ => .palette
  | .glyHdr _ _ _ _ _ => .glyphHeader
  | .glyRow8 r _ => .glyphRow8 r
  | .glyRow16 r _ => .glyphRow16 r
  | .hexLine _ _ => .hexText
  | .bdfCharset _ | .bdfEncoding _ | .bdfBitmap | .bdfOther => .bdfText .scanning
  | .bdfEndchar | .bdfRow _ => .bdfText .inBitmap
  | .secTrailer _ _ _ _ => .sector

/-- An upper-case hex digit (R80). -/
def hexChar (d : Nibble) : Byte := if d < 10 then 0x30 + d.setWidth 8 else 0x37 + d.setWidth 8

/-- The two hex digits of a byte, first most significant (R81). -/
def hexPair (b : Byte) : List Byte := [hexChar (b.extractLsb' 4 4), hexChar (b.extractLsb' 0 4)]

/-- The decimal digit of `n` with weight `10 ^ k`. -/
def decChar (n k : Nat) : Byte := BitVec.ofNat 8 (0x30 + n / 10 ^ k % 10)

/-- Ten decimal digits, enough for any code below 2^32; leading zeros are digits like any other (R82). -/
def decimal10 (n : Nat) : List Byte :=
  [decChar n 9, decChar n 8, decChar n 7, decChar n 6, decChar n 5, decChar n 4, decChar n 3, decChar n 2,
    decChar n 1, decChar n 0]

/-- The header word (R62), tag 1 at LZ_TAG_SHIFT. -/
def encodeLzHdr (size : BitVec 24) (ignored : Nibble) : BitVec 32 :=
  if Config.lzTagShift = 0 then size ++ ignored ++ (1 : Nibble) else size ++ (1 : Nibble) ++ ignored

/-- The bytes of an instruction as the hardware stores them, lowest address first; a text line without its line feed. -/
def encode : Instr → List Byte
  | .lzdDecompress => [0x00]
  | .tiuUnpack => [0x04]
  | .gbcDecode => [0x08]
  | .gbcEncHex => [0x09]
  | .gbcEncBdf => [0x0A]
  | .gbcReserved => [0x0B]
  | .ssrReassemble => [0x0C]
  | .lzHdr size ignored =>
    let w := encodeLzHdr size ignored
    [byteOf 0 w, byteOf 1 w, byteOf 2 w, byteOf 3 w]
  | .lzCtrl flags => [flags]
  | .lit d => [d]
  | .copy l d => let w : BitVec 16 := l ++ d; [byteOf 1 w, byteOf 0 w]
  | .tileByte h l => [h ++ l]
  | .palEntry x b g r => let c : BitVec 16 := x ++ b ++ g ++ r; [byteOf 0 c, byteOf 1 c]
  | .glyHdr start count width rows reserved =>
    [byteOf 0 start, byteOf 1 start, byteOf 0 count, byteOf 1 count, width, rows, byteOf 0 reserved, byteOf 1 reserved]
  | .glyRow8 _ p => [p]
  | .glyRow16 _ p => [byteOf 0 p, byteOf 1 p]
  | .hexLine cp payload =>
    hexPair (byteOf 3 cp) ++ hexPair (byteOf 2 cp) ++ hexPair (byteOf 1 cp) ++ hexPair (byteOf 0 cp) ++
      colon :: payload.flatMap hexPair
  | .bdfCharset name => kwCharset ++ 0x20 :: quote :: (name ++ [quote])
  | .bdfEncoding (some n) => kwEncoding ++ 0x20 :: decimal10 n.toNat
  | .bdfEncoding none => kwEncoding ++ [0x20, 0x2D, 0x31]
  | .bdfBitmap => kwBitmap
  | .bdfEndchar => kwEndchar
  | .bdfRow (some digits) => digits.map hexChar
  | .bdfRow none => [0x2D]
  | .bdfOther => [0x45, 0x4E, 0x44, 0x46, 0x4F, 0x4E, 0x54]
  | .secTrailer data index undescribed counter =>
    data ++ [byteOf 0 index, byteOf 1 index, byteOf 0 undescribed, byteOf 1 undescribed, byteOf 2 undescribed,
      byteOf 3 undescribed, byteOf 4 undescribed, byteOf 5 undescribed, byteOf 0 counter, byteOf 1 counter,
      byteOf 2 counter, byteOf 3 counter]

/-! ## The opcode table's words -/

/-- The place at which a word of the opcode table is read when only its width is known (log entry 6): the first row
of the table, in its order, whose width and fixed bits the word has. -/
def tablePlace (nbits w : Nat) : Option Place :=
  if nbits ≤ 8 then
    if w < 16 then some .command else if nbits = 8 ∧ w < 256 then some .lzControl else none
  else if nbits = 16 then some (.lzToken true)
  else if nbits = 32 then some .lzHeader
  else if nbits = 64 then some .glyphHeader
  else if nbits = 32768 then some .sector
  else none

/-- `n` bytes of a number, least significant first. -/
def littleEndian : Nat → Nat → List Byte
  | 0, _ => []
  | n + 1, w => BitVec.ofNat 8 w :: littleEndian n (w / 256)

/-- The bytes of a table word as the hardware stores them: the back-reference token is big-endian, every other
multi-byte row little-endian (R42). -/
def tableBytes (nbits w : Nat) : List Byte :=
  let bytes := littleEndian ((nbits + 7) / 8) w
  if nbits = 16 then bytes.reverse else bytes

/-- The instruction the decoder reads from a word of the opcode table. -/
def decodeTableWord (nbits w : Nat) : Option Instr :=
  match tablePlace nbits w with
  | some p => (decode p (tableBytes nbits w)).toOption
  | none => none

end Sys2Proof
end

