-- ==== Sys2Proof/Machine/State.lean ====
section
/-!
DEFINITION. The state of PBX-CORE (R10): four units, each with its status triple (R13), parameter registers (R18),
working and result registers (R14 to R18) and private buffers (R40); beside them the host's pending actions and the
order in which the agents move, which are the model's own (log entries 7, 8). Reset values: R20, R250.
-/

namespace Sys2Proof.Machine

/-- One private byte buffer (R40): address and byte pairs, addresses strictly rising. An unlisted address holds no
value (R21). -/
abbrev Memory := List Host.Cell

/-- The four units by their identifiers 0 to 3 (R232). -/
inductive UnitId where
  | lzd
  | tiu
  | gbc
  | ssr
  deriving DecidableEq, Repr

/-! ## Status registers (R13, R220, R221) -/

/-- U.STATUS. -/
inductive Status where
  /-- 0: reset, nothing run yet. -/
  | idle
  /-- 1: an operation is running. -/
  | busy
  /-- 2: the last operation ended without a fatal error. -/
  | done
  /-- 3: the last operation ended with a fatal error. -/
  | error
  deriving DecidableEq, Repr

/-- U.ERRCLASS. -/
inductive ErrClass where
  /-- 0 -/
  | none
  /-- 1: FormatError. -/
  | format
  /-- 2: RangeError. -/
  | range
  /-- 3: SkippableRecordError, never stored (R223). -/
  | skippable
  /-- 4: PlatformAssumptionError, never raised (R222). -/
  | platform
  deriving DecidableEq, Repr

/-- U.ERRCAUSE: 0, or one of the sixteen causes of R221. -/
inductive Cause where
  | none
  | lzShortHeader
  | lzBadTag
  | lzBackrefRange
  | tiuNoTiles
  | tiuPartialTile
  | tiuBadPaletteLen
  | glyMinGtMax
  | glyMaxTooBig
  | glyWidthTooBig
  | glyBadCharset
  | glyCountOverflow
  | glyBadMode
  | glyTableTruncated
  | glyBadRows
  | glyOldTruncated
  | ssrShortImage
  deriving DecidableEq, Repr

/-- The three status registers of a unit (R13). -/
structure Shell where
  status : Status
  errClass : ErrClass
  errCause : Cause
  deriving DecidableEq, Repr

/-! ## The units -/

/-- LZD.PHASE (R14). -/
inductive LzdPhase where
  | hdr
  | token
  | copy
  deriving DecidableEq, Repr

/-- LZD: registers of R13, R14, R18; buffers IN and OUT of R40. -/
structure Lzd where
  shell : Shell
  inLen : Nat
  size : BitVec 24
  inPos : Nat
  outPos : BitVec 24
  ctrl : BitVec 8
  bitsLeft : BitVec 4
  copyLeft : BitVec 5
  copyDisp : BitVec 12
  phase : LzdPhase
  inBuf : Memory
  outBuf : Memory
  deriving DecidableEq, Repr

/-- TIU.PHASE (R15). -/
inductive TiuPhase where
  | check
  | tiles
  | palette
  deriving DecidableEq, Repr

/-- TIU: registers of R13, R15, R18; buffers TILES, PAL, RASTER, PALRGBA of R40. -/
structure Tiu where
  shell : Shell
  tilesLen : Nat
  palLen : Nat
  count : Nat
  wT : BitVec 4
  hT : Nat
  k : Nat
  pi : BitVec 5
  phase : TiuPhase
  tiles : Memory
  pal : Memory
  raster : Memory
  palRgba : Memory
  deriving DecidableEq, Repr

/-- GBC.PHASE (R16). -/
inductive GbcPhase where
  | check
  | merge
  | parse
  | decode
  deriving DecidableEq, Repr

/-- GBC.CHARSET (R16). -/
inductive Charset where
  | none
  | iso10646
  | jisx0208
  | unknown
  deriving DecidableEq, Repr

/-- GBC: registers of R13, R16, R18; buffers SRC, OLD, TBL, PIX of R40. -/
structure Gbc where
  shell : Shell
  mode : BitVec 2
  cpMin : BitVec 32
  cpMax : BitVec 32
  width : BitVec 32
  srcLen : Nat
  oldLen : Nat
  count : BitVec 17
  recSize : BitVec 6
  srcPos : Nat
  g : BitVec 17
  pstate : PState
  charset : Charset
  curCp : BitVec 16
  rowIdx : BitVec 5
  hdrStart : BitVec 16
  hdrCount : BitVec 16
  hdrWidth : BitVec 8
  hdrRows : BitVec 8
  tblLen : Nat
  pixLen : Nat
  phase : GbcPhase
  src : Memory
  old : Memory
  tbl : Memory
  pix : Memory
  deriving DecidableEq, Repr

/-- SSR.PHASE (R17). -/
inductive SsrPhase where
  | check
  | gather
  | emit
  deriving DecidableEq, Repr

/-- SSR: registers of R13, R17, R18; buffers RAW, SLOTA, SLOTB, OUTIMG of R40. -/
structure Ssr where
  shell : Shell
  rawLen : Nat
  p : BitVec 5
  cntA : BitVec 32
  cntB : BitVec 32
  first : BitVec 1
  outLen : Nat
  phase : SsrPhase
  raw : Memory
  slotA : Memory
  slotB : Memory
  outImg : Memory
  deriving DecidableEq, Repr

/-! ## The host (R18, R19, R45, R60, R250, R252, R253) -/

/-- The fourteen buffers (R40). -/
inductive BufName where
  | lzdIn | lzdOut
  | tiuTiles | tiuPal | tiuRaster | tiuPalRgba
  | gbcSrc | gbcOld | gbcTbl | gbcPix
  | ssrRaw | ssrSlotA | ssrSlotB | ssrOutImg
  deriving DecidableEq, Repr

/-- The buffers the host writes (R40). -/
inductive InBuf where
  | lzdIn | tiuTiles | tiuPal | gbcSrc | gbcOld | ssrRaw
  deriving DecidableEq, Repr

/-- A host write of one of the registers numbered 0 to 13, with a value of the register's width (R18). -/
inductive RegWrite where
  | lzdInLen (v : Nat)
  | lzdStart (v : BitVec 1)
  | tiuTilesLen (v : Nat)
  | tiuPalLen (v : Nat)
  | tiuStart (v : BitVec 1)
  | gbcMode (v : BitVec 2)
  | gbcCpMin (v : BitVec 32)
  | gbcCpMax (v : BitVec 32)
  | gbcWidth (v : BitVec 32)
  | gbcSrcLen (v : Nat)
  | gbcOldLen (v : Nat)
  | gbcStart (v : BitVec 1)
  | ssrRawLen (v : Nat)
  | ssrStart (v : BitVec 1)
  deriving DecidableEq, Repr

/-- The registers of one unit that the host reads beside its status triple, and the triple (R13 to R18). START is
write-only. -/
inductive RegName where
  | status (u : UnitId) | errClass (u : UnitId) | errCause (u : UnitId)
  | lzdInLen | lzdSize | lzdInPos | lzdOutPos | lzdCtrl | lzdBitsLeft | lzdCopyLeft | lzdCopyDisp | lzdPhase
  | tiuTilesLen | tiuPalLen | tiuCount | tiuWT | tiuHT | tiuK | tiuPi | tiuPhase
  | gbcMode | gbcCpMin | gbcCpMax | gbcWidth | gbcSrcLen | gbcOldLen | gbcCount | gbcRecSize | gbcSrcPos | gbcG
  | gbcPstate | gbcCharset | gbcCurCp | gbcRowIdx | gbcHdrStart | gbcHdrCount | gbcHdrWidth | gbcHdrRows
  | gbcTblLen | gbcPixLen | gbcPhase
  | ssrRawLen | ssrP | ssrCntA | ssrCntB | ssrFirst | ssrOutLen | ssrPhase
  deriving DecidableEq, Repr

/-- What a host read returns: a number, a value of a register whose values the spec names but does not number, or
the bytes of a buffer. -/
inductive HostValue where
  | num (n : Nat)
  | lzdPhase (p : LzdPhase)
  | tiuPhase (p : TiuPhase)
  | gbcPhase (p : GbcPhase)
  | ssrPhase (p : SsrPhase)
  | pstate (p : PState)
  | charset (c : Charset)
  | bytes (bs : List Byte)
  deriving DecidableEq, Repr

/-- One action of the host or the platform. -/
inductive HostAction where
  /-- Write a register of R18; writing 1 to a START register issues a command (R60). -/
  | write (w : RegWrite)
  /-- Load bytes into an input buffer (R252). -/
  | writeBuf (b : InBuf) (a : Nat) (bytes : List Byte)
  /-- Copy `n` bytes of a buffer into an input buffer (R45, R54). -/
  | copyBuf (src : BufName) (srcAt n : Nat) (dst : InBuf) (dstAt : Nat)
  /-- Read a register (R13, R18, R19). -/
  | readReg (r : RegName)
  /-- Read `n` bytes of a buffer (R19, R253). -/
  | readBuf (b : BufName) (a n : Nat)
  /-- Poll U.STATUS until it is DONE or ERROR (R253). -/
  | await (u : UnitId)
  /-- Assert the block's reset input (R250). -/
  | reset
  deriving DecidableEq, Repr

/-- The agents: the host, and the four units, each a sequential agent (R9, R52). -/
inductive Agent where
  | host
  | unit (u : UnitId)
  deriving DecidableEq, Repr

/-! ## The machine -/

/-- The state of the block (R10). `host`, `sched` and `hostLog` are the model's own: the actions the host has still
to make, oldest first; the agents that move next, in order; and what the host has read, newest first. -/
structure State where
  lzd : Lzd
  tiu : Tiu
  gbc : Gbc
  ssr : Ssr
  host : List HostAction
  sched : List Agent
  hostLog : List HostValue
  deriving DecidableEq, Repr

/-- Why the machine stops. -/
inductive Fault where
  /-- A read of a buffer byte that nothing has written, by a unit or by the host (R21, U9). Safe: the spec gives such
  a byte no value and puts the run outside its rules. -/
  | unwrittenByte (b : BufName) (a : Nat)
  /-- A dictionary read below address 0 of OUT, by LZD's copy step (R6, R108). Safe: only a state that no run reaches
  asks for it, since R106 checks the displacement at decode. -/
  | belowBuffer (b : BufName)
  deriving DecidableEq, Repr

/-- Why an action has no meaning. -/
inductive Refusal where
  /-- An instruction the model gives no meaning to yet. Raised by an arm of `exec` only. Safe. -/
  | notModelled (mnemonic : String)
  /-- A host access to a running unit other than a read of STATUS or a START pulse. Raised by the host's actions.
  Safe in the model; the spec itself gives such an action no move (R19, R259, U8). -/
  | hostAccessWhileBusy (u : UnitId)
  deriving DecidableEq, Repr

/-! ## Reset values (R20, R250) -/

/-- STATUS = IDLE, ERRCLASS = 0, ERRCAUSE = 0. -/
def Shell.reset : Shell := { status := .idle, errClass := .none, errCause := .none }

/-- LZD after reset. -/
def Lzd.reset : Lzd :=
  { shell := Shell.reset, inLen := 0, size := 0, inPos := 0, outPos := 0, ctrl := 0, bitsLeft := 0, copyLeft := 0,
    copyDisp := 0, phase := .hdr, inBuf := [], outBuf := [] }

/-- TIU after reset. -/
def Tiu.reset : Tiu :=
  { shell := Shell.reset, tilesLen := 0, palLen := 0, count := 0, wT := 0, hT := 0, k := 0, pi := 0, phase := .check,
    tiles := [], pal := [], raster := [], palRgba := [] }

/-- GBC after reset. -/
def Gbc.reset : Gbc :=
  { shell := Shell.reset, mode := 0, cpMin := 0, cpMax := 0, width := 0, srcLen := 0, oldLen := 0, count := 0,
    recSize := 0, srcPos := 0, g := 0, pstate := .scanning, charset := .none, curCp := 0, rowIdx := 0, hdrStart := 0,
    hdrCount := 0, hdrWidth := 0, hdrRows := 0, tblLen := 0, pixLen := 0, phase := .check, src := [], old := [],
    tbl := [], pix := [] }

/-- SSR after reset. -/
def Ssr.reset : Ssr :=
  { shell := Shell.reset, rawLen := 0, p := 0, cntA := 0, cntB := 0, first := 0, outLen := 0, phase := .check,
    raw := [], slotA := [], slotB := [], outImg := [] }

/-- The machine right after reset: no unit does anything, and no byte of any buffer has a value (R20, R250). -/
def State.reset : State :=
  { lzd := Lzd.reset, tiu := Tiu.reset, gbc := Gbc.reset, ssr := Ssr.reset, host := [], sched := [], hostLog := [] }

end Sys2Proof.Machine
end

