-- ==== Sys2Proof/Machine/Ops.lean ====
section
/-!
DEFINITION. The operations all families share: buffer reads and writes (R6, R49), access to a unit and to a buffer by
name, error entry (R224), the end of an operation (R254), START (R61) and reset (R250).
-/

namespace Sys2Proof.Machine

/-- The outcome of a step or of a part of one. -/
abbrev Result := Host.Outcome State Fault Refusal

/-! ## Buffers (R6, R40, R49) -/

/-- The byte at an address, or `none` where nothing has been written (R21). -/
def Memory.read : Memory → Nat → Option Byte
  | [], _ => none
  | (k, v) :: rest, a => if k = a then some v else Memory.read rest a

/-- The cells of consecutive bytes. -/
def Memory.cells (a : Nat) (bytes : List Byte) : Memory := (bytes.zipIdx a).map fun c => (c.2, c.1)

/-- MemWrite (R6): consecutive bytes stored from an address on. -/
def Memory.store (m : Memory) (a : Nat) (bytes : List Byte) : Memory :=
  m.filter (fun c => c.1 < a) ++ Memory.cells a bytes ++ m.filter (fun c => a + bytes.length ≤ c.1)

/-- MemRead (R6): `n` consecutive bytes from an address on, or the first address that holds no value. One pass over
the rising cells. -/
def Memory.load : Memory → Nat → Nat → Except Nat (List Byte)
  | _, _, 0 => .ok []
  | [], a, _ + 1 => .error a
  | (k, v) :: rest, a, n + 1 =>
    if k < a then Memory.load rest a (n + 1)
    else if k = a then
      match Memory.load rest (a + 1) n with
      | .ok vs => .ok (v :: vs)
      | .error e => .error e
    else .error a

/-- The raw line from an address on, at most `n` bytes long: the bytes before the first line feed, or all `n` if
there is none (R155); or the first address that holds no value. -/
def Memory.lineAt : Memory → Nat → Nat → Except Nat (List Byte)
  | _, _, 0 => .ok []
  | [], a, _ + 1 => .error a
  | (k, v) :: rest, a, n + 1 =>
    if k < a then Memory.lineAt rest a (n + 1)
    else if k = a then
      if v = lineFeed then .ok []
      else
        match Memory.lineAt rest (a + 1) n with
        | .ok vs => .ok (v :: vs)
        | .error e => .error e
    else .error a

/-- `n` zero bytes stored from an address on. -/
def Memory.zero (m : Memory) (a n : Nat) : Memory := m.store a (List.replicate n 0)

/-- The canonical form: addresses strictly rising. (An unlisted address holds no value, so no entry repeats what it
reads as.) -/
abbrev Memory.wf (m : Memory) : Prop := m.Pairwise (fun x y => x.1 < y.1)

/-- Go on with the bytes read from a buffer, or stop at the address that holds no value (R21). -/
def withBytes (b : BufName) {α : Type} (r : Except Nat α) (k : α → Result) : Result :=
  match r with
  | .ok x => k x
  | .error a => .fault (.unwrittenByte b a)

/-- Go on from the next state of an outcome. -/
def andThen (o : Result) (k : State → Result) : Result :=
  match o with
  | .next s => k s
  | .fault f => .fault f
  | .refused r => .refused r

/-! ## Units and buffers by name -/

/-- Replace LZD. -/
def State.setLzd (s : State) (u : Lzd) : State := { s with lzd := u }

/-- Replace TIU. -/
def State.setTiu (s : State) (u : Tiu) : State := { s with tiu := u }

/-- Replace GBC. -/
def State.setGbc (s : State) (u : Gbc) : State := { s with gbc := u }

/-- Replace SSR. -/
def State.setSsr (s : State) (u : Ssr) : State := { s with ssr := u }

/-- The status triple of a unit (R13). -/
def State.shell (s : State) : UnitId → Shell
  | .lzd => s.lzd.shell
  | .tiu => s.tiu.shell
  | .gbc => s.gbc.shell
  | .ssr => s.ssr.shell

/-- Replace the status triple of a unit. -/
def State.setShell (s : State) (x : Shell) : UnitId → State
  | .lzd => s.setLzd { s.lzd with shell := x }
  | .tiu => s.setTiu { s.tiu with shell := x }
  | .gbc => s.setGbc { s.gbc with shell := x }
  | .ssr => s.setSsr { s.ssr with shell := x }

/-- The unit is running: STATUS = BUSY (R13). -/
abbrev State.busy (s : State) (u : UnitId) : Prop := (s.shell u).status = .busy

/-- A buffer by name (R40). -/
def State.buf (s : State) : BufName → Memory
  | .lzdIn => s.lzd.inBuf
  | .lzdOut => s.lzd.outBuf
  | .tiuTiles => s.tiu.tiles
  | .tiuPal => s.tiu.pal
  | .tiuRaster => s.tiu.raster
  | .tiuPalRgba => s.tiu.palRgba
  | .gbcSrc => s.gbc.src
  | .gbcOld => s.gbc.old
  | .gbcTbl => s.gbc.tbl
  | .gbcPix => s.gbc.pix
  | .ssrRaw => s.ssr.raw
  | .ssrSlotA => s.ssr.slotA
  | .ssrSlotB => s.ssr.slotB
  | .ssrOutImg => s.ssr.outImg

/-- The unit that owns a buffer (R40). -/
def BufName.unit : BufName → UnitId
  | .lzdIn | .lzdOut => .lzd
  | .tiuTiles | .tiuPal | .tiuRaster | .tiuPalRgba => .tiu
  | .gbcSrc | .gbcOld | .gbcTbl | .gbcPix => .gbc
  | .ssrRaw | .ssrSlotA | .ssrSlotB | .ssrOutImg => .ssr

/-- An input buffer as a buffer. -/
def InBuf.name : InBuf → BufName
  | .lzdIn => .lzdIn
  | .tiuTiles => .tiuTiles
  | .tiuPal => .tiuPal
  | .gbcSrc => .gbcSrc
  | .gbcOld => .gbcOld
  | .ssrRaw => .ssrRaw

/-- Bytes stored into an input buffer. -/
def State.storeIn (s : State) (b : InBuf) (a : Nat) (bytes : List Byte) : State :=
  match b with
  | .lzdIn => s.setLzd { s.lzd with inBuf := s.lzd.inBuf.store a bytes }
  | .tiuTiles => s.setTiu { s.tiu with tiles := s.tiu.tiles.store a bytes }
  | .tiuPal => s.setTiu { s.tiu with pal := s.tiu.pal.store a bytes }
  | .gbcSrc => s.setGbc { s.gbc with src := s.gbc.src.store a bytes }
  | .gbcOld => s.setGbc { s.gbc with old := s.gbc.old.store a bytes }
  | .ssrRaw => s.setSsr { s.ssr with raw := s.ssr.raw.store a bytes }

/-! ## Error entry and the end of an operation -/

/-- The class of a cause (R221). -/
def Cause.errClass : Cause → ErrClass
  | .none => .none
  | .lzShortHeader | .lzBadTag | .lzBackrefRange => .format
  | .tiuNoTiles | .tiuPartialTile | .tiuBadPaletteLen => .format
  | .glyMinGtMax | .glyMaxTooBig | .glyWidthTooBig | .glyCountOverflow => .range
  | .glyBadCharset | .glyBadMode | .glyTableTruncated | .glyBadRows | .glyOldTruncated => .format
  | .ssrShortImage => .format

/-- `raise <Class>(cause)` (R224): the unit's triple is written and nothing else changes. There is no handler, no
saved state and no return (R226). -/
def State.raise (s : State) (u : UnitId) (c : Cause) : State :=
  s.setShell { status := .error, errClass := c.errClass, errCause := c } u

/-- `STATUS <- DONE`. -/
def State.finish (s : State) (u : UnitId) : State := s.setShell { s.shell u with status := .done } u

/-! ## START and reset -/

/-- STATUS <- BUSY, ERRCLASS <- 0, ERRCAUSE <- 0 (R61). -/
def Shell.started : Shell := { status := .busy, errClass := .none, errCause := .none }

/-- The effect of writing 1 to U.START (R61): while the unit is BUSY none; otherwise the triple is set, every working
and result register takes its reset value, and parameter registers and buffers stay. It is also the only way out of
DONE and ERROR beside reset (R226). -/
def State.start (s : State) (u : UnitId) : State :=
  if (s.shell u).status = .busy then s
  else
    match u with
    | .lzd => s.setLzd { Lzd.reset with
        shell := Shell.started, inLen := s.lzd.inLen, inBuf := s.lzd.inBuf, outBuf := s.lzd.outBuf }
    | .tiu => s.setTiu { Tiu.reset with
        shell := Shell.started, tilesLen := s.tiu.tilesLen, palLen := s.tiu.palLen, tiles := s.tiu.tiles,
        pal := s.tiu.pal, raster := s.tiu.raster, palRgba := s.tiu.palRgba }
    | .gbc => s.setGbc { Gbc.reset with
        shell := Shell.started, mode := s.gbc.mode, cpMin := s.gbc.cpMin, cpMax := s.gbc.cpMax, width := s.gbc.width,
        srcLen := s.gbc.srcLen, oldLen := s.gbc.oldLen, src := s.gbc.src, old := s.gbc.old, tbl := s.gbc.tbl,
        pix := s.gbc.pix }
    | .ssr => s.setSsr { Ssr.reset with
        shell := Shell.started, rawLen := s.ssr.rawLen, raw := s.ssr.raw, slotA := s.ssr.slotA,
        slotB := s.ssr.slotB, outImg := s.ssr.outImg }

/-- GBC's START with the command's mode bits, which are the contents of MODE (R60, log entry 9). -/
def State.startGbc (s : State) (mode : BitVec 2) : State :=
  if s.gbc.shell.status = .busy then s else (s.setGbc { s.gbc with mode := mode }).start .gbc

/-- The block's reset input (R250, R251): all four units at once, running or not. -/
def State.resetUnits (s : State) : State :=
  { s with lzd := Lzd.reset, tiu := Tiu.reset, gbc := Gbc.reset, ssr := Ssr.reset }

end Sys2Proof.Machine
end

