-- ==== Sys2Proof/Machine/Operands.lean ====
section
/-!
DEFINITION. Operand forms: bit reversal (R8), row values and alignment (R84, R172), centering (R157), slot addresses
and row stores (R156), pixels (R178), tile geometry (R131 to R133), palette conversion (R135), back-reference operands
(R65), code point remapping (R168) and charset classes (R83).
-/

namespace Sys2Proof.Machine

/-! ## Bits -/

/-- `rev_8` (R8): bit i of the result is bit 7 - i. -/
def rev8 (x : BitVec 8) : BitVec 8 := x.reverse

/-- `rev_16` (R8). -/
def rev16 (x : BitVec 16) : BitVec 16 := x.reverse

/-- `center(m8)`: a halfwidth row four columns to the right of the left edge of a fullwidth slot (R157). -/
def center (m8 : BitVec 8) : BitVec 16 := m8.setWidth 16 <<< 4

/-- A row of hex digits aligned to the left edge of an `n`-bit row (R172): v << (n - 4 * digits). -/
def leftAligned (n : Nat) (digits : List Nibble) : BitVec n :=
  BitVec.ofNat n (hexValue digits * 2 ^ (n - 4 * digits.length))

/-! ## LZD -/

/-- The copy length of a back-reference: L + 3 (R65). -/
def copyLen (l : Nibble) : BitVec 5 := l.setWidth 5 + BitVec.ofNat 5 Config.lzMinLen

/-! ## TIU -/

/-- `width_tiles(n)` (R131), thresholds from the largest down. -/
def widthTiles (n : Nat) : BitVec 4 := if 64 ≤ n then 8 else if 16 ≤ n then 4 else if 4 ≤ n then 2 else 1

/-- `ceil(x / y)` (R5). -/
def ceilDiv (x y : Nat) : Nat := (x + y - 1) / y

/-- The raster address of the left pixel of tile byte `k`, for a raster `w` tiles wide (R132, R133). -/
def rasterAddr (w k : Nat) : Nat :=
  let t := k / Config.tileBytes
  let r := k % Config.tileBytes / 4
  let b := k % 4
  let x := 8 * (t % w) + 2 * b
  let y := 8 * (t / w) + r
  y * 8 * w + x

/-- `convert(i, c)` (R135, R137): red, green, blue through CHAN_LUT, then alpha, 0 for entry 0 and 255 for the others. -/
def paletteRgba (i : Nat) (r g b : BitVec 5) : List Byte :=
  [Config.chanLut r, Config.chanLut g, Config.chanLut b, if i = 0 then 0 else 255]

/-! ## GBC -/

/-- Record size for a glyph width: 16 up to 8 columns, else 32 (R78). -/
def recSizeOf (width : Nat) : BitVec 6 := if width ≤ 8 then 16 else 32

/-- `slot(cp)` (R156). -/
def Gbc.slot (u : Gbc) (cp : Nat) : Nat := 8 + (cp - u.cpMin.toNat) * u.recSize.toNat

/-- The bytes `put8` stores for a halfwidth row (R156). -/
def rowBytes8 (m8 : BitVec 8) : List Byte := [rev8 m8]

/-- The bytes `put16` stores for a fullwidth row, low byte first (R156). -/
def rowBytes16 (m16 : BitVec 16) : List Byte := [byteOf 0 (rev16 m16), byteOf 1 (rev16 m16)]

/-- Rows stored from row `r` of the slot of `cp` on (R156). -/
def Gbc.putRows (u : Gbc) (cp r : Nat) (rows : List Byte) : Gbc :=
  { u with tbl := u.tbl.store (u.slot cp + r * (u.recSize.toNat / 16)) rows }

/-- The sixteen fullwidth rows of a 32-byte payload: BE16(payload, 2r) (R160). -/
def payloadRows16 : List Byte → List (BitVec 16)
  | b0 :: b1 :: rest => be16 b0 b1 :: payloadRows16 rest
  | _ => []

/-- The record bytes an accepted hex-row line writes, or `none` where the line is skipped for its width (R160). -/
def hexRecord (recSize : BitVec 6) (payload : List Byte) : Option (List Byte) :=
  if payload.length = 16 then
    if recSize = 16 then some (payload.flatMap rowBytes8)
    else some (payload.flatMap fun m8 => rowBytes16 (center m8))
  else if payload.length = 32 ∧ recSize ≠ 16 then some ((payloadRows16 payload).flatMap rowBytes16)
  else none

/-- The bytes a structured-text row writes, or `none` where the row is skipped for its width (R172). -/
def bdfRowBytes (recSize : BitVec 6) (digits : List Nibble) : Option (List Byte) :=
  if digits.length ≤ 2 then
    if recSize = 16 then some (rowBytes8 (leftAligned 8 digits)) else some (rowBytes16 (center (leftAligned 8 digits)))
  else if digits.length ≤ 4 ∧ recSize ≠ 16 then some (rowBytes16 (leftAligned 16 digits))
  else none

/-- The first `n` pixels of a stored row: bit c is column c (R178, R179). -/
def pixels (n : Nat) {m : Nat} (w : BitVec m) : List Byte :=
  (List.range n).map fun c => if w.getLsbD c then 1 else 0

/-- The class of a charset name (R83). -/
def charsetOf (name : List Byte) : Charset :=
  if name = [0x49, 0x53, 0x4F, 0x31, 0x30, 0x36, 0x34, 0x36] then .iso10646
  else if name.take 8 = [0x4A, 0x49, 0x53, 0x58, 0x30, 0x32, 0x30, 0x38] then .jisx0208
  else .unknown

/-- `remap(CHARSET, n)` (R168); 0 means skip. With no usable charset there is no remap: R167 raises before it. -/
def remap (c : Charset) (n : BitVec 32) : BitVec 16 :=
  if 0xFFFF < n.toNat then 0
  else
    match c with
    | .iso10646 => n.setWidth 16
    | .jisx0208 =>
      let hi := byteOf 1 n
      let lo := byteOf 0 n
      if lo < 0x21 ∨ 0x7E < lo then 0
      else if hi < 0x21 ∨ 0x7E < hi then 0
      else
        match Config.jis0208 hi lo with
        | some u => u.val
        | none => 0
    | .none | .unknown => 0

/-- The code point an ENCODING line selects, 0 for "skip" (R167, R169). -/
def selectCp (u : Gbc) (code : Option (BitVec 32)) : BitVec 16 :=
  match code with
  | none => 0
  | some n =>
    let cp := remap u.charset n
    if cp ≠ 0 ∧ u.cpMin.toNat ≤ cp.toNat ∧ cp.toNat ≤ u.cpMax.toNat then cp else 0

/-! ## SSR -/

/-- The bytes of a sector, from its fields (R90). -/
def sectorBytes (data : List Byte) (index : BitVec 16) (undescribed : BitVec 48) (counter : BitVec 32) : List Byte :=
  encode (.secTrailer data index undescribed counter)

end Sys2Proof.Machine
end

