-- ==== Sys2Proof/Machine/Flags.lean ====
section
/-!
DEFINITION. There are no condition codes (R13). What stands in their place: the numbers the host reads from the status
registers (R13, R220, R221), the derived predicate LZD.TRUNCATED (R13) and the save-counter comparison (R206).
-/

namespace Sys2Proof.Machine

/-- The number in U.STATUS (R13). -/
def Status.code : Status → BitVec 2
  | .idle => 0
  | .busy => 1
  | .done => 2
  | .error => 3

/-- The number in U.ERRCLASS (R13, R220). -/
def ErrClass.code : ErrClass → BitVec 3
  | .none => 0
  | .format => 1
  | .range => 2
  | .skippable => 3
  | .platform => 4

/-- The number in U.ERRCAUSE (R221). -/
def Cause.code : Cause → BitVec 8
  | .none => 0
  | .lzShortHeader => 0x10
  | .lzBadTag => 0x11
  | .lzBackrefRange => 0x12
  | .tiuNoTiles => 0x20
  | .tiuPartialTile => 0x21
  | .tiuBadPaletteLen => 0x22
  | .glyMinGtMax => 0x30
  | .glyMaxTooBig => 0x31
  | .glyWidthTooBig => 0x32
  | .glyBadCharset => 0x33
  | .glyCountOverflow => 0x34
  | .glyBadMode => 0x35
  | .glyTableTruncated => 0x36
  | .glyBadRows => 0x37
  | .glyOldTruncated => 0x38
  | .ssrShortImage => 0x40

/-- LZD.TRUNCATED (R13): the operation is DONE and input ran out first. -/
def State.truncated (s : State) : Bool := s.lzd.shell.status = .done && s.lzd.outPos < s.lzd.size

/-- FIRST (R206): 0 only when slot A's counter is strictly greater, unsigned. -/
def firstSlot (cntA cntB : BitVec 32) : BitVec 1 := if cntB < cntA then 0 else 1

end Sys2Proof.Machine
end

