-- ==== Sys2Proof/Machine/Gbc.lean ====
section
/-!
DEFINITION. GBC (42_glyph_codec.md): the meanings of the four commands, of the glyph table header and rows, of the
hex-row line and of the six structured-text line classes, and the steps that decode nothing (R150 to R153, R158, R178).
A parse step has moved SRC_POS past the line before the line's meaning runs (R158).
-/

namespace Sys2Proof.Machine

/-! ## Commands -/

/-- GBC.DECODE: START with MODE = 0 (R60, R61). -/
def execGbcDecode (s : State) : Result := .next (s.startGbc 0)

/-- GBC.ENC_HEX: START with MODE = 1 (R60, R61). -/
def execGbcEncHex (s : State) : Result := .next (s.startGbc 1)

/-- GBC.ENC_BDF: START with MODE = 2 (R60, R61). -/
def execGbcEncBdf (s : State) : Result := .next (s.startGbc 2)

/-- The reserved command: START with MODE = 3, whose check step raises GLY_BAD_MODE (R60, R61, R150). -/
def execGbcReserved (s : State) : Result := .next (s.startGbc 3)

/-! ## The check step of the encode modes -/

/-- The eight header bytes the encoder writes (R75, R153). -/
def headerBytes (cpMin : BitVec 32) (count : BitVec 17) (width : BitVec 32) : List Byte :=
  encode (.glyHdr (cpMin.setWidth 16) (count.setWidth 16) (width.setWidth 8) 16 0)

/-- The reserved mode (R150). -/
def gbcBadMode (s : State) : Result := .next (s.raise .gbc .glyBadMode)

/-- Parameter checks, derived sizes and table initialisation (R151, R152, R153). -/
def gbcEncodeCheck (s : State) : Result :=
  let u := s.gbc
  if u.cpMax.toNat < u.cpMin.toNat then .next (s.raise .gbc .glyMinGtMax)
  else if 0xFFFF < u.cpMax.toNat then .next (s.raise .gbc .glyMaxTooBig)
  else if 16 < u.width.toNat then .next (s.raise .gbc .glyWidthTooBig)
  else if 0xFFFF < u.cpMax.toNat - u.cpMin.toNat + 1 then .next (s.raise .gbc .glyCountOverflow)
  else
    let count := BitVec.ofNat 17 (u.cpMax.toNat - u.cpMin.toNat + 1)
    let recSize := recSizeOf u.width.toNat
    let tblLen := 8 + count.toNat * recSize.toNat
    .next (s.setGbc { u with
      count := count
      recSize := recSize
      tblLen := tblLen
      tbl := (u.tbl.zero 0 tblLen).store 0 (headerBytes u.cpMin count u.width)
      phase := .merge })

/-! ## The glyph table header: merge and decode -/

/-- The merge step ends: SRC_POS <- 0, PHASE <- PARSE (R154). -/
def gbcParseFrom (s : State) : State := s.setGbc { s.gbc with srcPos := 0, phase := .parse }

/-- The merge step with no header to read: OLD_LEN < 8 (R154). -/
def gbcNoMerge (s : State) : Result := .next (gbcParseFrom s)

/-- The merge step on the header of OLD (R154): copy min(old count, COUNT) records when start and width match. -/
def gbcMerge (start count : BitVec 16) (width : Byte) (s : State) : Result :=
  let u := s.gbc
  if start.toNat = u.cpMin.toNat ∧ width.toNat = u.width.toNat then
    let n := min count.toNat u.count.toNat
    if u.oldLen < 8 + n * u.recSize.toNat then .next (s.raise .gbc .glyOldTruncated)
    else
      withBytes .gbcOld (u.old.load 8 (n * u.recSize.toNat)) fun records =>
        .next (gbcParseFrom (s.setGbc { u with tbl := u.tbl.store 8 records }))
  else .next (gbcParseFrom s)

/-- The decode check step on the header of SRC (R177). The header registers are written before the tests that use
them, COUNT and REC_SIZE before the length test, and they keep those values when a test raises (log entry 10). -/
def gbcDecodeCheck (start count : BitVec 16) (width rows : Byte) (s : State) : Result :=
  let s1 := s.setGbc { s.gbc with hdrStart := start, hdrCount := count, hdrWidth := width, hdrRows := rows }
  if 16 < width.toNat then .next (s1.raise .gbc .glyWidthTooBig)
  else if rows ≠ 16 then .next (s1.raise .gbc .glyBadRows)
  else
    let recSize := recSizeOf width.toNat
    let s2 := s1.setGbc { s1.gbc with count := count.setWidth 17, recSize := recSize }
    if s.gbc.srcLen < 8 + count.toNat * recSize.toNat then .next (s2.raise .gbc .glyTableTruncated)
    else .next (s2.setGbc { s2.gbc with pixLen := count.toNat * 16 * width.toNat, g := 0, phase := .decode })

/-- The decode check step with fewer than eight bytes (R177). -/
def gbcShortTable (s : State) : Result := .next (s.raise .gbc .glyTableTruncated)

/-- GLY.HDR: the header of OLD in the merge step (R154), the header of SRC in the decode check step (R177). -/
def execGlyHdr (start count : BitVec 16) (width rows : Byte) (_reserved : BitVec 16) (s : State) : Result :=
  match s.gbc.phase with
  | .merge => gbcMerge start count width s
  | .check | .parse | .decode => gbcDecodeCheck start count width rows s

/-! ## Decode: rows of a record -/

/-- The pixels of row `r` of glyph G (R178). -/
def putPixels (r : Fin 16) {n : Nat} (w : BitVec n) (s : State) : State :=
  let u := s.gbc
  s.setGbc { u with pix := u.pix.store ((u.g.toNat * 16 + r.val) * u.hdrWidth.toNat) (pixels u.hdrWidth.toNat w) }

/-- GLY.ROW8: one row of the record of glyph G (R178). -/
def execGlyRow8 (r : Fin 16) (p : Byte) (s : State) : Result := .next (putPixels r p s)

/-- GLY.ROW16: one row of the record of glyph G (R178). -/
def execGlyRow16 (r : Fin 16) (p : BitVec 16) (s : State) : Result := .next (putPixels r p s)

/-- After the sixteen rows of a record: G <- G + 1 (R178). -/
def gbcGlyphEnd (s : State) : Result := .next (s.setGbc { s.gbc with g := s.gbc.g + 1 })

/-- The end of a GBC operation (R158, R178): STATUS <- DONE. -/
def gbcStop (s : State) : Result := .next (s.finish .gbc)

/-! ## Hex-row text -/

/-- HEX.LINE (R160): the record is written, or the line is skipped without error (R223). -/
def execHexLine (cp : BitVec 32) (payload : List Byte) (s : State) : Result :=
  let u := s.gbc
  if cp.toNat < u.cpMin.toNat ∨ u.cpMax.toNat < cp.toNat then .next s
  else if cp = 0 then .next s
  else
    match hexRecord u.recSize payload with
    | some record => .next (s.setGbc (u.putRows cp.toNat 0 record))
    | none => .next s

/-! ## Structured text -/

/-- BDF.CHARSET (R166). -/
def execBdfCharset (name : List Byte) (s : State) : Result :=
  .next (s.setGbc { s.gbc with charset := charsetOf name })

/-- BDF.ENCODING (R167, R168, R169): fatal without a known charset. -/
def execBdfEncoding (code : Option (BitVec 32)) (s : State) : Result :=
  if s.gbc.charset = .none ∨ s.gbc.charset = .unknown then .next (s.raise .gbc .glyBadCharset)
  else .next (s.setGbc { s.gbc with curCp := selectCp s.gbc code })

/-- BDF.BITMAP (R170): the slot is cleared before rows arrive. -/
def execBdfBitmap (s : State) : Result :=
  let u := s.gbc
  let tbl := if u.curCp = 0 then u.tbl else u.tbl.zero (u.slot u.curCp.toNat) u.recSize.toNat
  .next (s.setGbc { u with tbl := tbl, pstate := .inBitmap, rowIdx := 0 })

/-- BDF.ENDCHAR (R171). -/
def execBdfEndchar (s : State) : Result :=
  .next (s.setGbc { s.gbc with pstate := .scanning, curCp := 0 })

/-- `ROW_IDX <- min(ROW_IDX + 1, 16)` (R172). -/
def nextRow (rowIdx : BitVec 5) : BitVec 5 := if rowIdx < 16 then rowIdx + 1 else 16

/-- BDF.ROW (R172): the row is written if it fits, and counts in every case. -/
def execBdfRow (digits : Option (List Nibble)) (s : State) : Result :=
  let u := s.gbc
  let u' :=
    if u.curCp ≠ 0 ∧ u.rowIdx < 16 then
      match digits.bind (bdfRowBytes u.recSize) with
      | some row => u.putRows u.curCp.toNat u.rowIdx.toNat row
      | none => u
    else u
  .next (s.setGbc { u' with rowIdx := nextRow u.rowIdx })

/-- BDF.OTHER: no effect (R173). -/
def execBdfOther (s : State) : Result := .next s

end Sys2Proof.Machine
end

