-- ==== Sys2Proof/Machine/Lzd.lean ====
section
/-!
DEFINITION. LZD (40_lz77.md): the meanings of LZD.DECOMPRESS, LZ.HDR, LZ.CTRL, LIT and COPY, and the steps that decode
nothing (R102, R105, R108, the errors of R101). Which of them is the step taken is decided in Fetch.lean.
-/

namespace Sys2Proof.Machine

/-- LZD.DECOMPRESS: the START pulse of LZD (R60, R61, R100). -/
def execLzdDecompress (s : State) : Result := .next (s.start .lzd)

/-- LZ.HDR, the header step with a legal tag (R101): the size, the zero fill, the cursors. -/
def execLzHdr (size : BitVec 24) (_ignored : Nibble) (s : State) : Result :=
  .next (s.setLzd { s.lzd with
    size := size
    outBuf := s.lzd.outBuf.zero 0 size.toNat
    inPos := 4
    outPos := 0
    bitsLeft := 0
    ctrl := 0
    copyLeft := 0
    copyDisp := 0
    phase := .token })

/-- LZ.CTRL, the control-byte fetch (R103). -/
def execLzCtrl (flags : Byte) (s : State) : Result :=
  .next (s.setLzd { s.lzd with ctrl := flags, inPos := s.lzd.inPos + 1, bitsLeft := 8 })

/-- LIT (R104). -/
def execLit (d : Byte) (s : State) : Result :=
  .next (s.setLzd { s.lzd with
    outBuf := s.lzd.outBuf.store s.lzd.outPos.toNat [d]
    outPos := s.lzd.outPos + 1
    inPos := s.lzd.inPos + 1
    ctrl := s.lzd.ctrl <<< 1
    bitsLeft := s.lzd.bitsLeft - 1 })

/-- COPY, the back-reference decode: R106 when the source lies in the output already produced, else R107, which
consumes the two bytes and raises. The bytes are moved by `lzdCopyStep`. -/
def execCopy (l : Nibble) (d : BitVec 12) (s : State) : Result :=
  if d.toNat < s.lzd.outPos.toNat then
    .next (s.setLzd { s.lzd with
      inPos := s.lzd.inPos + 2
      ctrl := s.lzd.ctrl <<< 1
      bitsLeft := s.lzd.bitsLeft - 1
      copyLeft := copyLen l
      copyDisp := d
      phase := .copy })
  else .next ((s.setLzd { s.lzd with inPos := s.lzd.inPos + 2 }).raise .lzd .lzBackrefRange)

/-- The copy step (R108, R109): one byte, forward, from the bytes already produced; clipped at SIZE. -/
def lzdCopyStep (s : State) : Result :=
  let u := s.lzd
  if u.copyLeft = 0 then .next (s.setLzd { u with phase := .token })
  else if u.outPos = u.size then .next (s.finish .lzd)
  else if u.outPos.toNat ≤ u.copyDisp.toNat then .fault (.belowBuffer .lzdOut)
  else
    withBytes .lzdOut (u.outBuf.load (u.outPos.toNat - u.copyDisp.toNat - 1) 1) fun bytes =>
      .next (s.setLzd { u with
        outBuf := u.outBuf.store u.outPos.toNat bytes
        outPos := u.outPos + 1
        copyLeft := u.copyLeft - 1 })

/-- Output full (R102) and input exhausted (R105): STATUS <- DONE, nothing else. -/
def lzdStop (s : State) : Result := .next (s.finish .lzd)

/-- A header step with fewer than four input bytes (R101). -/
def lzdShortHeader (s : State) : Result := .next (s.raise .lzd .lzShortHeader)

/-- A header step whose tag nibble is not 1 (R101). -/
def lzdBadTag (s : State) : Result := .next (s.raise .lzd .lzBadTag)

end Sys2Proof.Machine
end

