-- ==== Sys2Proof/Machine/Ssr.lean ====
section
/-!
DEFINITION. SSR (43_sector_reassembler.md): the meanings of SSR.REASSEMBLE and SEC.TRAILER, and the steps that decode
nothing (R200, the end of R202, the emit step of R205 to R207).
-/

namespace Sys2Proof.Machine

/-- SSR.REASSEMBLE: the START pulse of SSR (R60, R61). Its check step is `ssrCheck`. -/
def execSsrReassemble (s : State) : Result := .next (s.start .ssr)

/-- The check step (R200). -/
def ssrCheck (s : State) : Result :=
  let u := s.ssr
  if u.rawLen < Config.slotsEnd then .next (s.raise .ssr .ssrShortImage)
  else
    .next (s.setSsr { u with
      slotA := u.slotA.zero 0 Config.slotBytes
      slotB := u.slotB.zero 0 Config.slotBytes
      outLen := u.rawLen
      p := 0
      phase := .gather })

/-- SEC.TRAILER, the gather step for physical sector P (R201 to R204): the whole sector is copied to its logical place
in slot A (P < 14) or slot B, or dropped when its index is 14 or more. -/
def execSecTrailer (data : List Byte) (index : BitVec 16) (undescribed : BitVec 48) (counter : BitVec 32)
    (s : State) : Result :=
  let u := s.ssr
  let at_ := Config.sectorBytes * index.toNat
  let bytes := sectorBytes data index undescribed counter
  if index.toNat < Config.sectorsPerSlot then
    if u.p.toNat < Config.sectorsPerSlot then
      .next (s.setSsr { u with slotA := u.slotA.store at_ bytes, p := u.p + 1 })
    else .next (s.setSsr { u with slotB := u.slotB.store at_ bytes, p := u.p + 1 })
  else .next (s.setSsr { u with p := u.p + 1 })

/-- The end of the gather phase (R202): PHASE <- EMIT. -/
def ssrGatherEnd (s : State) : Result := .next (s.setSsr { s.ssr with phase := .emit })

/-- LE32 of a list of four bytes (R205). -/
def counterOf : List Byte → BitVec 32
  | [b0, b1, b2, b3] => le32 b0 b1 b2 b3
  | _ => 0

/-- The emit step (R205, R206, R207): the counters, their comparison, the image. -/
def ssrEmit (s : State) : Result :=
  let u := s.ssr
  withBytes .ssrSlotA (u.slotA.load Config.counterOff 4) fun ca =>
  withBytes .ssrSlotB (u.slotB.load Config.counterOff 4) fun cb =>
  withBytes .ssrSlotA (u.slotA.load 0 Config.slotBytes) fun a =>
  withBytes .ssrSlotB (u.slotB.load 0 Config.slotBytes) fun b =>
  withBytes .ssrRaw (u.raw.load Config.slotsEnd (u.rawLen - Config.slotsEnd)) fun tail =>
    let first := firstSlot (counterOf ca) (counterOf cb)
    .next ((s.setSsr { u with
      cntA := counterOf ca
      cntB := counterOf cb
      first := first
      outImg := u.outImg.store 0 ((if first = 0 then a ++ b else b ++ a) ++ tail) }).finish .ssr)

end Sys2Proof.Machine
end

