-- ==== Sys2Proof/Machine/Tiu.lean ====
section
/-!
DEFINITION. TIU (41_tile_unpack.md): the meanings of TIU.UNPACK, TILE.BYTE and PAL.ENTRY, and the steps that decode
nothing (R130, the ends of R133 and R136).
-/

namespace Sys2Proof.Machine

/-- TIU.UNPACK: the START pulse of TIU (R60, R61). Its check step is `tiuCheck`. -/
def execTiuUnpack (s : State) : Result := .next (s.start .tiu)

/-- The check step (R130): the three tests in order, then the tile grid (R131, R132) and the zero raster. -/
def tiuCheck (s : State) : Result :=
  let u := s.tiu
  if u.tilesLen = 0 then .next (s.raise .tiu .tiuNoTiles)
  else if u.tilesLen % Config.tileBytes ≠ 0 then .next (s.raise .tiu .tiuPartialTile)
  else if u.palLen ≠ 2 * Config.palEntries then .next (s.raise .tiu .tiuBadPaletteLen)
  else
    let count := u.tilesLen / Config.tileBytes
    let w := widthTiles count
    let h := ceilDiv count w.toNat
    .next (s.setTiu { u with
      count := count
      wT := w
      hT := h
      raster := u.raster.zero 0 (64 * w.toNat * h)
      k := 0
      pi := 0
      phase := .tiles })

/-- TILE.BYTE (R133): the left pixel from the low nibble, the right one from the high nibble. -/
def execTileByte (h l : Nibble) (s : State) : Result :=
  .next (s.setTiu { s.tiu with
    raster := s.tiu.raster.store (rasterAddr s.tiu.wT.toNat s.tiu.k) [l.setWidth 8, h.setWidth 8]
    k := s.tiu.k + 1 })

/-- The end of the tile bytes (R133): PHASE <- PALETTE. -/
def tiuTilesEnd (s : State) : Result := .next (s.setTiu { s.tiu with phase := .palette })

/-- PAL.ENTRY, the palette step for entry PI (R135, R136, R137). -/
def execPalEntry (_x : BitVec 1) (b g r : BitVec 5) (s : State) : Result :=
  .next (s.setTiu { s.tiu with
    palRgba := s.tiu.palRgba.store (4 * s.tiu.pi.toNat) (paletteRgba s.tiu.pi.toNat r g b)
    pi := s.tiu.pi + 1 })

/-- The end of the palette (R136): STATUS <- DONE. -/
def tiuPaletteEnd (s : State) : Result := .next (s.finish .tiu)

end Sys2Proof.Machine
end

