-- ==== Sys2Proof/Machine/Dispatch.lean ====
section
/-!
DEFINITION. One arm per instruction, each one call of its meaning.
-/

namespace Sys2Proof.Machine

def exec (i : Instr) (s : State) : Host.Outcome State Fault Refusal :=
  match i with
  | .lzdDecompress => Sys2Proof.Machine.execLzdDecompress s
  | .tiuUnpack => Sys2Proof.Machine.execTiuUnpack s
  | .gbcDecode => Sys2Proof.Machine.execGbcDecode s
  | .gbcEncHex => Sys2Proof.Machine.execGbcEncHex s
  | .gbcEncBdf => Sys2Proof.Machine.execGbcEncBdf s
  | .gbcReserved => Sys2Proof.Machine.execGbcReserved s
  | .ssrReassemble => Sys2Proof.Machine.execSsrReassemble s
  | .lzHdr size ignored => Sys2Proof.Machine.execLzHdr size ignored s
  | .lzCtrl flags => Sys2Proof.Machine.execLzCtrl flags s
  | .lit d => Sys2Proof.Machine.execLit d s
  | .copy l d => Sys2Proof.Machine.execCopy l d s
  | .tileByte h l => Sys2Proof.Machine.execTileByte h l s
  | .palEntry x b g r => Sys2Proof.Machine.execPalEntry x b g r s
  | .glyHdr start count width rows reserved => Sys2Proof.Machine.execGlyHdr start count width rows reserved s
  | .glyRow8 r p => Sys2Proof.Machine.execGlyRow8 r p s
  | .glyRow16 r p => Sys2Proof.Machine.execGlyRow16 r p s
  | .hexLine cp payload => Sys2Proof.Machine.execHexLine cp payload s
  | .bdfCharset name => Sys2Proof.Machine.execBdfCharset name s
  | .bdfEncoding code => Sys2Proof.Machine.execBdfEncoding code s
  | .bdfBitmap => Sys2Proof.Machine.execBdfBitmap s
  | .bdfEndchar => Sys2Proof.Machine.execBdfEndchar s
  | .bdfRow digits => Sys2Proof.Machine.execBdfRow digits s
  | .bdfOther => Sys2Proof.Machine.execBdfOther s
  | .secTrailer data index undescribed counter => Sys2Proof.Machine.execSecTrailer data index undescribed counter s

end Sys2Proof.Machine
end

