-- ==== Sys2Proof/Machine/HostSide.lean ====
section
/-!
DEFINITION. The host's actions (R18, R19, R45, R53, R252, R253, R259) and the reset input (R250, R251). A START write
of 1 is a command and is fetched as an instruction (Fetch.lean).
-/

namespace Sys2Proof.Machine

/-- The unit a register write goes to (R18). -/
def RegWrite.unit : RegWrite → UnitId
  | .lzdInLen _ | .lzdStart _ => .lzd
  | .tiuTilesLen _ | .tiuPalLen _ | .tiuStart _ => .tiu
  | .gbcMode _ | .gbcCpMin _ | .gbcCpMax _ | .gbcWidth _ | .gbcSrcLen _ | .gbcOldLen _ | .gbcStart _ => .gbc
  | .ssrRawLen _ | .ssrStart _ => .ssr

/-- The ordinal number of a register write's register (R18). -/
def RegWrite.number : RegWrite → Nat
  | .lzdInLen _ => 0
  | .lzdStart _ => 1
  | .tiuTilesLen _ => 2
  | .tiuPalLen _ => 3
  | .tiuStart _ => 4
  | .gbcMode _ => 5
  | .gbcCpMin _ => 6
  | .gbcCpMax _ => 7
  | .gbcWidth _ => 8
  | .gbcSrcLen _ => 9
  | .gbcOldLen _ => 10
  | .gbcStart _ => 11
  | .ssrRawLen _ => 12
  | .ssrStart _ => 13

/-- The unit a START write pulses: a write of 1 to its START register (R60); any other write pulses none. -/
def RegWrite.startOf : RegWrite → Option UnitId
  | .lzdStart v => if v = 1 then some .lzd else none
  | .tiuStart v => if v = 1 then some .tiu else none
  | .gbcStart v => if v = 1 then some .gbc else none
  | .ssrStart v => if v = 1 then some .ssr else none
  | .lzdInLen _ | .tiuTilesLen _ | .tiuPalLen _ | .gbcMode _ | .gbcCpMin _ | .gbcCpMax _ | .gbcWidth _
  | .gbcSrcLen _ | .gbcOldLen _ | .ssrRawLen _ => none

/-- The 4-bit command code `{unit, mode}` of a START pulse (R60): for GBC the mode bits are MODE's contents, for the
other units they are ignored. -/
def commandCode (s : State) : UnitId → BitVec 4
  | .lzd => 0b0000
  | .tiu => 0b0100
  | .gbc => (0b10 : BitVec 2) ++ s.gbc.mode
  | .ssr => 0b1100

/-- The register a write changes (R18). Writing 0 to START changes nothing (R61). -/
def State.writeReg (s : State) : RegWrite → State
  | .lzdInLen v => s.setLzd { s.lzd with inLen := v }
  | .tiuTilesLen v => s.setTiu { s.tiu with tilesLen := v }
  | .tiuPalLen v => s.setTiu { s.tiu with palLen := v }
  | .gbcMode v => s.setGbc { s.gbc with mode := v }
  | .gbcCpMin v => s.setGbc { s.gbc with cpMin := v }
  | .gbcCpMax v => s.setGbc { s.gbc with cpMax := v }
  | .gbcWidth v => s.setGbc { s.gbc with width := v }
  | .gbcSrcLen v => s.setGbc { s.gbc with srcLen := v }
  | .gbcOldLen v => s.setGbc { s.gbc with oldLen := v }
  | .ssrRawLen v => s.setSsr { s.ssr with rawLen := v }
  | .lzdStart _ | .tiuStart _ | .gbcStart _ | .ssrStart _ => s

/-- The write is of a START register. -/
def RegWrite.isStart : RegWrite → Bool
  | .lzdStart _ | .tiuStart _ | .gbcStart _ | .ssrStart _ => true
  | .lzdInLen _ | .tiuTilesLen _ | .tiuPalLen _ | .gbcMode _ | .gbcCpMin _ | .gbcCpMax _ | .gbcWidth _
  | .gbcSrcLen _ | .gbcOldLen _ | .ssrRawLen _ => false

/-- The unit a register belongs to (R13 to R18). -/
def RegName.unit : RegName → UnitId
  | .status u | .errClass u | .errCause u => u
  | .lzdInLen | .lzdSize | .lzdInPos | .lzdOutPos | .lzdCtrl | .lzdBitsLeft | .lzdCopyLeft | .lzdCopyDisp
  | .lzdPhase => .lzd
  | .tiuTilesLen | .tiuPalLen | .tiuCount | .tiuWT | .tiuHT | .tiuK | .tiuPi | .tiuPhase => .tiu
  | .gbcMode | .gbcCpMin | .gbcCpMax | .gbcWidth | .gbcSrcLen | .gbcOldLen | .gbcCount | .gbcRecSize | .gbcSrcPos
  | .gbcG | .gbcPstate | .gbcCharset | .gbcCurCp | .gbcRowIdx | .gbcHdrStart | .gbcHdrCount | .gbcHdrWidth
  | .gbcHdrRows | .gbcTblLen | .gbcPixLen | .gbcPhase => .gbc
  | .ssrRawLen | .ssrP | .ssrCntA | .ssrCntB | .ssrFirst | .ssrOutLen | .ssrPhase => .ssr

/-- The register is STATUS, the one register the host may read while the unit runs (R19). -/
def RegName.isStatus : RegName → Bool
  | .status _ => true
  | _ => false

/-- The value of a register as the host reads it; no read has a side effect (R13, R18, R49). -/
def State.readReg (s : State) : RegName → HostValue
  | .status u => .num (s.shell u).status.code.toNat
  | .errClass u => .num (s.shell u).errClass.code.toNat
  | .errCause u => .num (s.shell u).errCause.code.toNat
  | .lzdInLen => .num s.lzd.inLen
  | .lzdSize => .num s.lzd.size.toNat
  | .lzdInPos => .num s.lzd.inPos
  | .lzdOutPos => .num s.lzd.outPos.toNat
  | .lzdCtrl => .num s.lzd.ctrl.toNat
  | .lzdBitsLeft => .num s.lzd.bitsLeft.toNat
  | .lzdCopyLeft => .num s.lzd.copyLeft.toNat
  | .lzdCopyDisp => .num s.lzd.copyDisp.toNat
  | .lzdPhase => .lzdPhase s.lzd.phase
  | .tiuTilesLen => .num s.tiu.tilesLen
  | .tiuPalLen => .num s.tiu.palLen
  | .tiuCount => .num s.tiu.count
  | .tiuWT => .num s.tiu.wT.toNat
  | .tiuHT => .num s.tiu.hT
  | .tiuK => .num s.tiu.k
  | .tiuPi => .num s.tiu.pi.toNat
  | .tiuPhase => .tiuPhase s.tiu.phase
  | .gbcMode => .num s.gbc.mode.toNat
  | .gbcCpMin => .num s.gbc.cpMin.toNat
  | .gbcCpMax => .num s.gbc.cpMax.toNat
  | .gbcWidth => .num s.gbc.width.toNat
  | .gbcSrcLen => .num s.gbc.srcLen
  | .gbcOldLen => .num s.gbc.oldLen
  | .gbcCount => .num s.gbc.count.toNat
  | .gbcRecSize => .num s.gbc.recSize.toNat
  | .gbcSrcPos => .num s.gbc.srcPos
  | .gbcG => .num s.gbc.g.toNat
  | .gbcPstate => .pstate s.gbc.pstate
  | .gbcCharset => .charset s.gbc.charset
  | .gbcCurCp => .num s.gbc.curCp.toNat
  | .gbcRowIdx => .num s.gbc.rowIdx.toNat
  | .gbcHdrStart => .num s.gbc.hdrStart.toNat
  | .gbcHdrCount => .num s.gbc.hdrCount.toNat
  | .gbcHdrWidth => .num s.gbc.hdrWidth.toNat
  | .gbcHdrRows => .num s.gbc.hdrRows.toNat
  | .gbcTblLen => .num s.gbc.tblLen
  | .gbcPixLen => .num s.gbc.pixLen
  | .gbcPhase => .gbcPhase s.gbc.phase
  | .ssrRawLen => .num s.ssr.rawLen
  | .ssrP => .num s.ssr.p.toNat
  | .ssrCntA => .num s.ssr.cntA.toNat
  | .ssrCntB => .num s.ssr.cntB.toNat
  | .ssrFirst => .num s.ssr.first.toNat
  | .ssrOutLen => .num s.ssr.outLen
  | .ssrPhase => .ssrPhase s.ssr.phase

/-- A host access to a unit that is not a STATUS read or a START write: refused while the unit is BUSY (R19, R259). -/
def whenNotBusy (s : State) (u : UnitId) (k : Result) : Result :=
  if (s.shell u).status = .busy then .refused (.hostAccessWhileBusy u) else k

/-- A value the host has read. -/
def State.log (s : State) (v : HostValue) : State := { s with hostLog := v :: s.hostLog }

/-- One host action other than a command, in a state from which the action has been taken off the host's list. -/
def hostAction (act : HostAction) (s : State) : Result :=
  match act with
  | .write w => if w.isStart then .next s else whenNotBusy s w.unit (.next (s.writeReg w))
  | .writeBuf b a bytes => whenNotBusy s b.name.unit (.next (s.storeIn b a bytes))
  | .copyBuf src srcAt n dst dstAt =>
    whenNotBusy s src.unit (whenNotBusy s dst.name.unit
      (withBytes src ((s.buf src).load srcAt n) fun bytes => .next (s.storeIn dst dstAt bytes)))
  | .readReg r =>
    if r.isStatus then .next (s.log (s.readReg r)) else whenNotBusy s r.unit (.next (s.log (s.readReg r)))
  | .readBuf b a n =>
    whenNotBusy s b.unit (withBytes b ((s.buf b).load a n) fun bytes => .next (s.log (.bytes bytes)))
  | .await u =>
    match (s.shell u).status with
    | .done | .error => .next s
    | .idle | .busy => .next { s with host := .await u :: s.host }
  | .reset => .next s.resetUnits

end Sys2Proof.Machine
end

