-- ==== Sys2Proof/Machine/Fetch.lean ====
section
/-!
DEFINITION. Which step an agent takes (R9, R12): the conditions of the step rules in the order of their numbers, the
bytes at the unit's cursor, and the decoder. The result names the instruction to run, or gives the outcome of a step
that decodes none.
-/

namespace Sys2Proof.Machine

/-- What an agent's turn comes to. -/
inductive Fetched where
  /-- The bytes at the cursor are instruction `i`, which runs in state `s`. -/
  | run (i : Instr) (s : State)
  /-- A glyph record: its row instructions in order, run from state `s`, then the glyph cursor moves (R178). -/
  | record (rows : List Instr) (s : State)
  /-- A step that decodes no instruction, with its outcome. -/
  | other (o : Result)

/-- Bytes read for a fetch; an unwritten one stops the machine (R21). -/
def fetchBytes (b : BufName) (r : Except Nat (List Byte)) (k : List Byte → Fetched) : Fetched :=
  match r with
  | .ok bytes => k bytes
  | .error a => .other (.fault (.unwrittenByte b a))

/-- Run what the bytes decode to, or do what the rule says of bytes that are no instruction. -/
def runDecoded (p : Place) (bytes : List Byte) (s : State) (onReject : Result) : Fetched :=
  match decode p bytes with
  | .ok i => .run i s
  | .error _ => .other onReject

/-- LZD (R101 to R108), in a BUSY state. -/
def fetchLzd (s : State) : Fetched :=
  let u := s.lzd
  match u.phase with
  | .hdr =>
    if u.inLen < 4 then .other (lzdShortHeader s)
    else fetchBytes .lzdIn (u.inBuf.load 0 4) fun bytes => runDecoded .lzHeader bytes s (lzdBadTag s)
  | .token =>
    if u.size.toNat ≤ u.outPos.toNat then .other (lzdStop s)
    else if u.bitsLeft = 0 then
      if u.inLen ≤ u.inPos then .other (lzdStop s)
      else fetchBytes .lzdIn (u.inBuf.load u.inPos 1) fun bytes => runDecoded .lzControl bytes s (lzdStop s)
    else if u.ctrl.msb then
      if u.inLen < u.inPos + 2 then .other (lzdStop s)
      else fetchBytes .lzdIn (u.inBuf.load u.inPos 2) fun bytes => runDecoded (.lzToken true) bytes s (lzdStop s)
    else if u.inLen ≤ u.inPos then .other (lzdStop s)
    else fetchBytes .lzdIn (u.inBuf.load u.inPos 1) fun bytes => runDecoded (.lzToken false) bytes s (lzdStop s)
  | .copy => .other (lzdCopyStep s)

/-- TIU (R130, R133, R136), in a BUSY state. -/
def fetchTiu (s : State) : Fetched :=
  let u := s.tiu
  match u.phase with
  | .check => .other (tiuCheck s)
  | .tiles =>
    if u.tilesLen ≤ u.k then .other (tiuTilesEnd s)
    else fetchBytes .tiuTiles (u.tiles.load u.k 1) fun bytes => runDecoded .tile bytes s (tiuTilesEnd s)
  | .palette =>
    if Config.palEntries ≤ u.pi.toNat then .other (tiuPaletteEnd s)
    else fetchBytes .tiuPal (u.pal.load (2 * u.pi.toNat) 2) fun bytes => runDecoded .palette bytes s (tiuPaletteEnd s)

/-- The row instructions of a halfwidth record, from row `r` on (R76). -/
def rows8 : Nat → List Byte → List Instr
  | _, [] => []
  | r, b :: rest => .glyRow8 (Fin.ofNat 16 r) b :: rows8 (r + 1) rest

/-- The row instructions of a fullwidth record, from row `r` on (R77). -/
def rows16 : Nat → List Byte → List Instr
  | r, b0 :: b1 :: rest => .glyRow16 (Fin.ofNat 16 r) (le16 b0 b1) :: rows16 (r + 1) rest
  | _, _ => []

/-- A parse step (R155, R158): the cursor moves past the line, then the line is decoded; an empty or unrecognised line
has no further effect (R80, R159). -/
def fetchLine (s : State) : Fetched :=
  let u := s.gbc
  if u.srcLen ≤ u.srcPos then .other (gbcStop s)
  else
    fetchBytes .gbcSrc (u.src.lineAt u.srcPos (u.srcLen - u.srcPos)) fun raw =>
      let s' := s.setGbc { u with srcPos := min (u.srcPos + raw.length + 1) u.srcLen }
      runDecoded (if u.mode = 1 then .hexText else .bdfText u.pstate) raw s' (.next s')

/-- GBC (R150 to R158, R177, R178), in a BUSY state. -/
def fetchGbc (s : State) : Fetched :=
  let u := s.gbc
  match u.phase with
  | .check =>
    if u.mode = 3 then .other (gbcBadMode s)
    else if u.mode = 0 then
      if u.srcLen < 8 then .other (gbcShortTable s)
      else fetchBytes .gbcSrc (u.src.load 0 8) fun bytes => runDecoded .glyphHeader bytes s (gbcShortTable s)
    else .other (gbcEncodeCheck s)
  | .merge =>
    if u.oldLen < 8 then .other (gbcNoMerge s)
    else fetchBytes .gbcOld (u.old.load 0 8) fun bytes => runDecoded .glyphHeader bytes s (gbcNoMerge s)
  | .parse => fetchLine s
  | .decode =>
    if u.g = u.count then .other (gbcStop s)
    else
      fetchBytes .gbcSrc (u.src.load (8 + u.g.toNat * u.recSize.toNat) u.recSize.toNat) fun bytes =>
        .record (if u.recSize = 16 then rows8 0 bytes else rows16 0 bytes) s

/-- SSR (R200 to R207), in a BUSY state. -/
def fetchSsr (s : State) : Fetched :=
  let u := s.ssr
  match u.phase with
  | .check => .other (ssrCheck s)
  | .gather =>
    if u.p = 28 then .other (ssrGatherEnd s)
    else
      fetchBytes .ssrRaw (u.raw.load (Config.sectorBytes * u.p.toNat) Config.sectorBytes) fun bytes =>
        runDecoded .sector bytes s (ssrGatherEnd s)
  | .emit => .other (ssrEmit s)

/-- The host: its next action is taken off the list; a START pulse is the command its code names (R60). -/
def fetchHost (s : State) : Fetched :=
  match s.host with
  | [] => .other (.next s)
  | .write w :: rest =>
    match w.startOf with
    | some u => .run (decodeCommand (commandCode s u)) { s with host := rest }
    | none => .other (hostAction (.write w) { s with host := rest })
  | act :: rest => .other (hostAction act { s with host := rest })

/-- A unit that is not BUSY takes no step (R226, R250, R254). -/
def fetchUnit (u : UnitId) (s : State) : Fetched :=
  if (s.shell u).status = .busy then
    match u with
    | .lzd => fetchLzd s
    | .tiu => fetchTiu s
    | .gbc => fetchGbc s
    | .ssr => fetchSsr s
  else .other (.next s)

/-- An agent's turn. -/
def fetch (a : Agent) (s : State) : Fetched :=
  match a with
  | .host => fetchHost s
  | .unit u => fetchUnit u s

/-- Who moves: the head of the schedule; with no schedule given, the first BUSY unit in the order of the identifiers,
else the host (log entry 8). -/
def nextAgent (s : State) : Agent :=
  match s.sched with
  | a :: _ => a
  | [] =>
    if s.lzd.shell.status = .busy then .unit .lzd
    else if s.tiu.shell.status = .busy then .unit .tiu
    else if s.gbc.shell.status = .busy then .unit .gbc
    else if s.ssr.shell.status = .busy then .unit .ssr
    else .host

/-- The schedule once its head has moved. -/
def State.popSched (s : State) : State := { s with sched := s.sched.tail }

end Sys2Proof.Machine
end

