-- ==== Sys2Proof/Machine/Step.lean ====
section
/-!
DEFINITION. One step of the block: one agent moves (R9, R53, D11).
-/

namespace Sys2Proof.Machine

/-- Instructions run one after another. -/
def execAll : List Instr → State → Result
  | [], s => .next s
  | i :: rest, s => andThen (exec i s) (execAll rest)

/-- What a fetch comes to. -/
def runFetched : Fetched → Result
  | .run i s => exec i s
  | .record rows s => andThen (execAll rows s) gbcGlyphEnd
  | .other o => o

/-- The move of one agent. -/
def agentStep (a : Agent) (s : State) : Result := runFetched (fetch a s)

/-- One step. When no unit runs and the host has nothing to do, the block rests (R20, R250). -/
def step (s : State) : Host.Outcome State Fault Refusal := agentStep (nextAgent s) s.popSched

/-- The next step is agent `a`'s. -/
def State.scheduled (s : State) (a : Agent) : State := { s with sched := a :: s.sched }

/-- The host's next action is a START pulse of unit `u`. -/
def State.withPulse (s : State) (u : UnitId) : State :=
  let w : RegWrite :=
    match u with
    | .lzd => .lzdStart 1
    | .tiu => .tiuStart 1
    | .gbc => .gbcStart 1
    | .ssr => .ssrStart 1
  { s with host := .write w :: s.host }.scheduled .host

/-- A word of the opcode table placed where the very next step fetches it (log entries 6, 11): a command as the host's
next action, with MODE set for GBC; a control byte, back-reference, header or sector at the cursor of its unit, with
the unit running in the phase that reads it. -/
def State.withFetchWord (s : State) (nbits w : Nat) : State :=
  let bytes := tableBytes nbits w
  let roomy : Lzd := { s.lzd with
    shell := { s.lzd.shell with status := .busy }
    phase := .token
    size := if s.lzd.outPos < s.lzd.size then s.lzd.size else 1
    outPos := if s.lzd.outPos < s.lzd.size then s.lzd.outPos else 0
    inLen := max s.lzd.inLen (s.lzd.inPos + bytes.length)
    inBuf := s.lzd.inBuf.store s.lzd.inPos bytes }
  match tablePlace nbits w with
  | some .command =>
    if w < 4 then s.withPulse .lzd
    else if w < 8 then s.withPulse .tiu
    else if w < 12 then (s.setGbc { s.gbc with mode := BitVec.ofNat 2 w }).withPulse .gbc
    else s.withPulse .ssr
  | some .lzControl => (s.setLzd { roomy with bitsLeft := 0 }).scheduled (.unit .lzd)
  | some (.lzToken _) => (s.setLzd { roomy with bitsLeft := 8, ctrl := 0x80 }).scheduled (.unit .lzd)
  | some .lzHeader =>
    (s.setLzd { s.lzd with
      shell := { s.lzd.shell with status := .busy }
      phase := .hdr
      inLen := max s.lzd.inLen 4
      inBuf := s.lzd.inBuf.store 0 bytes }).scheduled (.unit .lzd)
  | some .glyphHeader =>
    (s.setGbc { s.gbc with
      shell := { s.gbc.shell with status := .busy }
      phase := .check
      mode := 0
      srcLen := max s.gbc.srcLen 8
      src := s.gbc.src.store 0 bytes }).scheduled (.unit .gbc)
  | some .sector =>
    let p := if s.ssr.p.toNat < 28 then s.ssr.p else 0
    (s.setSsr { s.ssr with
      shell := { s.ssr.shell with status := .busy }
      phase := .gather
      p := p
      rawLen := max s.ssr.rawLen 0x1C000
      raw := s.ssr.raw.store (0x1000 * p.toNat) bytes }).scheduled (.unit .ssr)
  | some _ | none => s

end Sys2Proof.Machine
end

