-- ==== Sys2Proof/Safety.lean ====
section
/-!
DEFINITION. What a safe run is, in the terms the statements use: the invariant of reachable states, the host's duties
before START (R252), the verdict on an ended operation (R225, R254), and runs of one unit.
-/

namespace Sys2Proof.Machine

/-- The first `n` bytes of a buffer hold values (R21, R252). -/
def Written (m : Memory) (n : Nat) : Prop := ∀ a, a < n → m.read a ≠ none

/-! ## The verdict on a unit -/

/-- The unit's output buffers are valid: its last operation ended without a fatal error (R13, R253). -/
def State.outputsValid (s : State) (u : UnitId) : Prop := (s.shell u).status = .done

/-- Some unit is in ERROR (R225: a model's safety predicate counts it as "gone wrong"). -/
def State.goneWrong (s : State) : Prop := ∃ u, (s.shell u).status = .error

/-- The operation of a unit is over (R254). -/
def State.ended (s : State) (u : UnitId) : Prop := (s.shell u).status = .done ∨ (s.shell u).status = .error

/-- The host has loaded what the unit will read: every byte below each length register is written (R21, R252). -/
def State.loaded (s : State) : UnitId → Prop
  | .lzd => Written s.lzd.inBuf s.lzd.inLen
  | .tiu => Written s.tiu.tiles s.tiu.tilesLen ∧ Written s.tiu.pal s.tiu.palLen
  | .gbc => Written s.gbc.src s.gbc.srcLen ∧ Written s.gbc.old s.gbc.oldLen
  | .ssr => Written s.ssr.raw s.ssr.rawLen

/-- `n` steps of one unit, the other agents standing still (R9, R53). -/
def unitSteps (u : UnitId) : Nat → State → Result
  | 0, s => .next s
  | n + 1, s => andThen (agentStep (.unit u) s) (unitSteps u n)

/-! ## Frames -/

/-- Every unit other than `u`, the host's list, the schedule and the log are as before. -/
def OthersKept (u : UnitId) (s t : State) : Prop :=
  (u ≠ .lzd → t.lzd = s.lzd) ∧ (u ≠ .tiu → t.tiu = s.tiu) ∧ (u ≠ .gbc → t.gbc = s.gbc) ∧ (u ≠ .ssr → t.ssr = s.ssr) ∧
    t.host = s.host ∧ t.sched = s.sched ∧ t.hostLog = s.hostLog

/-- Every byte of a buffer outside the `n` bytes from `a` on reads as before. -/
def KeptOutside (m m' : Memory) (a n : Nat) : Prop := ∀ k, k < a ∨ a + n ≤ k → m'.read k = m.read k

/-- A unit holds the same state in two states of the block. -/
def SameUnit (u : UnitId) (s t : State) : Prop :=
  match u with
  | .lzd => s.lzd = t.lzd
  | .tiu => s.tiu = t.tiu
  | .gbc => s.gbc = t.gbc
  | .ssr => s.ssr = t.ssr

/-! ## Reference functions the spec states results with -/

/-- `COPY` of the reference builder (R113): `n` times the byte `d + 1` positions before the current end. -/
def appendCopy : Nat → Nat → List Byte → List Byte
  | 0, _, out => out
  | n + 1, d, out => appendCopy n d (out ++ out[out.length - d - 1]?.toList)

/-- The reference byte-string builder (R113), going on from `out`; `none` where a back-reference does not lie in the
output already produced, or an instruction is no token. -/
def buildFrom : List Byte → List Instr → Option (List Byte)
  | out, [] => some out
  | out, .lit b :: rest => buildFrom (out ++ [b]) rest
  | out, .copy l d :: rest =>
    if d.toNat < out.length then buildFrom (appendCopy (l.toNat + 3) d.toNat out) rest else none
  | _, _ :: _ => none

/-- The flag of a token (R63). -/
def tokenFlag : Instr → Bool
  | .copy _ _ => true
  | _ => false

/-- The control byte of the next `k` tokens, the flag of the first in bit `k - 1` (R63, R92). -/
def controlOf : Nat → List Instr → Byte
  | k + 1, i :: rest => (if tokenFlag i then 1#8 <<< k else 0) ||| controlOf k rest
  | _, _ => 0

/-- A token stream as R92 encodes it, `left` tokens still to come under the current control byte. -/
def streamFrom : Nat → List Instr → List Byte
  | _, [] => []
  | 0, i :: rest => controlOf 8 (i :: rest) :: (encode i ++ streamFrom 7 rest)
  | left + 1, i :: rest => encode i ++ streamFrom left rest

/-- The compressed block of a token list with declared size `size` (R92). -/
def compressedBlock (size : Nat) (tokens : List Instr) : List Byte :=
  encode (.lzHdr (BitVec.ofNat 24 size) 0) ++ streamFrom 0 tokens

/-- The logical index in the trailer of physical sector `p` (R90, R201). -/
def sectorIndex (raw : Memory) (p : Nat) : Option Nat :=
  match raw.read (0x1000 * p + 0xFF4), raw.read (0x1000 * p + 0xFF5) with
  | some lo, some hi => some (hi ++ lo).toNat
  | _, _ => none

/-- The last of the `n` physical sectors from `first` on that claims logical index `i` (R204). -/
def lastClaim (raw : Memory) (first i : Nat) : Nat → Option Nat
  | 0 => none
  | n + 1 => if sectorIndex raw (first + n) = some i then some (first + n) else lastClaim raw first i n

/-- White space: a space or a tab (R80). -/
abbrev Blank (b : Byte) : Prop := b = 0x20 ∨ b = 0x09

/-- No white space at either end: nothing is left to trim (R80). -/
abbrev Trimmed (l : List Byte) : Prop := (∀ b ∈ l.head?, ¬ Blank b) ∧ ∀ b ∈ l.getLast?, ¬ Blank b

/-- The first eight bytes of a buffer are a glyph table header (R75) whose start, count, width and row count satisfy
`P`. -/
def HeaderWith (m : Memory) (P : BitVec 16 → BitVec 16 → Byte → Byte → Prop) : Prop :=
  ∃ bytes start count width rows reserved, m.load 0 8 = .ok bytes ∧
    decode .glyphHeader bytes = .ok (.glyHdr start count width rows reserved) ∧ P start count width rows

/-- The code point whose slot a text line names: that of a hex-row line in the range, CUR_CP for a bitmap's start or
row; 0 for none (R160, R169, R170, R172). -/
def Gbc.lineCp (u : Gbc) : Instr → Nat
  | .hexLine cp _ => if u.cpMin.toNat ≤ cp.toNat ∧ cp.toNat ≤ u.cpMax.toNat then cp.toNat else 0
  | .bdfBitmap | .bdfRow _ => u.curCp.toNat
  | .lzdDecompress | .tiuUnpack | .gbcDecode | .gbcEncHex | .gbcEncBdf | .gbcReserved | .ssrReassemble => 0
  | .lzHdr _ _ | .lzCtrl _ | .lit _ | .copy _ _ | .tileByte _ _ | .palEntry _ _ _ _ => 0
  | .glyHdr _ _ _ _ _ | .glyRow8 _ _ | .glyRow16 _ _ | .bdfCharset _ | .bdfEncoding _ | .bdfEndchar | .bdfOther => 0
  | .secTrailer _ _ _ _ => 0

/-! ## The invariant -/

/-- The unit a cause belongs to (R221). -/
def Cause.unit : Cause → Option UnitId
  | .none => Option.none
  | .lzShortHeader | .lzBadTag | .lzBackrefRange => some .lzd
  | .tiuNoTiles | .tiuPartialTile | .tiuBadPaletteLen => some .tiu
  | .glyMinGtMax | .glyMaxTooBig | .glyWidthTooBig | .glyBadCharset | .glyCountOverflow | .glyBadMode
  | .glyTableTruncated | .glyBadRows | .glyOldTruncated => some .gbc
  | .ssrShortImage => some .ssr

/-- A status triple is consistent: the class is the cause's, there is a cause exactly in ERROR, and the cause is one of
the unit's own (R13, R221, R224). -/
def Shell.Ok (u : UnitId) (x : Shell) : Prop :=
  x.errClass = x.errCause.errClass ∧ (x.status = .error ↔ x.errCause ≠ .none) ∧
    (x.errCause = .none ∨ x.errCause.unit = some u)

/-- Every buffer is in canonical form. -/
def State.memWf (s : State) : Prop := ∀ b, (s.buf b).wf

/-- LZD's registers are within the bounds 40_lz77.md derives (R12, R14, R108, R114), its dictionary is written, and the
output it has not produced yet is zero (R101, R105). -/
structure Lzd.Ok (u : Lzd) : Prop where
  outPos_le : u.outPos.toNat ≤ u.size.toNat
  bitsLeft_le : u.bitsLeft.toNat ≤ 8
  copyLeft_le : u.copyLeft.toNat ≤ 18
  copyDisp_lt : u.phase = .copy → u.copyDisp.toNat < u.outPos.toNat
  inPos_le : u.shell.status = .busy → u.inPos ≤ u.inLen
  out_written : u.phase ≠ .hdr → Written u.outBuf u.size.toNat
  tail_zero : u.phase ≠ .hdr → ∀ a, u.outPos.toNat ≤ a → a < u.size.toNat → u.outBuf.read a = some 0

/-- TIU's registers describe the tile grid of R130 to R132, and entry 0 stays transparent (R137). -/
structure Tiu.Ok (u : Tiu) : Prop where
  pi_le : u.pi.toNat ≤ 16
  wT_eq : u.phase ≠ .check → u.wT = widthTiles u.count
  hT_eq : u.phase ≠ .check → u.hT = ceilDiv u.count u.wT.toNat
  raster_written : u.phase ≠ .check → Written u.raster (64 * u.wT.toNat * u.hT)
  lens : u.shell.status = .busy → u.phase ≠ .check → u.tilesLen = 32 * u.count ∧ 0 < u.count ∧ u.palLen = 32
  k_le : u.shell.status = .busy → u.phase ≠ .check → u.k ≤ u.tilesLen
  transparent : 0 < u.pi.toNat → u.palRgba.read 3 = some 0

/-- GBC's registers after the check step are those the checks allow (R151, R152, R167, R172, R177). -/
structure Gbc.Ok (u : Gbc) : Prop where
  rowIdx_le : u.rowIdx.toNat ≤ 16
  srcPos_le : u.shell.status = .busy → u.srcPos ≤ u.srcLen
  encode : u.shell.status = .busy → u.phase = .merge ∨ u.phase = .parse →
    (u.mode = 1 ∨ u.mode = 2) ∧ u.cpMin.toNat ≤ u.cpMax.toNat ∧ u.cpMax.toNat ≤ 0xFFFF ∧ u.width.toNat ≤ 16 ∧
      u.count.toNat = u.cpMax.toNat - u.cpMin.toNat + 1 ∧ u.count.toNat ≤ 0xFFFF ∧
      u.recSize = recSizeOf u.width.toNat ∧ u.tblLen = 8 + u.count.toNat * u.recSize.toNat
  tbl_written : u.phase = .merge ∨ u.phase = .parse → Written u.tbl u.tblLen
  curCp_in : u.shell.status = .busy → u.curCp ≠ 0 →
    u.phase = .parse ∧ u.cpMin.toNat ≤ u.curCp.toNat ∧ u.curCp.toNat ≤ u.cpMax.toNat
  decode : u.shell.status = .busy → u.phase = .decode →
    u.mode = 0 ∧ u.hdrWidth.toNat ≤ 16 ∧ u.hdrRows = 16 ∧ u.count.toNat = u.hdrCount.toNat ∧
      u.recSize = recSizeOf u.hdrWidth.toNat ∧ 8 + u.count.toNat * u.recSize.toNat ≤ u.srcLen ∧
      u.g.toNat ≤ u.count.toNat ∧ u.pixLen = u.count.toNat * 16 * u.hdrWidth.toNat

/-- SSR's registers are within their bounds and the two slots are written (R12, R200, R202). -/
structure Ssr.Ok (u : Ssr) : Prop where
  p_le : u.p.toNat ≤ 28
  p_emit : u.phase = .emit → u.p = 28
  lens : u.shell.status = .busy → u.phase ≠ .check → 0x1C000 ≤ u.rawLen ∧ u.outLen = u.rawLen
  slots_written : u.phase ≠ .check → Written u.slotA 0xE000 ∧ Written u.slotB 0xE000

/-- The invariant of reachable states. -/
structure Inv (s : State) : Prop where
  mem : s.memWf
  shells : ∀ u, (s.shell u).Ok u
  lzd : s.lzd.Ok
  tiu : s.tiu.Ok
  gbc : s.gbc.Ok
  ssr : s.ssr.Ok

end Sys2Proof.Machine
end

