-- ==== Sys2Proof/Certificates/Slice0/Obligations.lean ====
section
/-!
DEFINITION. The statements for the provers, each the content of a rule of spec/ or of the model's own conventions as its
docstring says. A statement about an instruction gives the next state `exec` answers, register by register, and says
which bytes of which buffer it stores; `OthersKept` and `KeptOutside` (Safety.lean) are the frame.
-/

open Sys2Proof Sys2Proof.Machine

/-! ## Encodings -/

/-- R8: bit i of `rev_n(x)` is bit n - 1 - i of x, reversal is an involution, and R8's six examples. -/
def Obligations.BitReversalIsAnInvolution : Prop :=
  (∀ (x : BitVec 8) (i : Nat), i < 8 → (rev8 x).getLsbD i = x.getLsbD (7 - i)) ∧
  (∀ (x : BitVec 16) (i : Nat), i < 16 → (rev16 x).getLsbD i = x.getLsbD (15 - i)) ∧
  (∀ x, rev8 (rev8 x) = x) ∧ (∀ x, rev16 (rev16 x) = x) ∧
  rev8 0x01 = 0x80 ∧ rev8 0x18 = 0x18 ∧ rev8 0xA0 = 0x05 ∧
  rev16 0x0001 = 0x8000 ∧ rev16 0x0180 = 0x0180 ∧ rev16 0x1234 = 0x2C48

/-- Words written out from the spec's encodings (R60, R62, R63, R64, R65, R70, R72, R75, R76, R77, R81, R82) decode to
the instructions they stand for, and a tag other than 1 is rejected. -/
def Obligations.SpecWordsDecodeToTheirInstructions : Prop :=
  decode .command [0b1001] = .ok .gbcEncHex ∧
  decode .lzHeader [0xF1, 0x02, 0x00, 0x00] = .ok (.lzHdr 2 0xF) ∧
  decode .lzHeader [0x10, 0x03, 0x00, 0x00] = .error .badTag ∧
  decode .lzControl [0x14] = .ok (.lzCtrl 0b00010100) ∧
  decode (.lzToken false) [0x41] = .ok (.lit 0x41) ∧
  decode (.lzToken true) [0x30, 0x01] = .ok (.copy 3 1) ∧
  decode (.lzToken true) [0xFF, 0xFF] = .ok (.copy 15 4095) ∧
  decode .tile [0xA3] = .ok (.tileByte 0xA 0x3) ∧
  decode .palette [0x34, 0x12] = .ok (.palEntry 0 4 17 20) ∧
  decode .glyphHeader [0x20, 0x00, 0x5F, 0x00, 0x08, 0x10, 0x00, 0x00] = .ok (.glyHdr 0x20 95 8 16 0) ∧
  decode (.glyphRow8 4) [0x03] = .ok (.glyRow8 4 0x03) ∧
  decode (.glyphRow16 2) [0x80, 0x01] = .ok (.glyRow16 2 0x0180) ∧
  decode .hexText (0x34 :: 0x31 :: 0x3A :: List.replicate 32 0x46) = .ok (.hexLine 0x41 (List.replicate 16 0xFF)) ∧
  decode (.bdfText .scanning) [0x45, 0x4E, 0x43, 0x4F, 0x44, 0x49, 0x4E, 0x47, 0x20, 0x36, 0x35] =
    .ok (.bdfEncoding (some 65)) ∧
  decode (.bdfText .inBitmap) [0x43, 0x30, 0x0D] = .ok (.bdfRow (some [0xC, 0x0]))

/-- Decoding the encoding of a well-formed instruction, at the instruction's own place, gives it back. The spelling the
encoder chooses for a text line is the model's (log entry 13). -/
def Obligations.DecodeOfEncodeIsTheInstruction : Prop :=
  ∀ i : Instr, i.wellFormed = true → decode i.place (encode i) = .ok i

/-- R82, R175: the class of a non-empty stripped line by its first token and the parser state; in a bitmap every
line that is not ENDCHAR is a row, and its digits are there when every byte is a hex digit. The four keywords byte by
byte; the first token ends at the first space or tab; the charset name is the rest, trimmed: with neither quote it keeps
all its bytes, with both it loses those two. That a name with only one quote loses that one is the model's choice (log
entry 26). That a BITMAP or ENDCHAR line is one whatever stands after its first token, and that an ENCODING line's code is
its second token whatever follows, is the model's reading of R82 (log entry 16). -/
def Obligations.TextLineClassFollowsFirstTokenAndState : Prop :=
  kwCharset = [0x43, 0x48, 0x41, 0x52, 0x53, 0x45, 0x54, 0x5F, 0x52, 0x45, 0x47, 0x49, 0x53, 0x54, 0x52, 0x59] ∧
  kwEncoding = [0x45, 0x4E, 0x43, 0x4F, 0x44, 0x49, 0x4E, 0x47] ∧
  kwBitmap = [0x42, 0x49, 0x54, 0x4D, 0x41, 0x50] ∧ kwEndchar = [0x45, 0x4E, 0x44, 0x43, 0x48, 0x41, 0x52] ∧
  (∀ tok rest : List Byte, (∀ b ∈ tok, ¬ Blank b) → (∀ b ∈ rest.head?, Blank b) →
    firstToken (tok ++ rest) = tok ∧ afterToken (tok ++ rest) = rest) ∧
  (∀ lead body tail : List Byte, (∀ b ∈ lead ++ tail, Blank b) → Trimmed body → trim (lead ++ body ++ tail) = body) ∧
  (∀ name : List Byte,
    (name.head? ≠ some 0x22 → name.getLast? ≠ some 0x22 → unquote name = name) ∧
    unquote (0x22 :: name ++ [0x22]) = name ∧
    (name.getLast? ≠ some 0x22 → unquote (0x22 :: name) = name) ∧
    (name.head? ≠ some 0x22 → unquote (name ++ [0x22]) = name)) ∧
  (∀ (row : List Byte) (digits : List Nibble), hexDigits? row = some digits ↔
    digits.length = row.length ∧ ∀ (k : Nat) (b : Byte), row[k]? = some b → hexDigit? b = digits[k]?) ∧
  ∀ (raw : List Byte), lineFeed ∉ raw → stripLine raw ≠ [] →
    let line := stripLine raw
    let tok := firstToken line
    let rest := afterToken line
    (tok = kwCharset → decode (.bdfText .scanning) raw = .ok (.bdfCharset (unquote (trim rest)))) ∧
    (tok = kwEncoding → decode (.bdfText .scanning) raw = .ok (.bdfEncoding (decodeCode rest))) ∧
    (tok = kwBitmap → decode (.bdfText .scanning) raw = .ok .bdfBitmap) ∧
    (tok ≠ kwCharset → tok ≠ kwEncoding → tok ≠ kwBitmap → decode (.bdfText .scanning) raw = .ok .bdfOther) ∧
    (tok = kwEndchar → decode (.bdfText .inBitmap) raw = .ok .bdfEndchar) ∧
    (tok ≠ kwEndchar → decode (.bdfText .inBitmap) raw = .ok (.bdfRow (hexDigits? line)))

/-! ## Commands, reset, errors -/

/-- R60: the sixteen command codes, and a host write of 1 to a START register runs the command the code names, for GBC
the one that MODE selects. -/
def Obligations.StartWriteRunsTheCommand : Prop :=
  (∀ m : BitVec 2,
    decode .command [(0b000000 : BitVec 6) ++ m] = .ok .lzdDecompress ∧
    decode .command [(0b000001 : BitVec 6) ++ m] = .ok .tiuUnpack ∧
    decode .command [(0b000011 : BitVec 6) ++ m] = .ok .ssrReassemble) ∧
  decode .command [0b00001000] = .ok .gbcDecode ∧ decode .command [0b00001001] = .ok .gbcEncHex ∧
  decode .command [0b00001010] = .ok .gbcEncBdf ∧ decode .command [0b00001011] = .ok .gbcReserved ∧
  ∀ (s : State) (rest : List HostAction),
    (s.host = .write (.lzdStart 1) :: rest → agentStep .host s = exec .lzdDecompress { s with host := rest }) ∧
    (s.host = .write (.tiuStart 1) :: rest → agentStep .host s = exec .tiuUnpack { s with host := rest }) ∧
    (s.host = .write (.ssrStart 1) :: rest → agentStep .host s = exec .ssrReassemble { s with host := rest }) ∧
    (s.host = .write (.gbcStart 1) :: rest →
      (s.gbc.mode = 0 → agentStep .host s = exec .gbcDecode { s with host := rest }) ∧
      (s.gbc.mode = 1 → agentStep .host s = exec .gbcEncHex { s with host := rest }) ∧
      (s.gbc.mode = 2 → agentStep .host s = exec .gbcEncBdf { s with host := rest }) ∧
      (s.gbc.mode = 3 → agentStep .host s = exec .gbcReserved { s with host := rest }))

/-- R61: each of the seven commands, in a unit that is not BUSY, sets the triple to BUSY, 0, 0, gives every working and
result register its reset value and keeps parameter registers, buffers and the other units; in a BUSY unit it has no
effect; a write of 0 to a START register has none. -/
def Obligations.StartClearsWorkingRegistersAndSetsBusy : Prop :=
  (∀ s : State, s.lzd.shell.status ≠ .busy →
    ∃ t, exec .lzdDecompress s = .next t ∧ OthersKept .lzd s t ∧
      t.lzd =
      { shell := { status := .busy, errClass := .none, errCause := .none }, inLen := s.lzd.inLen, size := 0,
        inPos := 0, outPos := 0, ctrl := 0, bitsLeft := 0, copyLeft := 0, copyDisp := 0, phase := .hdr,
        inBuf := s.lzd.inBuf, outBuf := s.lzd.outBuf }) ∧
  (∀ s : State, s.tiu.shell.status ≠ .busy →
    ∃ t, exec .tiuUnpack s = .next t ∧ OthersKept .tiu s t ∧
      t.tiu =
      { shell := { status := .busy, errClass := .none, errCause := .none }, tilesLen := s.tiu.tilesLen,
        palLen := s.tiu.palLen, count := 0, wT := 0, hT := 0, k := 0, pi := 0, phase := .check, tiles := s.tiu.tiles,
        pal := s.tiu.pal, raster := s.tiu.raster, palRgba := s.tiu.palRgba }) ∧
  (∀ (s : State) (c : Instr), s.gbc.shell.status ≠ .busy →
    (c = .gbcDecode ∧ s.gbc.mode = 0) ∨ (c = .gbcEncHex ∧ s.gbc.mode = 1) ∨ (c = .gbcEncBdf ∧ s.gbc.mode = 2) ∨
      (c = .gbcReserved ∧ s.gbc.mode = 3) →
    ∃ t, exec c s = .next t ∧ OthersKept .gbc s t ∧
      t.gbc =
      { shell := { status := .busy, errClass := .none, errCause := .none }, mode := s.gbc.mode,
        cpMin := s.gbc.cpMin, cpMax := s.gbc.cpMax, width := s.gbc.width, srcLen := s.gbc.srcLen,
        oldLen := s.gbc.oldLen, count := 0, recSize := 0, srcPos := 0, g := 0, pstate := .scanning, charset := .none,
        curCp := 0, rowIdx := 0, hdrStart := 0, hdrCount := 0, hdrWidth := 0, hdrRows := 0, tblLen := 0, pixLen := 0,
        phase := .check, src := s.gbc.src, old := s.gbc.old, tbl := s.gbc.tbl, pix := s.gbc.pix }) ∧
  (∀ s : State, s.ssr.shell.status ≠ .busy →
    ∃ t, exec .ssrReassemble s = .next t ∧ OthersKept .ssr s t ∧
      t.ssr =
      { shell := { status := .busy, errClass := .none, errCause := .none }, rawLen := s.ssr.rawLen, p := 0,
        cntA := 0, cntB := 0, first := 0, outLen := 0, phase := .check, raw := s.ssr.raw, slotA := s.ssr.slotA,
        slotB := s.ssr.slotB, outImg := s.ssr.outImg }) ∧
  (∀ s : State,
    (s.lzd.shell.status = .busy → exec .lzdDecompress s = .next s) ∧
    (s.tiu.shell.status = .busy → exec .tiuUnpack s = .next s) ∧
    (s.gbc.shell.status = .busy → exec .gbcDecode s = .next s ∧ exec .gbcEncHex s = .next s ∧
      exec .gbcEncBdf s = .next s ∧ exec .gbcReserved s = .next s) ∧
    (s.ssr.shell.status = .busy → exec .ssrReassemble s = .next s)) ∧
  ∀ (s : State) (w : RegWrite) (rest : List HostAction),
    w = .lzdStart 0 ∨ w = .tiuStart 0 ∨ w = .gbcStart 0 ∨ w = .ssrStart 0 → s.host = .write w :: rest →
      agentStep .host s = .next { s with host := rest }

/-- R20: every register's value after reset; no byte of any buffer has a value. -/
def Obligations.ResetValuesOfEveryRegister : Prop :=
  let idle : Shell := { status := .idle, errClass := .none, errCause := .none }
  State.reset.lzd =

    { shell := idle, inLen := 0, size := 0, inPos := 0, outPos := 0, ctrl := 0, bitsLeft := 0, copyLeft := 0,
      copyDisp := 0, phase := .hdr, inBuf := State.reset.lzd.inBuf, outBuf := State.reset.lzd.outBuf } ∧
  State.reset.tiu =

    { shell := idle, tilesLen := 0, palLen := 0, count := 0, wT := 0, hT := 0, k := 0, pi := 0, phase := .check,
      tiles := State.reset.tiu.tiles, pal := State.reset.tiu.pal, raster := State.reset.tiu.raster,
      palRgba := State.reset.tiu.palRgba } ∧
  State.reset.gbc =

    { shell := idle, mode := 0, cpMin := 0, cpMax := 0, width := 0, srcLen := 0, oldLen := 0, count := 0, recSize := 0,
      srcPos := 0, g := 0, pstate := .scanning, charset := .none, curCp := 0, rowIdx := 0, hdrStart := 0,
      hdrCount := 0, hdrWidth := 0, hdrRows := 0, tblLen := 0, pixLen := 0, phase := .check,
      src := State.reset.gbc.src, old := State.reset.gbc.old, tbl := State.reset.gbc.tbl,
      pix := State.reset.gbc.pix } ∧
  State.reset.ssr =

    { shell := idle, rawLen := 0, p := 0, cntA := 0, cntB := 0, first := 0, outLen := 0, phase := .check,
      raw := State.reset.ssr.raw, slotA := State.reset.ssr.slotA, slotB := State.reset.ssr.slotB,
      outImg := State.reset.ssr.outImg } ∧
  ∀ (b : BufName) (a : Nat), (State.reset.buf b).read a = none

/-- R250, R251: the reset input acts on all four units at once, running or not; afterwards every unit holds its reset
state, no buffer byte has a value, and no unit does anything. -/
def Obligations.ResetInputActsOnEveryUnit : Prop :=
  ∀ (s : State) (rest : List HostAction), s.host = .reset :: rest →
    ∃ t, agentStep .host s = .next t ∧ (∀ u, SameUnit u t State.reset) ∧ (∀ u, (t.shell u).status = .idle) ∧
      (∀ b a, (t.buf b).read a = none) ∧ t.host = rest ∧ t.sched = s.sched ∧ t.hostLog = s.hostLog ∧
      ∀ u, agentStep (.unit u) t = .next t

/-- R224: error entry writes the unit's triple and nothing else (with the triple put back, the state is as before), and
the unit stops taking steps. -/
def Obligations.RaiseWritesTheTripleAndNothingElse : Prop :=
  ∀ (s : State) (u : UnitId) (c : Cause),
    (s.raise u c).shell u = { status := .error, errClass := c.errClass, errCause := c } ∧
    (s.raise u c).setShell (s.shell u) u = s ∧
    agentStep (.unit u) (s.raise u c) = .next (s.raise u c)

/-- R226: a unit that is not BUSY takes no step, and its status triple changes only by the host's START write for that
unit or by reset. -/
def Obligations.OnlyStartOrResetLeavesARestingStatus : Prop :=
  (∀ (s : State) (u : UnitId), (s.shell u).status ≠ .busy → agentStep (.unit u) s = .next s) ∧
  ∀ (s t : State) (a : Agent) (u : UnitId), (s.shell u).status ≠ .busy → agentStep a s = .next t →
    t.shell u ≠ s.shell u →
    a = .host ∧ ∃ rest, s.host = .reset :: rest ∨ ∃ w : RegWrite, s.host = .write w :: rest ∧ w.startOf = some u

/-- R221, R227: the code and class of every cause, and a unit's step enters ERROR with a cause only under the condition
the table lists, the earlier tests of the same step having passed. -/
def Obligations.CausesAreRaisedOnlyAsListed : Prop :=
  ([.lzShortHeader, .lzBadTag, .lzBackrefRange, .tiuNoTiles, .tiuPartialTile, .tiuBadPaletteLen, .glyMinGtMax,
      .glyMaxTooBig, .glyWidthTooBig, .glyBadCharset, .glyCountOverflow, .glyBadMode, .glyTableTruncated, .glyBadRows,
      .glyOldTruncated, .ssrShortImage] : List Cause).map (fun c => (c.code, c.errClass)) =
    [(0x10, .format), (0x11, .format), (0x12, .format), (0x20, .format), (0x21, .format), (0x22, .format),
      (0x30, .range), (0x31, .range), (0x32, .range), (0x33, .format), (0x34, .range), (0x35, .format),
      (0x36, .format), (0x37, .format), (0x38, .format), (0x40, .format)] ∧
  ∀ (s t : State) (u : UnitId), s.busy u → agentStep (.unit u) s = .next t → (t.shell u).status = .error →
    let encoding := s.gbc.phase = .check ∧ (s.gbc.mode = 1 ∨ s.gbc.mode = 2)
    let decoding := s.gbc.phase = .check ∧ s.gbc.mode = 0
    let inOrder := s.gbc.cpMin.toNat ≤ s.gbc.cpMax.toNat ∧ s.gbc.cpMax.toNat ≤ 0xFFFF
    (t.shell u).errClass = (t.shell u).errCause.errClass ∧
    match (t.shell u).errCause with
    | .none => False
    | .lzShortHeader => u = .lzd ∧ s.lzd.phase = .hdr ∧ s.lzd.inLen < 4
    | .lzBadTag => u = .lzd ∧ s.lzd.phase = .hdr ∧ 4 ≤ s.lzd.inLen ∧
        ∃ bytes, s.lzd.inBuf.load 0 4 = .ok bytes ∧ decode .lzHeader bytes = .error .badTag
    | .lzBackrefRange => u = .lzd ∧ s.lzd.phase = .token ∧ s.lzd.outPos.toNat < s.lzd.size.toNat ∧
        s.lzd.bitsLeft ≠ 0 ∧ s.lzd.ctrl.getLsbD 7 = true ∧ s.lzd.inPos + 2 ≤ s.lzd.inLen ∧
        ∃ bytes l d, s.lzd.inBuf.load s.lzd.inPos 2 = .ok bytes ∧ decode (.lzToken true) bytes = .ok (.copy l d) ∧
          s.lzd.outPos.toNat ≤ d.toNat
    | .tiuNoTiles => u = .tiu ∧ s.tiu.phase = .check ∧ s.tiu.tilesLen = 0
    | .tiuPartialTile => u = .tiu ∧ s.tiu.phase = .check ∧ s.tiu.tilesLen % 32 ≠ 0
    | .tiuBadPaletteLen => u = .tiu ∧ s.tiu.phase = .check ∧ s.tiu.tilesLen ≠ 0 ∧ s.tiu.tilesLen % 32 = 0 ∧
        s.tiu.palLen ≠ 32
    | .glyBadMode => u = .gbc ∧ s.gbc.phase = .check ∧ s.gbc.mode = 3
    | .glyMinGtMax => u = .gbc ∧ encoding ∧ s.gbc.cpMax.toNat < s.gbc.cpMin.toNat
    | .glyMaxTooBig => u = .gbc ∧ encoding ∧ s.gbc.cpMin.toNat ≤ s.gbc.cpMax.toNat ∧ 0xFFFF < s.gbc.cpMax.toNat
    | .glyWidthTooBig => u = .gbc ∧
        ((encoding ∧ inOrder ∧ 16 < s.gbc.width.toNat) ∨
          (decoding ∧ 8 ≤ s.gbc.srcLen ∧ HeaderWith s.gbc.src fun _ _ width _ => 16 < width.toNat))
    | .glyCountOverflow => u = .gbc ∧ encoding ∧ s.gbc.cpMin.toNat = 0 ∧ s.gbc.cpMax.toNat = 0xFFFF ∧
        s.gbc.width.toNat ≤ 16
    | .glyTableTruncated => u = .gbc ∧ decoding ∧
        (s.gbc.srcLen < 8 ∨
          (8 ≤ s.gbc.srcLen ∧ HeaderWith s.gbc.src fun _ count width rows =>
            width.toNat ≤ 16 ∧ rows = 16 ∧
              s.gbc.srcLen < 8 + count.toNat * (if width.toNat ≤ 8 then 16 else 32)))
    | .glyBadRows => u = .gbc ∧ decoding ∧ 8 ≤ s.gbc.srcLen ∧
        HeaderWith s.gbc.src fun _ _ width rows => width.toNat ≤ 16 ∧ rows ≠ 16
    | .glyOldTruncated => u = .gbc ∧ s.gbc.phase = .merge ∧ 8 ≤ s.gbc.oldLen ∧
        HeaderWith s.gbc.old fun start count width _ =>
          start.toNat = s.gbc.cpMin.toNat ∧ width.toNat = s.gbc.width.toNat ∧
            s.gbc.oldLen < 8 + min count.toNat s.gbc.count.toNat * s.gbc.recSize.toNat
    | .glyBadCharset => u = .gbc ∧ s.gbc.phase = .parse ∧ s.gbc.mode ≠ 1 ∧ s.gbc.pstate = .scanning ∧
        (s.gbc.charset = .none ∨ s.gbc.charset = .unknown) ∧ s.gbc.srcPos < s.gbc.srcLen ∧
        ∃ raw code, s.gbc.src.lineAt s.gbc.srcPos (s.gbc.srcLen - s.gbc.srcPos) = .ok raw ∧
          decode (.bdfText .scanning) raw = .ok (.bdfEncoding code)
    | .ssrShortImage => u = .ssr ∧ s.ssr.phase = .check ∧ s.ssr.rawLen < 0x1C000

/-! ## LZD -/

/-- R101: LZ.HDR completes in every state, sets SIZE, zero-fills OUT[0 .. SIZE) and nothing else of OUT, and sets the
cursors; the header step tests the length, then the tag, and raises with nothing written, or runs LZ.HDR. -/
def Obligations.LzdHeaderStepSetsUpTheOutput : Prop :=
  (∀ (s : State) (size : BitVec 24) (ignored : Nibble),
    ∃ t, exec (.lzHdr size ignored) s = .next t ∧ OthersKept .lzd s t ∧
      t.lzd = { s.lzd with
        size := size, inPos := 4, outPos := 0, bitsLeft := 0, ctrl := 0, copyLeft := 0, copyDisp := 0,
        phase := .token, outBuf := t.lzd.outBuf } ∧
      (∀ a, a < size.toNat → t.lzd.outBuf.read a = some 0) ∧ KeptOutside s.lzd.outBuf t.lzd.outBuf 0 size.toNat) ∧
  ∀ s : State, s.busy .lzd → s.lzd.phase = .hdr →
    (s.lzd.inLen < 4 → agentStep (.unit .lzd) s = .next (s.raise .lzd .lzShortHeader)) ∧
    ∀ b0 b1 b2 b3, 4 ≤ s.lzd.inLen → s.lzd.inBuf.load 0 4 = .ok [b0, b1, b2, b3] →
      (b0.extractLsb' 0 4 ≠ 1 → agentStep (.unit .lzd) s = .next (s.raise .lzd .lzBadTag)) ∧
      (b0.extractLsb' 0 4 = 1 →
        agentStep (.unit .lzd) s = exec (.lzHdr (b3 ++ b2 ++ b1) (b0.extractLsb' 4 4)) s)

/-- R102: with the output full, STATUS becomes DONE and nothing else changes. -/
def Obligations.LzdStopsWhenTheOutputIsFull : Prop :=
  ∀ s : State, s.busy .lzd → s.lzd.phase = .token → s.lzd.outPos = s.lzd.size →
    ∃ t, agentStep (.unit .lzd) s = .next t ∧ OthersKept .lzd s t ∧
      t.lzd = { s.lzd with shell := { s.lzd.shell with status := .done } }

/-- R103: LZ.CTRL completes in every state; it is the step when the output has room, no flag is left and input is. -/
def Obligations.ControlByteIsFetchedWhenNoFlagIsLeft : Prop :=
  (∀ (s : State) (f : Byte), ∃ t, exec (.lzCtrl f) s = .next t ∧ OthersKept .lzd s t ∧
    t.lzd = { s.lzd with ctrl := f, inPos := s.lzd.inPos + 1, bitsLeft := 8 }) ∧
  ∀ (s : State) (f : Byte), s.busy .lzd → s.lzd.phase = .token → s.lzd.outPos.toNat < s.lzd.size.toNat →
    s.lzd.bitsLeft = 0 → s.lzd.inPos < s.lzd.inLen → s.lzd.inBuf.load s.lzd.inPos 1 = .ok [f] →
      agentStep (.unit .lzd) s = exec (.lzCtrl f) s

/-- R104: LIT completes in every state and stores its byte at OUT[OUT_POS] alone; it is the step when the next flag is
0 and input is left. -/
def Obligations.LiteralAppendsOneByte : Prop :=
  (∀ (s : State) (b : Byte), ∃ t, exec (.lit b) s = .next t ∧ OthersKept .lzd s t ∧
    t.lzd = { s.lzd with
      outPos := s.lzd.outPos + 1, inPos := s.lzd.inPos + 1, ctrl := s.lzd.ctrl <<< 1,
      bitsLeft := s.lzd.bitsLeft - 1, outBuf := t.lzd.outBuf } ∧
    t.lzd.outBuf.read s.lzd.outPos.toNat = some b ∧
    KeptOutside s.lzd.outBuf t.lzd.outBuf s.lzd.outPos.toNat 1) ∧
  ∀ (s : State) (b : Byte), s.busy .lzd → s.lzd.phase = .token → s.lzd.outPos.toNat < s.lzd.size.toNat →
    s.lzd.bitsLeft ≠ 0 → s.lzd.ctrl.getLsbD 7 = false → s.lzd.inPos < s.lzd.inLen →
    s.lzd.inBuf.load s.lzd.inPos 1 = .ok [b] → agentStep (.unit .lzd) s = exec (.lit b) s

/-- R105: when input runs out first, STATUS becomes DONE and nothing else changes; the output not produced is zero and
TRUNCATED holds. -/
def Obligations.ExhaustedInputEndsDoneWithAZeroTail : Prop :=
  ∀ s : State, Inv s → s.busy .lzd → s.lzd.phase = .token → s.lzd.outPos.toNat < s.lzd.size.toNat →
    (s.lzd.bitsLeft = 0 ∧ s.lzd.inPos = s.lzd.inLen) ∨
      (s.lzd.bitsLeft ≠ 0 ∧ s.lzd.ctrl.getLsbD 7 = false ∧ s.lzd.inPos = s.lzd.inLen) ∨
      (s.lzd.bitsLeft ≠ 0 ∧ s.lzd.ctrl.getLsbD 7 = true ∧ s.lzd.inLen - s.lzd.inPos < 2) →
    ∃ t, agentStep (.unit .lzd) s = .next t ∧ OthersKept .lzd s t ∧
      t.lzd = { s.lzd with shell := { s.lzd.shell with status := .done } } ∧ t.truncated = true ∧
      ∀ a, t.lzd.outPos.toNat ≤ a → a < t.lzd.size.toNat → t.lzd.outBuf.read a = some 0

/-- R106, R107: COPY with its source in the output already produced sets up the copy and moves no byte; otherwise it
consumes its two bytes, writes no byte of OUT and raises LZ_BACKREF_RANGE. It is the step when the next flag is 1 and
two bytes are left. -/
def Obligations.BackReferenceIsDecodedOrFaults : Prop :=
  (∀ (s : State) (l : Nibble) (d : BitVec 12), d.toNat < s.lzd.outPos.toNat →
    ∃ t, exec (.copy l d) s = .next t ∧ OthersKept .lzd s t ∧
      t.lzd = { s.lzd with
        inPos := s.lzd.inPos + 2, ctrl := s.lzd.ctrl <<< 1, bitsLeft := s.lzd.bitsLeft - 1,
        copyLeft := BitVec.ofNat 5 (l.toNat + 3), copyDisp := d, phase := .copy }) ∧
  (∀ (s : State) (l : Nibble) (d : BitVec 12), s.lzd.outPos.toNat ≤ d.toNat →
    ∃ t, exec (.copy l d) s = .next t ∧ OthersKept .lzd s t ∧
      t.lzd = { s.lzd with
        inPos := s.lzd.inPos + 2,
        shell := { status := .error, errClass := .format, errCause := .lzBackrefRange } }) ∧
  ∀ (s : State) (b1 b2 : Byte), s.busy .lzd → s.lzd.phase = .token → s.lzd.outPos.toNat < s.lzd.size.toNat →
    s.lzd.bitsLeft ≠ 0 → s.lzd.ctrl.getLsbD 7 = true → s.lzd.inPos + 2 ≤ s.lzd.inLen →
    s.lzd.inBuf.load s.lzd.inPos 2 = .ok [b1, b2] →
      agentStep (.unit .lzd) s = exec (.copy (b1.extractLsb' 4 4) (b1.extractLsb' 0 4 ++ b2)) s

/-- R108, R109: the copy step: back to TOKEN when the copy is over, DONE when the output is full, else one byte read
`COPY_DISP + 1` behind OUT_POS and stored at OUT_POS alone. -/
def Obligations.CopyStepMovesOneByteForward : Prop :=
  ∀ s : State, s.busy .lzd → s.lzd.phase = .copy →
    (s.lzd.copyLeft = 0 → ∃ t, agentStep (.unit .lzd) s = .next t ∧ OthersKept .lzd s t ∧
      t.lzd = { s.lzd with phase := .token }) ∧
    (s.lzd.copyLeft ≠ 0 → s.lzd.outPos = s.lzd.size → ∃ t, agentStep (.unit .lzd) s = .next t ∧ OthersKept .lzd s t ∧
      t.lzd = { s.lzd with shell := { s.lzd.shell with status := .done } }) ∧
    ∀ v, s.lzd.outBuf.wf → s.lzd.copyLeft ≠ 0 → s.lzd.outPos ≠ s.lzd.size →
      s.lzd.copyDisp.toNat < s.lzd.outPos.toNat →
      s.lzd.outBuf.read (s.lzd.outPos.toNat - s.lzd.copyDisp.toNat - 1) = some v →
      ∃ t, agentStep (.unit .lzd) s = .next t ∧ OthersKept .lzd s t ∧
        t.lzd = { s.lzd with outPos := s.lzd.outPos + 1, copyLeft := s.lzd.copyLeft - 1, outBuf := t.lzd.outBuf } ∧
        t.lzd.outBuf.read s.lzd.outPos.toNat = some v ∧
        KeptOutside s.lzd.outBuf t.lzd.outBuf s.lzd.outPos.toNat 1

/-- R108, R113 (b), R255: the copy steps of a back-reference that fits append to the output exactly what the reference
builder appends, overlap included. -/
def Obligations.CopyRunAppendsAsTheReferenceBuilder : Prop :=
  ∀ (s : State) (out : List Byte), Inv s → s.busy .lzd → s.lzd.phase = .copy →
    s.lzd.outPos.toNat + s.lzd.copyLeft.toNat ≤ s.lzd.size.toNat →
    s.lzd.outBuf.load 0 s.lzd.outPos.toNat = .ok out →
    ∃ t, unitSteps .lzd s.lzd.copyLeft.toNat s = .next t ∧ OthersKept .lzd s t ∧
      t.lzd = { s.lzd with
        outPos := s.lzd.outPos + s.lzd.copyLeft.setWidth 24, copyLeft := 0,
        outBuf := t.lzd.outBuf } ∧
      t.lzd.outBuf.load 0 t.lzd.outPos.toNat = .ok (appendCopy s.lzd.copyLeft.toNat s.lzd.copyDisp.toNat out) ∧
      KeptOutside s.lzd.outBuf t.lzd.outBuf s.lzd.outPos.toNat s.lzd.copyLeft.toNat

/-- R112: after the header, every LZD step that is not the end of a copy ends the operation or strictly increases
IN_POS + OUT_POS, which IN_LEN + SIZE bounds; the end of a copy moves neither cursor and is followed by a step of another
kind. IN_POS only grows. -/
def Obligations.LzdStepsMakeProgress : Prop :=
  ∀ s t : State, Inv s → s.busy .lzd → s.lzd.phase ≠ .hdr → agentStep (.unit .lzd) s = .next t →
    s.lzd.inPos ≤ t.lzd.inPos ∧
    (t.ended .lzd ∨
      (t.lzd.inPos + t.lzd.outPos.toNat ≤ t.lzd.inLen + t.lzd.size.toNat ∧ t.lzd.inLen = s.lzd.inLen ∧
        t.lzd.size = s.lzd.size ∧
        (s.lzd.inPos + s.lzd.outPos.toNat < t.lzd.inPos + t.lzd.outPos.toNat ∨
          (s.lzd.phase = .copy ∧ s.lzd.copyLeft = 0 ∧ t.lzd.phase = .token ∧ t.lzd.inPos = s.lzd.inPos ∧
            t.lzd.outPos = s.lzd.outPos))))

/-- R113 (a), (b): LZD, started on the encoding of a token list (R92) whose back-references lie in the output already
produced, ends DONE with OUT the reference builder's string, its length SIZE, and all of the input consumed. -/
def Obligations.ValidStreamDecompressesToTheReferenceString : Prop :=
  ∀ (tokens : List Instr) (out : List Byte) (s : State), buildFrom [] tokens = some out → out.length < 2 ^ 24 →
    Inv s → s.busy .lzd → s.lzd.phase = .hdr → s.lzd.inLen = (compressedBlock out.length tokens).length →
    s.lzd.inBuf.load 0 s.lzd.inLen = .ok (compressedBlock out.length tokens) →
    ∃ n t, unitSteps .lzd n s = .next t ∧ OthersKept .lzd s t ∧ t.lzd.shell.status = .done ∧
      t.lzd.size.toNat = out.length ∧ t.lzd.outPos.toNat = out.length ∧ t.lzd.inPos = s.lzd.inLen ∧
      t.lzd.outBuf.load 0 out.length = .ok out

/-! ## TIU -/

/-- R130, R131: the three tests in order, then COUNT, W_T by the width table, H_T, and a zero raster of 64 * W_T * H_T
bytes, nothing else of RASTER written. -/
def Obligations.TiuCheckStepInfersTheTileGrid : Prop :=
  ∀ s : State, s.busy .tiu → s.tiu.phase = .check →
    (s.tiu.tilesLen = 0 → agentStep (.unit .tiu) s = .next (s.raise .tiu .tiuNoTiles)) ∧
    (s.tiu.tilesLen % 32 ≠ 0 → agentStep (.unit .tiu) s = .next (s.raise .tiu .tiuPartialTile)) ∧
    (s.tiu.tilesLen ≠ 0 → s.tiu.tilesLen % 32 = 0 → s.tiu.palLen ≠ 32 →
      agentStep (.unit .tiu) s = .next (s.raise .tiu .tiuBadPaletteLen)) ∧
    (s.tiu.tilesLen ≠ 0 → s.tiu.tilesLen % 32 = 0 → s.tiu.palLen = 32 →
      let n := s.tiu.tilesLen / 32
      let w := if 64 ≤ n then 8 else if 16 ≤ n then 4 else if 4 ≤ n then 2 else 1
      let h := (n + w - 1) / w
      ∃ t, agentStep (.unit .tiu) s = .next t ∧ OthersKept .tiu s t ∧
        t.tiu = { s.tiu with
          count := n, wT := BitVec.ofNat 4 w, hT := h, k := 0, pi := 0, phase := .tiles,
          raster := t.tiu.raster } ∧
        (∀ a, a < 64 * w * h → t.tiu.raster.read a = some 0) ∧
        KeptOutside s.tiu.raster t.tiu.raster 0 (64 * w * h))

/-- R133, R70: TILE.BYTE completes in every state and stores the low nibble at the raster address of tile byte K and the
high nibble at the next one, and nothing else; it is the step while bytes are left, and then the palette comes. -/
def Obligations.TileByteStoresTwoPixels : Prop :=
  (∀ (s : State) (h l : Nibble),
    let t := s.tiu.k / 32
    let x := 8 * (t % s.tiu.wT.toNat) + 2 * (s.tiu.k % 4)
    let y := 8 * (t / s.tiu.wT.toNat) + s.tiu.k % 32 / 4
    let a := y * 8 * s.tiu.wT.toNat + x
    ∃ t, exec (.tileByte h l) s = .next t ∧ OthersKept .tiu s t ∧
      t.tiu = { s.tiu with k := s.tiu.k + 1, raster := t.tiu.raster } ∧
      rasterAddr s.tiu.wT.toNat s.tiu.k = a ∧
      t.tiu.raster.read a = some (l.setWidth 8) ∧ t.tiu.raster.read (a + 1) = some (h.setWidth 8) ∧
      KeptOutside s.tiu.raster t.tiu.raster a 2) ∧
  ∀ s : State, s.busy .tiu → s.tiu.phase = .tiles →
    (s.tiu.k = s.tiu.tilesLen → ∃ t, agentStep (.unit .tiu) s = .next t ∧ OthersKept .tiu s t ∧
      t.tiu = { s.tiu with phase := .palette }) ∧
    ∀ v, s.tiu.k < s.tiu.tilesLen → s.tiu.tiles.load s.tiu.k 1 = .ok [v] →
      agentStep (.unit .tiu) s = exec (.tileByte (v.extractLsb' 4 4) (v.extractLsb' 0 4)) s

/-- R134: no raster write is out of bounds, and no two tile bytes write a common raster byte. -/
def Obligations.RasterAddressesAreInBoundsAndDistinct : Prop :=
  ∀ n, 0 < n →
    let w := (widthTiles n).toNat
    let h := ceilDiv n w
    (∀ k, k < 32 * n → rasterAddr w k + 1 < 64 * w * h) ∧
    ∀ k k', k < 32 * n → k' < 32 * n → k ≠ k' →
      rasterAddr w k ≠ rasterAddr w k' ∧ rasterAddr w k ≠ rasterAddr w k' + 1

/-- R135, R136, R137, whatever CHAN_LUT is (log entry 3): PAL.ENTRY completes in every state and stores the four bytes
of entry PI, alpha 0 for entry 0 and 255 for the others, and nothing else; it is the step for PI < 16; at 16 the
operation is DONE. -/
def Obligations.PaletteEntryIsConvertedThroughTheTable : Prop :=
  (∀ (s : State) (x : BitVec 1) (b g r : BitVec 5),
    ∃ t, exec (.palEntry x b g r) s = .next t ∧ OthersKept .tiu s t ∧
      t.tiu = { s.tiu with pi := s.tiu.pi + 1, palRgba := t.tiu.palRgba } ∧
      t.tiu.palRgba.read (4 * s.tiu.pi.toNat) = some (Config.chanLut r) ∧
      t.tiu.palRgba.read (4 * s.tiu.pi.toNat + 1) = some (Config.chanLut g) ∧
      t.tiu.palRgba.read (4 * s.tiu.pi.toNat + 2) = some (Config.chanLut b) ∧
      t.tiu.palRgba.read (4 * s.tiu.pi.toNat + 3) = some (if s.tiu.pi = 0 then 0 else 255) ∧
      KeptOutside s.tiu.palRgba t.tiu.palRgba (4 * s.tiu.pi.toNat) 4) ∧
  ∀ s : State, s.busy .tiu → s.tiu.phase = .palette →
    (s.tiu.pi = 16 → ∃ t, agentStep (.unit .tiu) s = .next t ∧ OthersKept .tiu s t ∧
      t.tiu = { s.tiu with shell := { s.tiu.shell with status := .done } }) ∧
    ∀ lo hi : Byte, s.tiu.pi.toNat < 16 → s.tiu.pal.load (2 * s.tiu.pi.toNat) 2 = .ok [lo, hi] →
      let c : BitVec 16 := hi ++ lo
      agentStep (.unit .tiu) s =
        exec (.palEntry (c.extractLsb' 15 1) (c.extractLsb' 10 5) (c.extractLsb' 5 5) (c.extractLsb' 0 5)) s

/-- R138 and the step count of R254: TIU, started on whole tiles and a 32-byte palette, is DONE after TILES_LEN + 19
steps with every tile's pixels at their place, the cells no tile fills zero, and the palette converted, whatever
CHAN_LUT is. -/
def Obligations.UnpackProducesTheRasterAndThePalette : Prop :=
  ∀ s : State, Inv s → s.busy .tiu → s.tiu.phase = .check → s.loaded .tiu → s.tiu.tilesLen ≠ 0 →
    s.tiu.tilesLen % 32 = 0 → s.tiu.palLen = 32 →
    let n := s.tiu.tilesLen / 32
    let w := if 64 ≤ n then 8 else if 16 ≤ n then 4 else if 4 ≤ n then 2 else 1
    let h := (n + w - 1) / w
    ∃ t, unitSteps .tiu (s.tiu.tilesLen + 19) s = .next t ∧ OthersKept .tiu s t ∧ t.tiu.shell.status = .done ∧
      t.tiu.count = n ∧ t.tiu.wT.toNat = w ∧ t.tiu.hT = h ∧
      (∀ tile r b v, tile < n → r < 8 → b < 4 → s.tiu.tiles.read (32 * tile + 4 * r + b) = some v →
        let a := (8 * (tile / w) + r) * 8 * w + (8 * (tile % w) + 2 * b)
        t.tiu.raster.read a = some ((v.extractLsb' 0 4).setWidth 8) ∧
        t.tiu.raster.read (a + 1) = some ((v.extractLsb' 4 4).setWidth 8)) ∧
      (∀ tile r c, n ≤ tile → tile < w * h → r < 8 → c < 8 →
        t.tiu.raster.read ((8 * (tile / w) + r) * 8 * w + (8 * (tile % w) + c)) = some 0) ∧
      ∀ (i : Nat) (lo hi : Byte), i < 16 → s.tiu.pal.read (2 * i) = some lo → s.tiu.pal.read (2 * i + 1) = some hi →
        let c : BitVec 16 := hi ++ lo
        t.tiu.palRgba.read (4 * i) = some (Config.chanLut (c.extractLsb' 0 5)) ∧
        t.tiu.palRgba.read (4 * i + 1) = some (Config.chanLut (c.extractLsb' 5 5)) ∧
        t.tiu.palRgba.read (4 * i + 2) = some (Config.chanLut (c.extractLsb' 10 5)) ∧
        t.tiu.palRgba.read (4 * i + 3) = some (if i = 0 then 0 else 255)

/-! ## GBC -/

/-- R150, R151, R152, R153: mode 3 raises; in the encode modes the four tests in order, then COUNT, REC_SIZE, TBL_LEN and
a table of TBL_LEN bytes: the header, then zeros. Mode 0 goes on with the header of SRC (R177). -/
def Obligations.EncodeCheckStepInitialisesTheTable : Prop :=
  ∀ s : State, s.busy .gbc → s.gbc.phase = .check →
    (s.gbc.mode = 3 → agentStep (.unit .gbc) s = .next (s.raise .gbc .glyBadMode)) ∧
    (∀ bytes start count width rows reserved, s.gbc.mode = 0 → 8 ≤ s.gbc.srcLen → s.gbc.src.load 0 8 = .ok bytes →
      decode .glyphHeader bytes = .ok (.glyHdr start count width rows reserved) →
      agentStep (.unit .gbc) s = exec (.glyHdr start count width rows reserved) s) ∧
    (s.gbc.mode = 1 ∨ s.gbc.mode = 2 →
      let lo := s.gbc.cpMin.toNat
      let hi := s.gbc.cpMax.toNat
      let width := s.gbc.width.toNat
      (hi < lo → agentStep (.unit .gbc) s = .next (s.raise .gbc .glyMinGtMax)) ∧
      (lo ≤ hi → 0xFFFF < hi → agentStep (.unit .gbc) s = .next (s.raise .gbc .glyMaxTooBig)) ∧
      (lo ≤ hi → hi ≤ 0xFFFF → 16 < width → agentStep (.unit .gbc) s = .next (s.raise .gbc .glyWidthTooBig)) ∧
      (lo ≤ hi → hi ≤ 0xFFFF → width ≤ 16 → 0xFFFF < hi - lo + 1 →
        agentStep (.unit .gbc) s = .next (s.raise .gbc .glyCountOverflow)) ∧
      (lo ≤ hi → hi ≤ 0xFFFF → width ≤ 16 → hi - lo + 1 ≤ 0xFFFF →
        let count := hi - lo + 1
        let recSize := if width ≤ 8 then 16 else 32
        let len := 8 + count * recSize
        ∃ t, agentStep (.unit .gbc) s = .next t ∧ OthersKept .gbc s t ∧
          t.gbc = { s.gbc with
            count := BitVec.ofNat 17 count, recSize := BitVec.ofNat 6 recSize, tblLen := len,
            phase := .merge, tbl := t.gbc.tbl } ∧
          t.gbc.tbl.read 0 = some (BitVec.ofNat 8 lo) ∧ t.gbc.tbl.read 1 = some (BitVec.ofNat 8 (lo / 256)) ∧
          t.gbc.tbl.read 2 = some (BitVec.ofNat 8 count) ∧ t.gbc.tbl.read 3 = some (BitVec.ofNat 8 (count / 256)) ∧
          t.gbc.tbl.read 4 = some (BitVec.ofNat 8 width) ∧ t.gbc.tbl.read 5 = some 16 ∧
          (∀ a, 6 ≤ a → a < len → t.gbc.tbl.read a = some 0) ∧ KeptOutside s.gbc.tbl t.gbc.tbl 0 len))

/-- R154: GLY.HDR in the merge step. A matching old table with enough records has min(old count, COUNT) of them copied
behind the new header; one with too few raises; a mismatch, or fewer than eight bytes, copies nothing. -/
def Obligations.MergeCopiesRecordsOfAMatchingTable : Prop :=
  (∀ (s : State) (start count : BitVec 16) (width rows : Byte) (reserved : BitVec 16), s.gbc.phase = .merge →
    let n := min count.toNat s.gbc.count.toNat
    let size := n * s.gbc.recSize.toNat
    (start.toNat = s.gbc.cpMin.toNat → width.toNat = s.gbc.width.toNat →
      (s.gbc.oldLen < 8 + size →
        exec (.glyHdr start count width rows reserved) s = .next (s.raise .gbc .glyOldTruncated)) ∧
      ∀ records, 8 + size ≤ s.gbc.oldLen → s.gbc.old.load 8 size = .ok records →
        ∃ t, exec (.glyHdr start count width rows reserved) s = .next t ∧ OthersKept .gbc s t ∧
          t.gbc = { s.gbc with srcPos := 0, phase := .parse, tbl := t.gbc.tbl } ∧
          (∀ a, a < size → t.gbc.tbl.read (8 + a) = records[a]?) ∧ KeptOutside s.gbc.tbl t.gbc.tbl 8 size) ∧
    (start.toNat ≠ s.gbc.cpMin.toNat ∨ width.toNat ≠ s.gbc.width.toNat →
      ∃ t, exec (.glyHdr start count width rows reserved) s = .next t ∧ OthersKept .gbc s t ∧
        t.gbc = { s.gbc with srcPos := 0, phase := .parse })) ∧
  ∀ s : State, s.busy .gbc → s.gbc.phase = .merge →
    (s.gbc.oldLen < 8 → ∃ t, agentStep (.unit .gbc) s = .next t ∧ OthersKept .gbc s t ∧
      t.gbc = { s.gbc with srcPos := 0, phase := .parse }) ∧
    ∀ b0 b1 b2 b3 b4 b5 b6 b7 : Byte, 8 ≤ s.gbc.oldLen → s.gbc.old.load 0 8 = .ok [b0, b1, b2, b3, b4, b5, b6, b7] →
      agentStep (.unit .gbc) s = exec (.glyHdr (b1 ++ b0) (b3 ++ b2) b4 b5 (b7 ++ b6)) s

/-- R177: GLY.HDR in the decode check step. The header registers are written, then width, row count and length are
tested in that order; the registers written before a failing test keep what they were given (R177 lists the writes
before the tests; against R224's parenthesis, log entry 10). -/
def Obligations.DecodeCheckStepReadsTheHeader : Prop :=
  (∀ (s : State) (start count : BitVec 16) (width rows : Byte) (reserved : BitVec 16), s.gbc.phase = .check →
    let recSize := if width.toNat ≤ 8 then 16 else 32
    let hdr := { s.gbc with hdrStart := start, hdrCount := count, hdrWidth := width, hdrRows := rows }
    (16 < width.toNat →
      ∃ t, exec (.glyHdr start count width rows reserved) s = .next t ∧ OthersKept .gbc s t ∧
        t.gbc = { hdr with shell := { status := .error, errClass := .range, errCause := .glyWidthTooBig } }) ∧
    (width.toNat ≤ 16 → rows ≠ 16 →
      ∃ t, exec (.glyHdr start count width rows reserved) s = .next t ∧ OthersKept .gbc s t ∧
        t.gbc = { hdr with shell := { status := .error, errClass := .format, errCause := .glyBadRows } }) ∧
    (width.toNat ≤ 16 → rows = 16 → s.gbc.srcLen < 8 + count.toNat * recSize →
      ∃ t, exec (.glyHdr start count width rows reserved) s = .next t ∧ OthersKept .gbc s t ∧
        t.gbc = { hdr with
          count := count.setWidth 17, recSize := BitVec.ofNat 6 recSize,
          shell := { status := .error, errClass := .format, errCause := .glyTableTruncated } }) ∧
    (width.toNat ≤ 16 → rows = 16 → 8 + count.toNat * recSize ≤ s.gbc.srcLen →
      ∃ t, exec (.glyHdr start count width rows reserved) s = .next t ∧ OthersKept .gbc s t ∧
        t.gbc = { hdr with
          count := count.setWidth 17, recSize := BitVec.ofNat 6 recSize,
          pixLen := count.toNat * 16 * width.toNat, g := 0, phase := .decode })) ∧
  ∀ s : State, s.busy .gbc → s.gbc.phase = .check → s.gbc.mode = 0 →
    (s.gbc.srcLen < 8 → agentStep (.unit .gbc) s = .next (s.raise .gbc .glyTableTruncated)) ∧
    ∀ b0 b1 b2 b3 b4 b5 b6 b7 : Byte, 8 ≤ s.gbc.srcLen → s.gbc.src.load 0 8 = .ok [b0, b1, b2, b3, b4, b5, b6, b7] →
      agentStep (.unit .gbc) s = exec (.glyHdr (b1 ++ b0) (b3 ++ b2) b4 b5 (b7 ++ b6)) s

/-- R178, R179: GLY.ROW8 and GLY.ROW16 complete in every state and write the first HDR_WIDTH columns of row r of glyph
G, column c from bit c, and nothing else. -/
def Obligations.GlyphRowWritesItsPixels : Prop :=
  ∀ (s : State) (r : Fin 16),
    let a := (s.gbc.g.toNat * 16 + r.val) * s.gbc.hdrWidth.toNat
    (∀ p : Byte, ∃ t, exec (.glyRow8 r p) s = .next t ∧ OthersKept .gbc s t ∧
      t.gbc = { s.gbc with pix := t.gbc.pix } ∧
      (∀ c, c < s.gbc.hdrWidth.toNat → t.gbc.pix.read (a + c) = some (if p.getLsbD c then 1 else 0)) ∧
      KeptOutside s.gbc.pix t.gbc.pix a s.gbc.hdrWidth.toNat) ∧
    (∀ p : BitVec 16, ∃ t, exec (.glyRow16 r p) s = .next t ∧ OthersKept .gbc s t ∧
      t.gbc = { s.gbc with pix := t.gbc.pix } ∧
      (∀ c, c < s.gbc.hdrWidth.toNat → t.gbc.pix.read (a + c) = some (if p.getLsbD c then 1 else 0)) ∧
      KeptOutside s.gbc.pix t.gbc.pix a s.gbc.hdrWidth.toNat)

/-- R178: one decode step reads the whole record of glyph G, writes its sixteen rows of pixels and nothing else, and
moves to the next glyph; with no glyph left the operation is DONE. -/
def Obligations.DecodeStepWritesOneGlyph : Prop :=
  ∀ s : State, s.busy .gbc → s.gbc.phase = .decode →
    (s.gbc.g = s.gbc.count → ∃ t, agentStep (.unit .gbc) s = .next t ∧ OthersKept .gbc s t ∧
      t.gbc = { s.gbc with shell := { s.gbc.shell with status := .done } }) ∧
    ∀ bytes, s.gbc.g ≠ s.gbc.count → s.gbc.recSize = 16 ∨ s.gbc.recSize = 32 →
      s.gbc.src.wf → s.gbc.src.load (8 + s.gbc.g.toNat * s.gbc.recSize.toNat) s.gbc.recSize.toNat = .ok bytes →
      let w := s.gbc.hdrWidth.toNat
      let a := s.gbc.g.toNat * 16 * w
      ∃ t, agentStep (.unit .gbc) s = .next t ∧ OthersKept .gbc s t ∧
        t.gbc = { s.gbc with g := s.gbc.g + 1, pix := t.gbc.pix } ∧
        (∀ r c b, r < 16 → c < w → s.gbc.recSize = 16 → bytes[r]? = some b →
          t.gbc.pix.read ((s.gbc.g.toNat * 16 + r) * w + c) = some (if b.getLsbD c then 1 else 0)) ∧
        (∀ (r c : Nat) (b0 b1 : Byte), r < 16 → c < w → s.gbc.recSize = 32 → bytes[2 * r]? = some b0 →
          bytes[2 * r + 1]? = some b1 →
          t.gbc.pix.read ((s.gbc.g.toNat * 16 + r) * w + c) = some (if (b1 ++ b0).getLsbD c then 1 else 0)) ∧
        KeptOutside s.gbc.pix t.gbc.pix a (16 * w)

/-- R160 with R156, R157: HEX.LINE completes for every accepted line: skipped when its code point is out of range or 0
or its payload does not fit; else the sixteen rows of the slot of its code point are stored, each reversed, a halfwidth
row centred in a fullwidth table, and nothing else of TBL. -/
def Obligations.HexLineWritesOrSkipsItsRecord : Prop :=
  ∀ (s : State) (cp : BitVec 32) (payload : List Byte), payload.length = 16 ∨ payload.length = 32 →
    s.gbc.recSize = 16 ∨ s.gbc.recSize = 32 →
    let slot := 8 + (cp.toNat - s.gbc.cpMin.toNat) * s.gbc.recSize.toNat
    (cp.toNat < s.gbc.cpMin.toNat ∨ s.gbc.cpMax.toNat < cp.toNat ∨ cp = 0 ∨
      (payload.length = 32 ∧ s.gbc.recSize = 16) → exec (.hexLine cp payload) s = .next s) ∧
    (s.gbc.cpMin.toNat ≤ cp.toNat → cp.toNat ≤ s.gbc.cpMax.toNat → cp ≠ 0 →
      payload.length = 16 ∨ s.gbc.recSize = 32 →
      ∃ t, exec (.hexLine cp payload) s = .next t ∧ OthersKept .gbc s t ∧ t.gbc = { s.gbc with tbl := t.gbc.tbl } ∧
        s.gbc.slot cp.toNat = slot ∧ KeptOutside s.gbc.tbl t.gbc.tbl slot s.gbc.recSize.toNat ∧
        (∀ (r : Nat) (m8 : Byte), payload.length = 16 → s.gbc.recSize = 16 → payload[r]? = some m8 →
          t.gbc.tbl.read (slot + r) = some (rev8 m8)) ∧
        (∀ (r : Nat) (m8 : Byte), payload.length = 16 → s.gbc.recSize = 32 → payload[r]? = some m8 →
          let w := rev16 ((m8.setWidth 16 : BitVec 16) <<< 4)
          t.gbc.tbl.read (slot + 2 * r) = some (w.extractLsb' 0 8) ∧
          t.gbc.tbl.read (slot + 2 * r + 1) = some (w.extractLsb' 8 8)) ∧
        (∀ (r : Nat) (b0 b1 : Byte), payload.length = 32 → payload[2 * r]? = some b0 → payload[2 * r + 1]? = some b1 →
          let w := rev16 (b0 ++ b1)
          t.gbc.tbl.read (slot + 2 * r) = some (w.extractLsb' 0 8) ∧
          t.gbc.tbl.read (slot + 2 * r + 1) = some (w.extractLsb' 8 8)))

/-- R166, R83: BDF.CHARSET completes in every state and sets CHARSET to the class of the name, and nothing else. -/
def Obligations.CharsetLineSetsTheClassOfTheName : Prop :=
  ∀ (s : State) (name : List Byte),
    ∃ t, exec (.bdfCharset name) s = .next t ∧ OthersKept .gbc s t ∧
      t.gbc = { s.gbc with charset := t.gbc.charset } ∧
      (name = [0x49, 0x53, 0x4F, 0x31, 0x30, 0x36, 0x34, 0x36] → t.gbc.charset = .iso10646) ∧
      ([0x4A, 0x49, 0x53, 0x58, 0x30, 0x32, 0x30, 0x38] <+: name → t.gbc.charset = .jisx0208) ∧
      (name ≠ [0x49, 0x53, 0x4F, 0x31, 0x30, 0x36, 0x34, 0x36] →
        ¬ [0x4A, 0x49, 0x53, 0x58, 0x30, 0x32, 0x30, 0x38] <+: name → t.gbc.charset = .unknown)

/-- R167, R168, whatever JIS0208 is (log entry 4): without a known charset BDF.ENCODING raises GLY_BAD_CHARSET; with one
it completes and changes CUR_CP alone, to the remapped code point when that is not 0 and in range, else to 0. -/
def Obligations.EncodingLineSelectsTheCodePoint : Prop :=
  ∀ (s : State) (code : Option (BitVec 32)),
    (s.gbc.charset = .none ∨ s.gbc.charset = .unknown →
      exec (.bdfEncoding code) s = .next (s.raise .gbc .glyBadCharset)) ∧
    (s.gbc.charset = .iso10646 ∨ s.gbc.charset = .jisx0208 →
      ∃ t, exec (.bdfEncoding code) s = .next t ∧ OthersKept .gbc s t ∧
        t.gbc = { s.gbc with curCp := t.gbc.curCp } ∧
        let inRange := fun u : Nat => u ≠ 0 ∧ s.gbc.cpMin.toNat ≤ u ∧ u ≤ s.gbc.cpMax.toNat
        (code = none → t.gbc.curCp = 0) ∧
        ∀ n, code = some n →
          (0xFFFF < n.toNat → t.gbc.curCp = 0) ∧
          (s.gbc.charset = .iso10646 → n.toNat ≤ 0xFFFF →
            (inRange n.toNat → t.gbc.curCp.toNat = n.toNat) ∧ (¬ inRange n.toNat → t.gbc.curCp = 0)) ∧
          (s.gbc.charset = .jisx0208 → n.toNat ≤ 0xFFFF →
            let hi := n.extractLsb' 8 8
            let lo := n.extractLsb' 0 8
            (lo < 0x21 ∨ 0x7E < lo ∨ hi < 0x21 ∨ 0x7E < hi → t.gbc.curCp = 0) ∧
            (0x21 ≤ lo → lo ≤ 0x7E → 0x21 ≤ hi → hi ≤ 0x7E →
              (Config.jis0208 hi lo = none → t.gbc.curCp = 0) ∧
              ∀ u, Config.jis0208 hi lo = some u →
                (inRange u.val.toNat → t.gbc.curCp = u.val) ∧ (¬ inRange u.val.toNat → t.gbc.curCp = 0))))

/-- R170, R171, R173: BDF.BITMAP, BDF.ENDCHAR and BDF.OTHER complete in every state: BITMAP enters the bitmap at row 0
and clears exactly the slot of CUR_CP, none when that is 0; ENDCHAR leaves it and clears CUR_CP; OTHER does nothing. -/
def Obligations.BitmapEndcharAndOtherLines : Prop :=
  ∀ s : State,
    (∃ t, exec .bdfBitmap s = .next t ∧ OthersKept .gbc s t ∧
      t.gbc = { s.gbc with pstate := .inBitmap, rowIdx := 0, tbl := t.gbc.tbl } ∧
      (s.gbc.curCp = 0 → t.gbc.tbl = s.gbc.tbl) ∧
      (s.gbc.curCp ≠ 0 →
        let slot := 8 + (s.gbc.curCp.toNat - s.gbc.cpMin.toNat) * s.gbc.recSize.toNat
        (∀ a, a < s.gbc.recSize.toNat → t.gbc.tbl.read (slot + a) = some 0) ∧
        KeptOutside s.gbc.tbl t.gbc.tbl slot s.gbc.recSize.toNat)) ∧
    (∃ t, exec .bdfEndchar s = .next t ∧ OthersKept .gbc s t ∧
      t.gbc = { s.gbc with pstate := .scanning, curCp := 0 }) ∧
    exec .bdfOther s = .next s

/-- R172 with R156, R157: BDF.ROW completes in every state and moves ROW_IDX to min(ROW_IDX + 1, 16); the row is stored
at row ROW_IDX of the slot of CUR_CP, left-aligned and reversed, centred when one byte wide in a fullwidth table, or not
at all when CUR_CP is 0, sixteen rows are there, the line is not hex, or the row is too wide. -/
def Obligations.RowLineWritesOrSkipsOneRow : Prop :=
  ∀ (s : State) (digits : Option (List Nibble)), s.gbc.recSize = 16 ∨ s.gbc.recSize = 32 →
    let row := s.gbc.rowIdx.toNat
    let slot := 8 + (s.gbc.curCp.toNat - s.gbc.cpMin.toNat) * s.gbc.recSize.toNat
    ∃ t, exec (.bdfRow digits) s = .next t ∧ OthersKept .gbc s t ∧
      t.gbc = { s.gbc with rowIdx := BitVec.ofNat 5 (min (row + 1) 16), tbl := t.gbc.tbl } ∧
      (s.gbc.curCp = 0 ∨ 16 ≤ row ∨ digits = none → t.gbc.tbl = s.gbc.tbl) ∧
      ∀ ds, digits = some ds → ds ≠ [] → s.gbc.curCp ≠ 0 → row < 16 →
        let v := hexValue ds
        let bits := 4 * ds.length
        (s.gbc.recSize = 16 → bits ≤ 8 →
          t.gbc.tbl.read (slot + row) = some (rev8 (BitVec.ofNat 8 (v * 2 ^ (8 - bits)))) ∧
          KeptOutside s.gbc.tbl t.gbc.tbl (slot + row) 1) ∧
        (s.gbc.recSize = 16 → 8 < bits → t.gbc.tbl = s.gbc.tbl) ∧
        (s.gbc.recSize = 32 → bits ≤ 16 →
          let m16 : BitVec 16 := if bits ≤ 8 then (BitVec.ofNat 8 (v * 2 ^ (8 - bits))).setWidth 16 <<< 4
            else BitVec.ofNat 16 (v * 2 ^ (16 - bits))
          t.gbc.tbl.read (slot + 2 * row) = some ((rev16 m16).extractLsb' 0 8) ∧
          t.gbc.tbl.read (slot + 2 * row + 1) = some ((rev16 m16).extractLsb' 8 8) ∧
          KeptOutside s.gbc.tbl t.gbc.tbl (slot + 2 * row) 2) ∧
        (s.gbc.recSize = 32 → 16 < bits → t.gbc.tbl = s.gbc.tbl)

/-- R155, R158: a parse step takes the bytes up to the next line feed or SRC_LEN, moves SRC_POS past them, and runs what
the line decodes to; an empty or unrecognised line has no further effect; at the end of the text the operation is
DONE. -/
def Obligations.ParseStepConsumesOneLine : Prop :=
  ∀ s : State, s.busy .gbc → s.gbc.phase = .parse →
    (s.gbc.srcLen ≤ s.gbc.srcPos → ∃ t, agentStep (.unit .gbc) s = .next t ∧ OthersKept .gbc s t ∧
      t.gbc = { s.gbc with shell := { s.gbc.shell with status := .done } }) ∧
    ∀ raw : List Byte, s.gbc.src.wf → s.gbc.srcPos + raw.length ≤ s.gbc.srcLen → s.gbc.srcPos < s.gbc.srcLen →
      (∀ k, k < raw.length → s.gbc.src.read (s.gbc.srcPos + k) = raw[k]?) → lineFeed ∉ raw →
      s.gbc.srcPos + raw.length = s.gbc.srcLen ∨ s.gbc.src.read (s.gbc.srcPos + raw.length) = some lineFeed →
      let moved := s.setGbc { s.gbc with srcPos := min (s.gbc.srcPos + raw.length + 1) s.gbc.srcLen }
      let place := if s.gbc.mode = 1 then Place.hexText else .bdfText s.gbc.pstate
      (∀ i, decode place raw = .ok i → agentStep (.unit .gbc) s = exec i moved) ∧
      (∀ e, decode place raw = .error e → agentStep (.unit .gbc) s = .next moved)

/-- R169, R180: a parse step writes TBL only in the slot of the code point its line names, a hex-row line's own or
CUR_CP for a bitmap's start or row; at the end of the text, and on a line that names none or is no record, TBL stays as
it is. So it never writes the header, a byte at or beyond TBL_LEN, or the slot of code point 0; and it never changes the
table's geometry. -/
def Obligations.ParseStepsWriteOnlyNamedSlots : Prop :=
  ∀ s t : State, Inv s → s.busy .gbc → s.gbc.phase = .parse → agentStep (.unit .gbc) s = .next t →
    (s.gbc.srcLen ≤ s.gbc.srcPos → t.gbc.tbl = s.gbc.tbl) ∧
    (∀ raw, s.gbc.srcPos < s.gbc.srcLen →
      s.gbc.src.lineAt s.gbc.srcPos (s.gbc.srcLen - s.gbc.srcPos) = .ok raw →
      let line := decode (if s.gbc.mode = 1 then .hexText else .bdfText s.gbc.pstate) raw
      (∀ e, line = .error e → t.gbc.tbl = s.gbc.tbl) ∧
      ∀ i, line = .ok i →
        let cp := s.gbc.lineCp i
        (cp = 0 → t.gbc.tbl = s.gbc.tbl) ∧
        (cp ≠ 0 → KeptOutside s.gbc.tbl t.gbc.tbl (8 + (cp - s.gbc.cpMin.toNat) * s.gbc.recSize.toNat)
          s.gbc.recSize.toNat)) ∧
    (∀ a, a < 8 ∨ s.gbc.tblLen ≤ a → t.gbc.tbl.read a = s.gbc.tbl.read a) ∧
    (s.gbc.cpMin = 0 → ∀ a, a < 8 + s.gbc.recSize.toNat → t.gbc.tbl.read a = s.gbc.tbl.read a) ∧
    t.gbc.count = s.gbc.count ∧ t.gbc.recSize = s.gbc.recSize ∧ t.gbc.tblLen = s.gbc.tblLen

/-- R180 (a): a row that HEX.LINE stored, decoded by GLY.ROW8 or GLY.ROW16, gives column c the c-th bit from the left of
the source row. -/
def Obligations.EncodedRowsDecodeToTheSourcePixels : Prop :=
  ∀ (s t s' : State) (cp : BitVec 32) (payload : List Byte) (r : Fin 16), exec (.hexLine cp payload) s = .next t →
    s.gbc.cpMin.toNat ≤ cp.toNat → cp.toNat ≤ s.gbc.cpMax.toNat → cp ≠ 0 →
    let slot := 8 + (cp.toNat - s.gbc.cpMin.toNat) * s.gbc.recSize.toNat
    let a := (s'.gbc.g.toNat * 16 + r.val) * s'.gbc.hdrWidth.toNat
    (∀ m8 p : Byte, payload.length = 16 → s.gbc.recSize = 16 → payload[r.val]? = some m8 →
      t.gbc.tbl.read (slot + r.val) = some p →
      ∃ t', exec (.glyRow8 r p) s' = .next t' ∧ ∀ c, c < s'.gbc.hdrWidth.toNat → c < 8 →
        t'.gbc.pix.read (a + c) = some (if m8.getLsbD (7 - c) then 1 else 0)) ∧
    (∀ b0 b1 p0 p1 : Byte, payload.length = 32 → s.gbc.recSize = 32 → payload[2 * r.val]? = some b0 →
      payload[2 * r.val + 1]? = some b1 → t.gbc.tbl.read (slot + 2 * r.val) = some p0 →
      t.gbc.tbl.read (slot + 2 * r.val + 1) = some p1 →
      ∃ t', exec (.glyRow16 r (p1 ++ p0)) s' = .next t' ∧ ∀ c, c < s'.gbc.hdrWidth.toNat → c < 16 →
        t'.gbc.pix.read (a + c) = some (if (b0 ++ b1).getLsbD (15 - c) then 1 else 0))

/-! ## SSR -/

/-- R200: an image shorter than 0x1C000 bytes raises with nothing written; else the slots are zeroed, OUT_LEN and P are
set, and the gather begins. -/
def Obligations.SsrCheckStepZeroesTheSlots : Prop :=
  ∀ s : State, s.busy .ssr → s.ssr.phase = .check →
    (s.ssr.rawLen < 0x1C000 → agentStep (.unit .ssr) s = .next (s.raise .ssr .ssrShortImage)) ∧
    (0x1C000 ≤ s.ssr.rawLen → ∃ t, agentStep (.unit .ssr) s = .next t ∧ OthersKept .ssr s t ∧
      t.ssr = { s.ssr with
        outLen := s.ssr.rawLen, p := 0, phase := .gather, slotA := t.ssr.slotA,
        slotB := t.ssr.slotB } ∧
      (∀ a, a < 0xE000 → t.ssr.slotA.read a = some 0 ∧ t.ssr.slotB.read a = some 0) ∧
      KeptOutside s.ssr.slotA t.ssr.slotA 0 0xE000 ∧ KeptOutside s.ssr.slotB t.ssr.slotB 0 0xE000)

/-- R202, R203, R90: SEC.TRAILER completes for every sector: its 0x1000 bytes, trailer included, are stored at
0x1000 * index of slot A for P < 14 and of slot B from 14 on, and nothing else; with an index of 14 or more nothing is
stored; P moves on. It is the step for P < 28; at 28 the emit phase comes. -/
def Obligations.SectorIsCopiedToItsLogicalPlaceOrDropped : Prop :=
  (∀ (s : State) (data : List Byte) (index : BitVec 16) (undescribed : BitVec 48) (counter : BitVec 32),
    data.length = 0xFF4 →
    let bytes := data ++
      [index.extractLsb' 0 8, index.extractLsb' 8 8, undescribed.extractLsb' 0 8, undescribed.extractLsb' 8 8,
        undescribed.extractLsb' 16 8, undescribed.extractLsb' 24 8, undescribed.extractLsb' 32 8,
        undescribed.extractLsb' 40 8, counter.extractLsb' 0 8, counter.extractLsb' 8 8, counter.extractLsb' 16 8,
        counter.extractLsb' 24 8]
    ∃ t, exec (.secTrailer data index undescribed counter) s = .next t ∧ OthersKept .ssr s t ∧
      t.ssr = { s.ssr with p := s.ssr.p + 1, slotA := t.ssr.slotA, slotB := t.ssr.slotB } ∧
      (14 ≤ index.toNat → t.ssr.slotA = s.ssr.slotA ∧ t.ssr.slotB = s.ssr.slotB) ∧
      (index.toNat < 14 → s.ssr.p.toNat < 14 → t.ssr.slotB = s.ssr.slotB ∧
        (∀ a, a < 0x1000 → t.ssr.slotA.read (0x1000 * index.toNat + a) = bytes[a]?) ∧
        KeptOutside s.ssr.slotA t.ssr.slotA (0x1000 * index.toNat) 0x1000) ∧
      (index.toNat < 14 → 14 ≤ s.ssr.p.toNat → t.ssr.slotA = s.ssr.slotA ∧
        (∀ a, a < 0x1000 → t.ssr.slotB.read (0x1000 * index.toNat + a) = bytes[a]?) ∧
        KeptOutside s.ssr.slotB t.ssr.slotB (0x1000 * index.toNat) 0x1000)) ∧
  ∀ s : State, s.busy .ssr → s.ssr.phase = .gather →
    (s.ssr.p = 28 → ∃ t, agentStep (.unit .ssr) s = .next t ∧ OthersKept .ssr s t ∧
      t.ssr = { s.ssr with phase := .emit }) ∧
    ∀ bytes i, s.ssr.p ≠ 28 → s.ssr.raw.load (0x1000 * s.ssr.p.toNat) 0x1000 = .ok bytes →
      decode .sector bytes = .ok i → agentStep (.unit .ssr) s = exec i s ∧ encode i = bytes

/-- R205, R206, R207: the emit step: the counters are read at 0xFFC of the slots, slot A is first only when its counter
is strictly greater, OUTIMG holds the first slot, the other slot and the image's tail, nothing else of it is written, and
the operation is DONE. -/
def Obligations.EmitOrdersTheSlotsByCounter : Prop :=
  ∀ (s : State) (a b tail : List Byte) (a0 a1 a2 a3 b0 b1 b2 b3 : Byte), s.busy .ssr → s.ssr.phase = .emit →
    s.ssr.slotA.load 0 0xE000 = .ok a → s.ssr.slotB.load 0 0xE000 = .ok b → 0x1C000 ≤ s.ssr.rawLen →
    s.ssr.raw.load 0x1C000 (s.ssr.rawLen - 0x1C000) = .ok tail →
    s.ssr.slotA.load 0xFFC 4 = .ok [a0, a1, a2, a3] → s.ssr.slotB.load 0xFFC 4 = .ok [b0, b1, b2, b3] →
    s.memWf →
    let ca : BitVec 32 := a3 ++ a2 ++ a1 ++ a0
    let cb : BitVec 32 := b3 ++ b2 ++ b1 ++ b0
    let image := (if cb.toNat < ca.toNat then a ++ b else b ++ a) ++ tail
    ∃ t, agentStep (.unit .ssr) s = .next t ∧ OthersKept .ssr s t ∧
      t.ssr = { s.ssr with
        shell := { s.ssr.shell with status := .done }, cntA := ca, cntB := cb,
        first := if cb.toNat < ca.toNat then 0 else 1, outImg := t.ssr.outImg } ∧
      t.ssr.outImg.load 0 s.ssr.rawLen = .ok image ∧ KeptOutside s.ssr.outImg t.ssr.outImg 0 s.ssr.rawLen

/-- R208, R209, R204 and the step count of R254: SSR, started on an image of at least 0x1C000 bytes, is DONE after 31
steps; each logical sector of a slot is the last physical sector of its region that claims it, or zero; the slot with
the strictly greater counter at 0xFFC, else slot B, comes first in OUTIMG, then the other, then the tail. -/
def Obligations.ReassembleRebuildsAndOrdersTheSlots : Prop :=
  ∀ s : State, Inv s → s.busy .ssr → s.ssr.phase = .check → s.loaded .ssr → 0x1C000 ≤ s.ssr.rawLen →
    ∃ t, unitSteps .ssr 31 s = .next t ∧ OthersKept .ssr s t ∧ t.ssr.shell.status = .done ∧
      t.ssr.outLen = s.ssr.rawLen ∧
      (∀ i a, i < 14 → a < 0x1000 →
        t.ssr.slotA.read (0x1000 * i + a) =
          (match lastClaim s.ssr.raw 0 i 14 with
            | some p => s.ssr.raw.read (0x1000 * p + a)
            | none => some 0) ∧
        t.ssr.slotB.read (0x1000 * i + a) =
          (match lastClaim s.ssr.raw 14 i 14 with
            | some p => s.ssr.raw.read (0x1000 * p + a)
            | none => some 0)) ∧
      t.ssr.slotA.load 0xFFC 4 = .ok [t.ssr.cntA.extractLsb' 0 8, t.ssr.cntA.extractLsb' 8 8,
        t.ssr.cntA.extractLsb' 16 8, t.ssr.cntA.extractLsb' 24 8] ∧
      t.ssr.slotB.load 0xFFC 4 = .ok [t.ssr.cntB.extractLsb' 0 8, t.ssr.cntB.extractLsb' 8 8,
        t.ssr.cntB.extractLsb' 16 8, t.ssr.cntB.extractLsb' 24 8] ∧
      t.ssr.first = (if t.ssr.cntB.toNat < t.ssr.cntA.toNat then 0 else 1) ∧
      (∀ a, a < 0xE000 →
        t.ssr.outImg.read a = (if t.ssr.first = 0 then t.ssr.slotA else t.ssr.slotB).read a ∧
        t.ssr.outImg.read (0xE000 + a) = (if t.ssr.first = 0 then t.ssr.slotB else t.ssr.slotA).read a) ∧
      ∀ a, 0x1C000 ≤ a → a < s.ssr.rawLen → t.ssr.outImg.read a = s.ssr.raw.read a

/-! ## The host -/

/-- R19, R259: while a unit is BUSY every host access to it is refused, but for reading its STATUS and the START write,
which is ignored (R61). -/
def Obligations.HostAccessToARunningUnitIsRefused : Prop :=
  ∀ (s : State) (u : UnitId), s.busy u →
    (∀ w : RegWrite, w.unit = u → w.isStart = false → hostAction (.write w) s = .refused (.hostAccessWhileBusy u)) ∧
    (∀ b a bytes, b.name.unit = u → hostAction (.writeBuf b a bytes) s = .refused (.hostAccessWhileBusy u)) ∧
    (∀ b a n, BufName.unit b = u → hostAction (.readBuf b a n) s = .refused (.hostAccessWhileBusy u)) ∧
    (∀ r : RegName, r.unit = u → r ≠ .status u → hostAction (.readReg r) s = .refused (.hostAccessWhileBusy u)) ∧
    (∀ src a n dst a', BufName.unit src = u ∨ dst.name.unit = u →
      ∃ v, s.busy v ∧ hostAction (.copyBuf src a n dst a') s = .refused (.hostAccessWhileBusy v)) ∧
    (∃ t, hostAction (.readReg (.status u)) s = .next t ∧ t.hostLog = .num 1 :: s.hostLog ∧
      (∀ v, SameUnit v t s) ∧ t.host = s.host ∧ t.sched = s.sched) ∧
    ∀ (w : RegWrite) (rest : List HostAction), w.startOf = some u → s.host = .write w :: rest →
      agentStep .host s = .next { s with host := rest }

/-- R19, R49, R252: while a unit is not BUSY the host loads bytes into its input buffers, at their addresses and nowhere
else, and reads its buffers, byte by byte what they hold; no read changes anything but the log. -/
def Obligations.HostLoadsAndReadsBuffersOfARestingUnit : Prop :=
  (∀ (s : State) (b : InBuf) (a : Nat) (bytes : List Byte), ¬ s.busy b.name.unit →
    ∃ t, hostAction (.writeBuf b a bytes) s = .next t ∧ OthersKept b.name.unit s t ∧ (∀ u, t.shell u = s.shell u) ∧
      (∀ k, k < bytes.length → (t.buf b.name).read (a + k) = bytes[k]?) ∧
      KeptOutside (s.buf b.name) (t.buf b.name) a bytes.length ∧
      (∀ b', b' ≠ b.name → t.buf b' = s.buf b') ∧
      ∀ r : RegName, t.readReg r = s.readReg r) ∧
  ∀ (s : State) (b : BufName) (a n : Nat) (bytes : List Byte), ¬ s.busy b.unit → (s.buf b).load a n = .ok bytes →
    ∃ t, hostAction (.readBuf b a n) s = .next t ∧ t.hostLog = .bytes bytes :: s.hostLog ∧ (∀ u, SameUnit u t s) ∧
      t.host = s.host ∧ t.sched = s.sched ∧
      ((s.buf b).wf → bytes.length = n ∧ ∀ k, k < n → bytes[k]? = (s.buf b).read (a + k))

/-- R45, R54: with neither unit running, the host copies bytes of one buffer into an input buffer; no other byte
changes. -/
def Obligations.HostCopiesOneBufferIntoAnother : Prop :=
  ∀ (s : State) (src : BufName) (a n : Nat) (dst : InBuf) (a' : Nat) (bytes : List Byte),
    ¬ s.busy src.unit → ¬ s.busy dst.name.unit → (s.buf src).wf → (s.buf src).load a n = .ok bytes →
    ∃ t, hostAction (.copyBuf src a n dst a') s = .next t ∧ OthersKept dst.name.unit s t ∧
      (∀ k, k < n → (t.buf dst.name).read (a' + k) = (s.buf src).read (a + k)) ∧
      KeptOutside (s.buf dst.name) (t.buf dst.name) a' n ∧ (∀ b, b ≠ dst.name → t.buf b = s.buf b) ∧
      ∀ r : RegName, t.readReg r = s.readReg r

/-- R18: a host write of a parameter register, its unit not BUSY, sets that register and no other register or buffer. -/
def Obligations.HostWritesOneParameterRegister : Prop :=
  ∀ s : State,
    (¬ s.busy .lzd → ∀ v, hostAction (.write (.lzdInLen v)) s = .next { s with lzd := { s.lzd with inLen := v } }) ∧
    (¬ s.busy .tiu → ∀ v,
      hostAction (.write (.tiuTilesLen v)) s = .next { s with tiu := { s.tiu with tilesLen := v } } ∧
      hostAction (.write (.tiuPalLen v)) s = .next { s with tiu := { s.tiu with palLen := v } }) ∧
    (¬ s.busy .gbc →
      (∀ v, hostAction (.write (.gbcMode v)) s = .next { s with gbc := { s.gbc with mode := v } }) ∧
      (∀ v, hostAction (.write (.gbcCpMin v)) s = .next { s with gbc := { s.gbc with cpMin := v } } ∧
        hostAction (.write (.gbcCpMax v)) s = .next { s with gbc := { s.gbc with cpMax := v } } ∧
        hostAction (.write (.gbcWidth v)) s = .next { s with gbc := { s.gbc with width := v } }) ∧
      (∀ v, hostAction (.write (.gbcSrcLen v)) s = .next { s with gbc := { s.gbc with srcLen := v } } ∧
        hostAction (.write (.gbcOldLen v)) s = .next { s with gbc := { s.gbc with oldLen := v } })) ∧
    (¬ s.busy .ssr → ∀ v, hostAction (.write (.ssrRawLen v)) s = .next { s with ssr := { s.ssr with rawLen := v } })

/-- R13: the numbers the host reads from STATUS, ERRCLASS and, for no cause, ERRCAUSE; that a unit's triple reads as
those numbers; and the derived predicate TRUNCATED. -/
def Obligations.StatusRegistersReadAsNumbered : Prop :=
  (Status.idle.code = 0 ∧ Status.busy.code = 1 ∧ Status.done.code = 2 ∧ Status.error.code = 3) ∧
  (ErrClass.none.code = 0 ∧ ErrClass.format.code = 1 ∧ ErrClass.range.code = 2 ∧ ErrClass.skippable.code = 3 ∧
    ErrClass.platform.code = 4) ∧
  Cause.none.code = 0 ∧
  ∀ s : State, (s.truncated = true ↔ s.lzd.shell.status = .done ∧ s.lzd.outPos.toNat < s.lzd.size.toNat) ∧
    ∀ u, s.readReg (.status u) = .num (s.shell u).status.code.toNat ∧
      s.readReg (.errClass u) = .num (s.shell u).errClass.code.toNat ∧
      s.readReg (.errCause u) = .num (s.shell u).errCause.code.toNat

/-! ## The whole machine -/

/-- R2: a unit's step leaves every other unit, the host's list, the schedule and the log alone, and what it does to its
unit depends on that unit alone. -/
def Obligations.UnitsNeitherReadNorWriteEachOther : Prop :=
  (∀ (s t : State) (u : UnitId), agentStep (.unit u) s = .next t → OthersKept u s t) ∧
  ∀ (s s' t : State) (u : UnitId), SameUnit u s s' → agentStep (.unit u) s = .next t →
    ∃ t', agentStep (.unit u) s' = .next t' ∧ SameUnit u t t'

/-- R53: the steps of two different units commute: in either order they reach the same state. -/
def Obligations.StepsOfDifferentUnitsCommute : Prop :=
  ∀ (s t t' : State) (u v : UnitId), u ≠ v → agentStep (.unit u) s = .next t → agentStep (.unit v) s = .next t' →
    ∃ r, agentStep (.unit v) t = .next r ∧ agentStep (.unit u) t' = .next r

/-- R18, R41: no step of a unit changes a parameter register or an input buffer. -/
def Obligations.UnitsNeverWriteParametersOrInputs : Prop :=
  ∀ (s t : State) (u : UnitId), agentStep (.unit u) s = .next t →
    (∀ b : InBuf, t.buf b.name = s.buf b.name) ∧ t.lzd.inLen = s.lzd.inLen ∧ t.tiu.tilesLen = s.tiu.tilesLen ∧
    t.tiu.palLen = s.tiu.palLen ∧ t.gbc.mode = s.gbc.mode ∧ t.gbc.cpMin = s.gbc.cpMin ∧ t.gbc.cpMax = s.gbc.cpMax ∧
    t.gbc.width = s.gbc.width ∧ t.gbc.srcLen = s.gbc.srcLen ∧ t.gbc.oldLen = s.gbc.oldLen ∧
    t.ssr.rawLen = s.ssr.rawLen

/-- The invariant holds at reset. -/
def Obligations.InvariantHoldsAtReset : Prop := Inv State.reset

/-- Every step keeps the invariant: buffers in canonical form, status triples consistent, the registers of a running unit
within the bounds the unit's rules derive, LZD's dictionary written and its tail zero, entry 0 transparent. -/
def Obligations.EveryStepKeepsTheInvariant : Prop := ∀ s t : State, Inv s → step s = .next t → Inv t

/-- R254: a BUSY unit whose input the host has loaded is never stuck: from every state that meets the invariant its step
answers a next state, with no fault and no refusal. -/
def Obligations.ABusyUnitIsNeverStuck : Prop :=
  ∀ (s : State) (u : UnitId), Inv s → s.busy u → s.loaded u → ∃ t, agentStep (.unit u) s = .next t

/-- R254: every operation on loaded input ends after finitely many steps: TIU within TILES_LEN + 19, GBC within
SRC_LEN + 3 in the encode modes and COUNT + 2 in decode, SSR within 31. -/
def Obligations.EveryOperationEnds : Prop :=
  ∀ s : State, Inv s →
    (s.busy .lzd → s.loaded .lzd → ∃ n t, unitSteps .lzd n s = .next t ∧ t.ended .lzd) ∧
    (s.busy .tiu → s.loaded .tiu → s.tiu.phase = .check →
      ∃ t, unitSteps .tiu (s.tiu.tilesLen + 19) s = .next t ∧ t.ended .tiu) ∧
    (s.busy .gbc → s.loaded .gbc → s.gbc.phase = .check → s.gbc.mode ≠ 0 →
      ∃ t, unitSteps .gbc (s.gbc.srcLen + 3) s = .next t ∧ t.ended .gbc) ∧
    (s.busy .gbc → s.loaded .gbc → s.gbc.phase = .check → s.gbc.mode = 0 → ∃ n t,
      unitSteps .gbc n s = .next t ∧ t.ended .gbc ∧ n ≤ t.gbc.count.toNat + 2) ∧
    (s.busy .ssr → s.loaded .ssr → s.ssr.phase = .check → ∃ t, unitSteps .ssr 31 s = .next t ∧ t.ended .ssr)

/-- When the bytes at a running unit's cursor decode to an instruction, a step scheduled for that unit is `exec` of it at
that state; a text line's runs with SRC_POS moved past the line, and a glyph record's sixteen rows run in order, then
the glyph cursor moves (log entry 24). (Which agent a step moves is the model's choice, log entry 8.) -/
def Obligations.AStepRunsTheDecodedInstruction : Prop :=
  ∀ (s : State) (bytes : List Byte) (i : Instr),
    (s.busy .lzd → s.lzd.phase = .hdr → 4 ≤ s.lzd.inLen → s.lzd.inBuf.load 0 4 = .ok bytes →
      decode .lzHeader bytes = .ok i → step (s.scheduled (.unit .lzd)) = exec i s) ∧
    (s.busy .lzd → s.lzd.phase = .token → s.lzd.outPos.toNat < s.lzd.size.toNat →
      (s.lzd.bitsLeft = 0 → s.lzd.inPos < s.lzd.inLen → s.lzd.inBuf.load s.lzd.inPos 1 = .ok bytes →
        decode .lzControl bytes = .ok i → step (s.scheduled (.unit .lzd)) = exec i s) ∧
      (s.lzd.bitsLeft ≠ 0 → s.lzd.ctrl.getLsbD 7 = false → s.lzd.inPos < s.lzd.inLen →
        s.lzd.inBuf.load s.lzd.inPos 1 = .ok bytes → decode (.lzToken false) bytes = .ok i →
        step (s.scheduled (.unit .lzd)) = exec i s) ∧
      (s.lzd.bitsLeft ≠ 0 → s.lzd.ctrl.getLsbD 7 = true → s.lzd.inPos + 2 ≤ s.lzd.inLen →
        s.lzd.inBuf.load s.lzd.inPos 2 = .ok bytes → decode (.lzToken true) bytes = .ok i →
        step (s.scheduled (.unit .lzd)) = exec i s)) ∧
    (s.busy .tiu → s.tiu.phase = .tiles → s.tiu.k < s.tiu.tilesLen → s.tiu.tiles.load s.tiu.k 1 = .ok bytes →
      decode .tile bytes = .ok i → step (s.scheduled (.unit .tiu)) = exec i s) ∧
    (s.busy .tiu → s.tiu.phase = .palette → s.tiu.pi.toNat < 16 →
      s.tiu.pal.load (2 * s.tiu.pi.toNat) 2 = .ok bytes → decode .palette bytes = .ok i →
      step (s.scheduled (.unit .tiu)) = exec i s) ∧
    (s.busy .gbc → s.gbc.phase = .check → s.gbc.mode = 0 → 8 ≤ s.gbc.srcLen → s.gbc.src.load 0 8 = .ok bytes →
      decode .glyphHeader bytes = .ok i → step (s.scheduled (.unit .gbc)) = exec i s) ∧
    (s.busy .gbc → s.gbc.phase = .merge → 8 ≤ s.gbc.oldLen → s.gbc.old.load 0 8 = .ok bytes →
      decode .glyphHeader bytes = .ok i → step (s.scheduled (.unit .gbc)) = exec i s) ∧
    (s.busy .gbc → s.gbc.phase = .parse → s.gbc.srcPos < s.gbc.srcLen →
      s.gbc.src.lineAt s.gbc.srcPos (s.gbc.srcLen - s.gbc.srcPos) = .ok bytes →
      decode (if s.gbc.mode = 1 then .hexText else .bdfText s.gbc.pstate) bytes = .ok i →
      step (s.scheduled (.unit .gbc)) =
        exec i (s.setGbc { s.gbc with srcPos := min (s.gbc.srcPos + bytes.length + 1) s.gbc.srcLen })) ∧
    (s.busy .gbc → s.gbc.phase = .decode → s.gbc.g ≠ s.gbc.count →
      s.gbc.src.load (8 + s.gbc.g.toNat * s.gbc.recSize.toNat) s.gbc.recSize.toNat = .ok bytes →
      (s.gbc.recSize = 16 → (∀ r b, bytes[r]? = some b → decode (.glyphRow8 (Fin.ofNat 16 r)) [b] =
          .ok (.glyRow8 (Fin.ofNat 16 r) b) ∧ (rows8 0 bytes)[r]? = some (.glyRow8 (Fin.ofNat 16 r) b)) ∧
        step (s.scheduled (.unit .gbc)) = andThen (execAll (rows8 0 bytes) s) gbcGlyphEnd) ∧
      (s.gbc.recSize ≠ 16 → (∀ (r : Nat) (b0 b1 : Byte), bytes[2 * r]? = some b0 → bytes[2 * r + 1]? = some b1 →
          decode (.glyphRow16 (Fin.ofNat 16 r)) [b0, b1] = .ok (.glyRow16 (Fin.ofNat 16 r) (b1 ++ b0)) ∧
          (rows16 0 bytes)[r]? = some (.glyRow16 (Fin.ofNat 16 r) (b1 ++ b0))) ∧
        step (s.scheduled (.unit .gbc)) = andThen (execAll (rows16 0 bytes) s) gbcGlyphEnd)) ∧
    (s.busy .ssr → s.ssr.phase = .gather → s.ssr.p ≠ 28 → s.ssr.raw.load (0x1000 * s.ssr.p.toNat) 0x1000 = .ok bytes →
      decode .sector bytes = .ok i → step (s.scheduled (.unit .ssr)) = exec i s) ∧
    ∀ (w : RegWrite) (u : UnitId) (rest : List HostAction) (c : BitVec 4), s.host = .write w :: rest →
      w.startOf = some u → commandCode s u = c → decode .command [(0 : BitVec 4) ++ c] = .ok i →
      step (s.scheduled .host) = exec i { s with host := rest }

/-- A step moves the agent at the head of the schedule; with no schedule, the first BUSY unit in the order LZD, TIU, GBC,
SSR, else the host; and a block with no running unit and no host action rests. The order is the model's choice (log entry
8); R53 lets any order. -/
def Obligations.AStepMovesTheScheduledAgent : Prop :=
  ∀ s : State,
    (∀ a rest, s.sched = a :: rest → step s = agentStep a { s with sched := rest }) ∧
    (s.sched = [] →
      (s.busy .lzd → step s = agentStep (.unit .lzd) s) ∧
      (¬ s.busy .lzd → s.busy .tiu → step s = agentStep (.unit .tiu) s) ∧
      (¬ s.busy .lzd → ¬ s.busy .tiu → s.busy .gbc → step s = agentStep (.unit .gbc) s) ∧
      (¬ s.busy .lzd → ¬ s.busy .tiu → ¬ s.busy .gbc → s.busy .ssr → step s = agentStep (.unit .ssr) s) ∧
      ((∀ u, ¬ s.busy u) → step s = agentStep .host s) ∧
      ((∀ u, ¬ s.busy u) → s.host = [] → step s = .next s))

/-! ## Statements added beside the ones above -/

/-- R13 to R18, R19, R49: a host read of a register whose unit is not BUSY logs the register's value and changes nothing
else; and the value of every register the host reads. PHASE, PSTATE and CHARSET are read by name (log entry 15). -/
def Obligations.HostReadsEveryRegisterOfARestingUnit : Prop :=
  ∀ s : State,
    (∀ r : RegName, ¬ s.busy r.unit →
      ∃ t, hostAction (.readReg r) s = .next t ∧ t.hostLog = s.readReg r :: s.hostLog ∧ (∀ u, SameUnit u t s) ∧
        t.host = s.host ∧ t.sched = s.sched) ∧
    (s.readReg .lzdInLen = .num s.lzd.inLen ∧ s.readReg .lzdSize = .num s.lzd.size.toNat ∧
      s.readReg .lzdInPos = .num s.lzd.inPos ∧ s.readReg .lzdOutPos = .num s.lzd.outPos.toNat ∧
      s.readReg .lzdCtrl = .num s.lzd.ctrl.toNat ∧ s.readReg .lzdBitsLeft = .num s.lzd.bitsLeft.toNat ∧
      s.readReg .lzdCopyLeft = .num s.lzd.copyLeft.toNat ∧ s.readReg .lzdCopyDisp = .num s.lzd.copyDisp.toNat ∧
      s.readReg .lzdPhase = .lzdPhase s.lzd.phase) ∧
    (s.readReg .tiuTilesLen = .num s.tiu.tilesLen ∧ s.readReg .tiuPalLen = .num s.tiu.palLen ∧
      s.readReg .tiuCount = .num s.tiu.count ∧ s.readReg .tiuWT = .num s.tiu.wT.toNat ∧
      s.readReg .tiuHT = .num s.tiu.hT ∧ s.readReg .tiuK = .num s.tiu.k ∧ s.readReg .tiuPi = .num s.tiu.pi.toNat ∧
      s.readReg .tiuPhase = .tiuPhase s.tiu.phase) ∧
    (s.readReg .gbcMode = .num s.gbc.mode.toNat ∧ s.readReg .gbcCpMin = .num s.gbc.cpMin.toNat ∧
      s.readReg .gbcCpMax = .num s.gbc.cpMax.toNat ∧ s.readReg .gbcWidth = .num s.gbc.width.toNat ∧
      s.readReg .gbcSrcLen = .num s.gbc.srcLen ∧ s.readReg .gbcOldLen = .num s.gbc.oldLen ∧
      s.readReg .gbcCount = .num s.gbc.count.toNat ∧ s.readReg .gbcRecSize = .num s.gbc.recSize.toNat ∧
      s.readReg .gbcSrcPos = .num s.gbc.srcPos ∧ s.readReg .gbcG = .num s.gbc.g.toNat ∧
      s.readReg .gbcPstate = .pstate s.gbc.pstate ∧ s.readReg .gbcCharset = .charset s.gbc.charset ∧
      s.readReg .gbcCurCp = .num s.gbc.curCp.toNat ∧ s.readReg .gbcRowIdx = .num s.gbc.rowIdx.toNat ∧
      s.readReg .gbcHdrStart = .num s.gbc.hdrStart.toNat ∧ s.readReg .gbcHdrCount = .num s.gbc.hdrCount.toNat ∧
      s.readReg .gbcHdrWidth = .num s.gbc.hdrWidth.toNat ∧ s.readReg .gbcHdrRows = .num s.gbc.hdrRows.toNat ∧
      s.readReg .gbcTblLen = .num s.gbc.tblLen ∧ s.readReg .gbcPixLen = .num s.gbc.pixLen ∧
      s.readReg .gbcPhase = .gbcPhase s.gbc.phase) ∧
    (s.readReg .ssrRawLen = .num s.ssr.rawLen ∧ s.readReg .ssrP = .num s.ssr.p.toNat ∧
      s.readReg .ssrCntA = .num s.ssr.cntA.toNat ∧ s.readReg .ssrCntB = .num s.ssr.cntB.toNat ∧
      s.readReg .ssrFirst = .num s.ssr.first.toNat ∧ s.readReg .ssrOutLen = .num s.ssr.outLen ∧
      s.readReg .ssrPhase = .ssrPhase s.ssr.phase) ∧
    ∀ u, s.readReg (.status u) = .num (s.shell u).status.code.toNat ∧
      s.readReg (.errClass u) = .num (s.shell u).errClass.code.toNat ∧
      s.readReg (.errCause u) = .num (s.shell u).errCause.code.toNat

/-- R80, R81, R159: stripping drops one carriage return at the end, if present, then all spaces and tabs at either end,
and nothing else; which bytes are hex digits and what numbers they spell; a line `C:P` with 1 to 8 hex digits, one
colon, and 32 or 64 hex digits is a hex-row line with the code point C spells and the bytes P spells, two digits each;
every other non-empty line is unrecognised, and a line that is empty once stripped is ignored. -/
def Obligations.HexLineIsAcceptedInItsOneForm : Prop :=
  lineFeed = 0x0A ∧ colon = 0x3A ∧
  (∀ lead body tail : List Byte, (∀ b ∈ lead ++ tail, Blank b) → Trimmed body →
    let text := lead ++ body ++ tail
    stripLine (text ++ [0x0D]) = body ∧ (text.getLast? ≠ some 0x0D → stripLine text = body)) ∧
  (∀ (b : Byte) (d : Nibble), hexDigit? b = some d ↔
    (d.toNat < 10 ∧ b.toNat = 0x30 + d.toNat) ∨
      (10 ≤ d.toNat ∧ (b.toNat = 0x41 + (d.toNat - 10) ∨ b.toNat = 0x61 + (d.toNat - 10)))) ∧
  hexValue [] = 0 ∧ (∀ (ds : List Nibble) (d : Nibble), hexValue (ds ++ [d]) = 16 * hexValue ds + d.toNat) ∧
  ∀ raw : List Byte, lineFeed ∉ raw →
    let digits := fun (bs : List Byte) (ds : List Nibble) =>
      ds.length = bs.length ∧ ∀ (k : Nat) (b : Byte), bs[k]? = some b → hexDigit? b = ds[k]?
    let accepted := fun (cs ps : List Byte) (ds es : List Nibble) =>
      stripLine raw = cs ++ colon :: ps ∧ digits cs ds ∧ digits ps es ∧
        1 ≤ cs.length ∧ cs.length ≤ 8 ∧ (ps.length = 32 ∨ ps.length = 64)
    (stripLine raw = [] → decode .hexText raw = .error .emptyLine) ∧
    (∀ cs ps ds es, accepted cs ps ds es →
      ∃ (cp : BitVec 32) (payload : List Byte), decode .hexText raw = .ok (.hexLine cp payload) ∧
        cp.toNat = hexValue ds ∧ 2 * payload.length = ps.length ∧
        ∀ (j : Nat) (h l : Nibble), es[2 * j]? = some h → es[2 * j + 1]? = some l → payload[j]? = some (h ++ l)) ∧
    (stripLine raw ≠ [] → (¬ ∃ cs ps ds es, accepted cs ps ds es) →
      decode .hexText raw = .error .unrecognisedLine)

/-- R82, R167: the operand of an ENCODING line is its second token; it is a code when that is one or more decimal digits
that spell a number below 2^32, and none when it is missing, has another byte (such as a minus sign) or spells more.
The second token starts after all the spaces and tabs. What follows the second token is ignored (log entry 16). -/
def Obligations.EncodingOperandIsADecimalCode : Prop :=
  (∀ lead rest : List Byte, (∀ b ∈ lead, Blank b) → (∀ b ∈ rest.head?, ¬ Blank b) → trimStart (lead ++ rest) = rest) ∧
  ∀ raw : List Byte, lineFeed ∉ raw → firstToken (stripLine raw) = kwEncoding →
    ∀ tok : List Byte, tok = firstToken (trimStart (afterToken (stripLine raw))) →
      let value := tok.foldl (fun v b => 10 * v + (b.toNat - 0x30)) 0
      let isNumber := tok ≠ [] ∧ ∀ b ∈ tok, 0x30 ≤ b.toNat ∧ b.toNat ≤ 0x39
      (isNumber → value < 2 ^ 32 →
        decode (.bdfText .scanning) raw = .ok (.bdfEncoding (some (BitVec.ofNat 32 value)))) ∧
      (¬ isNumber ∨ 2 ^ 32 ≤ value → decode (.bdfText .scanning) raw = .ok (.bdfEncoding none))
end

