-- ==== Sys2Proof/Laws/Memory.lean ====
section
/-!
SUPPORT. What buffer reads and writes do: one lemma per operation (R6, R40, R49, R52), and that every write keeps the
canonical form.
-/

namespace Sys2Proof.Machine

@[simp] theorem Memory.read_nil (a : Nat) : Memory.read [] a = none := rfl

theorem Memory.read_cons (k : Nat) (v : Byte) (m : Memory) (a : Nat) :
    Memory.read ((k, v) :: m) a = if k = a then some v else m.read a := rfl

@[simp] theorem Memory.cells_nil (a : Nat) : Memory.cells a [] = [] := rfl

@[simp] theorem Memory.cells_cons (a : Nat) (v : Byte) (vs : List Byte) :
    Memory.cells a (v :: vs) = (a, v) :: Memory.cells (a + 1) vs := by
  simp [Memory.cells, List.zipIdx_cons]

theorem Memory.read_append (m1 m2 : Memory) (a : Nat) :
    Memory.read (m1 ++ m2) a = (m1.read a).or (m2.read a) := by
  induction m1 with
  | nil => simp
  | cons c m1 ih =>
    obtain ⟨k, v⟩ := c
    simp only [List.cons_append, Memory.read_cons]
    split <;> simp [ih]

/-- Keeping the cells whose address satisfies `p` keeps the reads at such addresses and no other. -/
theorem Memory.read_filter (p : Nat → Bool) (m : Memory) (a : Nat) :
    Memory.read (m.filter fun c => p c.1) a = if p a then m.read a else none := by
  induction m with
  | nil => simp
  | cons c m ih =>
    obtain ⟨k, v⟩ := c
    simp only [List.filter_cons, Memory.read_cons]
    by_cases hk : k = a
    · subst hk
      by_cases hp : p k <;> simp [hp, ih, Memory.read_cons]
    · by_cases hp : p k <;> simp [hp, ih, hk, Memory.read_cons]

theorem Memory.read_cells (b : Nat) (bytes : List Byte) (a : Nat) :
    Memory.read (Memory.cells b bytes) a = if b ≤ a then bytes[a - b]? else none := by
  induction bytes generalizing b with
  | nil => simp
  | cons v vs ih =>
    simp only [Memory.cells_cons, Memory.read_cons, ih]
    by_cases h : b = a
    · simp [h]
    · by_cases h1 : b ≤ a
      · have h2 : a - b = (a - (b + 1)) + 1 := by omega
        have h3 : b + 1 ≤ a := by omega
        simp [h, h1, h3, h2]
      · have h3 : ¬ b + 1 ≤ a := by omega
        simp [h, h1, h3]

/-- A read after a write: the byte written inside the written bytes, the old byte outside (R52). -/
theorem Memory.read_store (m : Memory) (b : Nat) (bytes : List Byte) (a : Nat) :
    (m.store b bytes).read a = if b ≤ a ∧ a < b + bytes.length then bytes[a - b]? else m.read a := by
  have h1 := Memory.read_filter (fun k => decide (k < b)) m a
  have h2 := Memory.read_filter (fun k => decide (b + bytes.length ≤ k)) m a
  simp only [Memory.store, Memory.read_append, h1, h2, Memory.read_cells]
  by_cases ha : b ≤ a
  · by_cases hb : a < b + bytes.length
    · have h3 : a - b < bytes.length := by omega
      have h4 : ¬ a < b := by omega
      simp [ha, hb, h4, h3]
    · have h3 : bytes[a - b]? = none := by simp; omega
      have h4 : ¬ a < b := by omega
      have h5 : b + bytes.length ≤ a := by omega
      simp [ha, hb, h4, h3, h5]
  · have h4 : a < b := by omega
    have h5 : ¬ b + bytes.length ≤ a := by omega
    simp [ha, h4, h5]

/-- Outside the written bytes every address reads as before. -/
theorem Memory.read_store_outside (m : Memory) (b : Nat) (bytes : List Byte) (a : Nat)
    (h : a < b ∨ b + bytes.length ≤ a) : (m.store b bytes).read a = m.read a := by
  rw [Memory.read_store, if_neg (by omega)]

@[simp] theorem Memory.read_zero (m : Memory) (b n a : Nat) :
    (m.zero b n).read a = if b ≤ a ∧ a < b + n then some 0 else m.read a := by
  rw [Memory.zero, Memory.read_store]
  simp only [List.length_replicate, List.getElem?_replicate]
  split
  · rw [if_pos (by omega)]
  · rfl

/-- No write makes a byte lose its value. -/
theorem Memory.read_store_ne_none (m : Memory) (b : Nat) (bytes : List Byte) (a : Nat) (h : m.read a ≠ none) :
    (m.store b bytes).read a ≠ none := by
  rw [Memory.read_store]
  split
  · simp; omega
  · exact h

/-! ## The canonical form -/

@[simp] theorem Memory.wf_nil : Memory.wf [] := List.Pairwise.nil

theorem Memory.cells_bounds (b : Nat) (bytes : List Byte) :
    ∀ c ∈ Memory.cells b bytes, b ≤ c.1 ∧ c.1 < b + bytes.length := by
  induction bytes generalizing b with
  | nil => simp
  | cons v vs ih =>
    intro c hc
    simp only [Memory.cells_cons, List.mem_cons] at hc
    rcases hc with rfl | hc
    · simp
    · have := ih (b + 1) c hc
      simp only [List.length_cons]
      omega

theorem Memory.cells_wf (b : Nat) (bytes : List Byte) : (Memory.cells b bytes).wf := by
  induction bytes generalizing b with
  | nil => simp
  | cons v vs ih =>
    simp only [Memory.wf, Memory.cells_cons, List.pairwise_cons]
    refine ⟨fun c hc => ?_, ih (b + 1)⟩
    have := Memory.cells_bounds (b + 1) vs c hc
    show b < c.1
    omega

/-- A write keeps the canonical form. -/
theorem Memory.store_wf (m : Memory) (b : Nat) (bytes : List Byte) (h : m.wf) : (m.store b bytes).wf := by
  simp only [Memory.wf, Memory.store, List.pairwise_append]
  refine ⟨⟨h.filter _, Memory.cells_wf b bytes, ?_⟩, h.filter _, ?_⟩
  · intro x hx y hy
    have := Memory.cells_bounds b bytes y hy
    simp only [List.mem_filter, decide_eq_true_eq] at hx
    omega
  · intro x hx y hy
    simp only [List.mem_filter, decide_eq_true_eq] at hy
    rcases List.mem_append.mp hx with hx | hx
    · simp only [List.mem_filter, decide_eq_true_eq] at hx
      omega
    · have := Memory.cells_bounds b bytes x hx
      omega

theorem Memory.zero_wf (m : Memory) (b n : Nat) (h : m.wf) : (m.zero b n).wf := Memory.store_wf m b _ h

/-! ## Block reads -/

/-- In a memory whose addresses rise from above `a`, address `a` holds no value. -/
theorem Memory.read_eq_none_of_lt (m : Memory) (a : Nat) (h : ∀ c ∈ m, a < c.1) : m.read a = none := by
  induction m with
  | nil => rfl
  | cons c m ih =>
    obtain ⟨k, v⟩ := c
    have hk : a < k := h (k, v) (by simp)
    rw [Memory.read_cons, if_neg (by omega)]
    exact ih fun c hc => h c (by simp [hc])

/-- A block read answers exactly the bytes of its addresses, each of which holds a value (R6, R21). -/
theorem Memory.load_eq_ok (m : Memory) (a n : Nat) (bytes : List Byte) (hm : m.wf) :
    m.load a n = .ok bytes ↔ bytes.length = n ∧ ∀ k, k < n → m.read (a + k) = bytes[k]? := by
  induction m generalizing a n bytes with
  | nil =>
    cases n with
    | zero => cases bytes <;> simp [Memory.load]
    | succ n =>
      simp only [Memory.load, reduceCtorEq, false_iff, not_and]
      intro hl h
      have h0 := h 0 (by omega)
      have : bytes ≠ [] := by rintro rfl; simp at hl
      cases bytes <;> simp_all
  | cons c m ih =>
    obtain ⟨k, v⟩ := c
    have hm' : Memory.wf m := (List.pairwise_cons.mp hm).2
    have hlt : ∀ c ∈ m, k < c.1 := (List.pairwise_cons.mp hm).1
    cases n with
    | zero => cases bytes <;> simp [Memory.load]
    | succ n =>
      simp only [Memory.load]
      by_cases h1 : k < a
      · rw [if_pos h1, ih a (n + 1) bytes hm']
        have : ∀ j, Memory.read ((k, v) :: m) (a + j) = Memory.read m (a + j) := fun j => by
          rw [Memory.read_cons, if_neg (by omega)]
        simp [this]
      · rw [if_neg h1]
        by_cases h2 : k = a
        · subst h2
          rw [if_pos rfl]
          constructor
          · intro h
            cases hl : Memory.load m (k + 1) n with
            | error e => simp [hl] at h
            | ok vs =>
              simp only [hl, Except.ok.injEq] at h
              subst h
              obtain ⟨h3, h4⟩ := (ih (k + 1) n vs hm').mp hl
              refine ⟨by simp [h3], fun j hj => ?_⟩
              cases j with
              | zero => simp [Memory.read_cons]
              | succ j =>
                rw [Memory.read_cons, if_neg (by omega)]
                have := h4 j (by omega)
                simpa [← Nat.add_assoc, Nat.add_right_comm] using this
          · rintro ⟨h3, h4⟩
            cases bytes with
            | nil => simp at h3
            | cons b bs =>
              have h0 : v = b := by simpa [Memory.read_cons] using h4 0 (by omega)
              have hl : Memory.load m (k + 1) n = .ok bs := (ih (k + 1) n bs hm').mpr
                ⟨by simpa using h3, fun j hj => by
                  have := h4 (j + 1) (by omega)
                  rw [Memory.read_cons, if_neg (by omega)] at this
                  simpa [← Nat.add_assoc, Nat.add_right_comm] using this⟩
              simp [hl, h0]
        · rw [if_neg h2]
          simp only [reduceCtorEq, false_iff, not_and]
          intro h3 h4
          have h5 := h4 0 (by omega)
          rw [Nat.add_zero, Memory.read_cons, if_neg h2,
            Memory.read_eq_none_of_lt m a fun c hc => by have := hlt c hc; omega] at h5
          cases bytes <;> simp_all

/-- A one-byte block read (R49). -/
theorem Memory.load_one (m : Memory) (a : Nat) (v : Byte) (hm : m.wf) :
    m.load a 1 = .ok [v] ↔ m.read a = some v := by
  rw [Memory.load_eq_ok m a 1 [v] hm]
  constructor
  · rintro ⟨-, h⟩
    simpa using h 0 (by omega)
  · intro h
    refine ⟨rfl, fun k hk => ?_⟩
    have : k = 0 := by omega
    simp [this, h]

/-- Written bytes can be read as a block. -/
theorem Memory.load_isOk (m : Memory) (a n : Nat) (hm : m.wf) (h : ∀ k, k < n → m.read (a + k) ≠ none) :
    ∃ bytes, m.load a n = .ok bytes ∧ bytes.length = n := by
  refine ⟨(List.range n).map fun k => (m.read (a + k)).getD 0, ?_, by simp⟩
  rw [Memory.load_eq_ok m a n _ hm]
  refine ⟨by simp, fun k hk => ?_⟩
  have := h k hk
  cases hr : m.read (a + k) with
  | none => exact absurd hr this
  | some v => simp [hk, hr]

/-- A line read answers the bytes before the first line feed, at most `n` of them (R155). -/
theorem Memory.lineAt_eq_ok (m : Memory) (a n : Nat) (raw : List Byte) (hm : m.wf) :
    m.lineAt a n = .ok raw ↔
      raw.length ≤ n ∧ (∀ k, k < raw.length → m.read (a + k) = raw[k]?) ∧ lineFeed ∉ raw ∧
        (raw.length < n → m.read (a + raw.length) = some lineFeed) := by
  induction m generalizing a n raw with
  | nil =>
    cases n with
    | zero =>
      simp only [Memory.lineAt, Except.ok.injEq]
      constructor
      · rintro rfl; simp
      · rintro ⟨h, -⟩; exact (List.length_eq_zero_iff.mp (by omega)).symm
    | succ n =>
      simp only [Memory.lineAt, reduceCtorEq, Memory.read_nil, false_iff, not_and]
      intro h1 h2 h3 h4
      have : raw.length = n + 1 := by
        by_contra hne
        exact absurd (h4 (by omega)) (by simp)
      have h0 := h2 0 (by omega)
      cases raw <;> simp_all
  | cons c m ih =>
    obtain ⟨k, v⟩ := c
    have hm' : Memory.wf m := (List.pairwise_cons.mp hm).2
    have hlt : ∀ c ∈ m, k < c.1 := (List.pairwise_cons.mp hm).1
    cases n with
    | zero =>
      simp only [Memory.lineAt, Except.ok.injEq]
      constructor
      · rintro rfl; simp
      · rintro ⟨h, -⟩; exact (List.length_eq_zero_iff.mp (by omega)).symm
    | succ n =>
      simp only [Memory.lineAt]
      by_cases h1 : k < a
      · rw [if_pos h1, ih a (n + 1) raw hm']
        have : ∀ j, Memory.read ((k, v) :: m) (a + j) = Memory.read m (a + j) := fun j => by
          rw [Memory.read_cons, if_neg (by omega)]
        simp [this]
      · rw [if_neg h1]
        by_cases h2 : k = a
        · subst h2
          rw [if_pos rfl]
          by_cases hv : v = lineFeed
          · rw [if_pos hv]
            simp only [Except.ok.injEq]
            constructor
            · rintro rfl
              simp [Memory.read_cons, hv]
            · rintro ⟨-, h4, h5, -⟩
              cases raw with
              | nil => rfl
              | cons b bs =>
                have : v = b := by simpa [Memory.read_cons] using h4 0 (by simp)
                exact absurd (by simp [← this, hv]) h5
          · rw [if_neg hv]
            constructor
            · intro h
              cases hl : Memory.lineAt m (k + 1) n with
              | error e => simp [hl] at h
              | ok vs =>
                simp only [hl, Except.ok.injEq] at h
                subst h
                obtain ⟨h3, h4, h5, h6⟩ := (ih (k + 1) n vs hm').mp hl
                refine ⟨by simp; omega, fun j hj => ?_, ?_, fun hj => ?_⟩
                · cases j with
                  | zero => simp [Memory.read_cons]
                  | succ j =>
                    rw [Memory.read_cons, if_neg (by omega)]
                    have := h4 j (by simpa using hj)
                    simpa [← Nat.add_assoc, Nat.add_right_comm] using this
                · simp only [List.mem_cons, not_or]
                  exact ⟨fun e => hv e.symm, h5⟩
                · have h7 := h6 (by simpa using hj)
                  rw [Memory.read_cons, if_neg (by simp)]
                  simpa [← Nat.add_assoc, Nat.add_right_comm] using h7
            · rintro ⟨h3, h4, h5, h6⟩
              cases raw with
              | nil =>
                have := h6 (by simp)
                simp only [List.length_nil, Nat.add_zero, Memory.read_cons, if_true, Option.some.injEq] at this
                exact absurd this hv
              | cons b bs =>
                have h0 : v = b := by simpa [Memory.read_cons] using h4 0 (by simp)
                have hl : Memory.lineAt m (k + 1) n = .ok bs := (ih (k + 1) n bs hm').mpr
                  ⟨by simpa using h3,
                  fun j hj => by
                    have := h4 (j + 1) (by simpa using hj)
                    rw [Memory.read_cons, if_neg (by omega)] at this
                    simpa [← Nat.add_assoc, Nat.add_right_comm] using this,
                  by simp only [List.mem_cons, not_or] at h5; exact h5.2,
                  fun hj => by
                    have := h6 (by simpa using hj)
                    rw [Memory.read_cons, if_neg (by simp)] at this
                    simpa [← Nat.add_assoc, Nat.add_right_comm] using this⟩
                simp [hl, h0]
        · rw [if_neg h2]
          simp only [reduceCtorEq, false_iff, not_and]
          intro h3 h4 h5 h6
          have h7 : Memory.read ((k, v) :: m) a = none := by
            rw [Memory.read_cons, if_neg h2]
            exact Memory.read_eq_none_of_lt m a fun c hc => by have := hlt c hc; omega
          cases raw with
          | nil => simpa [h7] using h6 (by simp)
          | cons b bs => simpa [h7] using h4 0 (by simp)

end Sys2Proof.Machine
end

