-- ==== Sys2Proof/Laws/State.lean ====
section
/-!
SUPPORT. One lemma per field per update of State, true by rfl, and what error entry, START and reset leave alone; so
that no later proof unfolds a record update.
-/

namespace Sys2Proof.Machine

@[simp] theorem State.setLzd_lzd (s : State) (u : Lzd) : (s.setLzd u).lzd = u := rfl
@[simp] theorem State.setLzd_tiu (s : State) (u : Lzd) : (s.setLzd u).tiu = s.tiu := rfl
@[simp] theorem State.setLzd_gbc (s : State) (u : Lzd) : (s.setLzd u).gbc = s.gbc := rfl
@[simp] theorem State.setLzd_ssr (s : State) (u : Lzd) : (s.setLzd u).ssr = s.ssr := rfl
@[simp] theorem State.setLzd_host (s : State) (u : Lzd) : (s.setLzd u).host = s.host := rfl
@[simp] theorem State.setLzd_sched (s : State) (u : Lzd) : (s.setLzd u).sched = s.sched := rfl
@[simp] theorem State.setLzd_hostLog (s : State) (u : Lzd) : (s.setLzd u).hostLog = s.hostLog := rfl

@[simp] theorem State.setTiu_lzd (s : State) (u : Tiu) : (s.setTiu u).lzd = s.lzd := rfl
@[simp] theorem State.setTiu_tiu (s : State) (u : Tiu) : (s.setTiu u).tiu = u := rfl
@[simp] theorem State.setTiu_gbc (s : State) (u : Tiu) : (s.setTiu u).gbc = s.gbc := rfl
@[simp] theorem State.setTiu_ssr (s : State) (u : Tiu) : (s.setTiu u).ssr = s.ssr := rfl
@[simp] theorem State.setTiu_host (s : State) (u : Tiu) : (s.setTiu u).host = s.host := rfl
@[simp] theorem State.setTiu_sched (s : State) (u : Tiu) : (s.setTiu u).sched = s.sched := rfl
@[simp] theorem State.setTiu_hostLog (s : State) (u : Tiu) : (s.setTiu u).hostLog = s.hostLog := rfl

@[simp] theorem State.setGbc_lzd (s : State) (u : Gbc) : (s.setGbc u).lzd = s.lzd := rfl
@[simp] theorem State.setGbc_tiu (s : State) (u : Gbc) : (s.setGbc u).tiu = s.tiu := rfl
@[simp] theorem State.setGbc_gbc (s : State) (u : Gbc) : (s.setGbc u).gbc = u := rfl
@[simp] theorem State.setGbc_ssr (s : State) (u : Gbc) : (s.setGbc u).ssr = s.ssr := rfl
@[simp] theorem State.setGbc_host (s : State) (u : Gbc) : (s.setGbc u).host = s.host := rfl
@[simp] theorem State.setGbc_sched (s : State) (u : Gbc) : (s.setGbc u).sched = s.sched := rfl
@[simp] theorem State.setGbc_hostLog (s : State) (u : Gbc) : (s.setGbc u).hostLog = s.hostLog := rfl

@[simp] theorem State.setSsr_lzd (s : State) (u : Ssr) : (s.setSsr u).lzd = s.lzd := rfl
@[simp] theorem State.setSsr_tiu (s : State) (u : Ssr) : (s.setSsr u).tiu = s.tiu := rfl
@[simp] theorem State.setSsr_gbc (s : State) (u : Ssr) : (s.setSsr u).gbc = s.gbc := rfl
@[simp] theorem State.setSsr_ssr (s : State) (u : Ssr) : (s.setSsr u).ssr = u := rfl
@[simp] theorem State.setSsr_host (s : State) (u : Ssr) : (s.setSsr u).host = s.host := rfl
@[simp] theorem State.setSsr_sched (s : State) (u : Ssr) : (s.setSsr u).sched = s.sched := rfl
@[simp] theorem State.setSsr_hostLog (s : State) (u : Ssr) : (s.setSsr u).hostLog = s.hostLog := rfl

@[simp] theorem State.popSched_lzd (s : State) : s.popSched.lzd = s.lzd := rfl
@[simp] theorem State.popSched_tiu (s : State) : s.popSched.tiu = s.tiu := rfl
@[simp] theorem State.popSched_gbc (s : State) : s.popSched.gbc = s.gbc := rfl
@[simp] theorem State.popSched_ssr (s : State) : s.popSched.ssr = s.ssr := rfl
@[simp] theorem State.popSched_host (s : State) : s.popSched.host = s.host := rfl
@[simp] theorem State.popSched_sched (s : State) : s.popSched.sched = s.sched.tail := rfl
@[simp] theorem State.popSched_hostLog (s : State) : s.popSched.hostLog = s.hostLog := rfl

@[simp] theorem State.scheduled_lzd (s : State) (a : Agent) : (s.scheduled a).lzd = s.lzd := rfl
@[simp] theorem State.scheduled_tiu (s : State) (a : Agent) : (s.scheduled a).tiu = s.tiu := rfl
@[simp] theorem State.scheduled_gbc (s : State) (a : Agent) : (s.scheduled a).gbc = s.gbc := rfl
@[simp] theorem State.scheduled_ssr (s : State) (a : Agent) : (s.scheduled a).ssr = s.ssr := rfl
@[simp] theorem State.scheduled_host (s : State) (a : Agent) : (s.scheduled a).host = s.host := rfl
@[simp] theorem State.scheduled_sched (s : State) (a : Agent) : (s.scheduled a).sched = a :: s.sched := rfl
@[simp] theorem State.scheduled_hostLog (s : State) (a : Agent) : (s.scheduled a).hostLog = s.hostLog := rfl

@[simp] theorem State.scheduled_popSched (s : State) (a : Agent) : (s.scheduled a).popSched = s := rfl
@[simp] theorem State.log_lzd (s : State) (v : HostValue) : (s.log v).lzd = s.lzd := rfl
@[simp] theorem State.log_tiu (s : State) (v : HostValue) : (s.log v).tiu = s.tiu := rfl
@[simp] theorem State.log_gbc (s : State) (v : HostValue) : (s.log v).gbc = s.gbc := rfl
@[simp] theorem State.log_ssr (s : State) (v : HostValue) : (s.log v).ssr = s.ssr := rfl
@[simp] theorem State.log_host (s : State) (v : HostValue) : (s.log v).host = s.host := rfl
@[simp] theorem State.log_sched (s : State) (v : HostValue) : (s.log v).sched = s.sched := rfl
@[simp] theorem State.log_hostLog (s : State) (v : HostValue) : (s.log v).hostLog = v :: s.hostLog := rfl

@[simp] theorem State.resetUnits_lzd (s : State) : s.resetUnits.lzd = Lzd.reset := rfl
@[simp] theorem State.resetUnits_tiu (s : State) : s.resetUnits.tiu = Tiu.reset := rfl
@[simp] theorem State.resetUnits_gbc (s : State) : s.resetUnits.gbc = Gbc.reset := rfl
@[simp] theorem State.resetUnits_ssr (s : State) : s.resetUnits.ssr = Ssr.reset := rfl
@[simp] theorem State.resetUnits_host (s : State) : s.resetUnits.host = s.host := rfl
@[simp] theorem State.resetUnits_sched (s : State) : s.resetUnits.sched = s.sched := rfl
@[simp] theorem State.resetUnits_hostLog (s : State) : s.resetUnits.hostLog = s.hostLog := rfl

/-! ## The status triple -/

@[simp] theorem State.setShell_shell (s : State) (x : Shell) (u v : UnitId) :
    (s.setShell x u).shell v = if v = u then x else s.shell v := by
  cases u <;> cases v <;> rfl

@[simp] theorem State.setLzd_shell (s : State) (u : Lzd) (v : UnitId) :
    (s.setLzd u).shell v = if v = .lzd then u.shell else s.shell v := by cases v <;> rfl

@[simp] theorem State.setTiu_shell (s : State) (u : Tiu) (v : UnitId) :
    (s.setTiu u).shell v = if v = .tiu then u.shell else s.shell v := by cases v <;> rfl

@[simp] theorem State.setGbc_shell (s : State) (u : Gbc) (v : UnitId) :
    (s.setGbc u).shell v = if v = .gbc then u.shell else s.shell v := by cases v <;> rfl

@[simp] theorem State.setSsr_shell (s : State) (u : Ssr) (v : UnitId) :
    (s.setSsr u).shell v = if v = .ssr then u.shell else s.shell v := by cases v <;> rfl

/-- Error entry (R224): the unit's triple holds ERROR, the class of the cause and the cause. -/
@[simp] theorem State.raise_shell (s : State) (u v : UnitId) (c : Cause) :
    (s.raise u c).shell v =
      if v = u then { status := .error, errClass := c.errClass, errCause := c } else s.shell v := by
  simp [State.raise]

/-- STATUS <- DONE, class and cause as they were. -/
@[simp] theorem State.finish_shell (s : State) (u v : UnitId) :
    (s.finish u).shell v = if v = u then { s.shell u with status := .done } else s.shell v := by
  simp [State.finish]

@[simp] theorem State.raise_lzd (s : State) (c : Cause) :
    s.raise .lzd c = s.setLzd { s.lzd with shell := { status := .error, errClass := c.errClass, errCause := c } } := rfl
@[simp] theorem State.finish_lzd (s : State) :
    s.finish .lzd = s.setLzd { s.lzd with shell := { s.lzd.shell with status := .done } } := rfl
@[simp] theorem State.raise_tiu (s : State) (c : Cause) :
    s.raise .tiu c = s.setTiu { s.tiu with shell := { status := .error, errClass := c.errClass, errCause := c } } := rfl
@[simp] theorem State.finish_tiu (s : State) :
    s.finish .tiu = s.setTiu { s.tiu with shell := { s.tiu.shell with status := .done } } := rfl
@[simp] theorem State.raise_gbc (s : State) (c : Cause) :
    s.raise .gbc c = s.setGbc { s.gbc with shell := { status := .error, errClass := c.errClass, errCause := c } } := rfl
@[simp] theorem State.finish_gbc (s : State) :
    s.finish .gbc = s.setGbc { s.gbc with shell := { s.gbc.shell with status := .done } } := rfl
@[simp] theorem State.raise_ssr (s : State) (c : Cause) :
    s.raise .ssr c = s.setSsr { s.ssr with shell := { status := .error, errClass := c.errClass, errCause := c } } := rfl
@[simp] theorem State.finish_ssr (s : State) :
    s.finish .ssr = s.setSsr { s.ssr with shell := { s.ssr.shell with status := .done } } := rfl

/-- START while BUSY has no effect (R61). -/
theorem State.start_busy (s : State) (u : UnitId) (h : (s.shell u).status = .busy) : s.start u = s := by
  simp [State.start, h]

/-- START out of IDLE, DONE or ERROR sets the triple to BUSY, 0, 0 (R61). -/
theorem State.start_shell (s : State) (u : UnitId) (h : (s.shell u).status ≠ .busy) :
    (s.start u).shell u = Shell.started := by
  cases u <;> simp [State.start, h]

/-- START changes no buffer (R61). -/
@[simp] theorem State.start_buf (s : State) (u : UnitId) (b : BufName) : (s.start u).buf b = s.buf b := by
  unfold State.start
  split
  · rfl
  · cases u <;> cases b <;> rfl

/-- START leaves the other units' triples alone (R2). -/
theorem State.start_shell_other (s : State) (u v : UnitId) (h : v ≠ u) : (s.start u).shell v = s.shell v := by
  unfold State.start
  split
  · rfl
  · cases u <;> cases v <;> first | rfl | exact absurd rfl h

/-- A next state of a buffer read comes from bytes that were read. -/
theorem withBytes_eq_next {α : Type} {b : BufName} {r : Except Nat α} {k : α → Result} {t : State}
    (h : withBytes b r k = .next t) : ∃ x, r = .ok x ∧ k x = .next t := by
  cases r with
  | ok x => exact ⟨x, rfl, h⟩
  | error a => simp [withBytes] at h

/-- A next state of two outcomes in sequence comes through a next state between them. -/
theorem andThen_eq_next {o : Result} {k : State → Result} {t : State} (h : andThen o k = .next t) :
    ∃ s, o = .next s ∧ k s = .next t := by
  cases o with
  | next s => exact ⟨s, rfl, h⟩
  | fault f => simp [andThen] at h
  | refused r => simp [andThen] at h

@[simp] theorem withBytes_ok {α : Type} (b : BufName) (x : α) (k : α → Result) : withBytes b (.ok x) k = k x := rfl

@[simp] theorem andThen_next (s : State) (k : State → Result) : andThen (.next s) k = k s := rfl

/-- An access to a unit that is not running goes ahead (R19). -/
theorem whenNotBusy_idle (s : State) (u : UnitId) (k : Result) (h : (s.shell u).status ≠ .busy) :
    whenNotBusy s u k = k := if_neg h

/-- An access to a running unit is refused (R19). -/
theorem whenNotBusy_busy (s : State) (u : UnitId) (k : Result) (h : (s.shell u).status = .busy) :
    whenNotBusy s u k = .refused (.hostAccessWhileBusy u) := if_pos h

theorem whenNotBusy_eq_next {s : State} {u : UnitId} {k : Result} {t : State} (h : whenNotBusy s u k = .next t) :
    (s.shell u).status ≠ .busy ∧ k = .next t := by
  unfold whenNotBusy at h
  split at h
  · simp at h
  · exact ⟨‹_›, h⟩

end Sys2Proof.Machine
end

