-- ==== Sys2Proof/Laws/Inv.lean ====
section
/-!
SUPPORT. How the invariant is kept when one unit is replaced: the other three units' parts carry over, so a proof about
a unit's step speaks of that unit alone.
-/

namespace Sys2Proof.Machine

theorem Written.store {m : Memory} {n : Nat} (h : Written m n) (b : Nat) (bytes : List Byte) :
    Written (m.store b bytes) n := fun a ha => Memory.read_store_ne_none m b bytes a (h a ha)

theorem Written.zero (m : Memory) (n : Nat) : Written (m.zero 0 n) n := fun a ha => by
  simp [ha]

theorem Inv.setLzd {s : State} (h : Inv s) {u : Lzd} (hi : u.inBuf.wf) (ho : u.outBuf.wf) (hs : u.shell.Ok .lzd)
    (hu : u.Ok) : Inv (s.setLzd u) where
  mem b := by
    have := h.mem b
    cases b <;> first | exact hi | exact ho | exact this
  shells v := by
    rw [State.setLzd_shell]
    split
    · rename_i e; exact e ▸ hs
    · exact h.shells v
  lzd := hu
  tiu := h.tiu
  gbc := h.gbc
  ssr := h.ssr

theorem Inv.setTiu {s : State} (h : Inv s) {u : Tiu} (h1 : u.tiles.wf) (h2 : u.pal.wf) (h3 : u.raster.wf)
    (h4 : u.palRgba.wf) (hs : u.shell.Ok .tiu) (hu : u.Ok) : Inv (s.setTiu u) where
  mem b := by
    have := h.mem b
    cases b <;> first | exact h1 | exact h2 | exact h3 | exact h4 | exact this
  shells v := by
    rw [State.setTiu_shell]
    split
    · rename_i e; exact e ▸ hs
    · exact h.shells v
  lzd := h.lzd
  tiu := hu
  gbc := h.gbc
  ssr := h.ssr

theorem Inv.setGbc {s : State} (h : Inv s) {u : Gbc} (h1 : u.src.wf) (h2 : u.old.wf) (h3 : u.tbl.wf)
    (h4 : u.pix.wf) (hs : u.shell.Ok .gbc) (hu : u.Ok) : Inv (s.setGbc u) where
  mem b := by
    have := h.mem b
    cases b <;> first | exact h1 | exact h2 | exact h3 | exact h4 | exact this
  shells v := by
    rw [State.setGbc_shell]
    split
    · rename_i e; exact e ▸ hs
    · exact h.shells v
  lzd := h.lzd
  tiu := h.tiu
  gbc := hu
  ssr := h.ssr

theorem Inv.setSsr {s : State} (h : Inv s) {u : Ssr} (h1 : u.raw.wf) (h2 : u.slotA.wf) (h3 : u.slotB.wf)
    (h4 : u.outImg.wf) (hs : u.shell.Ok .ssr) (hu : u.Ok) : Inv (s.setSsr u) where
  mem b := by
    have := h.mem b
    cases b <;> first | exact h1 | exact h2 | exact h3 | exact h4 | exact this
  shells v := by
    rw [State.setSsr_shell]
    split
    · rename_i e; exact e ▸ hs
    · exact h.shells v
  lzd := h.lzd
  tiu := h.tiu
  gbc := h.gbc
  ssr := hu

/-- The invariant does not see the host's list, the schedule or the log. -/
theorem Inv.congr {s t : State} (h : Inv s) (h1 : t.lzd = s.lzd) (h2 : t.tiu = s.tiu) (h3 : t.gbc = s.gbc)
    (h4 : t.ssr = s.ssr) : Inv t := by
  cases s; cases t
  simp only at h1 h2 h3 h4
  subst h1 h2 h3 h4
  exact ⟨h.mem, h.shells, h.lzd, h.tiu, h.gbc, h.ssr⟩

end Sys2Proof.Machine
end

