-- ==== Sys2Proof/Laws/PerInstr.lean ====
section
/-!
SUPPORT. One lemma per instruction: the encoding has the size the format of its place gives (R60 to R77, R90), or, for a
text line, holds no line feed and is not empty (R80).
-/

namespace Sys2Proof

theorem hexChar_ne_lineFeed (d : Nibble) : hexChar d ≠ lineFeed := by
  revert d; decide

theorem decChar_ne_lineFeed (n k : Nat) : decChar n k ≠ lineFeed := by
  have h : n / 10 ^ k % 10 < 10 := Nat.mod_lt _ (by decide)
  simp only [decChar]
  generalize n / 10 ^ k % 10 = x at h
  intro e
  have := congrArg BitVec.toNat e
  simp at this
  omega

/-- An upper-case hex digit is read back (R80). -/
@[simp] theorem hexDigit?_hexChar (d : Nibble) : hexDigit? (hexChar d) = some d := by
  revert d; decide

/-- A line of hex digits is read back (R84). -/
theorem hexDigits?_map_hexChar (ds : List Nibble) : hexDigits? (ds.map hexChar) = some ds := by
  induction ds with
  | nil => rfl
  | cons d ds ih => simp [hexDigits?, ih]

/-- No hex pair holds a line feed. -/
theorem lineFeed_notMem_hexPair (b : Byte) : lineFeed ∉ hexPair b := by
  simp only [hexPair, List.mem_cons, List.not_mem_nil, or_false, not_or]
  exact ⟨fun h => hexChar_ne_lineFeed _ h.symm, fun h => hexChar_ne_lineFeed _ h.symm⟩

end Sys2Proof

namespace Sys2Proof.Laws.EncodedShape

/-- What the bytes of an instruction look like at its place. -/
def Statement (i : Instr) : Prop :=
  i.wellFormed = true →
    match i.place with
    | .command | .lzControl | .lzToken false | .tile | .glyphRow8 _ => (encode i).length = 1
    | .lzToken true | .palette | .glyphRow16 _ => (encode i).length = 2
    | .lzHeader => (encode i).length = 4
    | .glyphHeader => (encode i).length = 8
    | .sector => (encode i).length = 0x1000
    | .hexText | .bdfText _ => lineFeed ∉ encode i ∧ encode i ≠ []

theorem lzdDecompress : Statement .lzdDecompress := fun _ => rfl

theorem tiuUnpack : Statement .tiuUnpack := fun _ => rfl

theorem gbcDecode : Statement .gbcDecode := fun _ => rfl

theorem gbcEncHex : Statement .gbcEncHex := fun _ => rfl

theorem gbcEncBdf : Statement .gbcEncBdf := fun _ => rfl

theorem gbcReserved : Statement .gbcReserved := fun _ => rfl

theorem ssrReassemble : Statement .ssrReassemble := fun _ => rfl

theorem lzHdr (size : BitVec 24) (ignored : Nibble) : Statement (.lzHdr size ignored) := fun _ => rfl

theorem lzCtrl (flags : Byte) : Statement (.lzCtrl flags) := fun _ => rfl

theorem lit (d : Byte) : Statement (.lit d) := fun _ => rfl

theorem copy (l : Nibble) (d : BitVec 12) : Statement (.copy l d) := fun _ => rfl

theorem tileByte (h l : Nibble) : Statement (.tileByte h l) := fun _ => rfl

theorem palEntry (x : BitVec 1) (b g r : BitVec 5) : Statement (.palEntry x b g r) := fun _ => rfl

theorem glyHdr (start count : BitVec 16) (width rows : Byte) (reserved : BitVec 16) :
    Statement (.glyHdr start count width rows reserved) := fun _ => rfl

theorem glyRow8 (r : Fin 16) (p : Byte) : Statement (.glyRow8 r p) := fun _ => rfl

theorem glyRow16 (r : Fin 16) (p : BitVec 16) : Statement (.glyRow16 r p) := fun _ => rfl

theorem hexLine (cp : BitVec 32) (payload : List Byte) : Statement (.hexLine cp payload) := fun _ => by
  refine ⟨?_, by simp [encode, hexPair]⟩
  have hp : ∀ b ∈ payload, lineFeed ∉ hexPair b := fun b _ => lineFeed_notMem_hexPair b
  simp only [encode, List.mem_append, List.mem_cons, List.mem_flatMap, not_or, not_exists, not_and]
  exact ⟨⟨⟨⟨lineFeed_notMem_hexPair _, lineFeed_notMem_hexPair _⟩, lineFeed_notMem_hexPair _⟩,
    lineFeed_notMem_hexPair _⟩, by decide, hp⟩

theorem bdfCharset (name : List Byte) : Statement (.bdfCharset name) := fun h => by
  refine ⟨?_, by simp [encode]⟩
  have h' : lineFeed ∉ name := by simpa [Instr.wellFormed] using h
  have hk : lineFeed ∉ kwCharset := by decide
  simp only [encode, List.mem_append, List.mem_cons, List.not_mem_nil, or_false, not_or]
  exact ⟨hk, by decide, by decide, h', by decide⟩

theorem bdfEncoding (code : Option (BitVec 32)) : Statement (.bdfEncoding code) := fun _ => by
  have hk : lineFeed ∉ kwEncoding := by decide
  cases code with
  | none => exact ⟨by decide, by decide⟩
  | some n =>
    refine ⟨?_, by simp [encode]⟩
    have hd := fun k h => decChar_ne_lineFeed n.toNat k (Eq.symm h)
    simp only [encode, decimal10, List.mem_append, List.mem_cons, List.not_mem_nil, or_false, not_or]
    exact ⟨hk, by decide, hd 9, hd 8, hd 7, hd 6, hd 5, hd 4, hd 3, hd 2, hd 1, hd 0⟩

theorem bdfBitmap : Statement .bdfBitmap := fun _ => ⟨by decide, by decide⟩

theorem bdfEndchar : Statement .bdfEndchar := fun _ => ⟨by decide, by decide⟩

theorem bdfRow (digits : Option (List Nibble)) : Statement (.bdfRow digits) := fun h => by
  cases digits with
  | none => exact ⟨by decide, by decide⟩
  | some ds =>
    refine ⟨?_, by simpa [encode, Instr.wellFormed] using h⟩
    simp only [encode, List.mem_map, not_exists, not_and]
    exact fun d _ => hexChar_ne_lineFeed d

theorem bdfOther : Statement .bdfOther := fun _ => ⟨by decide, by decide⟩

theorem secTrailer (data : List Byte) (index : BitVec 16) (undescribed : BitVec 48) (counter : BitVec 32) :
    Statement (.secTrailer data index undescribed counter) := fun h => by
  have h' : data.length = 0xFF4 := by simpa [Instr.wellFormed] using h
  show (encode _).length = 0x1000
  simp [encode, h']

end Sys2Proof.Laws.EncodedShape
end

