-- ==== Sys2Proof/Laws/Step.lean ====
section
/-!
SUPPORT. What a turn comes to, said once: which fetch a unit's turn is, what a fetch of bytes and a decoding answer, and
that every sector decodes. A proof about a step cites these and unfolds one unit's fetch only.
-/

namespace Sys2Proof.Machine

@[simp] theorem runFetched_run (i : Instr) (s : State) : runFetched (.run i s) = exec i s := rfl

@[simp] theorem runFetched_other (o : Result) : runFetched (.other o) = o := rfl

@[simp] theorem runFetched_record (rows : List Instr) (s : State) :
    runFetched (.record rows s) = andThen (execAll rows s) gbcGlyphEnd := rfl

@[simp] theorem fetchBytes_ok (b : BufName) (bytes : List Byte) (k : List Byte → Fetched) :
    fetchBytes b (.ok bytes) k = k bytes := rfl

/-- A running unit's turn is its own fetch. -/
theorem agentStep_lzd {s : State} (h : s.busy .lzd) : agentStep (.unit .lzd) s = runFetched (fetchLzd s) := by
  simp only [agentStep, fetch, fetchUnit]
  rw [if_pos h]

theorem agentStep_tiu {s : State} (h : s.busy .tiu) : agentStep (.unit .tiu) s = runFetched (fetchTiu s) := by
  simp only [agentStep, fetch, fetchUnit]
  rw [if_pos h]

theorem agentStep_gbc {s : State} (h : s.busy .gbc) : agentStep (.unit .gbc) s = runFetched (fetchGbc s) := by
  simp only [agentStep, fetch, fetchUnit]
  rw [if_pos h]

theorem agentStep_ssr {s : State} (h : s.busy .ssr) : agentStep (.unit .ssr) s = runFetched (fetchSsr s) := by
  simp only [agentStep, fetch, fetchUnit]
  rw [if_pos h]

/-- A next state of a fetch of bytes comes from bytes that were read. -/
theorem runFetched_bytes {b : BufName} {r : Except Nat (List Byte)} {k : List Byte → Fetched} {t : State}
    (h : runFetched (fetchBytes b r k) = .next t) : ∃ bytes, r = .ok bytes ∧ runFetched (k bytes) = .next t := by
  cases r with
  | ok bytes => exact ⟨bytes, rfl, h⟩
  | error a => simp [fetchBytes] at h

/-- Bytes that decode run as their instruction. -/
theorem runFetched_decoded_ok {p : Place} {bytes : List Byte} {i : Instr} (s : State) (o : Result)
    (h : decode p bytes = .ok i) : runFetched (runDecoded p bytes s o) = exec i s := by
  simp [runDecoded, h]

/-- Bytes that do not decode do what the rule says of them. -/
theorem runFetched_decoded_error {p : Place} {bytes : List Byte} {e : Reject} (s : State) (o : Result)
    (h : decode p bytes = .error e) : runFetched (runDecoded p bytes s o) = o := by
  simp [runDecoded, h]

/-- A next state of a decoding is the instruction's, or that of the rejection. -/
theorem runFetched_decoded {p : Place} {bytes : List Byte} {s : State} {o : Result} {t : State}
    (h : runFetched (runDecoded p bytes s o) = .next t) :
    (∃ i, decode p bytes = .ok i ∧ exec i s = .next t) ∨ (∃ e, decode p bytes = .error e ∧ o = .next t) := by
  cases hd : decode p bytes with
  | ok i => exact .inl ⟨i, rfl, by rwa [runFetched_decoded_ok s o hd] at h⟩
  | error e => exact .inr ⟨e, rfl, by rwa [runFetched_decoded_error s o hd] at h⟩

/-- Instructions run one after another. -/
theorem execAll_append (l1 l2 : List Instr) (s : State) :
    execAll (l1 ++ l2) s = andThen (execAll l1 s) (execAll l2) := by
  induction l1 generalizing s with
  | nil => rfl
  | cons i l1 ih =>
    simp only [List.cons_append, execAll]
    cases exec i s with
    | next s1 => simp only [andThen_next, ih]
    | fault f => rfl
    | refused r => rfl

/-- Steps of one unit run one after another. -/
theorem unitSteps_add (u : UnitId) (m n : Nat) (s : State) :
    unitSteps u (m + n) s = andThen (unitSteps u m s) (unitSteps u n) := by
  induction m generalizing s with
  | zero => simp [unitSteps]
  | succ m ih =>
    rw [Nat.succ_add]
    simp only [unitSteps]
    cases agentStep (.unit u) s with
    | next s1 => simp only [andThen_next, ih]
    | fault f => rfl
    | refused r => rfl

/-- A unit that is not BUSY takes no step (R226, R250). -/
theorem fetchUnit_rest {s : State} {u : UnitId} (h : ¬ s.busy u) : fetchUnit u s = .other (.next s) := if_neg h

/-- A block read has the length asked for. -/
theorem Memory.load_length (m : Memory) (a n : Nat) (bytes : List Byte) (h : m.load a n = .ok bytes) :
    bytes.length = n := by
  induction m generalizing a n bytes with
  | nil =>
    cases n with
    | zero => simp only [Memory.load, Except.ok.injEq] at h; simp [← h]
    | succ n => simp [Memory.load] at h
  | cons c m ih =>
    obtain ⟨k, v⟩ := c
    cases n with
    | zero => simp only [Memory.load, Except.ok.injEq] at h; simp [← h]
    | succ n =>
      simp only [Memory.load] at h
      split at h
      · exact ih a (n + 1) bytes h
      · split at h
        · split at h
          · rename_i vs hl
            simp only [Except.ok.injEq] at h
            simp [← h, ih _ _ _ hl]
          · simp at h
        · simp at h

/-- Every 0x1000 bytes are a sector (R90). -/
theorem decode_sector (bytes : List Byte) (h : bytes.length = 0x1000) :
    ∃ data index undescribed counter, decode .sector bytes = .ok (.secTrailer data index undescribed counter) := by
  have hl : (bytes.drop Config.trailerIndexOff).length = 12 := by simp [h]
  simp only [decode]
  generalize bytes.take Config.trailerIndexOff = data
  generalize bytes.drop Config.trailerIndexOff = last at hl
  match last, hl with
  | [i0, i1, u0, u1, u2, u3, u4, u5, c0, c1, c2, c3], _ => exact ⟨_, _, _, _, rfl⟩

end Sys2Proof.Machine
end

