-- ==== Sys2Proof/Tests/Slice0.lean ====
section
/-!
SUPPORT. Tests of one step each, their expected values from the spec's encodings, examples and vectors (the source stands
before each group), and for every statement of Obligations.lean that has hypotheses a state and operands that meet them.
-/

open Sys2Proof Sys2Proof.Machine

namespace Sys2Proof.Tests

/-! ## Helpers -/

/-- The next state of an outcome. -/
def nextOf : Result → Option State
  | .next s => some s
  | _ => none

/-- Consecutive bytes from address 0. -/
def mem (bytes : List Byte) : Memory := Memory.cells 0 bytes

/-- A running unit's triple. -/
def running : Shell := { status := .busy, errClass := .none, errCause := .none }

/-- Reset, with one unit replaced. -/
def withLzd (u : Lzd) : State := State.reset.setLzd u

def withTiu (u : Tiu) : State := State.reset.setTiu u

def withGbc (u : Gbc) : State := State.reset.setGbc u

def withSsr (u : Ssr) : State := State.reset.setSsr u

/-! ## WellFormed: one ill-formed term for each check -/

theorem test_hexLine_payload_length : (Instr.hexLine 0x41 (List.replicate 17 0)).wellFormed = false := by decide

theorem test_bdfCharset_line_feed : (Instr.bdfCharset [0x41, 0x0A]).wellFormed = false := by decide

theorem test_bdfRow_no_digit : (Instr.bdfRow (some [])).wellFormed = false := by decide

theorem test_secTrailer_short_data : (Instr.secTrailer [] 0 0 0).wellFormed = false := by decide

/-! ## Decode: words written out from the encodings of 30_encoding.md -/

theorem test_decode_commands :
    decode .command [0b0011] = .ok .lzdDecompress ∧ decode .command [0b0110] = .ok .tiuUnpack ∧
      decode .command [0b1000] = .ok .gbcDecode ∧ decode .command [0b1001] = .ok .gbcEncHex ∧
      decode .command [0b1010] = .ok .gbcEncBdf ∧ decode .command [0b1011] = .ok .gbcReserved ∧
      decode .command [0b1111] = .ok .ssrReassemble ∧ decode .command [0x10] = .error .noCommandCode := by decide

/-- R62: size bytes 56 34 12 above the low byte; R101's example of an ignored nibble and of a bad tag. -/
theorem test_decode_lzHdr :
    decode .lzHeader [0xF1, 0x56, 0x34, 0x12] = .ok (.lzHdr 0x123456 0xF) ∧
      decode .lzHeader [0x10, 0x03, 0x00, 0x00] = .error .badTag := by decide

theorem test_decode_lzCtrl : decode .lzControl [0x14] = .ok (.lzCtrl 0x14) := by decide

theorem test_decode_lit : decode (.lzToken false) [0xFF] = .ok (.lit 0xFF) := by decide

/-- X10: token 30 01 is COPY 6, 1; R65: the high displacement bits stand in the first byte. -/
theorem test_decode_copy :
    decode (.lzToken true) [0x30, 0x01] = .ok (.copy 3 1) ∧ decode (.lzToken true) [0x2A, 0xBC] = .ok (.copy 2 0xABC) := by
  decide

theorem test_decode_tileByte : decode .tile [0xA3] = .ok (.tileByte 0xA 0x3) := by decide

/-- T7: 0x1234 has r = 20, g = 17, b = 4; R72: bit 15 ignored. -/
theorem test_decode_palEntry :
    decode .palette [0x34, 0x12] = .ok (.palEntry 0 4 17 20) ∧ decode .palette [0x1F, 0x80] = .ok (.palEntry 1 0 0 31) := by
  decide

/-- R75: start 0x3042, count 1, width 16, rows 16. -/
theorem test_decode_glyHdr :
    decode .glyphHeader [0x42, 0x30, 0x01, 0x00, 0x10, 0x10, 0x00, 0x00] = .ok (.glyHdr 0x3042 1 16 16 0) := by decide

theorem test_decode_glyRow8 : decode (.glyphRow8 15) [0x03] = .ok (.glyRow8 15 3) := by decide

/-- R77: the first byte holds columns 0..7. -/
theorem test_decode_glyRow16 : decode (.glyphRow16 0) [0x80, 0x01] = .ok (.glyRow16 0 0x0180) := by decide

/-- H5: `41:` and 16 times `01` is a line; two colons, or 30 digits, are none. -/
theorem test_decode_hexLine :
    decode .hexText (0x34 :: 0x31 :: 0x3A :: (List.replicate 16 [0x30, 0x31]).flatten) =
        .ok (.hexLine 0x41 (List.replicate 16 1)) ∧
      decode .hexText (0x34 :: 0x31 :: 0x3A :: 0x30 :: 0x3A :: List.replicate 30 0x33) = .error .unrecognisedLine ∧
      decode .hexText (0x34 :: 0x31 :: 0x3A :: List.replicate 30 0x31) = .error .unrecognisedLine := by decide

/-- `CHARSET_REGISTRY "ISO10646"` with a carriage return (R80, R82). -/
theorem test_decode_bdfCharset :
    decode (.bdfText .scanning) (kwCharset ++ [0x20, 0x22, 0x49, 0x53, 0x4F, 0x31, 0x30, 0x36, 0x34, 0x36, 0x22, 0x0D]) =
      .ok (.bdfCharset [0x49, 0x53, 0x4F, 0x31, 0x30, 0x36, 0x34, 0x36]) := by decide

/-- `ENCODING 9250` and `ENCODING -1` (B2, B6). -/
theorem test_decode_bdfEncoding :
    decode (.bdfText .scanning) (kwEncoding ++ [0x20, 0x39, 0x32, 0x35, 0x30]) = .ok (.bdfEncoding (some 9250)) ∧
      decode (.bdfText .scanning) (kwEncoding ++ [0x09, 0x2D, 0x31]) = .ok (.bdfEncoding none) := by decide

/-- R82, R175: BITMAP is a keyword in SCANNING and a row in IN_BITMAP; ENDCHAR the other way round. -/
theorem test_decode_keywords_by_state :
    decode (.bdfText .scanning) [0x42, 0x49, 0x54, 0x4D, 0x41, 0x50] = .ok .bdfBitmap ∧
      decode (.bdfText .inBitmap) [0x42, 0x49, 0x54, 0x4D, 0x41, 0x50] = .ok (.bdfRow none) ∧
      decode (.bdfText .inBitmap) [0x45, 0x4E, 0x44, 0x43, 0x48, 0x41, 0x52] = .ok .bdfEndchar ∧
      decode (.bdfText .scanning) [0x45, 0x4E, 0x44, 0x43, 0x48, 0x41, 0x52] = .ok .bdfOther := by decide

/-- B2's row `801`; R80: hex digits of either case. -/
theorem test_decode_bdfRow :
    decode (.bdfText .inBitmap) [0x38, 0x30, 0x31] = .ok (.bdfRow (some [8, 0, 1])) ∧
      decode (.bdfText .inBitmap) [0x61, 0x46] = .ok (.bdfRow (some [0xA, 0xF])) := by decide

/-- R90: index at 0xFF4, counter at 0xFFC, both little-endian. -/
theorem test_decode_sector (data : List Byte) (h : data.length = 0xFF4) :
    decode .sector (data ++ [0x05, 0x01, 1, 2, 3, 4, 5, 6, 0x04, 0x03, 0x02, 0x01]) =
      .ok (.secTrailer data 0x0105 0x060504030201 0x01020304) := by
  have h1 : (data ++ [0x05, 0x01, 1, 2, 3, 4, 5, 6, 0x04, 0x03, 0x02, 0x01]).take 0xFF4 = data := by
    rw [List.take_append_of_le_length (by omega), List.take_of_length_le (by omega)]
  have h2 : (data ++ [0x05, 0x01, 1, 2, 3, 4, 5, 6, 0x04, 0x03, 0x02, 0x01]).drop 0xFF4 =
      ([0x05, 0x01, 1, 2, 3, 4, 5, 6, 0x04, 0x03, 0x02, 0x01] : List Byte) := by
    rw [List.drop_append_of_le_length (by omega), List.drop_of_length_le (by omega)]; rfl
  simp only [decode, h1, h2]
  rfl

/-- PROG3: its token list encodes to the bytes shown there, and builds "abcabcabcabcXXXXXXX" and one more X. -/
theorem test_compressedBlock_of_prog3 :
    compressedBlock 20 [.lit 0x61, .lit 0x62, .lit 0x63, .copy 6 2, .lit 0x58, .copy 4 0] =
        [0x01, 0x14, 0x00, 0x00, 0x14, 0x61, 0x62, 0x63, 0x60, 0x02, 0x58, 0x40, 0x00] ∧
      buildFrom [] [.lit 0x61, .lit 0x62, .lit 0x63, .copy 6 2, .lit 0x58, .copy 4 0] =
        some [0x61, 0x62, 0x63, 0x61, 0x62, 0x63, 0x61, 0x62, 0x63, 0x61, 0x62, 0x63, 0x58, 0x58, 0x58, 0x58, 0x58,
          0x58, 0x58, 0x58] := by decide

/-! ## LZD: steps of PROG1 and PROG4 -/

/-- PROG1's input. -/
def prog1 : Memory := mem [0x01, 0x09, 0x00, 0x00, 0x20, 0x41, 0x42, 0x30, 0x01, 0x43]

/-- PROG1 right after START. -/
def prog1Start : Lzd := { Lzd.reset with shell := running, inLen := 10, inBuf := prog1 }

/-- PROG1 after its step 4: two literals are out, the next flag is 1. -/
def prog1Step4 : Lzd :=
  { prog1Start with
    size := 9, phase := .token, inPos := 7, outPos := 2, ctrl := 0x80, bitsLeft := 6,
    outBuf := mem [0x41, 0x42, 0, 0, 0, 0, 0, 0, 0] }

/-- PROG1 after its step 7: two bytes of the copy are out. -/
def prog1Step7 : Lzd :=
  { prog1Step4 with
    phase := .copy, inPos := 9, outPos := 4, ctrl := 0, bitsLeft := 5, copyLeft := 4, copyDisp := 1,
    outBuf := mem [0x41, 0x42, 0x41, 0x42, 0, 0, 0, 0, 0] }

/-- Q2: START after an error. -/
theorem test_lzdDecompress_clears :
    (nextOf (exec .lzdDecompress (withLzd
      { prog1Step4 with shell := { status := .error, errClass := .format, errCause := .lzBadTag } }))).map (·.lzd) =
      some { prog1Start with outBuf := prog1Step4.outBuf } := by decide

/-- PROG1 step 1. -/
theorem test_lzHdr_prog1 :
    (nextOf (agentStep (.unit .lzd) (withLzd prog1Start))).map (·.lzd) =
      some { prog1Start with size := 9, phase := .token, inPos := 4, outBuf := mem (List.replicate 9 0) } := by decide

/-- PROG1 step 2. -/
theorem test_lzCtrl_prog1 :
    (nextOf (exec (.lzCtrl 0x20) (withLzd { prog1Step4 with inPos := 4, outPos := 0, ctrl := 0, bitsLeft := 0 }))).map
      (fun t => (t.lzd.ctrl, t.lzd.inPos, t.lzd.bitsLeft)) = some (0x20, 5, 8) := by decide

/-- PROG1 step 4: the second literal. -/
theorem test_lit_prog1 :
    (nextOf (agentStep (.unit .lzd) (withLzd
      { prog1Step4 with
        inPos := 6, outPos := 1, ctrl := 0x40, bitsLeft := 7, outBuf := mem [0x41, 0, 0, 0, 0, 0, 0, 0, 0] }))).map
      (·.lzd) = some prog1Step4 := by decide

/-- PROG1 step 5. -/
theorem test_copy_prog1 :
    (nextOf (agentStep (.unit .lzd) (withLzd prog1Step4))).map (·.lzd) =
      some { prog1Step4 with phase := .copy, inPos := 9, ctrl := 0, bitsLeft := 5, copyLeft := 6, copyDisp := 1 } := by
  decide

/-- PROG4: COPY 3, 1 with one byte out faults, two bytes consumed and CTRL, BITS_LEFT as they were. -/
theorem test_copy_prog4 :
    (nextOf (exec (.copy 0 1) (withLzd { prog1Step4 with inPos := 6, outPos := 1 }))).map (·.lzd) =
      some { prog1Step4 with
        shell := { status := .error, errClass := .format, errCause := .lzBackrefRange }, inPos := 8, outPos := 1 } := by
  decide

/-- PROG1 step 8 reads the byte that step 6 wrote. -/
theorem test_copy_step_prog1 :
    (nextOf (agentStep (.unit .lzd) (withLzd prog1Step7))).map (·.lzd) =
      some { prog1Step7 with
        outPos := 5, copyLeft := 3, outBuf := mem [0x41, 0x42, 0x41, 0x42, 0x41, 0, 0, 0, 0] } := by decide

/-! ## TIU -/

/-- START keeps the parameters (R61). -/
theorem test_tiuUnpack_keeps_parameters :
    (nextOf (exec .tiuUnpack (withTiu { Tiu.reset with tilesLen := 32, palLen := 32, k := 7 }))).map (·.tiu) =
      some { Tiu.reset with shell := running, tilesLen := 32, palLen := 32 } := by decide

/-- R133's example: W_T = 2, K = 37, byte 0xA3: RASTER[26] = 3, RASTER[27] = 10. -/
theorem test_tileByte_example :
    (nextOf (exec (.tileByte 0xA 0x3) (withTiu { Tiu.reset with wT := 2, k := 37 }))).map
      (fun t => (t.tiu.raster, t.tiu.k)) = some ([(26, 3), (27, 10)], 38) := by decide

/-- T5: the width table at every threshold. -/
theorem test_widthTiles :
    [1, 3, 4, 15, 16, 63, 64, 100].map (fun n => ((widthTiles n).toNat, ceilDiv n (widthTiles n).toNat)) =
      [(1, 1), (1, 3), (2, 2), (2, 8), (4, 4), (4, 16), (8, 8), (8, 13)] := by decide

/-- R137: alpha of entry 0 and of entry 3, whatever the table is. -/
theorem test_palEntry_alpha :
    (nextOf (exec (.palEntry 0 31 31 31) (withTiu Tiu.reset))).map (fun t => t.tiu.palRgba.read 3) = some (some 0) ∧
      (nextOf (exec (.palEntry 1 0 0 31) (withTiu { Tiu.reset with pi := 3 }))).map
        (fun t => (t.tiu.palRgba.read 15, t.tiu.palRgba.read 12)) = some (some 255, some (Config.chanLut 31)) :=
  ⟨rfl, rfl⟩

/-! ## GBC -/

/-- A running GBC with a table for 0x41..0x42. -/
def gbcParse (recSize : BitVec 6) : Gbc :=
  { Gbc.reset with
    shell := running, mode := 2, cpMin := 0x41, cpMax := 0x42, width := if recSize = 16 then 8 else 16, count := 2,
    recSize := recSize, tblLen := 8 + 2 * recSize.toNat, phase := .parse,
    tbl := mem ([0x41, 0x00, 0x02, 0x00, if recSize = 16 then 8 else 16, 0x10, 0x00, 0x00] ++
      List.replicate (2 * recSize.toNat) 0) }

/-- The commands set the mode they name and start (R60, R61). -/
theorem test_gbc_commands :
    [Instr.gbcDecode, .gbcEncHex, .gbcEncBdf, .gbcReserved].map
      (fun c => (nextOf (exec c (withGbc { Gbc.reset with srcLen := 9 }))).map
        fun t => (t.gbc.mode, t.gbc.shell.status, t.gbc.srcLen)) =
      [some (0, .busy, 9), some (1, .busy, 9), some (2, .busy, 9), some (3, .busy, 9)] := by decide

/-- Q5: the reserved mode ends in ERROR with GLY_BAD_MODE. -/
theorem test_gbcReserved_raises :
    (nextOf (agentStep (.unit .gbc) (withGbc { Gbc.reset with shell := running, mode := 3 }))).map (·.gbc.shell) =
      some { status := .error, errClass := .format, errCause := .glyBadMode } := by decide

/-- M2: of three old records two are copied. (Records of one byte value stand for OLD3.) -/
theorem test_glyHdr_merge :
    (nextOf (exec (.glyHdr 0x41 3 8 16 0) (withGbc
      { gbcParse 16 with
        phase := .merge, oldLen := 56,
        old := mem (List.replicate 8 0 ++ List.replicate 16 0xAA ++ List.replicate 16 0xBB ++
          List.replicate 16 0xCC) }))).map
      (fun t => (t.gbc.tbl.read 8, t.gbc.tbl.read 39, t.gbc.tbl.read 40, t.gbc.tbl.read 2)) =
      some (some 0xAA, some 0xBB, none, some 2) := by decide

/-- K1 and K6. -/
theorem test_glyHdr_decode :
    (nextOf (exec (.glyHdr 0x41 1 5 16 0) (withGbc { Gbc.reset with shell := running, srcLen := 24 }))).map
        (fun t => (t.gbc.count, t.gbc.recSize, t.gbc.pixLen, t.gbc.hdrStart, t.gbc.phase)) =
        some (1, 16, 80, 0x41, .decode) ∧
      (nextOf (exec (.glyHdr 0x41 2 8 16 0) (withGbc { Gbc.reset with shell := running, srcLen := 24 }))).map
        (·.gbc.shell) = some { status := .error, errClass := .format, errCause := .glyTableTruncated } := by decide

/-- K1, row 4: pixels 1 1 0 0 0 at 20. -/
theorem test_glyRow8_k1 :
    (nextOf (exec (.glyRow8 4 0x03) (withGbc { Gbc.reset with hdrWidth := 5 }))).map (·.gbc.pix) =
      some [(20, 1), (21, 1), (22, 0), (23, 0), (24, 0)] := by decide

/-- K2, row 0 (bytes 80 01): `000000011000`. -/
theorem test_glyRow16_k2 :
    (nextOf (exec (.glyRow16 0 0x0180) (withGbc { Gbc.reset with hdrWidth := 12 }))).map (fun t => t.gbc.pix.map (·.2)) =
      some [0, 0, 0, 0, 0, 0, 0, 1, 1, 0, 0, 0] := by decide

/-- H1: rows 4 and 5 of the record of 0x41. -/
theorem test_hexLine_h1 :
    (nextOf (exec (.hexLine 0x41 [0, 0, 0, 0, 0xC0, 0xA0, 0, 0, 0, 0, 0, 0, 0, 0, 0, 0xFF]) (withGbc (gbcParse 16)))).map
      (fun t => (t.gbc.tbl.read 12, t.gbc.tbl.read 13, t.gbc.tbl.read 23, t.gbc.tbl.read 24)) =
      some (some 3, some 5, some 0xFF, some 0) := by decide

/-- H2, the rows 0x8001 and 0x0180. -/
theorem test_hexLine_h2 :
    (nextOf (exec (.hexLine 0x41 ([0x80, 0x01, 0x01, 0x80] ++ List.replicate 28 0)) (withGbc (gbcParse 32)))).map
      (fun t => (t.gbc.tbl.read 8, t.gbc.tbl.read 9, t.gbc.tbl.read 10, t.gbc.tbl.read 11)) =
      some (some 0x01, some 0x80, some 0x80, some 0x01) := by decide

/-- R166's example. -/
theorem test_bdfCharset_jis :
    (nextOf (exec (.bdfCharset [0x4A, 0x49, 0x53, 0x58, 0x30, 0x32, 0x30, 0x38, 0x2E, 0x31]) (withGbc (gbcParse 16)))).map
      (·.gbc.charset) = some .jisx0208 := by decide

/-- R167's examples, in the range 0x41..0x42, and B3. -/
theorem test_bdfEncoding_iso :
    ((nextOf (exec (.bdfEncoding (some 65)) (withGbc { gbcParse 16 with charset := .iso10646 }))).map (·.gbc.curCp) =
        some 0x41) ∧
      ((nextOf (exec (.bdfEncoding (some 200)) (withGbc { gbcParse 16 with charset := .iso10646 }))).map (·.gbc.curCp) =
        some 0) := by decide

theorem test_bdfEncoding_no_charset :
    (nextOf (exec (.bdfEncoding (some 65)) (withGbc (gbcParse 16)))).map (·.gbc.shell) =
      some { status := .error, errClass := .format, errCause := .glyBadCharset } := by decide

/-- B7: BITMAP clears the merged glyph, and no other. -/
theorem test_bdfBitmap_clears :
    (nextOf (exec .bdfBitmap (withGbc { gbcParse 16 with curCp := 0x42, tbl := mem (List.replicate 40 0xAA) }))).map
      (fun t => (t.gbc.tbl.read 23, t.gbc.tbl.read 24, t.gbc.tbl.read 39, t.gbc.pstate)) =
      some (some 0xAA, some 0, some 0, .inBitmap) := by decide

theorem test_bdfEndchar :
    (nextOf (exec .bdfEndchar (withGbc { gbcParse 16 with curCp := 0x42, pstate := .inBitmap }))).map
      (fun t => (t.gbc.curCp, t.gbc.pstate)) = some (0, .scanning) := by decide

/-- B6: the row `8` is stored as 01; B1f: the row `18` of a fullwidth table as 80 01. -/
theorem test_bdfRow_stores :
    ((nextOf (exec (.bdfRow (some [8])) (withGbc { gbcParse 16 with curCp := 0x41, pstate := .inBitmap }))).map
        (fun t => (t.gbc.tbl.read 8, t.gbc.rowIdx)) = some (some 0x01, 1)) ∧
      ((nextOf (exec (.bdfRow (some [1, 8])) (withGbc { gbcParse 32 with curCp := 0x41, rowIdx := 1 }))).map
        (fun t => (t.gbc.tbl.read 10, t.gbc.tbl.read 11)) = some (some 0x80, some 0x01)) := by decide

/-- B9: rows after the sixteenth are discarded; B6: a row too wide keeps its number. -/
theorem test_bdfRow_skips :
    ((nextOf (exec (.bdfRow (some [1, 1])) (withGbc { gbcParse 16 with curCp := 0x41, rowIdx := 16 }))).map
        (fun t => (t.gbc.tbl == (gbcParse 16).tbl, t.gbc.rowIdx)) = some (true, 16)) ∧
      ((nextOf (exec (.bdfRow (some [1, 0xF, 0xF])) (withGbc { gbcParse 16 with curCp := 0x41, rowIdx := 3 }))).map
        (fun t => (t.gbc.tbl == (gbcParse 16).tbl, t.gbc.rowIdx)) = some (true, 4)) := by decide

theorem test_bdfOther_no_effect :
    nextOf (exec .bdfOther (withGbc (gbcParse 16))) = some (withGbc (gbcParse 16)) := by decide

/-! ## SSR -/

theorem test_ssrReassemble_starts :
    (nextOf (exec .ssrReassemble (withSsr { Ssr.reset with rawLen := 0x1C000, p := 28 }))).map (·.ssr) =
      some { Ssr.reset with shell := running, rawLen := 0x1C000 } := by decide

/-- R202's example: index 5 in physical sector 0 goes to SLOTA[0x5000 ..]; in region 1 to SLOTB. -/
theorem test_secTrailer_example :
    (nextOf (exec (.secTrailer [0xA5] 5 0 4) (withSsr Ssr.reset))).map
        (fun t => (t.ssr.slotA.read 0x5000, t.ssr.slotB, t.ssr.p)) = some (some 0xA5, [], 1) ∧
      (nextOf (exec (.secTrailer [0xA5] 5 0 4) (withSsr { Ssr.reset with p := 14 }))).map
        (fun t => (t.ssr.slotA, t.ssr.slotB.read 0x5000)) = some ([], some 0xA5) := by decide

/-- S4: index 14 is dropped. -/
theorem test_secTrailer_dropped :
    (nextOf (exec (.secTrailer [0xA5] 14 0 4) (withSsr Ssr.reset))).map (·.ssr) = some { Ssr.reset with p := 1 } := by
  decide

/-- R206's examples. -/
theorem test_firstSlot :
    [firstSlot 5 4, firstSlot 4 5, firstSlot 7 7, firstSlot 0 0, firstSlot 0x80000000 1] = [0, 1, 1, 1, 0] := by decide

/-! ## Host -/

/-- R19: a parameter write to a running unit is refused; a START write to it changes nothing. -/
theorem test_host_while_busy :
    nextOf (hostAction (.write (.lzdInLen 3)) (withLzd prog1Start)) = none ∧
      nextOf (agentStep .host { withLzd prog1Start with host := [.write (.lzdStart 1)] }) = some (withLzd prog1Start) := by
  decide

/-- PROG5: the host copies LZD's output into TIU's tiles. -/
theorem test_host_copies :
    (nextOf (hostAction (.copyBuf .lzdOut 1 2 .tiuTiles 0) (withLzd { Lzd.reset with outBuf := mem [9, 8, 7] }))).map
      (·.tiu.tiles) = some [(0, 8), (1, 7)] := by decide

/-! ## The words of the opcode table -/

theorem test_decodeTableWord :
    decodeTableWord 4 0b1001 = some .gbcEncHex ∧ decodeTableWord 8 0x41 = some (.lzCtrl 0x41) ∧
      decodeTableWord 16 0x3001 = some (.copy 3 1) ∧ decodeTableWord 32 0x00000901 = some (.lzHdr 9 0) ∧
      decodeTableWord 64 0x10100001005F0020 = some (.glyHdr 0x20 0x5F 1 0 0x1010) := by decide

theorem test_step_runs_the_fetched_word :
    (nextOf (step (State.reset.withFetchWord 4 0b1010))).map (fun t => (t.gbc.mode, t.gbc.shell.status)) =
        some (2, .busy) ∧
      (nextOf (step (State.reset.withFetchWord 32 0x00000901))).map (fun t => (t.lzd.size, t.lzd.inPos)) = some (9, 4) := by
  decide

/-! ## Witnesses: states and operands that meet the hypotheses of the statements, clause by clause -/

theorem idle_ok (u : UnitId) : Shell.reset.Ok u := ⟨rfl, by decide, .inl rfl⟩

/-- The parts of the invariant, for a block whose only unit not at its reset value is given. -/
theorem inv_withLzd {u : Lzd} (h1 : u.inBuf.wf) (h2 : u.outBuf.wf) (h3 : u.shell.Ok .lzd) (h4 : u.Ok) :
    Inv (withLzd u) where
  mem b := by cases b <;> first | exact h1 | exact h2 | exact Memory.wf_nil
  shells v := by cases v <;> first | exact h3 | exact idle_ok _
  lzd := h4
  tiu := by constructor <;> simp [withLzd, State.setLzd, State.reset, Tiu.reset]
  gbc := by constructor <;> simp [withLzd, State.setLzd, State.reset, Gbc.reset, Shell.reset]
  ssr := by constructor <;> simp [withLzd, State.setLzd, State.reset, Ssr.reset]

theorem inv_withTiu {u : Tiu} (h1 : u.tiles.wf) (h2 : u.pal.wf) (h3 : u.raster.wf) (h4 : u.palRgba.wf)
    (h5 : u.shell.Ok .tiu) (h6 : u.Ok) : Inv (withTiu u) where
  mem b := by cases b <;> first | exact h1 | exact h2 | exact h3 | exact h4 | exact Memory.wf_nil
  shells v := by cases v <;> first | exact h5 | exact idle_ok _
  lzd := by constructor <;> simp [withTiu, State.setTiu, State.reset, Lzd.reset]
  tiu := h6
  gbc := by constructor <;> simp [withTiu, State.setTiu, State.reset, Gbc.reset, Shell.reset]
  ssr := by constructor <;> simp [withTiu, State.setTiu, State.reset, Ssr.reset]

theorem inv_withGbc {u : Gbc} (h1 : u.src.wf) (h2 : u.old.wf) (h3 : u.tbl.wf) (h4 : u.pix.wf)
    (h5 : u.shell.Ok .gbc) (h6 : u.Ok) : Inv (withGbc u) where
  mem b := by cases b <;> first | exact h1 | exact h2 | exact h3 | exact h4 | exact Memory.wf_nil
  shells v := by cases v <;> first | exact h5 | exact idle_ok _
  lzd := by constructor <;> simp [withGbc, State.setGbc, State.reset, Lzd.reset]
  tiu := by constructor <;> simp [withGbc, State.setGbc, State.reset, Tiu.reset]
  gbc := h6
  ssr := by constructor <;> simp [withGbc, State.setGbc, State.reset, Ssr.reset]

theorem inv_withSsr {u : Ssr} (h1 : u.raw.wf) (h2 : u.slotA.wf) (h3 : u.slotB.wf) (h4 : u.outImg.wf)
    (h5 : u.shell.Ok .ssr) (h6 : u.Ok) : Inv (withSsr u) where
  mem b := by cases b <;> first | exact h1 | exact h2 | exact h3 | exact h4 | exact Memory.wf_nil
  shells v := by cases v <;> first | exact h5 | exact idle_ok _
  lzd := by constructor <;> simp [withSsr, State.setSsr, State.reset, Lzd.reset]
  tiu := by constructor <;> simp [withSsr, State.setSsr, State.reset, Tiu.reset]
  gbc := by constructor <;> simp [withSsr, State.setSsr, State.reset, Gbc.reset, Shell.reset]
  ssr := h6

theorem running_ok (u : UnitId) : running.Ok u := ⟨rfl, by decide, .inl rfl⟩

/-! ### Encodings, commands, errors -/

theorem witness_BitReversalIsAnInvolution : (0 : Nat) < 8 ∧ 7 < 8 ∧ 15 < 16 := by decide

/-- One well-formed instruction of each kind of field check, at a boundary. -/
theorem witness_DecodeOfEncodeIsTheInstruction :
    (Instr.copy 15 0xFFF).wellFormed = true ∧ (Instr.hexLine 0xFFFFFFFF (List.replicate 32 0xFF)).wellFormed = true ∧
      (Instr.bdfCharset []).wellFormed = true ∧ (Instr.bdfRow none).wellFormed = true ∧
      (Instr.bdfRow (some [0])).wellFormed = true := by decide

/-- The six line clauses: CHARSET_REGISTRY, ENCODING, BITMAP, another token, ENDCHAR and another token; a token and what
follows it, a rest to trim, and names for each case of quotes, the single quote and the empty name among them. -/
theorem witness_TextLineClassFollowsFirstTokenAndState :
    ([kwCharset, kwEncoding, kwBitmap, [0x43], kwEndchar, [0x30]] : List (List Byte)).all
      (fun raw => !raw.contains lineFeed && stripLine raw == raw && firstToken (stripLine raw) == raw) = true ∧
    ((∀ b ∈ kwCharset, ¬ Blank b) ∧ ∀ b ∈ ([0x09, 0x49] : List Byte).head?, Blank b) ∧
    ((∀ b ∈ ([0x20, 0x09] ++ [0x20] : List Byte), Blank b) ∧ Trimmed [0x49, 0x20, 0x4F] ∧ Trimmed []) ∧
    (∀ name ∈ ([[], [0x49, 0x53, 0x4F]] : List (List Byte)), name.head? ≠ some 0x22 ∧ name.getLast? ≠ some 0x22) := by
  decide

/-- Vectors B1 and B6: the charset name in quotes, and with none (R82). -/
theorem test_unquote_iso10646 :
    unquote [0x22, 0x49, 0x53, 0x4F, 0x31, 0x30, 0x36, 0x34, 0x36, 0x22] = [0x49, 0x53, 0x4F, 0x31, 0x30, 0x36, 0x34, 0x36] ∧
      unquote [0x49, 0x53, 0x4F, 0x31, 0x30, 0x36, 0x34, 0x36] = [0x49, 0x53, 0x4F, 0x31, 0x30, 0x36, 0x34, 0x36] := by
  decide

/-- Each START write, and each mode. -/
theorem witness_StartWriteRunsTheCommand :
    (∃ s : State, s.host = .write (.lzdStart 1) :: []) ∧ (∃ s : State, s.host = .write (.tiuStart 1) :: []) ∧
      (∃ s : State, s.host = .write (.ssrStart 1) :: []) ∧
      ∀ m : BitVec 2, ∃ s : State, s.host = .write (.gbcStart 1) :: [] ∧ s.gbc.mode = m :=
  ⟨⟨{ State.reset with host := [.write (.lzdStart 1)] }, rfl⟩, ⟨{ State.reset with host := [.write (.tiuStart 1)] }, rfl⟩,
    ⟨{ State.reset with host := [.write (.ssrStart 1)] }, rfl⟩,
    fun m => ⟨{ withGbc { Gbc.reset with mode := m } with host := [.write (.gbcStart 1)] }, rfl, rfl⟩⟩

/-- All units resting, GBC with each mode; all units running; a write of 0 to each START register. -/
theorem witness_StartClearsWorkingRegistersAndSetsBusy :
    (∀ m : BitVec 2, ∃ s : State, (∀ u, (s.shell u).status ≠ .busy) ∧ s.gbc.mode = m) ∧
      (∃ s : State, ∀ u, (s.shell u).status = .busy) ∧
      ∀ w : RegWrite, w = .lzdStart 0 ∨ w = .tiuStart 0 ∨ w = .gbcStart 0 ∨ w = .ssrStart 0 →
        ∃ s : State, s.host = .write w :: [] :=
  ⟨fun m => ⟨withGbc { Gbc.reset with mode := m }, fun u => by cases u <;> exact (by decide : Status.idle ≠ .busy), rfl⟩,
    ⟨{ State.reset with
      lzd := { Lzd.reset with shell := running }, tiu := { Tiu.reset with shell := running },
      gbc := { Gbc.reset with shell := running }, ssr := { Ssr.reset with shell := running } },
      fun u => by cases u <;> rfl⟩,
    fun w _ => ⟨{ State.reset with host := [.write w] }, rfl⟩⟩

theorem witness_ResetInputActsOnEveryUnit :
    ({ withLzd prog1Start with host := [.reset] } : State).host = .reset :: [] := rfl

/-- A resting unit; a status triple that START, and one that reset, changes. -/
theorem witness_OnlyStartOrResetLeavesARestingStatus :
    (State.reset.shell .ssr).status ≠ .busy ∧
      (∃ t, agentStep .host { State.reset with host := [.write (.ssrStart 1)] } = .next t ∧
        t.shell .ssr ≠ State.reset.shell .ssr) ∧
      ∃ t, agentStep .host { withLzd { prog1Start with shell := { running with status := .done } } with
          host := [.reset] } = .next t ∧
        t.shell .lzd ≠ { running with status := .done } := ⟨by decide, ⟨_, rfl, by decide⟩, ⟨_, rfl, by decide⟩⟩

/-- What a unit's step leaves in the triple. -/
def causeAfter (u : UnitId) (s : State) : Option (Status × Cause) :=
  (nextOf (agentStep (.unit u) s)).map fun t => ((t.shell u).status, (t.shell u).errCause)

/-- Each LZD and TIU cause, at the boundary of its condition. -/
theorem witness_CausesAreRaisedOnlyAsListed_lzd_tiu :
    causeAfter .lzd (withLzd { prog1Start with inLen := 3 }) = some (.error, .lzShortHeader) ∧
      causeAfter .lzd (withLzd { prog1Start with inLen := 4, inBuf := mem [0x10, 3, 0, 0] }) =
        some (.error, .lzBadTag) ∧
      causeAfter .lzd (withLzd { prog1Step4 with outPos := 1 }) = some (.error, .lzBackrefRange) ∧
      causeAfter .tiu (withTiu { Tiu.reset with shell := running }) = some (.error, .tiuNoTiles) ∧
      causeAfter .tiu (withTiu { Tiu.reset with shell := running, tilesLen := 33 }) = some (.error, .tiuPartialTile) ∧
      causeAfter .tiu (withTiu { Tiu.reset with shell := running, tilesLen := 32, palLen := 31 }) =
        some (.error, .tiuBadPaletteLen) := by decide

/-- GBC at its check step, in an encode mode. -/
def gbcCheck (lo hi width : BitVec 32) : Gbc :=
  { Gbc.reset with shell := running, mode := 1, cpMin := lo, cpMax := hi, width := width }

/-- GBC at its check step, in decode mode. -/
def gbcTable (header : List Byte) (len : Nat) : Gbc :=
  { Gbc.reset with shell := running, srcLen := len, src := mem header }

/-- Each GBC cause, and SSR's. -/
theorem witness_CausesAreRaisedOnlyAsListed_gbc_ssr :
    causeAfter .gbc (withGbc { gbcCheck 0 0 0 with mode := 3 }) = some (.error, .glyBadMode) ∧
      causeAfter .gbc (withGbc (gbcCheck 0x42 0x41 8)) = some (.error, .glyMinGtMax) ∧
      causeAfter .gbc (withGbc (gbcCheck 0x41 0x10000 8)) = some (.error, .glyMaxTooBig) ∧
      causeAfter .gbc (withGbc (gbcCheck 0x41 0xFFFF 17)) = some (.error, .glyWidthTooBig) ∧
      causeAfter .gbc (withGbc (gbcTable [0x41, 0, 1, 0, 17, 16, 0, 0] 40)) = some (.error, .glyWidthTooBig) ∧
      causeAfter .gbc (withGbc (gbcCheck 0 0xFFFF 16)) = some (.error, .glyCountOverflow) ∧
      causeAfter .gbc (withGbc (gbcTable [] 7)) = some (.error, .glyTableTruncated) ∧
      causeAfter .gbc (withGbc (gbcTable [0x41, 0, 1, 0, 9, 16, 0, 0] 39)) = some (.error, .glyTableTruncated) ∧
      causeAfter .gbc (withGbc (gbcTable [0x41, 0, 1, 0, 8, 15, 0, 0] 24)) = some (.error, .glyBadRows) ∧
      causeAfter .gbc (withGbc { gbcParse 16 with
        phase := .merge, oldLen := 39, old := mem [0x41, 0, 2, 0, 8, 16, 0, 0] }) = some (.error, .glyOldTruncated) ∧
      causeAfter .gbc (withGbc { gbcParse 16 with srcLen := 11, src := mem (kwEncoding ++ [0x20, 0x36, 0x35]) }) =
        some (.error, .glyBadCharset) ∧
      causeAfter .ssr (withSsr { Ssr.reset with shell := running, rawLen := 0x1BFFF }) =
        some (.error, .ssrShortImage) := by decide

/-! ### LZD -/

/-- Three bytes of input; four with a wrong tag; four with the tag 1. -/
theorem witness_LzdHeaderStepSetsUpTheOutput :
    (∃ s : State, s.busy .lzd ∧ s.lzd.phase = .hdr ∧ s.lzd.inLen < 4) ∧
    (∃ s : State, s.busy .lzd ∧ s.lzd.phase = .hdr ∧ 4 ≤ s.lzd.inLen ∧
      s.lzd.inBuf.load 0 4 = .ok [0x10, 0x03, 0x00, 0x00] ∧ (0x10 : Byte).extractLsb' 0 4 ≠ 1) ∧
    ∃ s : State, s.busy .lzd ∧ s.lzd.phase = .hdr ∧ 4 ≤ s.lzd.inLen ∧
      s.lzd.inBuf.load 0 4 = .ok [0x01, 0x09, 0x00, 0x00] ∧ (0x01 : Byte).extractLsb' 0 4 = 1 :=
  ⟨⟨withLzd { prog1Start with inLen := 3 }, by decide⟩,
    ⟨withLzd { prog1Start with inLen := 4, inBuf := mem [0x10, 0x03, 0x00, 0x00] }, by decide⟩,
    ⟨withLzd prog1Start, by decide⟩⟩

theorem witness_LzdStopsWhenTheOutputIsFull :
    ∃ s : State, s.busy .lzd ∧ s.lzd.phase = .token ∧ s.lzd.outPos = s.lzd.size :=
  ⟨withLzd { prog1Step4 with outPos := 9 }, by decide⟩

/-- With one byte of input left. -/
theorem witness_ControlByteIsFetchedWhenNoFlagIsLeft :
    ∃ s : State, s.busy .lzd ∧ s.lzd.phase = .token ∧ s.lzd.outPos.toNat < s.lzd.size.toNat ∧ s.lzd.bitsLeft = 0 ∧
      s.lzd.inPos < s.lzd.inLen ∧ s.lzd.inBuf.load s.lzd.inPos 1 = .ok [0x43] :=
  ⟨withLzd { prog1Step4 with inPos := 9, bitsLeft := 0 }, by decide⟩

theorem witness_LiteralAppendsOneByte :
    ∃ s : State, s.busy .lzd ∧ s.lzd.phase = .token ∧ s.lzd.outPos.toNat < s.lzd.size.toNat ∧ s.lzd.bitsLeft ≠ 0 ∧
      s.lzd.ctrl.getLsbD 7 = false ∧ s.lzd.inPos < s.lzd.inLen ∧ s.lzd.inBuf.load s.lzd.inPos 1 = .ok [0x43] :=
  ⟨withLzd { prog1Step4 with inPos := 9, outPos := 8, ctrl := 0, bitsLeft := 1 }, by decide⟩

/-- LZD in its token phase keeps its part of the invariant. -/
theorem token_ok (inPos : Nat) (ctrl : BitVec 8) (bitsLeft : BitVec 4) (h1 : inPos ≤ 10) (h2 : bitsLeft.toNat ≤ 8) :
    Inv (withLzd { prog1Step4 with inPos := inPos, ctrl := ctrl, bitsLeft := bitsLeft }) :=
  inv_withLzd (by show Memory.wf prog1; decide) (by show Memory.wf prog1Step4.outBuf; decide) (running_ok .lzd)
    { outPos_le := by show (2 : BitVec 24).toNat ≤ (9 : BitVec 24).toNat; decide
      bitsLeft_le := h2
      copyLeft_le := by show (0 : BitVec 5).toNat ≤ 18; decide
      copyDisp_lt := nofun
      inPos_le := fun _ => h1
      out_written := fun _ => by show ∀ a, a < 9 → prog1Step4.outBuf.read a ≠ none; decide
      tail_zero := fun _ a ha hb =>
        (show ∀ a, a < 9 → 2 ≤ a → prog1Step4.outBuf.read a = some 0 by decide) a hb ha }

/-- The three ways to run out of input; in the third one byte is left. -/
theorem witness_ExhaustedInputEndsDoneWithAZeroTail :
    (∃ s : State, Inv s ∧ s.busy .lzd ∧ s.lzd.phase = .token ∧ s.lzd.outPos.toNat < s.lzd.size.toNat ∧
      s.lzd.bitsLeft = 0 ∧ s.lzd.inPos = s.lzd.inLen) ∧
    (∃ s : State, Inv s ∧ s.busy .lzd ∧ s.lzd.phase = .token ∧ s.lzd.outPos.toNat < s.lzd.size.toNat ∧
      s.lzd.bitsLeft ≠ 0 ∧ s.lzd.ctrl.getLsbD 7 = false ∧ s.lzd.inPos = s.lzd.inLen) ∧
    ∃ s : State, Inv s ∧ s.busy .lzd ∧ s.lzd.phase = .token ∧ s.lzd.outPos.toNat < s.lzd.size.toNat ∧
      s.lzd.bitsLeft ≠ 0 ∧ s.lzd.ctrl.getLsbD 7 = true ∧ s.lzd.inLen - s.lzd.inPos < 2 :=
  ⟨⟨_, token_ok 10 0 0 (by decide) (by decide), by decide⟩, ⟨_, token_ok 10 0 1 (by decide) (by decide), by decide⟩,
    ⟨_, token_ok 9 0x80 8 (by decide) (by decide), by decide⟩⟩

/-- A displacement one below OUT_POS, and one equal to it; two bytes of input left. -/
theorem witness_BackReferenceIsDecodedOrFaults :
    (∃ s : State, (1 : BitVec 12).toNat < s.lzd.outPos.toNat) ∧
    (∃ s : State, s.lzd.outPos.toNat ≤ (2 : BitVec 12).toNat) ∧
    ∃ s : State, s.busy .lzd ∧ s.lzd.phase = .token ∧ s.lzd.outPos.toNat < s.lzd.size.toNat ∧ s.lzd.bitsLeft ≠ 0 ∧
      s.lzd.ctrl.getLsbD 7 = true ∧ s.lzd.inPos + 2 ≤ s.lzd.inLen ∧
      s.lzd.inBuf.load s.lzd.inPos 2 = .ok [0x01, 0x43] :=
  ⟨⟨withLzd prog1Step4, by decide⟩, ⟨withLzd prog1Step4, by decide⟩, ⟨withLzd { prog1Step4 with inPos := 8 }, by decide⟩⟩

theorem witness_CopyStepMovesOneByteForward :
    (∃ s : State, s.busy .lzd ∧ s.lzd.phase = .copy ∧ s.lzd.copyLeft = 0) ∧
    (∃ s : State, s.busy .lzd ∧ s.lzd.phase = .copy ∧ s.lzd.copyLeft ≠ 0 ∧ s.lzd.outPos = s.lzd.size) ∧
    ∃ s : State, s.busy .lzd ∧ s.lzd.phase = .copy ∧ s.lzd.outBuf.wf ∧ s.lzd.copyLeft ≠ 0 ∧
      s.lzd.outPos ≠ s.lzd.size ∧ s.lzd.copyDisp.toNat < s.lzd.outPos.toNat ∧
      s.lzd.outBuf.read (s.lzd.outPos.toNat - s.lzd.copyDisp.toNat - 1) = some 0x41 :=
  ⟨⟨withLzd { prog1Step7 with copyLeft := 0 }, by decide⟩, ⟨withLzd { prog1Step7 with outPos := 9 }, by decide⟩,
    ⟨withLzd { prog1Step7 with copyDisp := 3 }, by decide⟩⟩

/-- LZD in its copy phase keeps its part of the invariant. -/
theorem copy_ok (left : BitVec 5) (h : left.toNat ≤ 18) : Inv (withLzd { prog1Step7 with copyLeft := left }) :=
  inv_withLzd (by show Memory.wf prog1; decide) (by show Memory.wf prog1Step7.outBuf; decide) (running_ok .lzd)
    { outPos_le := by show (4 : BitVec 24).toNat ≤ (9 : BitVec 24).toNat; decide
      bitsLeft_le := by show (5 : BitVec 4).toNat ≤ 8; decide
      copyLeft_le := h
      copyDisp_lt := fun _ => by show (1 : BitVec 12).toNat < (4 : BitVec 24).toNat; decide
      inPos_le := fun _ => by show 9 ≤ 10; decide
      out_written := fun _ => by show ∀ a, a < 9 → prog1Step7.outBuf.read a ≠ none; decide
      tail_zero := fun _ a ha hb =>
        (show ∀ a, a < 9 → 4 ≤ a → prog1Step7.outBuf.read a = some 0 by decide) a hb ha }

/-- A copy that ends exactly at SIZE. -/
theorem witness_CopyRunAppendsAsTheReferenceBuilder :
    ∃ s : State, Inv s ∧ s.busy .lzd ∧ s.lzd.phase = .copy ∧
      s.lzd.outPos.toNat + s.lzd.copyLeft.toNat ≤ s.lzd.size.toNat ∧
      s.lzd.outBuf.load 0 s.lzd.outPos.toNat = .ok [0x41, 0x42, 0x41, 0x42] := ⟨_, copy_ok 5 (by decide), by decide⟩

theorem witness_LzdStepsMakeProgress :
    (∃ s t : State, Inv s ∧ s.busy .lzd ∧ s.lzd.phase ≠ .hdr ∧ agentStep (.unit .lzd) s = .next t) ∧
    ∃ s t : State, Inv s ∧ s.busy .lzd ∧ s.lzd.phase ≠ .hdr ∧ agentStep (.unit .lzd) s = .next t ∧
      s.lzd.copyLeft = 0 :=
  ⟨⟨_, _, token_ok 7 0x80 6 (by decide) (by decide), by decide, by decide, rfl⟩,
    ⟨_, _, copy_ok 0 (by decide), by decide, by decide, rfl, by decide⟩⟩

/-- LZD started on a block of the given bytes. -/
theorem start_ok (bytes : List Byte) :
    Inv (withLzd { Lzd.reset with shell := running, inLen := bytes.length, inBuf := mem bytes }) :=
  inv_withLzd (Memory.cells_wf 0 bytes) Memory.wf_nil (running_ok .lzd)
    { outPos_le := Nat.le_refl _, bitsLeft_le := Nat.zero_le _, copyLeft_le := Nat.zero_le _, copyDisp_lt := nofun,
      inPos_le := fun _ => Nat.zero_le _, out_written := fun h => absurd rfl h, tail_zero := fun h => absurd rfl h }

/-- A literal and an overlapping copy of three. -/
theorem witness_ValidStreamDecompressesToTheReferenceString :
    ∃ (tokens : List Instr) (out : List Byte) (s : State), buildFrom [] tokens = some out ∧ out.length < 2 ^ 24 ∧
      Inv s ∧ s.busy .lzd ∧ s.lzd.phase = .hdr ∧ s.lzd.inLen = (compressedBlock out.length tokens).length ∧
      s.lzd.inBuf.load 0 s.lzd.inLen = .ok (compressedBlock out.length tokens) :=
  ⟨[.lit 0x61, .copy 0 0], [0x61, 0x61, 0x61, 0x61], _, by decide, by decide,
    start_ok (compressedBlock 4 [.lit 0x61, .copy 0 0]), by decide, by decide, by decide, by decide⟩

/-! ### TIU -/

/-- TIU right after START, its buffers of zeros. -/
def tiuStart (tilesLen palLen : Nat) : Tiu :=
  { Tiu.reset with
    shell := running, tilesLen := tilesLen, palLen := palLen, tiles := Memory.zero [] 0 tilesLen,
    pal := Memory.zero [] 0 palLen }

theorem tiuStart_ok (tilesLen palLen : Nat) : Inv (withTiu (tiuStart tilesLen palLen)) :=
  inv_withTiu (Memory.zero_wf _ _ _ Memory.wf_nil) (Memory.zero_wf _ _ _ Memory.wf_nil) Memory.wf_nil Memory.wf_nil
    (running_ok .tiu)
    { pi_le := Nat.zero_le _, wT_eq := fun h => absurd rfl h, hT_eq := fun h => absurd rfl h,
      raster_written := fun h => absurd rfl h, lens := fun _ h => absurd rfl h, k_le := fun _ h => absurd rfl h,
      transparent := fun h => absurd h (by show ¬ 0 < (0 : BitVec 5).toNat; decide) }

theorem tiuStart_loaded (tilesLen palLen : Nat) : (withTiu (tiuStart tilesLen palLen)).loaded .tiu :=
  ⟨Written.zero _ _, Written.zero _ _⟩

/-- No tiles, part of a tile, a short palette; and one tile. -/
theorem witness_TiuCheckStepInfersTheTileGrid :
    (∃ s : State, s.busy .tiu ∧ s.tiu.phase = .check ∧ s.tiu.tilesLen = 0) ∧
    (∃ s : State, s.busy .tiu ∧ s.tiu.phase = .check ∧ s.tiu.tilesLen % 32 ≠ 0) ∧
    (∃ s : State, s.busy .tiu ∧ s.tiu.phase = .check ∧ s.tiu.tilesLen ≠ 0 ∧ s.tiu.tilesLen % 32 = 0 ∧
      s.tiu.palLen ≠ 32) ∧
    ∃ s : State, s.busy .tiu ∧ s.tiu.phase = .check ∧ s.tiu.tilesLen ≠ 0 ∧ s.tiu.tilesLen % 32 = 0 ∧
      s.tiu.palLen = 32 :=
  ⟨⟨withTiu (tiuStart 0 32), by decide⟩, ⟨withTiu (tiuStart 31 32), by decide⟩, ⟨withTiu (tiuStart 32 31), by decide⟩,
    ⟨withTiu (tiuStart 32 32), by decide⟩⟩

/-- The last tile byte, and none left. -/
theorem witness_TileByteStoresTwoPixels :
    (∃ s : State, s.busy .tiu ∧ s.tiu.phase = .tiles ∧ s.tiu.k < s.tiu.tilesLen ∧
      s.tiu.tiles.load s.tiu.k 1 = .ok [0]) ∧
    ∃ s : State, s.busy .tiu ∧ s.tiu.phase = .tiles ∧ s.tiu.k = s.tiu.tilesLen :=
  ⟨⟨withTiu { tiuStart 32 32 with phase := .tiles, wT := 1, k := 31 }, by decide⟩,
    ⟨withTiu { tiuStart 32 32 with phase := .tiles, wT := 1, k := 32 }, by decide⟩⟩

/-- One tile; the first and the last tile byte. -/
theorem witness_RasterAddressesAreInBoundsAndDistinct : 0 < 1 ∧ 0 < 32 * 1 ∧ 31 < 32 * 1 ∧ 0 ≠ 31 := by decide

/-- Entries 0 and 15, and the end. -/
theorem witness_PaletteEntryIsConvertedThroughTheTable :
    (∃ s : State, s.busy .tiu ∧ s.tiu.phase = .palette ∧ s.tiu.pi.toNat < 16 ∧ s.tiu.pi = 0 ∧
      s.tiu.pal.load (2 * s.tiu.pi.toNat) 2 = .ok [0, 0]) ∧
    (∃ s : State, s.busy .tiu ∧ s.tiu.phase = .palette ∧ s.tiu.pi.toNat < 16 ∧ s.tiu.pi = 15 ∧
      s.tiu.pal.load (2 * s.tiu.pi.toNat) 2 = .ok [0, 0]) ∧
    ∃ s : State, s.busy .tiu ∧ s.tiu.phase = .palette ∧ s.tiu.pi = 16 :=
  ⟨⟨withTiu { tiuStart 32 32 with phase := .palette }, by decide⟩,
    ⟨withTiu { tiuStart 32 32 with phase := .palette, pi := 15 }, by decide⟩,
    ⟨withTiu { tiuStart 32 32 with phase := .palette, pi := 16 }, by decide⟩⟩

/-- Five tiles in a grid of six cells: the last tile's bytes, and the empty cell. -/
theorem witness_UnpackProducesTheRasterAndThePalette :
    ∃ s : State, Inv s ∧ s.busy .tiu ∧ s.tiu.phase = .check ∧ s.loaded .tiu ∧ s.tiu.tilesLen ≠ 0 ∧
      s.tiu.tilesLen % 32 = 0 ∧ s.tiu.palLen = 32 ∧ s.tiu.tilesLen / 32 = 5 ∧
      s.tiu.tiles.read (32 * 4 + 4 * 7 + 3) = some 0 ∧ s.tiu.pal.read (2 * 15) = some 0 ∧
      s.tiu.pal.read (2 * 15 + 1) = some 0 ∧ 5 ≤ 5 ∧ 5 < 2 * ((5 + 2 - 1) / 2) :=
  ⟨withTiu (tiuStart 160 32), tiuStart_ok _ _, rfl, rfl, tiuStart_loaded _ _, by decide, by decide, rfl, rfl,
    by show Memory.read (Memory.zero [] 0 160) 159 = _; simp, by show Memory.read (Memory.zero [] 0 32) 30 = _; simp,
    by show Memory.read (Memory.zero [] 0 32) 31 = _; simp, by decide, by decide⟩

/-! ### GBC -/

/-- The reserved mode; the decode mode with its header; and each outcome of the encode checks at its boundary. -/
theorem witness_EncodeCheckStepInitialisesTheTable :
    (∃ s : State, s.busy .gbc ∧ s.gbc.phase = .check ∧ s.gbc.mode = 3) ∧
    (∃ s : State, s.busy .gbc ∧ s.gbc.phase = .check ∧ s.gbc.mode = 0 ∧ 8 ≤ s.gbc.srcLen ∧
      s.gbc.src.load 0 8 = .ok [0x41, 0, 1, 0, 8, 16, 0, 0] ∧
      decode .glyphHeader [0x41, 0, 1, 0, 8, 16, 0, 0] = .ok (.glyHdr 0x41 1 8 16 0)) ∧
    (∃ s : State, s.busy .gbc ∧ s.gbc.phase = .check ∧ s.gbc.mode = 1 ∧ s.gbc.cpMax.toNat < s.gbc.cpMin.toNat) ∧
    (∃ s : State, s.busy .gbc ∧ s.gbc.phase = .check ∧ s.gbc.mode = 2 ∧ s.gbc.cpMin.toNat ≤ s.gbc.cpMax.toNat ∧
      0xFFFF < s.gbc.cpMax.toNat) ∧
    (∃ s : State, s.busy .gbc ∧ s.gbc.phase = .check ∧ s.gbc.mode = 1 ∧ s.gbc.cpMin.toNat ≤ s.gbc.cpMax.toNat ∧
      s.gbc.cpMax.toNat ≤ 0xFFFF ∧ 16 < s.gbc.width.toNat) ∧
    (∃ s : State, s.busy .gbc ∧ s.gbc.phase = .check ∧ s.gbc.mode = 1 ∧ s.gbc.cpMin.toNat ≤ s.gbc.cpMax.toNat ∧
      s.gbc.cpMax.toNat ≤ 0xFFFF ∧ s.gbc.width.toNat ≤ 16 ∧
      0xFFFF < s.gbc.cpMax.toNat - s.gbc.cpMin.toNat + 1) ∧
    ∃ s : State, s.busy .gbc ∧ s.gbc.phase = .check ∧ s.gbc.mode = 1 ∧ s.gbc.cpMin.toNat ≤ s.gbc.cpMax.toNat ∧
      s.gbc.cpMax.toNat ≤ 0xFFFF ∧ s.gbc.width.toNat ≤ 16 ∧
      s.gbc.cpMax.toNat - s.gbc.cpMin.toNat + 1 ≤ 0xFFFF :=
  ⟨⟨withGbc { gbcCheck 0 0 0 with mode := 3 }, by decide⟩,
    ⟨withGbc (gbcTable [0x41, 0, 1, 0, 8, 16, 0, 0] 8), by decide⟩, ⟨withGbc (gbcCheck 0x42 0x41 8), by decide⟩,
    ⟨withGbc { gbcCheck 0 0x10000 8 with mode := 2 }, by decide⟩, ⟨withGbc (gbcCheck 0 0xFFFF 17), by decide⟩,
    ⟨withGbc (gbcCheck 0 0xFFFF 16), by decide⟩, ⟨withGbc (gbcCheck 1 0xFFFF 16), by decide⟩⟩

/-- GBC in its merge step, an old table of `len` bytes of which the header is `header`. -/
def gbcMergeWith (header : List Byte) (len : Nat) : Gbc :=
  { gbcParse 16 with phase := .merge, oldLen := len, old := mem (header ++ List.replicate 32 0xAA) }

/-- A table with exactly the records, one byte short of them, a mismatch, and no whole header. -/
theorem witness_MergeCopiesRecordsOfAMatchingTable :
    (∃ s : State, s.busy .gbc ∧ s.gbc.phase = .merge ∧ (0x41 : BitVec 16).toNat = s.gbc.cpMin.toNat ∧
      (8 : Byte).toNat = s.gbc.width.toNat ∧
      8 + min (2 : BitVec 16).toNat s.gbc.count.toNat * s.gbc.recSize.toNat ≤ s.gbc.oldLen ∧
      s.gbc.old.load 8 (min (2 : BitVec 16).toNat s.gbc.count.toNat * s.gbc.recSize.toNat) =
        .ok (List.replicate 32 0xAA) ∧
      s.gbc.old.load 0 8 = .ok [0x41, 0, 2, 0, 8, 16, 0, 0] ∧ (0x42 : BitVec 16).toNat ≠ s.gbc.cpMin.toNat) ∧
    (∃ s : State, s.busy .gbc ∧ s.gbc.phase = .merge ∧
      s.gbc.oldLen < 8 + min (2 : BitVec 16).toNat s.gbc.count.toNat * s.gbc.recSize.toNat) ∧
    ∃ s : State, s.busy .gbc ∧ s.gbc.phase = .merge ∧ s.gbc.oldLen < 8 :=
  ⟨⟨withGbc (gbcMergeWith [0x41, 0, 2, 0, 8, 16, 0, 0] 40), by decide⟩,
    ⟨withGbc (gbcMergeWith [0x41, 0, 2, 0, 8, 16, 0, 0] 39), by decide⟩, ⟨withGbc (gbcMergeWith [] 7), by decide⟩⟩

/-- The four outcomes, with SRC_LEN at the boundary; and the step with seven and with eight bytes. -/
theorem witness_DecodeCheckStepReadsTheHeader :
    (∃ s : State, s.gbc.phase = .check ∧ 16 < (17 : Byte).toNat) ∧
    (∃ s : State, s.gbc.phase = .check ∧ (16 : Byte).toNat ≤ 16 ∧ (15 : Byte) ≠ 16) ∧
    (∃ s : State, s.gbc.phase = .check ∧ (9 : Byte).toNat ≤ 16 ∧
      s.gbc.srcLen < 8 + (1 : BitVec 16).toNat * if (9 : Byte).toNat ≤ 8 then 16 else 32) ∧
    (∃ s : State, s.gbc.phase = .check ∧ (8 : Byte).toNat ≤ 16 ∧
      8 + (1 : BitVec 16).toNat * (if (8 : Byte).toNat ≤ 8 then 16 else 32) ≤ s.gbc.srcLen) ∧
    (∃ s : State, s.busy .gbc ∧ s.gbc.phase = .check ∧ s.gbc.mode = 0 ∧ s.gbc.srcLen < 8) ∧
    ∃ s : State, s.busy .gbc ∧ s.gbc.phase = .check ∧ s.gbc.mode = 0 ∧ 8 ≤ s.gbc.srcLen ∧
      s.gbc.src.load 0 8 = .ok [0x41, 0, 1, 0, 8, 16, 0, 0] :=
  ⟨⟨withGbc (gbcTable [] 8), by decide⟩, ⟨withGbc (gbcTable [] 8), by decide⟩, ⟨withGbc (gbcTable [] 39), by decide⟩,
    ⟨withGbc (gbcTable [] 24), by decide⟩, ⟨withGbc (gbcTable [] 7), by decide⟩,
    ⟨withGbc (gbcTable [0x41, 0, 1, 0, 8, 16, 0, 0] 8), by decide⟩⟩

/-- The first and the last column. -/
theorem witness_GlyphRowWritesItsPixels :
    ∃ s : State, 0 < s.gbc.hdrWidth.toNat ∧ 15 < s.gbc.hdrWidth.toNat :=
  ⟨withGbc { Gbc.reset with hdrWidth := 16 }, by decide⟩

/-- GBC decoding one glyph of zeros. -/
def gbcDecoding (recSize : BitVec 6) (width : BitVec 8) : Gbc :=
  { Gbc.reset with
    shell := running, phase := .decode, srcLen := 8 + recSize.toNat, count := 1, recSize := recSize,
    hdrCount := 1, hdrWidth := width, hdrRows := 16, pixLen := 16 * width.toNat,
    src := mem (List.replicate (8 + recSize.toNat) 0) }

/-- Both record sizes, the last row and column; and no glyph left. -/
theorem witness_DecodeStepWritesOneGlyph :
    (∃ s : State, s.busy .gbc ∧ s.gbc.phase = .decode ∧ s.gbc.g ≠ s.gbc.count ∧ s.gbc.recSize = 16 ∧ s.gbc.src.wf ∧
      s.gbc.src.load (8 + s.gbc.g.toNat * s.gbc.recSize.toNat) s.gbc.recSize.toNat = .ok (List.replicate 16 0) ∧
      7 < s.gbc.hdrWidth.toNat ∧ (List.replicate 16 (0 : Byte))[15]? = some 0) ∧
    (∃ s : State, s.busy .gbc ∧ s.gbc.phase = .decode ∧ s.gbc.g ≠ s.gbc.count ∧ s.gbc.recSize = 32 ∧ s.gbc.src.wf ∧
      s.gbc.src.load (8 + s.gbc.g.toNat * s.gbc.recSize.toNat) s.gbc.recSize.toNat = .ok (List.replicate 32 0) ∧
      15 < s.gbc.hdrWidth.toNat ∧ (List.replicate 32 (0 : Byte))[2 * 15 + 1]? = some 0) ∧
    ∃ s : State, s.busy .gbc ∧ s.gbc.phase = .decode ∧ s.gbc.g = s.gbc.count :=
  ⟨⟨withGbc (gbcDecoding 16 8), by decide⟩, ⟨withGbc (gbcDecoding 32 16), by decide⟩,
    ⟨withGbc { gbcDecoding 16 8 with g := 1 }, by decide⟩⟩

/-- Each skip, and each pair of payload and record size that is stored; code points at the ends of the range. -/
theorem witness_HexLineWritesOrSkipsItsRecord :
    (∃ s : State, s.gbc.recSize = 16 ∧ (List.replicate 16 (0xFF : Byte)).length = 16 ∧
      (0x40 : BitVec 32).toNat < s.gbc.cpMin.toNat ∧ s.gbc.cpMax.toNat < (0x43 : BitVec 32).toNat) ∧
    (∃ s : State, s.gbc.recSize = 16 ∧ (List.replicate 32 (0xFF : Byte)).length = 32) ∧
    (∃ s : State, s.gbc.recSize = 16 ∧ (List.replicate 16 (0xFF : Byte)).length = 16 ∧
      s.gbc.cpMin.toNat ≤ (0x41 : BitVec 32).toNat ∧ (0x41 : BitVec 32).toNat ≤ s.gbc.cpMax.toNat ∧
      (0x41 : BitVec 32) ≠ 0 ∧ (List.replicate 16 (0xFF : Byte))[15]? = some 0xFF) ∧
    (∃ s : State, s.gbc.recSize = 32 ∧ (List.replicate 16 (0xFF : Byte)).length = 16 ∧
      s.gbc.cpMin.toNat ≤ (0x42 : BitVec 32).toNat ∧ (0x42 : BitVec 32).toNat ≤ s.gbc.cpMax.toNat) ∧
    ∃ s : State, s.gbc.recSize = 32 ∧ (List.replicate 32 (0xFF : Byte)).length = 32 ∧
      s.gbc.cpMin.toNat ≤ (0x42 : BitVec 32).toNat ∧ (0x42 : BitVec 32).toNat ≤ s.gbc.cpMax.toNat ∧
      (List.replicate 32 (0xFF : Byte))[2 * 15 + 1]? = some 0xFF :=
  ⟨⟨withGbc (gbcParse 16), by decide⟩, ⟨withGbc (gbcParse 16), by decide⟩, ⟨withGbc (gbcParse 16), by decide⟩,
    ⟨withGbc (gbcParse 32), by decide⟩, ⟨withGbc (gbcParse 32), by decide⟩⟩

/-- The two names, and a prefix of one. -/
theorem witness_CharsetLineSetsTheClassOfTheName :
    ([0x4A, 0x49, 0x53, 0x58, 0x30, 0x32, 0x30, 0x38] : List Byte) <+:
        [0x4A, 0x49, 0x53, 0x58, 0x30, 0x32, 0x30, 0x38] ∧
      ¬ ([0x4A, 0x49, 0x53, 0x58, 0x30, 0x32, 0x30, 0x38] : List Byte) <+: [0x4A, 0x49, 0x53, 0x58] ∧
      ([0x4A, 0x49, 0x53, 0x58] : List Byte) ≠ [0x49, 0x53, 0x4F, 0x31, 0x30, 0x36, 0x34, 0x36] := by decide

/-- Without a charset, and with each kind; codes at the ends of the tests. JIS0208 is free: it either names a code point
for a cell or none. -/
theorem witness_EncodingLineSelectsTheCodePoint :
    (∃ s : State, s.gbc.charset = .none) ∧ (∃ s : State, s.gbc.charset = .unknown) ∧
    (∃ s : State, s.gbc.charset = .iso10646 ∧ 0xFFFF < (0x10000 : BitVec 32).toNat ∧
      (0x41 : BitVec 32).toNat ≤ 0xFFFF ∧ (0x41 : BitVec 32).toNat ≠ 0 ∧
      s.gbc.cpMin.toNat ≤ (0x41 : BitVec 32).toNat ∧ (0x41 : BitVec 32).toNat ≤ s.gbc.cpMax.toNat ∧
      ¬ (0x43 : BitVec 32).toNat ≤ s.gbc.cpMax.toNat) ∧
    (∃ s : State, s.gbc.charset = .jisx0208 ∧ (0x2120 : BitVec 32).toNat ≤ 0xFFFF ∧
      (0x2120 : BitVec 32).extractLsb' 0 8 < (0x21 : BitVec 8)) ∧
    ∃ s : State, s.gbc.charset = .jisx0208 ∧ (0x217E : BitVec 32).toNat ≤ 0xFFFF ∧
      (0x21 : BitVec 8) ≤ (0x217E : BitVec 32).extractLsb' 8 8 ∧
      (0x217E : BitVec 32).extractLsb' 0 8 ≤ (0x7E : BitVec 8) ∧
      (Config.jis0208 0x21 0x7E = none ∨ ∃ u, Config.jis0208 0x21 0x7E = some u) := by
  refine ⟨⟨withGbc (gbcParse 16), rfl⟩, ⟨withGbc { gbcParse 16 with charset := .unknown }, rfl⟩,
    ⟨withGbc { gbcParse 16 with charset := .iso10646 }, by decide⟩,
    ⟨withGbc { gbcParse 16 with charset := .jisx0208 }, by decide⟩,
    withGbc { gbcParse 16 with charset := .jisx0208 }, rfl, by decide, by decide, by decide, ?_⟩
  cases Config.jis0208 0x21 0x7E with
  | none => exact .inl rfl
  | some u => exact .inr ⟨u, rfl⟩

theorem witness_BitmapEndcharAndOtherLines :
    (∃ s : State, s.gbc.curCp = 0) ∧ ∃ s : State, s.gbc.curCp ≠ 0 ∧ 0 < s.gbc.recSize.toNat :=
  ⟨⟨withGbc (gbcParse 16), rfl⟩, ⟨withGbc { gbcParse 16 with curCp := 0x41 }, by decide⟩⟩

/-- The skips; rows at the width limits of both record sizes, and one digit more, in the last row. -/
theorem witness_RowLineWritesOrSkipsOneRow :
    (∃ s : State, s.gbc.recSize = 16 ∧ s.gbc.curCp = 0) ∧ (∃ s : State, s.gbc.recSize = 16 ∧ 16 ≤ s.gbc.rowIdx.toNat) ∧
    (∃ s : State, s.gbc.recSize = 16 ∧ ([1, 8] : List Nibble) ≠ [] ∧ s.gbc.curCp ≠ 0 ∧ s.gbc.rowIdx.toNat < 16 ∧
      4 * ([1, 8] : List Nibble).length ≤ 8 ∧ 8 < 4 * ([1, 8, 0] : List Nibble).length) ∧
    ∃ s : State, s.gbc.recSize = 32 ∧ ([1, 8] : List Nibble) ≠ [] ∧ s.gbc.curCp ≠ 0 ∧ s.gbc.rowIdx.toNat < 16 ∧
      4 * ([1, 8, 0, 0] : List Nibble).length ≤ 16 ∧ 16 < 4 * ([1, 8, 0, 0, 0] : List Nibble).length :=
  ⟨⟨withGbc (gbcParse 16), by decide⟩, ⟨withGbc { gbcParse 16 with rowIdx := 16 }, by decide⟩,
    ⟨withGbc { gbcParse 16 with curCp := 0x42, rowIdx := 15 }, by decide⟩,
    ⟨withGbc { gbcParse 32 with curCp := 0x42, rowIdx := 15 }, by decide⟩⟩

/-- A line ended by a line feed, one ended by SRC_LEN, an empty one; and the end of the text. -/
theorem witness_ParseStepConsumesOneLine :
    (∃ s : State, s.busy .gbc ∧ s.gbc.phase = .parse ∧ s.gbc.srcLen ≤ s.gbc.srcPos) ∧
    (∃ s : State, s.busy .gbc ∧ s.gbc.phase = .parse ∧ s.gbc.src.wf ∧ s.gbc.srcPos + [(0x43 : Byte)].length ≤ s.gbc.srcLen ∧
      s.gbc.srcPos < s.gbc.srcLen ∧ (∀ k, k < 1 → s.gbc.src.read (s.gbc.srcPos + k) = [(0x43 : Byte)][k]?) ∧
      lineFeed ∉ [(0x43 : Byte)] ∧ s.gbc.src.read (s.gbc.srcPos + 1) = some lineFeed ∧
      decode (.bdfText s.gbc.pstate) [0x43] = .ok .bdfOther) ∧
    (∃ s : State, s.busy .gbc ∧ s.gbc.phase = .parse ∧ s.gbc.src.wf ∧ s.gbc.srcPos < s.gbc.srcLen ∧
      (∀ k, k < 1 → s.gbc.src.read (s.gbc.srcPos + k) = [(0x44 : Byte)][k]?) ∧ s.gbc.srcPos + 1 = s.gbc.srcLen) ∧
    decode (.bdfText .scanning) [] = .error .emptyLine :=
  ⟨⟨withGbc (gbcParse 16), by decide⟩,
    ⟨withGbc { gbcParse 16 with srcLen := 3, src := mem [0x43, 0x0A, 0x44] }, by decide⟩,
    ⟨withGbc { gbcParse 16 with srcLen := 3, srcPos := 2, src := mem [0x43, 0x0A, 0x44] }, by decide⟩, by decide⟩

/-- GBC between its lines, on the given text and with the range of code points starting at `lo`. -/
def gbcText (lo : BitVec 32) (text : List Byte) : Gbc :=
  { gbcParse 16 with cpMin := lo, cpMax := lo + 1, srcLen := text.length, src := mem text }

theorem gbcText_ok (lo : BitVec 32) (text : List Byte) (h : lo.toNat < 0xFFFF) : Inv (withGbc (gbcText lo text)) :=
  inv_withGbc (Memory.cells_wf 0 text) Memory.wf_nil (Memory.cells_wf 0 _) Memory.wf_nil (running_ok .gbc)
    { rowIdx_le := Nat.zero_le _
      srcPos_le := fun _ => Nat.zero_le _
      encode := fun _ _ => by
        have e : (lo + 1).toNat = lo.toNat + 1 := by
          rw [BitVec.toNat_add]; simp; omega
        refine ⟨.inr rfl, ?_, ?_, by show (8 : BitVec 32).toNat ≤ 16; decide, ?_, by show (2 : BitVec 17).toNat ≤ 65535; decide,
          rfl, rfl⟩
        · show lo.toNat ≤ (lo + 1).toNat; omega
        · show (lo + 1).toNat ≤ 0xFFFF; omega
        · show (2 : BitVec 17).toNat = (lo + 1).toNat - lo.toNat + 1
          rw [e, show lo.toNat + 1 - lo.toNat = 1 by omega]; rfl
      tbl_written := fun _ => by show ∀ a, a < 40 → (gbcParse 16).tbl.read a ≠ none; decide
      curCp_in := fun _ h => absurd rfl h
      decode := fun _ => nofun }

theorem gbcText_loaded (lo : BitVec 32) (text : List Byte) : (withGbc (gbcText lo text)).loaded .gbc :=
  ⟨fun a ha => by
    show Memory.read (Memory.cells 0 text) a ≠ none
    have : a < text.length := ha
    simp [Memory.read_cells, this], fun _ h => absurd h (by show ¬ _ < 0; omega)⟩

/-- The same, in an encode mode and parser state, a glyph being encoded. -/
def gbcTextIn (mode : BitVec 2) (pstate : PState) (cp : BitVec 16) (text : List Byte) : Gbc :=
  { gbcText 0x41 text with mode := mode, pstate := pstate, curCp := cp }

theorem gbcTextIn_ok (mode : BitVec 2) (pstate : PState) (cp : BitVec 16) (text : List Byte) (hm : mode = 1 ∨ mode = 2)
    (h : 0x41 ≤ cp.toNat ∧ cp.toNat ≤ 0x42) : Inv (withGbc (gbcTextIn mode pstate cp text)) :=
  have o := (gbcText_ok 0x41 text (by decide)).gbc
  inv_withGbc (Memory.cells_wf 0 text) Memory.wf_nil (Memory.cells_wf 0 _) Memory.wf_nil (running_ok .gbc)
    { rowIdx_le := o.rowIdx_le, srcPos_le := o.srcPos_le, encode := fun a b => ⟨hm, (o.encode a b).2⟩,
      tbl_written := o.tbl_written, curCp_in := fun _ _ => ⟨rfl, h⟩, decode := fun _ => nofun }

/-- The line at the cursor of `s` is `raw`, it decodes to `line`, and the unit has a step there that the invariant allows. -/
def ParsesLine (s : State) (raw : List Byte) (line : Except Reject Instr) : Prop :=
  Inv s ∧ s.busy .gbc ∧ s.gbc.phase = .parse ∧ (∃ t, agentStep (.unit .gbc) s = .next t) ∧ s.gbc.srcPos < s.gbc.srcLen ∧
    s.gbc.src.lineAt s.gbc.srcPos (s.gbc.srcLen - s.gbc.srcPos) = .ok raw ∧
    decode (if s.gbc.mode = 1 then .hexText else .bdfText s.gbc.pstate) raw = line

/-- Each clause: the end of the text; an empty line; a bitmap's start with no code point; a row of the last code point of
the range; hex-row lines of the last code point and of the one after it; a range that holds code point 0. -/
theorem witness_ParseStepsWriteOnlyNamedSlots :
    (∃ s t : State, Inv s ∧ s.busy .gbc ∧ s.gbc.phase = .parse ∧ agentStep (.unit .gbc) s = .next t ∧
      s.gbc.srcLen ≤ s.gbc.srcPos) ∧
    (∃ s, ParsesLine s [] (.error .emptyLine)) ∧
    (∃ s, ParsesLine s kwBitmap (.ok .bdfBitmap) ∧ s.gbc.lineCp .bdfBitmap = 0) ∧
    (∃ s, ParsesLine s [0x38, 0x30] (.ok (.bdfRow (some [8, 0]))) ∧ s.gbc.lineCp (.bdfRow (some [8, 0])) = 0x42) ∧
    (∃ s raw, ParsesLine s raw (.ok (.hexLine 0x42 (List.replicate 16 0xFF))) ∧
      s.gbc.lineCp (.hexLine 0x42 (List.replicate 16 0xFF)) = 0x42) ∧
    (∃ s raw, ParsesLine s raw (.ok (.hexLine 0x43 (List.replicate 16 0xFF))) ∧
      s.gbc.lineCp (.hexLine 0x43 (List.replicate 16 0xFF)) = 0) ∧
    ∃ s, ParsesLine s kwBitmap (.ok .bdfBitmap) ∧ s.gbc.cpMin = 0 :=
  ⟨⟨_, _, gbcText_ok 0x41 [] (by decide), rfl, rfl, rfl, by decide⟩,
    ⟨_, gbcText_ok 0x41 [0x0A] (by decide), rfl, rfl, ⟨_, rfl⟩, by decide, by decide, by decide⟩,
    ⟨_, ⟨gbcText_ok 0x41 kwBitmap (by decide), rfl, rfl, ⟨_, rfl⟩, by decide, by decide, by decide⟩, by decide⟩,
    ⟨_, ⟨gbcTextIn_ok 2 .inBitmap 0x42 [0x38, 0x30] (.inr rfl) (by decide), rfl, rfl, ⟨_, rfl⟩, by decide, by decide,
      by decide⟩, by decide⟩,
    ⟨_, 0x34 :: 0x32 :: 0x3A :: List.replicate 32 0x46,
      ⟨gbcTextIn_ok 1 .scanning 0x41 (0x34 :: 0x32 :: 0x3A :: List.replicate 32 0x46) (.inl rfl) (by decide), rfl, rfl,
        ⟨_, rfl⟩, by decide, by decide, by decide⟩, by decide⟩,
    ⟨_, 0x34 :: 0x33 :: 0x3A :: List.replicate 32 0x46,
      ⟨gbcTextIn_ok 1 .scanning 0x41 (0x34 :: 0x33 :: 0x3A :: List.replicate 32 0x46) (.inl rfl) (by decide), rfl, rfl,
        ⟨_, rfl⟩, by decide, by decide, by decide⟩, by decide⟩,
    ⟨_, ⟨gbcText_ok 0 kwBitmap (by decide), rfl, rfl, ⟨_, rfl⟩, by decide, by decide, by decide⟩, rfl⟩⟩

/-- The last row of a stored record, both sizes: a row of `80` and one of `01 80` (R157). -/
theorem witness_EncodedRowsDecodeToTheSourcePixels :
    (∃ t, exec (.hexLine 0x42 (List.replicate 16 0x80)) (withGbc (gbcParse 16)) = .next t ∧
      (gbcParse 16).cpMin.toNat ≤ (0x42 : BitVec 32).toNat ∧ (0x42 : BitVec 32).toNat ≤ (gbcParse 16).cpMax.toNat ∧
      t.gbc.tbl.read (8 + 16 + 15) = some 0x01) ∧
    ∃ t, exec (.hexLine 0x42 ((List.replicate 16 [0x01, 0x80]).flatten)) (withGbc (gbcParse 32)) = .next t ∧
      t.gbc.tbl.read (8 + 32 + 2 * 15) = some 0x80 ∧ t.gbc.tbl.read (8 + 32 + 2 * 15 + 1) = some 0x01 :=
  ⟨⟨_, rfl, by decide⟩, ⟨_, rfl, by decide⟩⟩

/-! ### SSR -/

/-- SSR right after START, its image of zeros. -/
def ssrStart (rawLen : Nat) : Ssr :=
  { Ssr.reset with shell := running, rawLen := rawLen, raw := Memory.zero [] 0 rawLen }

theorem ssrStart_ok (rawLen : Nat) : Inv (withSsr (ssrStart rawLen)) :=
  inv_withSsr (Memory.zero_wf _ _ _ Memory.wf_nil) Memory.wf_nil Memory.wf_nil Memory.wf_nil (running_ok .ssr)
    { p_le := Nat.zero_le _, p_emit := nofun, lens := fun _ h => absurd rfl h, slots_written := fun h => absurd rfl h }

theorem ssrStart_loaded (rawLen : Nat) : (withSsr (ssrStart rawLen)).loaded .ssr := Written.zero _ _

theorem witness_SsrCheckStepZeroesTheSlots :
    (∃ s : State, s.busy .ssr ∧ s.ssr.phase = .check ∧ s.ssr.rawLen < 0x1C000) ∧
    ∃ s : State, s.busy .ssr ∧ s.ssr.phase = .check ∧ 0x1C000 ≤ s.ssr.rawLen :=
  ⟨⟨withSsr { Ssr.reset with shell := running, rawLen := 0x1BFFF }, by decide⟩,
    ⟨withSsr { Ssr.reset with shell := running, rawLen := 0x1C000 }, by decide⟩⟩

/-- The sector numbered `p` of an image of zeros. -/
theorem zeroSector (p : BitVec 5) (h : p.toNat < 28) :
    ∃ bytes i, (Memory.zero [] 0 0x1C000).load (0x1000 * p.toNat) 0x1000 = .ok bytes ∧ decode .sector bytes = .ok i := by
  obtain ⟨bytes, h1, h2⟩ := Memory.load_isOk (Memory.zero [] 0 0x1C000) (0x1000 * p.toNat) 0x1000
    (Memory.zero_wf _ _ _ Memory.wf_nil) fun k hk => Written.zero [] 0x1C000 _ (by omega)
  obtain ⟨data, index, undescribed, counter, h3⟩ := decode_sector bytes h2
  exact ⟨bytes, _, h1, h3⟩

/-- An index on either side of 14, in the last sector of region 0 and the first of region 1; the last sector; the end. -/
theorem witness_SectorIsCopiedToItsLogicalPlaceOrDropped :
    (List.replicate 0xFF4 (0 : Byte)).length = 0xFF4 ∧ 14 ≤ (14 : BitVec 16).toNat ∧ (13 : BitVec 16).toNat < 14 ∧
    ({ Ssr.reset with p := 13 } : Ssr).p.toNat < 14 ∧ 14 ≤ ({ Ssr.reset with p := 14 } : Ssr).p.toNat ∧
    (∃ s : State, s.busy .ssr ∧ s.ssr.phase = .gather ∧ s.ssr.p = 28) ∧
    ∃ (s : State) (bytes : List Byte) (i : Instr), s.busy .ssr ∧ s.ssr.phase = .gather ∧ s.ssr.p ≠ 28 ∧
      s.ssr.raw.load (0x1000 * s.ssr.p.toNat) 0x1000 = .ok bytes ∧ decode .sector bytes = .ok i := by
  obtain ⟨bytes, i, h1, h2⟩ := zeroSector 27 (by decide)
  exact ⟨List.length_replicate, by decide, by decide, by decide, by decide,
    ⟨withSsr { ssrStart 0x1C000 with phase := .gather, p := 28 }, rfl, rfl, rfl⟩,
    withSsr { ssrStart 0x1C000 with phase := .gather, p := 27 }, bytes, i, rfl, rfl, fun h => absurd h (by decide : (27 : BitVec 5) ≠ 28), h1, h2⟩

/-- Slots of zeros, no tail. -/
theorem witness_EmitOrdersTheSlotsByCounter :
    ∃ (s : State) (a b tail : List Byte), s.busy .ssr ∧ s.ssr.phase = .emit ∧ s.ssr.slotA.load 0 0xE000 = .ok a ∧
      s.ssr.slotB.load 0 0xE000 = .ok b ∧ 0x1C000 ≤ s.ssr.rawLen ∧
      s.ssr.raw.load 0x1C000 (s.ssr.rawLen - 0x1C000) = .ok tail ∧
      s.ssr.slotA.load 0xFFC 4 = .ok [0, 0, 0, 0] ∧ s.ssr.slotB.load 0xFFC 4 = .ok [0, 0, 0, 0] ∧ s.memWf := by
  obtain ⟨bytes, h1, -⟩ := Memory.load_isOk (Memory.zero [] 0 0xE000) 0 0xE000 (Memory.zero_wf _ _ _ Memory.wf_nil)
    fun k hk => Written.zero [] 0xE000 _ (by omega)
  have h2 : (Memory.zero [] 0 0xE000).load 0xFFC 4 = .ok [0, 0, 0, 0] := by
    rw [Memory.load_eq_ok _ _ _ _ (Memory.zero_wf _ _ _ Memory.wf_nil)]
    refine ⟨rfl, fun k hk => ?_⟩
    rw [Memory.read_zero, if_pos ⟨Nat.zero_le _, by omega⟩]
    match k, hk with
    | 0, _ => rfl
    | 1, _ => rfl
    | 2, _ => rfl
    | 3, _ => rfl
  refine ⟨withSsr { Ssr.reset with
    shell := running, phase := .emit, p := 28, rawLen := 0x1C000, slotA := Memory.zero [] 0 0xE000,
    slotB := Memory.zero [] 0 0xE000 }, bytes, bytes, [], rfl, rfl, h1, h1, Nat.le_refl _, ?_, h2, h2, ?_⟩
  · show Memory.load [] 0x1C000 (0x1C000 - 0x1C000) = _
    rw [Nat.sub_self]; rfl
  · intro b
    cases b <;> first | exact Memory.zero_wf _ _ _ Memory.wf_nil | exact Memory.wf_nil

theorem witness_ReassembleRebuildsAndOrdersTheSlots :
    ∃ s : State, Inv s ∧ s.busy .ssr ∧ s.ssr.phase = .check ∧ s.loaded .ssr ∧ 0x1C000 ≤ s.ssr.rawLen :=
  ⟨_, ssrStart_ok 0x1C000, rfl, rfl, ssrStart_loaded _, Nat.le_refl _⟩

/-! ### The host -/

/-- LZD running: a parameter write, a buffer, a register and a copy of its own, and a START write. -/
theorem witness_HostAccessToARunningUnitIsRefused :
    ∃ s : State, s.busy .lzd ∧ (RegWrite.lzdInLen 0).unit = .lzd ∧ (RegWrite.lzdInLen 0).isStart = false ∧
      InBuf.lzdIn.name.unit = .lzd ∧ BufName.lzdOut.unit = .lzd ∧ RegName.lzdSize.unit = .lzd ∧
      RegName.lzdSize ≠ .status .lzd ∧ (RegWrite.lzdStart 1).startOf = some .lzd ∧
      s.host = .write (.lzdStart 1) :: [] :=
  ⟨{ withLzd prog1Start with host := [.write (.lzdStart 1)] }, by decide⟩

theorem witness_HostLoadsAndReadsBuffersOfARestingUnit :
    ∃ s : State, ¬ s.busy InBuf.tiuPal.name.unit ∧ ¬ s.busy BufName.lzdOut.unit ∧
      (s.buf .lzdOut).wf ∧ (s.buf .lzdOut).load 0 3 = .ok [9, 8, 7] :=
  ⟨withLzd { Lzd.reset with outBuf := mem [9, 8, 7] }, by decide⟩

theorem witness_HostCopiesOneBufferIntoAnother :
    ∃ s : State, ¬ s.busy BufName.lzdOut.unit ∧ ¬ s.busy InBuf.tiuTiles.name.unit ∧ (s.buf .lzdOut).wf ∧
      (s.buf .lzdOut).load 1 2 = .ok [8, 7] := ⟨withLzd { Lzd.reset with outBuf := mem [9, 8, 7] }, by decide⟩

theorem witness_HostWritesOneParameterRegister : ∃ s : State, ∀ u, ¬ s.busy u :=
  ⟨State.reset, fun u => by cases u <;> decide⟩

/-! ### The whole machine -/

/-- LZD and TIU both running, each with a step to take. -/
def twoRunning : State := (withLzd prog1Start).setTiu { tiuStart 32 32 with phase := .tiles, wT := 1, hT := 1 }

theorem witness_UnitsNeitherReadNorWriteEachOther :
    (∃ t, agentStep (.unit .lzd) twoRunning = .next t) ∧ SameUnit .lzd twoRunning (withLzd prog1Start) :=
  ⟨⟨_, rfl⟩, rfl⟩

theorem witness_StepsOfDifferentUnitsCommute :
    UnitId.lzd ≠ .tiu ∧ (∃ t, agentStep (.unit .lzd) twoRunning = .next t) ∧
      ∃ t, agentStep (.unit .tiu) twoRunning = .next t := ⟨by decide, ⟨_, rfl⟩, ⟨_, rfl⟩⟩

theorem witness_UnitsNeverWriteParametersOrInputs : ∃ t, agentStep (.unit .lzd) twoRunning = .next t := ⟨_, rfl⟩

theorem witness_EveryStepKeepsTheInvariant : ∃ s t : State, Inv s ∧ step s = .next t :=
  ⟨_, _, token_ok 7 0x80 6 (by decide) (by decide), rfl⟩

/-- GBC started in decode mode on a table of no glyph. -/
theorem gbcTable_ok (header : List Byte) (len : Nat) : Inv (withGbc (gbcTable header len)) :=
  inv_withGbc (Memory.cells_wf 0 header) Memory.wf_nil Memory.wf_nil Memory.wf_nil (running_ok .gbc)
    { rowIdx_le := Nat.zero_le _, srcPos_le := fun _ => Nat.zero_le _, encode := fun _ => nofun, tbl_written := nofun,
      curCp_in := fun _ h => absurd rfl h, decode := fun _ => nofun }

/-- GBC started in an encode mode on no text. -/
theorem gbcCheck_ok (lo hi width : BitVec 32) : Inv (withGbc (gbcCheck lo hi width)) :=
  inv_withGbc Memory.wf_nil Memory.wf_nil Memory.wf_nil Memory.wf_nil (running_ok .gbc)
    { rowIdx_le := Nat.zero_le _, srcPos_le := fun _ => Nat.zero_le _, encode := fun _ => nofun, tbl_written := nofun,
      curCp_in := fun _ h => absurd rfl h, decode := fun _ => nofun }

theorem gbcTable_loaded : (withGbc (gbcTable [0x41, 0, 0, 0, 8, 16, 0, 0] 8)).loaded .gbc :=
  ⟨by show ∀ a, a < 8 → _ ≠ none; decide, fun _ h => absurd h (by show ¬ _ < 0; omega)⟩

theorem gbcCheck_loaded (lo hi width : BitVec 32) : (withGbc (gbcCheck lo hi width)).loaded .gbc :=
  ⟨fun _ h => absurd h (by show ¬ _ < 0; omega), fun _ h => absurd h (by show ¬ _ < 0; omega)⟩

theorem lzd_loaded : (withLzd { Lzd.reset with shell := running, inLen := 4, inBuf := mem [1, 1, 0, 0] }).loaded .lzd :=
  by show ∀ a, a < 4 → _ ≠ none; decide

/-- Each unit, loaded and running. -/
theorem witness_ABusyUnitIsNeverStuck :
    (∃ s : State, Inv s ∧ s.busy .lzd ∧ s.loaded .lzd) ∧ (∃ s : State, Inv s ∧ s.busy .tiu ∧ s.loaded .tiu) ∧
      (∃ s : State, Inv s ∧ s.busy .gbc ∧ s.loaded .gbc) ∧ ∃ s : State, Inv s ∧ s.busy .ssr ∧ s.loaded .ssr :=
  ⟨⟨_, start_ok [1, 1, 0, 0], rfl, lzd_loaded⟩, ⟨_, tiuStart_ok 32 32, rfl, tiuStart_loaded _ _⟩,
    ⟨_, gbcText_ok 0x41 kwBitmap (by decide), rfl, gbcText_loaded _ _⟩, ⟨_, ssrStart_ok 0x1C000, rfl, ssrStart_loaded _⟩⟩

/-- Each clause: LZD, TIU, GBC encoding, GBC decoding, SSR. -/
theorem witness_EveryOperationEnds :
    (∃ s : State, Inv s ∧ s.busy .lzd ∧ s.loaded .lzd) ∧
      (∃ s : State, Inv s ∧ s.busy .tiu ∧ s.loaded .tiu ∧ s.tiu.phase = .check) ∧
      (∃ s : State, Inv s ∧ s.busy .gbc ∧ s.loaded .gbc ∧ s.gbc.phase = .check ∧ s.gbc.mode ≠ 0) ∧
      (∃ s : State, Inv s ∧ s.busy .gbc ∧ s.loaded .gbc ∧ s.gbc.phase = .check ∧ s.gbc.mode = 0) ∧
      ∃ s : State, Inv s ∧ s.busy .ssr ∧ s.loaded .ssr ∧ s.ssr.phase = .check :=
  ⟨⟨_, start_ok [1, 1, 0, 0], rfl, lzd_loaded⟩, ⟨_, tiuStart_ok 32 32, rfl, tiuStart_loaded _ _, rfl⟩,
    ⟨_, gbcCheck_ok 0x41 0x42 8, rfl, gbcCheck_loaded _ _ _, rfl, by show (1 : BitVec 2) ≠ 0; decide⟩,
    ⟨_, gbcTable_ok _ _, rfl, gbcTable_loaded, rfl, rfl⟩, ⟨_, ssrStart_ok 0x1C000, rfl, ssrStart_loaded _, rfl⟩⟩

/-- The clauses of LZD and TIU. -/
theorem witness_AStepRunsTheDecodedInstruction_lzd_tiu :
    (∃ s : State, s.busy .lzd ∧ s.lzd.phase = .hdr ∧ 4 ≤ s.lzd.inLen ∧ s.lzd.inBuf.load 0 4 = .ok [1, 9, 0, 0] ∧
      decode .lzHeader [1, 9, 0, 0] = .ok (.lzHdr 9 0)) ∧
    (∃ s : State, s.busy .lzd ∧ s.lzd.phase = .token ∧ s.lzd.outPos.toNat < s.lzd.size.toNat ∧ s.lzd.bitsLeft = 0 ∧
      s.lzd.inPos < s.lzd.inLen ∧ s.lzd.inBuf.load s.lzd.inPos 1 = .ok [0x43] ∧
      decode .lzControl [0x43] = .ok (.lzCtrl 0x43)) ∧
    (∃ s : State, s.busy .lzd ∧ s.lzd.phase = .token ∧ s.lzd.outPos.toNat < s.lzd.size.toNat ∧ s.lzd.bitsLeft ≠ 0 ∧
      s.lzd.ctrl.getLsbD 7 = false ∧ s.lzd.inPos < s.lzd.inLen ∧ s.lzd.inBuf.load s.lzd.inPos 1 = .ok [0x43] ∧
      decode (.lzToken false) [0x43] = .ok (.lit 0x43)) ∧
    (∃ s : State, s.busy .lzd ∧ s.lzd.phase = .token ∧ s.lzd.outPos.toNat < s.lzd.size.toNat ∧ s.lzd.bitsLeft ≠ 0 ∧
      s.lzd.ctrl.getLsbD 7 = true ∧ s.lzd.inPos + 2 ≤ s.lzd.inLen ∧
      s.lzd.inBuf.load s.lzd.inPos 2 = .ok [0x30, 0x01] ∧ decode (.lzToken true) [0x30, 0x01] = .ok (.copy 3 1)) ∧
    (∃ s : State, s.busy .tiu ∧ s.tiu.phase = .tiles ∧ s.tiu.k < s.tiu.tilesLen ∧
      s.tiu.tiles.load s.tiu.k 1 = .ok [0] ∧ decode .tile [0] = .ok (.tileByte 0 0)) ∧
    ∃ s : State, s.busy .tiu ∧ s.tiu.phase = .palette ∧ s.tiu.pi.toNat < 16 ∧
      s.tiu.pal.load (2 * s.tiu.pi.toNat) 2 = .ok [0, 0] ∧ decode .palette [0, 0] = .ok (.palEntry 0 0 0 0) :=
  ⟨⟨withLzd prog1Start, by decide⟩, ⟨withLzd { prog1Step4 with inPos := 9, bitsLeft := 0 }, by decide⟩,
    ⟨withLzd { prog1Step4 with inPos := 9, ctrl := 0 }, by decide⟩, ⟨withLzd prog1Step4, by decide⟩,
    ⟨withTiu { tiuStart 32 32 with phase := .tiles, wT := 1, k := 31 }, by decide⟩,
    ⟨withTiu { tiuStart 32 32 with phase := .palette, pi := 15 }, by decide⟩⟩

/-- The clauses of GBC, SSR and the host. -/
theorem witness_AStepRunsTheDecodedInstruction_gbc_ssr_host :
    (∃ s : State, s.busy .gbc ∧ s.gbc.phase = .check ∧ s.gbc.mode = 0 ∧ 8 ≤ s.gbc.srcLen ∧
      s.gbc.src.load 0 8 = .ok [0x41, 0, 2, 0, 8, 16, 0, 0] ∧
      decode .glyphHeader [0x41, 0, 2, 0, 8, 16, 0, 0] = .ok (.glyHdr 0x41 2 8 16 0)) ∧
    (∃ s : State, s.busy .gbc ∧ s.gbc.phase = .merge ∧ 8 ≤ s.gbc.oldLen ∧
      s.gbc.old.load 0 8 = .ok [0x41, 0, 2, 0, 8, 16, 0, 0]) ∧
    (∃ s : State, s.busy .gbc ∧ s.gbc.phase = .parse ∧ s.gbc.srcPos < s.gbc.srcLen ∧
      s.gbc.src.lineAt s.gbc.srcPos (s.gbc.srcLen - s.gbc.srcPos) = .ok kwBitmap ∧
      decode (if s.gbc.mode = 1 then .hexText else .bdfText s.gbc.pstate) kwBitmap = .ok .bdfBitmap) ∧
    (∃ s : State, s.busy .gbc ∧ s.gbc.phase = .decode ∧ s.gbc.g ≠ s.gbc.count ∧ s.gbc.recSize = 16 ∧
      s.gbc.src.load (8 + s.gbc.g.toNat * s.gbc.recSize.toNat) s.gbc.recSize.toNat = .ok (List.replicate 16 0)) ∧
    (∃ s : State, s.busy .gbc ∧ s.gbc.phase = .decode ∧ s.gbc.g ≠ s.gbc.count ∧ s.gbc.recSize ≠ 16 ∧
      s.gbc.src.load (8 + s.gbc.g.toNat * s.gbc.recSize.toNat) s.gbc.recSize.toNat = .ok (List.replicate 32 0)) ∧
    (∃ (s : State) (bytes : List Byte) (i : Instr), s.busy .ssr ∧ s.ssr.phase = .gather ∧ s.ssr.p ≠ 28 ∧
      s.ssr.raw.load (0x1000 * s.ssr.p.toNat) 0x1000 = .ok bytes ∧ decode .sector bytes = .ok i) ∧
    ∃ s : State, s.host = .write (.gbcStart 1) :: [] ∧ (RegWrite.gbcStart 1).startOf = some .gbc ∧
      commandCode s .gbc = 0b1010 ∧ decode .command [(0 : BitVec 4) ++ (0b1010 : BitVec 4)] = .ok .gbcEncBdf :=
  ⟨⟨withGbc (gbcTable [0x41, 0, 2, 0, 8, 16, 0, 0] 8), by decide⟩,
    ⟨withGbc (gbcMergeWith [0x41, 0, 2, 0, 8, 16, 0, 0] 40), by decide⟩, ⟨withGbc (gbcText 0x41 kwBitmap), by decide⟩,
    ⟨withGbc (gbcDecoding 16 8), by decide⟩, ⟨withGbc (gbcDecoding 32 16), by decide⟩,
    by
      obtain ⟨bytes, i, h1, h2⟩ := zeroSector 27 (by decide)
      exact ⟨withSsr { ssrStart 0x1C000 with phase := .gather, p := 27 }, bytes, i, rfl, rfl,
        fun h => absurd h (by decide : (27 : BitVec 5) ≠ 28), h1, h2⟩,
    ⟨{ withGbc { Gbc.reset with mode := 2 } with host := [.write (.gbcStart 1)] }, by decide⟩⟩

/-- A schedule; each unit first in turn; a block at rest. -/
theorem witness_AStepMovesTheScheduledAgent :
    (State.reset.scheduled .host).sched = .host :: [] ∧ State.reset.sched = [] ∧ (withLzd prog1Start).busy .lzd ∧
      (withTiu (tiuStart 32 32)).busy .tiu ∧ ¬ (withTiu (tiuStart 32 32)).busy .lzd ∧
      (withGbc (gbcParse 16)).busy .gbc ∧ ¬ (withGbc (gbcParse 16)).busy .tiu ∧
      (withSsr (ssrStart 0)).busy .ssr ∧ ¬ (withSsr (ssrStart 0)).busy .gbc ∧ (∀ u, ¬ State.reset.busy u) ∧
      State.reset.host = [] :=
  ⟨rfl, rfl, rfl, rfl, by decide, rfl, by decide, rfl, by decide, fun u => by cases u <;> decide, rfl⟩

/-- A block at rest, a register of each unit. -/
theorem witness_HostReadsEveryRegisterOfARestingUnit :
    ∃ s : State, ¬ s.busy RegName.lzdSize.unit ∧ ¬ s.busy RegName.tiuPhase.unit ∧ ¬ s.busy RegName.gbcCharset.unit ∧
      ¬ s.busy (RegName.status .ssr).unit := ⟨State.reset, by decide⟩

/-- H5's line 8, its blanks and carriage return, and the line they leave, accepted. -/
theorem witness_HexLineIsAcceptedInItsOneForm_stripping :
    let body : List Byte := [0x30, 0x30, 0x34, 0x32, 0x3A] ++ (List.replicate 16 [0x38, 0x30]).flatten
    (∀ b ∈ ([0x20, 0x20] ++ [0x20] : List Byte), Blank b) ∧ Trimmed body ∧
      ([0x20, 0x20] ++ body ++ [0x20]).getLast? ≠ some 0x0D ∧
      decode .hexText ([0x20, 0x20] ++ body ++ [0x20] ++ [0x0D]) = .ok (.hexLine 0x42 (List.replicate 16 0x80)) := by decide

/-- The fewest and the most digits before the colon, with both payload lengths, then a carriage return; a line of blanks;
nine digits before the colon. -/
theorem witness_HexLineIsAcceptedInItsOneForm :
    (∃ raw, lineFeed ∉ raw ∧ stripLine raw = [0x46] ++ colon :: List.replicate 32 0x61 ∧
      (∀ k : Nat, ([0x46] : List Byte)[k]?.bind hexDigit? = ([0xF] : List Nibble)[k]?) ∧
      ∀ k : Nat, (List.replicate 32 (0x61 : Byte))[k]?.bind hexDigit? = (List.replicate 32 (0xA : Nibble))[k]?) ∧
    (∃ raw, lineFeed ∉ raw ∧ stripLine raw = List.replicate 8 0x39 ++ colon :: List.replicate 64 0x30 ∧
      decode .hexText raw = .ok (.hexLine 0x99999999 (List.replicate 32 0))) ∧
    (∃ raw, lineFeed ∉ raw ∧ stripLine raw = []) ∧
    ∃ raw, lineFeed ∉ raw ∧ stripLine raw ≠ [] ∧ decode .hexText raw = .error .unrecognisedLine :=
  ⟨⟨0x46 :: colon :: List.replicate 32 0x61, by decide, by decide, fun k => by
      rcases k with _ | _ <;> rfl, fun k => by
      rw [List.getElem?_replicate, List.getElem?_replicate]; split <;> rfl⟩,
    ⟨List.replicate 8 0x39 ++ colon :: List.replicate 64 0x30 ++ [0x0D], by decide, by decide, by decide⟩,
    ⟨[0x20, 0x09, 0x0D], by decide, by decide⟩,
    ⟨List.replicate 9 0x39 ++ colon :: List.replicate 32 0x30, by decide, by decide, by decide⟩⟩

/-- Blanks before a second token; the largest code and one more, a minus sign, no second token; more text after the second
token. -/
theorem witness_EncodingOperandIsADecimalCode :
    ((∀ b ∈ ([0x20, 0x09] : List Byte), Blank b) ∧ ∀ b ∈ ([0x36, 0x35] : List Byte).head?, ¬ Blank b) ∧
    (∃ raw, lineFeed ∉ raw ∧ firstToken (stripLine raw) = kwEncoding ∧
      firstToken (trimStart (afterToken (stripLine raw))) = [0x34, 0x32, 0x39, 0x34, 0x39, 0x36, 0x37, 0x32, 0x39, 0x35] ∧
      decode (.bdfText .scanning) raw = .ok (.bdfEncoding (some 0xFFFFFFFF))) ∧
    (∃ raw, lineFeed ∉ raw ∧ firstToken (stripLine raw) = kwEncoding ∧
      firstToken (trimStart (afterToken (stripLine raw))) = [0x34, 0x32, 0x39, 0x34, 0x39, 0x36, 0x37, 0x32, 0x39, 0x36] ∧
      decode (.bdfText .scanning) raw = .ok (.bdfEncoding none)) ∧
    (∃ raw, lineFeed ∉ raw ∧ firstToken (stripLine raw) = kwEncoding ∧
      firstToken (trimStart (afterToken (stripLine raw))) = [0x2D, 0x31]) ∧
    (∃ raw, lineFeed ∉ raw ∧ firstToken (stripLine raw) = kwEncoding ∧
      firstToken (trimStart (afterToken (stripLine raw))) = []) ∧
    ∃ raw, lineFeed ∉ raw ∧ firstToken (stripLine raw) = kwEncoding ∧
      firstToken (trimStart (afterToken (stripLine raw))) = [0x36, 0x35] :=
  ⟨by decide, ⟨kwEncoding ++ [0x20, 0x34, 0x32, 0x39, 0x34, 0x39, 0x36, 0x37, 0x32, 0x39, 0x35], by decide⟩,
    ⟨kwEncoding ++ [0x20, 0x34, 0x32, 0x39, 0x34, 0x39, 0x36, 0x37, 0x32, 0x39, 0x36], by decide⟩,
    ⟨kwEncoding ++ [0x20, 0x2D, 0x31], by decide⟩, ⟨kwEncoding, by decide⟩,
    ⟨kwEncoding ++ [0x20, 0x09, 0x36, 0x35, 0x20, 0x37], by decide⟩⟩

end Sys2Proof.Tests
end

section
/-!
Bit reversal (R8), proved once for every width.
-/

namespace Sys2Proof.Machine

/-- R8's law at width `n`. -/
theorem getLsbD_reverse_of_lt {n i : Nat} (x : BitVec n) (h : i < n) :
    x.reverse.getLsbD i = x.getLsbD (n - 1 - i) := by
  rw [BitVec.getLsbD_reverse, BitVec.getMsbD_eq_getLsbD, decide_eq_true h, Bool.true_and]

/-- Settles O1: the two reversals are one at two widths, so the bit law and the involution are those of every width; the
examples are evaluated. -/
theorem bitReversalIsAnInvolution : Obligations.BitReversalIsAnInvolution := by
  unfold Obligations.BitReversalIsAnInvolution
  refine ⟨fun x _ h => getLsbD_reverse_of_lt x h, fun x _ h => getLsbD_reverse_of_lt x h,
    fun x => BitVec.reverse_reverse_eq, fun x => BitVec.reverse_reverse_eq, ?examples⟩
  decide

end Sys2Proof.Machine
end

section
/-!
A scheduled step runs the decoded instruction (R9, R12): for each place of each unit, the fetch there under the
conditions of its rule; then the bytes read and their decoding are put in.
-/

namespace Sys2Proof.Machine

/-! ## From a fetch to the instruction -/

@[simp] theorem step_scheduled (s : State) (a : Agent) : step (s.scheduled a) = agentStep a s := rfl

/-- A fetch of bytes that are read and decode runs what they decode to. -/
theorem runFetched_read_decoded {f : Fetched} {b : BufName} {x : Except Nat (List Byte)} {p : Place}
    {t : List Byte → State} {o : List Byte → Result} {bytes : List Byte} {i : Instr}
    (hf : f = fetchBytes b x fun raw => runDecoded p raw (t raw) (o raw)) (hx : x = .ok bytes)
    (hi : decode p bytes = .ok i) : runFetched f = exec i (t bytes) := by
  rw [hf, hx, fetchBytes_ok]
  exact runFetched_decoded_ok _ _ hi

/-! ## The fetch at each place -/

section

variable {s : State}

theorem fetchLzd_header (hp : s.lzd.phase = .hdr) (hl : 4 ≤ s.lzd.inLen) :
    fetchLzd s = fetchBytes .lzdIn (s.lzd.inBuf.load 0 4) fun raw => runDecoded .lzHeader raw s (lzdBadTag s) := by
  simp only [fetchLzd, hp, if_neg (not_lt.mpr hl)]

theorem fetchLzd_control (hp : s.lzd.phase = .token) (ho : s.lzd.outPos.toNat < s.lzd.size.toNat)
    (hb : s.lzd.bitsLeft = 0) (hl : s.lzd.inPos < s.lzd.inLen) :
    fetchLzd s = fetchBytes .lzdIn (s.lzd.inBuf.load s.lzd.inPos 1) fun raw =>
      runDecoded .lzControl raw s (lzdStop s) := by
  simp only [fetchLzd, hp, if_neg (not_le.mpr ho), if_pos hb, if_neg (not_le.mpr hl)]

/-- The current flag is the top bit of CTRL (R63). -/
theorem fetchLzd_literal (hp : s.lzd.phase = .token) (ho : s.lzd.outPos.toNat < s.lzd.size.toNat)
    (hb : s.lzd.bitsLeft ≠ 0) (hc : s.lzd.ctrl.getLsbD 7 = false) (hl : s.lzd.inPos < s.lzd.inLen) :
    fetchLzd s = fetchBytes .lzdIn (s.lzd.inBuf.load s.lzd.inPos 1) fun raw =>
      runDecoded (.lzToken false) raw s (lzdStop s) := by
  have hm : ¬ s.lzd.ctrl.msb = true := by rw [BitVec.msb_eq_getLsbD_last, hc]; exact Bool.false_ne_true
  simp only [fetchLzd, hp, if_neg (not_le.mpr ho), if_neg hb, if_neg hm, if_neg (not_le.mpr hl)]

theorem fetchLzd_backref (hp : s.lzd.phase = .token) (ho : s.lzd.outPos.toNat < s.lzd.size.toNat)
    (hb : s.lzd.bitsLeft ≠ 0) (hc : s.lzd.ctrl.getLsbD 7 = true) (hl : s.lzd.inPos + 2 ≤ s.lzd.inLen) :
    fetchLzd s = fetchBytes .lzdIn (s.lzd.inBuf.load s.lzd.inPos 2) fun raw =>
      runDecoded (.lzToken true) raw s (lzdStop s) := by
  have hm : s.lzd.ctrl.msb = true := by rw [BitVec.msb_eq_getLsbD_last, hc]
  simp only [fetchLzd, hp, if_neg (not_le.mpr ho), if_neg hb, if_pos hm, if_neg (not_lt.mpr hl)]

theorem fetchTiu_tile (hp : s.tiu.phase = .tiles) (hk : s.tiu.k < s.tiu.tilesLen) :
    fetchTiu s = fetchBytes .tiuTiles (s.tiu.tiles.load s.tiu.k 1) fun raw =>
      runDecoded .tile raw s (tiuTilesEnd s) := by
  simp only [fetchTiu, hp, if_neg (not_le.mpr hk)]

theorem fetchTiu_palette (hp : s.tiu.phase = .palette) (hi : s.tiu.pi.toNat < 16) :
    fetchTiu s = fetchBytes .tiuPal (s.tiu.pal.load (2 * s.tiu.pi.toNat) 2) fun raw =>
      runDecoded .palette raw s (tiuPaletteEnd s) := by
  simp only [fetchTiu, hp, if_neg (not_le.mpr hi)]

theorem fetchGbc_tableHeader (hp : s.gbc.phase = .check) (hm : s.gbc.mode = 0) (hl : 8 ≤ s.gbc.srcLen) :
    fetchGbc s = fetchBytes .gbcSrc (s.gbc.src.load 0 8) fun raw =>
      runDecoded .glyphHeader raw s (gbcShortTable s) := by
  have h3 : ¬ s.gbc.mode = 3 := by rw [hm]; decide
  simp only [fetchGbc, hp, if_neg h3, if_pos hm, if_neg (not_lt.mpr hl)]

theorem fetchGbc_mergeHeader (hp : s.gbc.phase = .merge) (hl : 8 ≤ s.gbc.oldLen) :
    fetchGbc s = fetchBytes .gbcOld (s.gbc.old.load 0 8) fun raw =>
      runDecoded .glyphHeader raw s (gbcNoMerge s) := by
  simp only [fetchGbc, hp, if_neg (not_lt.mpr hl)]

/-- SRC_POS past a raw line of SRC (R158). -/
def State.pastLine (s : State) (raw : List Byte) : State :=
  s.setGbc { s.gbc with srcPos := min (s.gbc.srcPos + raw.length + 1) s.gbc.srcLen }

theorem fetchGbc_line (hp : s.gbc.phase = .parse) (hl : s.gbc.srcPos < s.gbc.srcLen) :
    fetchGbc s = fetchBytes .gbcSrc (s.gbc.src.lineAt s.gbc.srcPos (s.gbc.srcLen - s.gbc.srcPos)) fun raw =>
      runDecoded (if s.gbc.mode = 1 then .hexText else .bdfText s.gbc.pstate) raw (s.pastLine raw)
        (.next (s.pastLine raw)) := by
  have hf : fetchGbc s = fetchLine s := by simp only [fetchGbc, hp]
  exact hf.trans (if_neg (not_le.mpr hl))

theorem fetchGbc_record (hp : s.gbc.phase = .decode) (hg : s.gbc.g ≠ s.gbc.count) :
    fetchGbc s =
      fetchBytes .gbcSrc (s.gbc.src.load (8 + s.gbc.g.toNat * s.gbc.recSize.toNat) s.gbc.recSize.toNat) fun raw =>
        .record (if s.gbc.recSize = 16 then rows8 0 raw else rows16 0 raw) s := by
  simp only [fetchGbc, hp, if_neg hg]

theorem fetchSsr_sector (hp : s.ssr.phase = .gather) (h28 : s.ssr.p ≠ 28) :
    fetchSsr s = fetchBytes .ssrRaw (s.ssr.raw.load (0x1000 * s.ssr.p.toNat) 0x1000) fun raw =>
      runDecoded .sector raw s (ssrGatherEnd s) := by
  simp only [fetchSsr, hp, if_neg h28]

end

/-! ## The rows of a record, and commands -/

/-- Byte `r` of a halfwidth record is row `r` (R76). -/
theorem getElem?_rows8 (k r : Nat) (bytes : List Byte) :
    (rows8 k bytes)[r]? = bytes[r]?.map (.glyRow8 (Fin.ofNat 16 (k + r))) := by
  induction bytes generalizing k r with
  | nil => rfl
  | cons b bytes ih =>
    cases r with
    | zero => rfl
    | succ r => simp only [rows8, List.getElem?_cons_succ, ih, Nat.succ_add_eq_add_succ]

/-- Bytes `2r` and `2r + 1` of a fullwidth record are row `r`, low byte first (R77). -/
theorem getElem?_rows16 {k r : Nat} {bytes : List Byte} {b0 b1 : Byte} (h0 : bytes[2 * r]? = some b0)
    (h1 : bytes[2 * r + 1]? = some b1) :
    (rows16 k bytes)[r]? = some (.glyRow16 (Fin.ofNat 16 (k + r)) (le16 b0 b1)) := by
  induction r generalizing k bytes with
  | zero =>
    obtain _ | ⟨c0, _ | ⟨c1, rest⟩⟩ := bytes
    · cases h0
    · cases h1
    · cases h0; cases h1; rfl
  | succ r ih =>
    obtain _ | ⟨c0, _ | ⟨c1, rest⟩⟩ := bytes
    · cases h0
    · cases h0
    · rw [rows16, List.getElem?_cons_succ, ih h0 h1, Nat.succ_add_eq_add_succ]

/-- Every 4-bit code is a command (R60). -/
theorem decode_command (c : BitVec 4) : decode .command [(0 : BitVec 4) ++ c] = .ok (decodeCommand c) := by
  have hi : ((0 : BitVec 4) ++ c).extractLsb' 4 4 = 0 := BitVec.extractLsb'_append_eq_left
  have lo : ((0 : BitVec 4) ++ c).extractLsb' 0 4 = c := BitVec.extractLsb'_append_eq_right
  simp only [decode, hi, lo, if_true]

theorem fetchHost_start {s : State} {w : RegWrite} {u : UnitId} {rest : List HostAction}
    (hs : s.host = .write w :: rest) (hw : w.startOf = some u) :
    fetchHost s = .run (decodeCommand (commandCode s u)) { s with host := rest } := by
  simp only [fetchHost, hs, hw]

/-! ## The statement -/

/-- Settles O56: at each place, the unit's fetch there and the decoding of the bytes read. -/
theorem aStepRunsTheDecodedInstruction : Obligations.AStepRunsTheDecodedInstruction := by
  unfold Obligations.AStepRunsTheDecodedInstruction
  intro s bytes i
  simp only [step_scheduled]
  refine ⟨?header, fun hb hp ho => ⟨?control, ?literal, ?backref⟩, ?tile, ?palette, ?table, ?merge, ?line, ?record,
    ?sector, ?command⟩
  case header =>
    intro hb hp hl hx hi
    exact (agentStep_lzd hb).trans (runFetched_read_decoded (fetchLzd_header hp hl) hx hi)
  case control =>
    intro h0 hl hx hi
    exact (agentStep_lzd hb).trans (runFetched_read_decoded (fetchLzd_control hp ho h0 hl) hx hi)
  case literal =>
    intro h0 hc hl hx hi
    exact (agentStep_lzd hb).trans (runFetched_read_decoded (fetchLzd_literal hp ho h0 hc hl) hx hi)
  case backref =>
    intro h0 hc hl hx hi
    exact (agentStep_lzd hb).trans (runFetched_read_decoded (fetchLzd_backref hp ho h0 hc hl) hx hi)
  case tile =>
    intro hb hp hk hx hi
    exact (agentStep_tiu hb).trans (runFetched_read_decoded (fetchTiu_tile hp hk) hx hi)
  case palette =>
    intro hb hp hk hx hi
    exact (agentStep_tiu hb).trans (runFetched_read_decoded (fetchTiu_palette hp hk) hx hi)
  case table =>
    intro hb hp hm hl hx hi
    exact (agentStep_gbc hb).trans (runFetched_read_decoded (fetchGbc_tableHeader hp hm hl) hx hi)
  case merge =>
    intro hb hp hl hx hi
    exact (agentStep_gbc hb).trans (runFetched_read_decoded (fetchGbc_mergeHeader hp hl) hx hi)
  case line =>
    intro hb hp hl hx hi
    exact (agentStep_gbc hb).trans (runFetched_read_decoded (fetchGbc_line hp hl) hx hi)
  case record =>
    intro hb hp hg hx
    have hstep : agentStep (.unit .gbc) s =
        andThen (execAll (if s.gbc.recSize = 16 then rows8 0 bytes else rows16 0 bytes) s) gbcGlyphEnd := by
      rw [agentStep_gbc hb, fetchGbc_record hp hg, hx, fetchBytes_ok, runFetched_record]
    refine ⟨fun h16 => ⟨fun r b hr => ⟨rfl, ?_⟩, ?_⟩, fun h16 => ⟨fun r b0 b1 h0 h1 => ⟨rfl, ?_⟩, ?_⟩⟩
    · rw [getElem?_rows8, hr, Nat.zero_add]; rfl
    · rw [hstep, if_pos h16]
    · rw [getElem?_rows16 h0 h1, Nat.zero_add]; rfl
    · rw [hstep, if_neg h16]
  case sector =>
    intro hb hp h28 hx hi
    exact (agentStep_ssr hb).trans (runFetched_read_decoded (fetchSsr_sector hp h28) hx hi)
  case command =>
    intro w u rest c hs hw hc hi
    have hi' : decodeCommand c = i := by
      rw [decode_command] at hi
      exact Except.ok.inj hi
    calc agentStep .host s = runFetched (fetchHost s) := rfl
      _ = exec i { s with host := rest } := by rw [fetchHost_start hs hw, hc, hi', runFetched_run]

end Sys2Proof.Machine
end

section
/-!
A unit's step is local to its unit (R2). `State.graft u s r` is the block `r` with unit `u` as `s` holds it; an outcome
is local to `u` when grafting before and after it come to the same. That one equation says both that the step writes no
other unit and that it reads none.
-/

namespace Sys2Proof

open Machine

/-- The unit an instruction belongs to: the one its command starts (R60) or whose stream holds it (R63 to R90). -/
def Instr.unit : Instr → UnitId
  | .lzdDecompress | .lzHdr _ _ | .lzCtrl _ | .lit _ | .copy _ _ => .lzd
  | .tiuUnpack | .tileByte _ _ | .palEntry _ _ _ _ => .tiu
  | .gbcDecode | .gbcEncHex | .gbcEncBdf | .gbcReserved | .glyHdr _ _ _ _ _ | .glyRow8 _ _ | .glyRow16 _ _
  | .hexLine _ _ | .bdfCharset _ | .bdfEncoding _ | .bdfBitmap | .bdfEndchar | .bdfRow _ | .bdfOther => .gbc
  | .ssrReassemble | .secTrailer _ _ _ _ => .ssr

/-- The unit that fetches at a place; a command is fetched by the host. -/
def Place.unit : Place → Option UnitId
  | .command => none
  | .lzHeader | .lzControl | .lzToken _ => some .lzd
  | .tile | .palette => some .tiu
  | .glyphHeader | .glyphRow8 _ | .glyphRow16 _ | .hexText | .bdfText _ => some .gbc
  | .sector => some .ssr

/-! ## What is decoded at a unit's place is that unit's -/

theorem decodeLzHdr_unit {w : BitVec 32} {i : Instr} (h : decodeLzHdr w = .ok i) : i.unit = .lzd := by
  unfold decodeLzHdr at h
  split at h
  · cases h; rfl
  · cases h

theorem decodeHexLine_unit {line : List Byte} {i : Instr} (h : decodeHexLine line = .ok i) : i.unit = .gbc := by
  unfold decodeHexLine at h
  split at h
  · cases h
  · split at h
    · split at h
      · cases h; rfl
      · cases h
    · cases h

theorem decodeBdfLine_unit (st : PState) (line : List Byte) : (decodeBdfLine st line).unit = .gbc := by
  unfold decodeBdfLine
  cases st <;> dsimp only <;> split_ifs <;> rfl

theorem decodeTrailer_unit {data last : List Byte} {i : Instr} (h : decodeTrailer data last = .ok i) :
    i.unit = .ssr := by
  unfold decodeTrailer at h
  split at h
  · cases h; rfl
  · cases h

/-- A decoded text line is the decoding of its stripped line (R80). -/
theorem decodeText_eq_ok {raw : List Byte} {k : List Byte → Except Reject Instr} {i : Instr}
    (h : decodeText raw k = .ok i) : k (stripLine raw) = .ok i := by
  unfold decodeText at h
  split_ifs at h
  exact h

theorem decode_unit {p : Place} {bytes : List Byte} {i : Instr} {u : UnitId} (hp : p.unit = some u)
    (h : decode p bytes = .ok i) : i.unit = u := by
  unfold decode at h
  split at h
  case h_14 => cases h
  all_goals cases hp
  case h_2 => exact decodeLzHdr_unit h
  case h_11 => exact decodeHexLine_unit (decodeText_eq_ok h)
  case h_12 => cases decodeText_eq_ok h; exact decodeBdfLine_unit _ _
  case h_13 => exact decodeTrailer_unit h
  all_goals cases h; rfl

theorem unit_of_mem_rows8 {r : Nat} {bytes : List Byte} {i : Instr} (h : i ∈ rows8 r bytes) : i.unit = .gbc := by
  induction bytes generalizing r with
  | nil => cases h
  | cons b bytes ih =>
    rcases List.mem_cons.mp h with rfl | h
    · rfl
    · exact ih h

theorem unit_of_mem_rows16 {r : Nat} {bytes : List Byte} {i : Instr} (h : i ∈ rows16 r bytes) : i.unit = .gbc := by
  fun_induction rows16 r bytes with
  | case1 r b0 b1 rest ih =>
    rcases List.mem_cons.mp h with rfl | h
    · rfl
    · exact ih h
  | case2 => cases h

end Sys2Proof

namespace Sys2Proof.Machine

/-! ## Grafting one unit -/

/-- The block `r` with unit `u` as `s` holds it. -/
def State.graft (u : UnitId) (s r : State) : State :=
  match u with
  | .lzd => r.setLzd s.lzd
  | .tiu => r.setTiu s.tiu
  | .gbc => r.setGbc s.gbc
  | .ssr => r.setSsr s.ssr

@[simp] theorem State.graft_lzd (s r : State) : (State.graft .lzd s r).lzd = s.lzd := rfl
@[simp] theorem State.graft_tiu (s r : State) : (State.graft .tiu s r).tiu = s.tiu := rfl
@[simp] theorem State.graft_gbc (s r : State) : (State.graft .gbc s r).gbc = s.gbc := rfl
@[simp] theorem State.graft_ssr (s r : State) : (State.graft .ssr s r).ssr = s.ssr := rfl

@[simp] theorem State.graft_shell (u : UnitId) (s r : State) : (State.graft u s r).shell u = s.shell u := by
  cases u <;> rfl

@[simp] theorem State.graft_self (u : UnitId) (s : State) : State.graft u s s = s := by
  cases u <;> rfl

/-- A block that holds the same unit is its own graft. -/
theorem SameUnit.graft_eq {u : UnitId} {s r : State} (h : SameUnit u s r) : State.graft u s r = r := by
  cases u <;> (simp only [SameUnit] at h; simp only [State.graft, h]; rfl)

theorem sameUnit_graft (u : UnitId) (s r : State) : SameUnit u s (State.graft u s r) := by
  cases u <;> rfl

theorem othersKept_graft (u : UnitId) (s r : State) : OthersKept u r (State.graft u s r) := by
  cases u <;> simp [OthersKept, State.graft]

theorem State.start_graft (u : UnitId) (s r : State) :
    (State.graft u s r).start u = State.graft u (s.start u) r := by
  unfold State.start
  rw [State.graft_shell]
  split
  · rfl
  · cases u <;> rfl

theorem State.startGbc_graft (mode : BitVec 2) (s r : State) :
    (State.graft .gbc s r).startGbc mode = State.graft .gbc (s.startGbc mode) r := by
  unfold State.startGbc
  rw [State.graft_gbc]
  split
  · rfl
  · exact State.start_graft .gbc (s.setGbc { s.gbc with mode := mode }) r

/-! ## Local outcomes -/

/-- The outcome `o'` is `o` with everything but unit `u` as the block `r` has it. -/
def Grafted (u : UnitId) (r : State) (o o' : Result) : Prop :=
  o' = andThen o fun t => .next (State.graft u t r)

/-- In a block that holds unit `u` as `s` does, the outcome is the one in `s`, grafted: nothing else is read or
written. -/
def LocalTo (u : UnitId) (f : State → Result) : Prop :=
  ∀ s r, Grafted u r (f s) (f (State.graft u s r))

section

variable {u : UnitId} {r : State}

theorem Grafted.ite {c c' : Prop} {_ : Decidable c} {_ : Decidable c'} {o1 o1' o2 o2' : Result} (hc : c' ↔ c)
    (h1 : Grafted u r o1 o1') (h2 : Grafted u r o2 o2') :
    Grafted u r (if c then o1 else o2) (if c' then o1' else o2') := by
  by_cases h : c
  · rwa [if_pos h, if_pos (hc.mpr h)]
  · rwa [if_neg h, if_neg (mt hc.mp h)]

theorem Grafted.withBytes {α : Type} {b : BufName} {k k' : α → Result} (x : Except Nat α)
    (h : ∀ bytes, Grafted u r (k bytes) (k' bytes)) :
    Grafted u r (withBytes b x k) (withBytes b x k') := by
  cases x with
  | ok bytes => exact h bytes
  | error _ => rfl

theorem Grafted.fetchIte {c c' : Prop} {_ : Decidable c} {_ : Decidable c'} {f1 f1' f2 f2' : Fetched} (hc : c' ↔ c)
    (h1 : Grafted u r (runFetched f1) (runFetched f1')) (h2 : Grafted u r (runFetched f2) (runFetched f2')) :
    Grafted u r (runFetched (if c then f1 else f2)) (runFetched (if c' then f1' else f2')) := by
  simp only [apply_ite runFetched]
  exact .ite hc h1 h2

theorem Grafted.fetchBytes {b : BufName} {k k' : List Byte → Fetched} (x : Except Nat (List Byte))
    (h : ∀ bytes, Grafted u r (runFetched (k bytes)) (runFetched (k' bytes))) :
    Grafted u r (runFetched (fetchBytes b x k)) (runFetched (fetchBytes b x k')) := by
  cases x with
  | ok bytes => exact h bytes
  | error _ => rfl

theorem LocalTo.andThen {f g : State → Result} (hf : LocalTo u f) (hg : LocalTo u g) :
    LocalTo u fun s => andThen (f s) g := fun s r => by
  dsimp only
  rw [hf s r]
  cases f s with
  | next t => exact hg t r
  | fault _ => rfl
  | refused _ => rfl

end

/-! ## Every instruction is local to its unit -/

theorem execLzdDecompress_local : LocalTo .lzd execLzdDecompress := fun s r =>
  congrArg Host.Outcome.next (State.start_graft .lzd s r)

theorem execTiuUnpack_local : LocalTo .tiu execTiuUnpack := fun s r =>
  congrArg Host.Outcome.next (State.start_graft .tiu s r)

theorem execSsrReassemble_local : LocalTo .ssr execSsrReassemble := fun s r =>
  congrArg Host.Outcome.next (State.start_graft .ssr s r)

theorem startGbc_local (mode : BitVec 2) : LocalTo .gbc fun s => .next (s.startGbc mode) := fun s r =>
  congrArg Host.Outcome.next (State.startGbc_graft mode s r)

theorem execCopy_local (l : Nibble) (d : BitVec 12) : LocalTo .lzd (execCopy l d) := fun _ _ =>
  .ite .rfl rfl rfl

theorem gbcMerge_local (start count : BitVec 16) (width : Byte) : LocalTo .gbc (gbcMerge start count width) :=
  fun _ _ => .ite .rfl (.ite .rfl rfl (.withBytes _ fun _ => rfl)) rfl

theorem gbcDecodeCheck_local (start count : BitVec 16) (width rows : Byte) :
    LocalTo .gbc (gbcDecodeCheck start count width rows) :=
  fun _ _ => .ite .rfl rfl (.ite .rfl rfl (.ite .rfl rfl rfl))

theorem execGlyHdr_local (start count : BitVec 16) (width rows : Byte) (reserved : BitVec 16) :
    LocalTo .gbc (execGlyHdr start count width rows reserved) := fun s r => by
  simp only [execGlyHdr, State.graft_gbc]
  cases s.gbc.phase with
  | merge => exact gbcMerge_local start count width s r
  | check | parse | decode => exact gbcDecodeCheck_local start count width rows s r

theorem execHexLine_local (cp : BitVec 32) (payload : List Byte) : LocalTo .gbc (execHexLine cp payload) :=
  fun s r => .ite .rfl rfl (.ite .rfl rfl (by
    rw [State.graft_gbc]
    cases hexRecord s.gbc.recSize payload <;> rfl))

theorem execBdfEncoding_local (code : Option (BitVec 32)) : LocalTo .gbc (execBdfEncoding code) := fun _ _ =>
  .ite .rfl rfl rfl

theorem execSecTrailer_local (data : List Byte) (index : BitVec 16) (undescribed : BitVec 48) (counter : BitVec 32) :
    LocalTo .ssr (execSecTrailer data index undescribed counter) := fun _ _ =>
  .ite .rfl (.ite .rfl rfl rfl) rfl

theorem exec_local (i : Instr) : LocalTo i.unit (exec i) := by
  cases i with
  | lzdDecompress => exact execLzdDecompress_local
  | tiuUnpack => exact execTiuUnpack_local
  | gbcDecode => exact startGbc_local 0
  | gbcEncHex => exact startGbc_local 1
  | gbcEncBdf => exact startGbc_local 2
  | gbcReserved => exact startGbc_local 3
  | ssrReassemble => exact execSsrReassemble_local
  | copy l d => exact execCopy_local l d
  | glyHdr start count width rows reserved => exact execGlyHdr_local start count width rows reserved
  | hexLine cp payload => exact execHexLine_local cp payload
  | bdfEncoding code => exact execBdfEncoding_local code
  | secTrailer data index undescribed counter => exact execSecTrailer_local data index undescribed counter
  | lzHdr | lzCtrl | lit | tileByte | palEntry | glyRow8 | glyRow16 => exact fun _ _ => rfl
  | bdfCharset | bdfBitmap | bdfEndchar | bdfRow | bdfOther => exact fun _ _ => rfl

theorem execAll_local {u : UnitId} {is : List Instr} (h : ∀ i ∈ is, i.unit = u) : LocalTo u (execAll is) := by
  induction is with
  | nil => exact fun _ _ => rfl
  | cons i is ih =>
    obtain ⟨rfl, his⟩ := List.forall_mem_cons.mp h
    exact (exec_local i).andThen (ih his)

/-! ## Every unit's turn is local to it -/

/-- Bytes read at a unit's place, decoded and run. -/
theorem Grafted.runDecoded {u : UnitId} {r : State} {p : Place} {o o' : Result} {s : State} (hp : p.unit = some u)
    (ho : Grafted u r o o') (bytes : List Byte) :
    Grafted u r (runFetched (runDecoded p bytes s o)) (runFetched (runDecoded p bytes (State.graft u s r) o')) := by
  cases hd : decode p bytes with
  | ok i =>
    simp only [runFetched_decoded_ok _ _ hd]
    exact decode_unit hp hd ▸ exec_local i s r
  | error e =>
    simp only [runFetched_decoded_error _ _ hd]
    exact ho

theorem lzdCopyStep_local : LocalTo .lzd lzdCopyStep := fun _ _ =>
  .ite .rfl rfl (.ite .rfl rfl (.ite .rfl rfl (.withBytes _ fun _ => rfl)))

theorem fetchLzd_local : LocalTo .lzd fun s => runFetched (fetchLzd s) := fun s r => by
  simp only [fetchLzd, State.graft_lzd]
  cases s.lzd.phase with
  | hdr => exact .fetchIte .rfl rfl (.fetchBytes _ (.runDecoded rfl rfl))
  | token =>
    refine .fetchIte .rfl rfl (.fetchIte .rfl ?control (.fetchIte .rfl ?backref ?literal))
    case control => exact .fetchIte .rfl rfl (.fetchBytes _ (.runDecoded rfl rfl))
    case backref => exact .fetchIte .rfl rfl (.fetchBytes _ (.runDecoded rfl rfl))
    case literal => exact .fetchIte .rfl rfl (.fetchBytes _ (.runDecoded rfl rfl))
  | copy => exact lzdCopyStep_local s r

theorem tiuCheck_local : LocalTo .tiu tiuCheck := fun _ _ =>
  .ite .rfl rfl (.ite .rfl rfl (.ite .rfl rfl rfl))

theorem fetchTiu_local : LocalTo .tiu fun s => runFetched (fetchTiu s) := fun s r => by
  simp only [fetchTiu, State.graft_tiu]
  cases s.tiu.phase with
  | check => exact tiuCheck_local s r
  | tiles => exact .fetchIte .rfl rfl (.fetchBytes _ (.runDecoded rfl rfl))
  | palette => exact .fetchIte .rfl rfl (.fetchBytes _ (.runDecoded rfl rfl))

theorem gbcEncodeCheck_local : LocalTo .gbc gbcEncodeCheck := fun _ _ =>
  .ite .rfl rfl (.ite .rfl rfl (.ite .rfl rfl (.ite .rfl rfl rfl)))

/-- Both text places of a parse step are GBC's (R158). -/
theorem textPlace_unit (mode : BitVec 2) (st : PState) :
    (if mode = 1 then Place.hexText else .bdfText st).unit = some .gbc := by
  split <;> rfl

theorem fetchLine_local : LocalTo .gbc fun s => runFetched (fetchLine s) := fun s r => by
  refine .fetchIte .rfl rfl (.fetchBytes _ fun raw => ?_)
  exact Grafted.runDecoded (s := s.pastLine raw) (textPlace_unit s.gbc.mode s.gbc.pstate) rfl raw

/-- The rows of a record, run in order, then the end of the glyph (R178). -/
theorem record_local {rows : List Instr} (h : ∀ i ∈ rows, i.unit = .gbc) :
    LocalTo .gbc fun s => runFetched (.record rows s) :=
  (execAll_local h).andThen fun _ _ => rfl

theorem fetchGbc_local : LocalTo .gbc fun s => runFetched (fetchGbc s) := fun s r => by
  simp only [fetchGbc, State.graft_gbc]
  cases s.gbc.phase with
  | check =>
    refine .fetchIte .rfl rfl (.fetchIte .rfl ?table (gbcEncodeCheck_local s r))
    exact .fetchIte .rfl rfl (.fetchBytes _ (.runDecoded rfl rfl))
  | merge => exact .fetchIte .rfl rfl (.fetchBytes _ (.runDecoded rfl rfl))
  | parse => exact fetchLine_local s r
  | decode =>
    refine .fetchIte .rfl rfl (.fetchBytes _ fun bytes => record_local ?_ s r)
    split
    · exact fun _ => unit_of_mem_rows8
    · exact fun _ => unit_of_mem_rows16

theorem ssrCheck_local : LocalTo .ssr ssrCheck := fun _ _ => .ite .rfl rfl rfl

theorem ssrEmit_local : LocalTo .ssr ssrEmit := fun _ _ =>
  .withBytes _ fun _ => .withBytes _ fun _ => .withBytes _ fun _ => .withBytes _ fun _ => .withBytes _ fun _ => rfl

theorem fetchSsr_local : LocalTo .ssr fun s => runFetched (fetchSsr s) := fun s r => by
  simp only [fetchSsr, State.graft_ssr]
  cases s.ssr.phase with
  | check => exact ssrCheck_local s r
  | gather => exact .fetchIte .rfl rfl (.fetchBytes _ (.runDecoded rfl rfl))
  | emit => exact ssrEmit_local s r

/-- R2: a unit's step is local to the unit. -/
theorem agentStep_unit_local (u : UnitId) : LocalTo u (agentStep (.unit u)) := fun s r => by
  refine .fetchIte (by rw [State.graft_shell]) ?busy rfl
  cases u with
  | lzd => exact fetchLzd_local s r
  | tiu => exact fetchTiu_local s r
  | gbc => exact fetchGbc_local s r
  | ssr => exact fetchSsr_local s r

theorem agentStep_graft {u : UnitId} {s t : State} (h : agentStep (.unit u) s = .next t) (r : State) :
    agentStep (.unit u) (State.graft u s r) = .next (State.graft u t r) := by
  have hg := agentStep_unit_local u s r
  rwa [h] at hg

theorem agentStep_unit_frame {u : UnitId} {s t : State} (h : agentStep (.unit u) s = .next t) :
    OthersKept u s t := by
  have hg := agentStep_graft h s
  rw [State.graft_self, h] at hg
  exact (Host.Outcome.next.inj hg).symm ▸ othersKept_graft u t s

/-- Settles O49: the step in the block itself, grafted, is the frame; grafted onto the other block it is the same step
there. -/
theorem unitsNeitherReadNorWriteEachOther : Obligations.UnitsNeitherReadNorWriteEachOther := by
  unfold Obligations.UnitsNeitherReadNorWriteEachOther
  refine ⟨fun s t u h => agentStep_unit_frame h, fun s s' t u hs h => ?_⟩
  have hg := agentStep_graft h s'
  rw [hs.graft_eq] at hg
  exact ⟨State.graft u t s', hg, sameUnit_graft u t s'⟩

end Sys2Proof.Machine
end

section
/-!
What a running unit's turn can come to: for each unit, the outcomes a fetch and its instruction answer, each with the
conditions its rule tests (R9, R12). A statement about every step of a unit is a case per outcome.
-/

namespace Sys2Proof

/-! ## The instruction decoded at a place is one of that place -/

theorem decodeCommand_place (code : BitVec 4) : (decodeCommand code).place = .command := by
  unfold decodeCommand
  dsimp only
  split_ifs <;> rfl

theorem decodeLzHdr_place {w : BitVec 32} {i : Instr} (h : decodeLzHdr w = .ok i) : i.place = .lzHeader := by
  unfold decodeLzHdr at h
  split at h
  · cases h; rfl
  · cases h

theorem decodeHexLine_place {line : List Byte} {i : Instr} (h : decodeHexLine line = .ok i) : i.place = .hexText := by
  unfold decodeHexLine at h
  split at h
  · cases h
  · split at h
    · split at h
      · cases h; rfl
      · cases h
    · cases h

theorem decodeBdfLine_place (st : PState) (line : List Byte) : (decodeBdfLine st line).place = .bdfText st := by
  unfold decodeBdfLine
  cases st <;> dsimp only <;> split_ifs <;> rfl

theorem decodeTrailer_place {data last : List Byte} {i : Instr} (h : decodeTrailer data last = .ok i) :
    i.place = .sector := by
  unfold decodeTrailer at h
  split at h
  · cases h; rfl
  · cases h

theorem decode_place {p : Place} {bytes : List Byte} {i : Instr} (h : decode p bytes = .ok i) : i.place = p := by
  unfold decode at h
  split at h
  case h_1 =>
    split at h
    · cases h; exact decodeCommand_place _
    · cases h
  case h_2 => exact decodeLzHdr_place h
  case h_11 => exact decodeHexLine_place (decodeText_eq_ok h)
  case h_12 => cases decodeText_eq_ok h; exact decodeBdfLine_place _ _
  case h_13 => exact decodeTrailer_place h
  case h_14 => cases h
  all_goals cases h; rfl

end Sys2Proof

namespace Sys2Proof.Machine

/-! ## The turns -/

/-- A fetch of bytes is one of three things: a byte nothing has written, an instruction of the place, or bytes the
decoder rejects. -/
theorem runFetched_fetch {T : Result → Prop} {b : BufName} {x : Except Nat (List Byte)} {p : Place}
    {t : List Byte → State} {o : List Byte → Result} (unwritten : ∀ a, T (.fault (.unwrittenByte b a)))
    (run : ∀ bytes i, i.place = p → T (exec i (t bytes)))
    (reject : ∀ bytes e, x = .ok bytes → decode p bytes = .error e → T (o bytes)) :
    T (runFetched (fetchBytes b x fun bytes => runDecoded p bytes (t bytes) (o bytes))) := by
  cases x with
  | error a => exact unwritten a
  | ok bytes =>
    rw [fetchBytes_ok]
    cases hd : decode p bytes with
    | ok i => exact runFetched_decoded_ok _ _ hd ▸ run bytes i (decode_place hd)
    | error e => exact runFetched_decoded_error _ _ hd ▸ reject bytes e rfl hd

/-- LZD's turn (R101 to R108), with the phase it is taken in and the bounds tested before it. -/
inductive LzdTurn (s : State) : Result → Prop
  | unwritten (a : Nat) : LzdTurn s (.fault (.unwrittenByte .lzdIn a))
  | shortHeader (hp : s.lzd.phase = .hdr) (hl : s.lzd.inLen < 4) : LzdTurn s (lzdShortHeader s)
  | badTag (hp : s.lzd.phase = .hdr) (hl : 4 ≤ s.lzd.inLen) : LzdTurn s (lzdBadTag s)
  | header (size : BitVec 24) (ignored : Nibble) (hp : s.lzd.phase = .hdr) (hl : 4 ≤ s.lzd.inLen) :
      LzdTurn s (execLzHdr size ignored s)
  | stop (hp : s.lzd.phase = .token) : LzdTurn s (lzdStop s)
  | control (flags : Byte) (hp : s.lzd.phase = .token) (ho : s.lzd.outPos.toNat < s.lzd.size.toNat)
      (hb : s.lzd.bitsLeft = 0) (hi : s.lzd.inPos < s.lzd.inLen) : LzdTurn s (execLzCtrl flags s)
  | literal (d : Byte) (hp : s.lzd.phase = .token) (ho : s.lzd.outPos.toNat < s.lzd.size.toNat)
      (hb : s.lzd.bitsLeft ≠ 0) (hi : s.lzd.inPos < s.lzd.inLen) : LzdTurn s (execLit d s)
  | backref (l : Nibble) (d : BitVec 12) (hp : s.lzd.phase = .token) (ho : s.lzd.outPos.toNat < s.lzd.size.toNat)
      (hb : s.lzd.bitsLeft ≠ 0) (hi : s.lzd.inPos + 2 ≤ s.lzd.inLen) : LzdTurn s (execCopy l d s)
  | copyStep (hp : s.lzd.phase = .copy) : LzdTurn s (lzdCopyStep s)

/-- TIU's turn (R130, R133, R136). -/
inductive TiuTurn (s : State) : Result → Prop
  | unwritten (b : BufName) (a : Nat) : TiuTurn s (.fault (.unwrittenByte b a))
  | check (hp : s.tiu.phase = .check) : TiuTurn s (tiuCheck s)
  | tile (h l : Nibble) (hp : s.tiu.phase = .tiles) (hk : s.tiu.k < s.tiu.tilesLen) : TiuTurn s (execTileByte h l s)
  | tilesEnd (hp : s.tiu.phase = .tiles) : TiuTurn s (tiuTilesEnd s)
  | palette (x : BitVec 1) (b g r : BitVec 5) (hp : s.tiu.phase = .palette) (hi : s.tiu.pi.toNat < 16) :
      TiuTurn s (execPalEntry x b g r s)
  | paletteEnd (hp : s.tiu.phase = .palette) : TiuTurn s (tiuPaletteEnd s)

/-- A row instruction of a glyph record (R76, R77). -/
def IsGlyphRow (i : Instr) : Prop := (∃ r p, i = .glyRow8 r p) ∨ ∃ r p, i = .glyRow16 r p

/-- GBC's turn (R150 to R158, R177, R178). The header of OLD and that of SRC are the same instruction at two steps. -/
inductive GbcTurn (s : State) : Result → Prop
  | unwritten (b : BufName) (a : Nat) : GbcTurn s (.fault (.unwrittenByte b a))
  | badMode (hp : s.gbc.phase = .check) (hm : s.gbc.mode = 3) : GbcTurn s (gbcBadMode s)
  | shortTable (hp : s.gbc.phase = .check) (hm : s.gbc.mode = 0) : GbcTurn s (gbcShortTable s)
  | decodeCheck (start count : BitVec 16) (width rows : Byte) (hp : s.gbc.phase = .check) (hm : s.gbc.mode = 0) :
      GbcTurn s (gbcDecodeCheck start count width rows s)
  | encodeCheck (hp : s.gbc.phase = .check) (h3 : s.gbc.mode ≠ 3) (h0 : s.gbc.mode ≠ 0) : GbcTurn s (gbcEncodeCheck s)
  | noMerge (hp : s.gbc.phase = .merge) : GbcTurn s (gbcNoMerge s)
  | merge (start count : BitVec 16) (width : Byte) (hp : s.gbc.phase = .merge) :
      GbcTurn s (gbcMerge start count width s)
  | line (raw : List Byte) (i : Instr) (hp : s.gbc.phase = .parse)
      (hi : i.place = if s.gbc.mode = 1 then .hexText else .bdfText s.gbc.pstate) :
      GbcTurn s (exec i (s.pastLine raw))
  | skippedLine (raw : List Byte) (hp : s.gbc.phase = .parse) : GbcTurn s (.next (s.pastLine raw))
  | record (rows : List Instr) (hp : s.gbc.phase = .decode) (hg : s.gbc.g ≠ s.gbc.count)
      (hr : ∀ i ∈ rows, IsGlyphRow i) : GbcTurn s (andThen (execAll rows s) gbcGlyphEnd)
  | textEnd (hp : s.gbc.phase = .parse) (hl : s.gbc.srcLen ≤ s.gbc.srcPos) : GbcTurn s (gbcStop s)
  | recordsEnd (hp : s.gbc.phase = .decode) (hg : s.gbc.g = s.gbc.count) : GbcTurn s (gbcStop s)

/-- SSR's turn (R200 to R207). -/
inductive SsrTurn (s : State) : Result → Prop
  | unwritten (a : Nat) : SsrTurn s (.fault (.unwrittenByte .ssrRaw a))
  | check (hp : s.ssr.phase = .check) : SsrTurn s (ssrCheck s)
  | sector (data : List Byte) (index : BitVec 16) (undescribed : BitVec 48) (counter : BitVec 32)
      (hp : s.ssr.phase = .gather) (h28 : s.ssr.p ≠ 28) : SsrTurn s (execSecTrailer data index undescribed counter s)
  | gatherEnd (hp : s.ssr.phase = .gather) (h28 : s.ssr.p = 28) : SsrTurn s (ssrGatherEnd s)
  | emit (hp : s.ssr.phase = .emit) : SsrTurn s (ssrEmit s)

theorem fetchLzd_turn (s : State) : LzdTurn s (runFetched (fetchLzd s)) := by
  simp only [fetchLzd]
  cases hp : s.lzd.phase with
  | hdr =>
    dsimp only
    split
    case isTrue hl => exact .shortHeader hp hl
    case isFalse hl =>
      refine runFetched_fetch .unwritten (fun _ i hi => ?_) fun _ _ _ _ => .badTag hp (not_lt.mp hl)
      cases i with
      | lzHdr size ignored => exact .header size ignored hp (not_lt.mp hl)
      | _ => cases hi
  | token =>
    dsimp only
    split
    case isTrue => exact .stop hp
    case isFalse ho =>
      split
      case isTrue hb =>
        split
        case isTrue => exact .stop hp
        case isFalse hl =>
          refine runFetched_fetch .unwritten (fun _ i hi => ?_) fun _ _ _ _ => .stop hp
          cases i with
          | lzCtrl flags => exact .control flags hp (not_le.mp ho) hb (not_le.mp hl)
          | _ => cases hi
      case isFalse hb =>
        split
        case isTrue =>
          split
          case isTrue => exact .stop hp
          case isFalse hl =>
            refine runFetched_fetch .unwritten (fun _ i hi => ?_) fun _ _ _ _ => .stop hp
            cases i with
            | copy l d => exact .backref l d hp (not_le.mp ho) hb (not_lt.mp hl)
            | _ => cases hi
        case isFalse =>
          split
          case isTrue => exact .stop hp
          case isFalse hl =>
            refine runFetched_fetch .unwritten (fun _ i hi => ?_) fun _ _ _ _ => .stop hp
            cases i with
            | lit d => exact .literal d hp (not_le.mp ho) hb (not_le.mp hl)
            | _ => cases hi
  | copy => exact .copyStep hp

theorem fetchTiu_turn (s : State) : TiuTurn s (runFetched (fetchTiu s)) := by
  simp only [fetchTiu]
  cases hp : s.tiu.phase with
  | check => exact .check hp
  | tiles =>
    dsimp only
    split
    case isTrue => exact .tilesEnd hp
    case isFalse hk =>
      refine runFetched_fetch (.unwritten _) (fun _ i hi => ?_) fun _ _ _ _ => .tilesEnd hp
      cases i with
      | tileByte h l => exact .tile h l hp (not_le.mp hk)
      | _ => cases hi
  | palette =>
    dsimp only
    split
    case isTrue => exact .paletteEnd hp
    case isFalse hk =>
      refine runFetched_fetch (.unwritten _) (fun _ i hi => ?_) fun _ _ _ _ => .paletteEnd hp
      cases i with
      | palEntry x b g r => exact .palette x b g r hp (not_le.mp hk)
      | _ => cases hi

theorem row_of_mem_rows8 {r : Nat} {bytes : List Byte} {i : Instr} (h : i ∈ rows8 r bytes) : IsGlyphRow i := by
  induction bytes generalizing r with
  | nil => cases h
  | cons b bytes ih =>
    rcases List.mem_cons.mp h with rfl | h
    · exact .inl ⟨_, _, rfl⟩
    · exact ih h

theorem row_of_mem_rows16 {r : Nat} {bytes : List Byte} {i : Instr} (h : i ∈ rows16 r bytes) : IsGlyphRow i := by
  fun_induction rows16 r bytes with
  | case1 r b0 b1 rest ih =>
    rcases List.mem_cons.mp h with rfl | h
    · exact .inr ⟨_, _, rfl⟩
    · exact ih h
  | case2 => cases h

theorem fetchLine_turn (s : State) (hp : s.gbc.phase = .parse) : GbcTurn s (runFetched (fetchLine s)) := by
  simp only [fetchLine]
  split
  · next hl => exact .textEnd hp hl
  · exact runFetched_fetch (t := s.pastLine) (.unwritten _) (fun raw i hi => .line raw i hp hi)
      fun raw _ _ _ => .skippedLine raw hp

theorem fetchGbc_turn (s : State) : GbcTurn s (runFetched (fetchGbc s)) := by
  simp only [fetchGbc]
  cases hp : s.gbc.phase with
  | check =>
    dsimp only
    split
    case isTrue hm => exact .badMode hp hm
    case isFalse h3 =>
      split
      case isTrue hm =>
        split
        case isTrue => exact .shortTable hp hm
        case isFalse =>
          refine runFetched_fetch (.unwritten _) (fun _ i hi => ?_) fun _ _ _ _ => .shortTable hp hm
          cases i with
          | glyHdr start count width rows =>
            simp only [exec, execGlyHdr, hp]
            exact .decodeCheck start count width rows hp hm
          | _ => cases hi
      case isFalse h0 => exact .encodeCheck hp h3 h0
  | merge =>
    dsimp only
    split
    case isTrue => exact .noMerge hp
    case isFalse =>
      refine runFetched_fetch (.unwritten _) (fun _ i hi => ?_) fun _ _ _ _ => .noMerge hp
      cases i with
      | glyHdr start count width =>
        simp only [exec, execGlyHdr, hp]
        exact .merge start count width hp
      | _ => cases hi
  | parse => exact fetchLine_turn s hp
  | decode =>
    dsimp only
    split
    case isTrue hg => exact .recordsEnd hp hg
    case isFalse hg =>
      cases s.gbc.src.load (8 + s.gbc.g.toNat * s.gbc.recSize.toNat) s.gbc.recSize.toNat with
      | error a => exact .unwritten _ a
      | ok bytes =>
        refine .record _ hp hg fun i hi => ?_
        split at hi
        · exact row_of_mem_rows8 hi
        · exact row_of_mem_rows16 hi

theorem fetchSsr_turn (s : State) : SsrTurn s (runFetched (fetchSsr s)) := by
  simp only [fetchSsr]
  cases hp : s.ssr.phase with
  | check => exact .check hp
  | gather =>
    dsimp only
    split
    case isTrue h28 => exact .gatherEnd hp h28
    case isFalse h28 =>
      refine runFetched_fetch .unwritten (fun _ i hi => ?_) fun bytes e hx hd => ?_
      · cases i with
        | secTrailer data index undescribed counter => exact .sector data index undescribed counter hp h28
        | _ => cases hi
      · obtain ⟨data, index, undescribed, counter, h⟩ := decode_sector bytes (Memory.load_length _ _ _ _ hx)
        rw [h] at hd
        cases hd
  | emit => exact .emit hp

end Sys2Proof.Machine
end

section
/-!
The invariant is kept by every step (O53): first what error entry, the end of an operation, START, reset and the host's
accesses keep, then each outcome of each unit's turn.
-/

namespace Sys2Proof.Machine

/-! ## What holds of every next state of an outcome -/

/-- Every next state of the outcome satisfies `P`. -/
def Ensures (P : State → Prop) : Result → Prop
  | .next t => P t
  | .fault _ | .refused _ => True

section

variable {P : State → Prop}

theorem Ensures.of_next {o : Result} {t : State} (h : Ensures P o) (ht : o = .next t) : P t := by
  subst ht
  exact h

theorem Ensures.ite {c : Prop} {_ : Decidable c} {o o' : Result} (h : c → Ensures P o) (h' : ¬ c → Ensures P o') :
    Ensures P (if c then o else o') := by
  split
  · exact h ‹_›
  · exact h' ‹_›

theorem Ensures.withBytes {α : Type} {b : BufName} {x : Except Nat α} {k : α → Result}
    (h : ∀ bytes, x = .ok bytes → Ensures P (k bytes)) : Ensures P (withBytes b x k) := by
  cases x with
  | ok bytes => exact h bytes rfl
  | error _ => trivial

theorem Ensures.andThen {Q : State → Prop} {o : Result} {k : State → Result} (h : Ensures Q o)
    (hk : ∀ t, Q t → Ensures P (k t)) : Ensures P (andThen o k) := by
  cases o with
  | next t => exact hk t h
  | fault _ => trivial
  | refused _ => trivial

theorem Ensures.whenNotBusy {s : State} {u : UnitId} {k : Result} (h : ¬ s.busy u → Ensures P k) :
    Ensures P (whenNotBusy s u k) := .ite (fun _ => trivial) h

/-- What each instruction of a list keeps, the list keeps. -/
theorem Ensures.execAll {is : List Instr} {s : State} (hs : P s) (h : ∀ i ∈ is, ∀ t, P t → Ensures P (exec i t)) :
    Ensures P (execAll is s) := by
  induction is generalizing s with
  | nil => exact hs
  | cons i is ih =>
    obtain ⟨hi, his⟩ := List.forall_mem_cons.mp h
    exact (hi s hs).andThen fun t ht => ih ht his

end

/-! ## A unit that is not running: any triple, any parameters, any inputs -/

section

variable {x : Shell} (hx : x.status ≠ .busy)
include hx

theorem Lzd.Ok.rest {u : Lzd} (h : u.Ok) (inLen : Nat) : ({ u with shell := x, inLen := inLen } : Lzd).Ok :=
  { h with inPos_le := fun hb => absurd hb hx }

theorem Tiu.Ok.rest {u : Tiu} (h : u.Ok) (tilesLen palLen : Nat) :
    ({ u with shell := x, tilesLen := tilesLen, palLen := palLen } : Tiu).Ok :=
  { h with lens := fun hb => absurd hb hx, k_le := fun hb => absurd hb hx }

theorem Gbc.Ok.rest {u : Gbc} (h : u.Ok) (mode : BitVec 2) (cpMin cpMax width : BitVec 32) (srcLen oldLen : Nat) :
    ({ u with shell := x, mode := mode, cpMin := cpMin, cpMax := cpMax, width := width, srcLen := srcLen,
              oldLen := oldLen } : Gbc).Ok :=
  { h with
    srcPos_le := fun hb => absurd hb hx
    encode := fun hb => absurd hb hx
    curCp_in := fun hb => absurd hb hx
    decode := fun hb => absurd hb hx }

theorem Ssr.Ok.rest {u : Ssr} (h : u.Ok) (rawLen : Nat) : ({ u with shell := x, rawLen := rawLen } : Ssr).Ok :=
  { h with lens := fun hb => absurd hb hx }

end

/-- A triple of a resting unit may be replaced by another such. -/
theorem Inv.setShell {s : State} (h : Inv s) {u : UnitId} {x : Shell} (hx : x.Ok u) (hr : x.status ≠ .busy) :
    Inv (s.setShell x u) := by
  cases u with
  | lzd => exact h.setLzd (h.mem .lzdIn) (h.mem .lzdOut) hx (h.lzd.rest hr _)
  | tiu => exact h.setTiu (h.mem .tiuTiles) (h.mem .tiuPal) (h.mem .tiuRaster) (h.mem .tiuPalRgba) hx (h.tiu.rest hr _ _)
  | gbc => exact h.setGbc (h.mem .gbcSrc) (h.mem .gbcOld) (h.mem .gbcTbl) (h.mem .gbcPix) hx (h.gbc.rest hr _ _ _ _ _ _)
  | ssr => exact h.setSsr (h.mem .ssrRaw) (h.mem .ssrSlotA) (h.mem .ssrSlotB) (h.mem .ssrOutImg) hx (h.ssr.rest hr _)

/-- Error entry with a cause of the unit's own (R221, R224). -/
theorem Inv.raise {s : State} (h : Inv s) {u : UnitId} {c : Cause} (hc : c.unit = some u) : Inv (s.raise u c) := by
  have hne : c ≠ .none := by rintro rfl; cases hc
  exact h.setShell ⟨rfl, iff_of_true rfl hne, .inr hc⟩ nofun

/-- A running unit's operation ends (R254). -/
theorem Inv.finish {s : State} (h : Inv s) {u : UnitId} (hb : s.busy u) : Inv (s.finish u) := by
  obtain ⟨hclass, herror, hunit⟩ := h.shells u
  refine h.setShell ⟨hclass, iff_of_false nofun ?nocause, hunit⟩ nofun
  exact mt herror.mpr (by rw [hb]; nofun)

/-! ## START and reset -/

theorem Shell.started_ok (u : UnitId) : Shell.started.Ok u := ⟨rfl, iff_of_false nofun (· rfl), .inl rfl⟩

theorem Shell.reset_ok (u : UnitId) : Shell.reset.Ok u := ⟨rfl, iff_of_false nofun (· rfl), .inl rfl⟩

theorem Lzd.ok_of_reset (x : Shell) (inLen : Nat) (inBuf outBuf : Memory) :
    ({ Lzd.reset with shell := x, inLen := inLen, inBuf := inBuf, outBuf := outBuf } : Lzd).Ok where
  outPos_le := Nat.le_refl _
  bitsLeft_le := Nat.zero_le _
  copyLeft_le := Nat.zero_le _
  copyDisp_lt := nofun
  inPos_le _ := Nat.zero_le _
  out_written h := absurd rfl h
  tail_zero h := absurd rfl h

theorem Tiu.ok_of_reset (x : Shell) (tilesLen palLen : Nat) (tiles pal raster palRgba : Memory) :
    ({ Tiu.reset with shell := x, tilesLen := tilesLen, palLen := palLen, tiles := tiles, pal := pal, raster := raster,
                      palRgba := palRgba } : Tiu).Ok where
  pi_le := Nat.zero_le _
  wT_eq h := absurd rfl h
  hT_eq h := absurd rfl h
  raster_written h := absurd rfl h
  lens _ h := absurd rfl h
  k_le _ h := absurd rfl h
  transparent h := absurd h (Nat.lt_irrefl 0)

theorem Gbc.ok_of_reset (x : Shell) (mode : BitVec 2) (cpMin cpMax width : BitVec 32) (srcLen oldLen : Nat)
    (src old tbl pix : Memory) :
    ({ Gbc.reset with shell := x, mode := mode, cpMin := cpMin, cpMax := cpMax, width := width, srcLen := srcLen,
                      oldLen := oldLen, src := src, old := old, tbl := tbl, pix := pix } : Gbc).Ok where
  rowIdx_le := Nat.zero_le _
  srcPos_le _ := Nat.zero_le _
  encode _ := nofun
  tbl_written := nofun
  curCp_in _ h := absurd rfl h
  decode _ := nofun

theorem Ssr.ok_of_reset (x : Shell) (rawLen : Nat) (raw slotA slotB outImg : Memory) :
    ({ Ssr.reset with shell := x, rawLen := rawLen, raw := raw, slotA := slotA, slotB := slotB,
                      outImg := outImg } : Ssr).Ok where
  p_le := Nat.zero_le _
  p_emit := nofun
  lens _ h := absurd rfl h
  slots_written h := absurd rfl h

theorem inv_reset : Inv State.reset where
  mem b := by cases b <;> exact Memory.wf_nil
  shells u := by cases u <;> exact Shell.reset_ok _
  lzd := Lzd.ok_of_reset Shell.reset 0 [] []
  tiu := Tiu.ok_of_reset Shell.reset 0 0 [] [] [] []
  gbc := Gbc.ok_of_reset Shell.reset 0 0 0 0 0 0 [] [] [] []
  ssr := Ssr.ok_of_reset Shell.reset 0 [] [] [] []

theorem Inv.start {s : State} (h : Inv s) (u : UnitId) : Inv (s.start u) := by
  unfold State.start
  split
  · exact h
  · cases u with
    | lzd => exact h.setLzd (h.mem .lzdIn) (h.mem .lzdOut) (Shell.started_ok _) (Lzd.ok_of_reset ..)
    | tiu =>
      exact h.setTiu (h.mem .tiuTiles) (h.mem .tiuPal) (h.mem .tiuRaster) (h.mem .tiuPalRgba) (Shell.started_ok _)
        (Tiu.ok_of_reset ..)
    | gbc =>
      exact h.setGbc (h.mem .gbcSrc) (h.mem .gbcOld) (h.mem .gbcTbl) (h.mem .gbcPix) (Shell.started_ok _)
        (Gbc.ok_of_reset ..)
    | ssr =>
      exact h.setSsr (h.mem .ssrRaw) (h.mem .ssrSlotA) (h.mem .ssrSlotB) (h.mem .ssrOutImg) (Shell.started_ok _)
        (Ssr.ok_of_reset ..)

/-! ## The host -/

theorem State.startGbc_mode (s : State) : s.startGbc s.gbc.mode = s.start .gbc := by
  unfold State.startGbc
  split
  · next h => exact (s.start_busy .gbc h).symm
  · rfl

/-- A START pulse is the START of its unit: GBC's command sets MODE to what it holds (R60, R61). -/
theorem exec_commandCode {s t : State} (h : t.gbc.mode = s.gbc.mode) (u : UnitId) :
    exec (decodeCommand (commandCode s u)) t = .next (t.start u) := by
  cases u with
  | lzd | tiu | ssr => rw [commandCode]; rfl
  | gbc =>
    have hcode : exec (decodeCommand ((0b10 : BitVec 2) ++ t.gbc.mode)) t = .next (t.startGbc t.gbc.mode) := by
      generalize t.gbc.mode = m
      obtain rfl | rfl | rfl | rfl : m = 0 ∨ m = 1 ∨ m = 2 ∨ m = 3 := by revert m; decide
      all_goals rfl
    rw [commandCode, ← h, hcode, State.startGbc_mode]

theorem Inv.writeReg {s : State} (h : Inv s) {w : RegWrite} (hw : ¬ s.busy w.unit) : Inv (s.writeReg w) := by
  have hlzd (hr : ¬ s.busy .lzd) (n : Nat) : Inv (s.setLzd { s.lzd with inLen := n }) :=
    h.setLzd (h.mem .lzdIn) (h.mem .lzdOut) (h.shells .lzd) (h.lzd.rest hr n)
  have htiu (hr : ¬ s.busy .tiu) (m n : Nat) : Inv (s.setTiu { s.tiu with tilesLen := m, palLen := n }) :=
    h.setTiu (h.mem .tiuTiles) (h.mem .tiuPal) (h.mem .tiuRaster) (h.mem .tiuPalRgba) (h.shells .tiu) (h.tiu.rest hr m n)
  have hgbc (hr : ¬ s.busy .gbc) (mode : BitVec 2) (lo hi width : BitVec 32) (m n : Nat) :
      Inv (s.setGbc { s.gbc with mode := mode, cpMin := lo, cpMax := hi, width := width, srcLen := m, oldLen := n }) :=
    h.setGbc (h.mem .gbcSrc) (h.mem .gbcOld) (h.mem .gbcTbl) (h.mem .gbcPix) (h.shells .gbc)
      (h.gbc.rest hr mode lo hi width m n)
  have hssr (hr : ¬ s.busy .ssr) (n : Nat) : Inv (s.setSsr { s.ssr with rawLen := n }) :=
    h.setSsr (h.mem .ssrRaw) (h.mem .ssrSlotA) (h.mem .ssrSlotB) (h.mem .ssrOutImg) (h.shells .ssr) (h.ssr.rest hr n)
  cases w with
  | lzdInLen v => exact hlzd hw v
  | tiuTilesLen v => exact htiu hw v _
  | tiuPalLen v => exact htiu hw _ v
  | gbcMode v => exact hgbc hw v _ _ _ _ _
  | gbcCpMin v => exact hgbc hw _ v _ _ _ _
  | gbcCpMax v => exact hgbc hw _ _ v _ _ _
  | gbcWidth v => exact hgbc hw _ _ _ v _ _
  | gbcSrcLen v => exact hgbc hw _ _ _ _ v _
  | gbcOldLen v => exact hgbc hw _ _ _ _ _ v
  | ssrRawLen v => exact hssr hw v
  | lzdStart | tiuStart | gbcStart | ssrStart => exact h

/-- The bounds do not speak of what the input buffers hold. -/
theorem Inv.storeIn {s : State} (h : Inv s) (b : InBuf) (a : Nat) (bytes : List Byte) : Inv (s.storeIn b a bytes) := by
  have hm : ((s.buf b.name).store a bytes).wf := Memory.store_wf _ a bytes (h.mem b.name)
  cases b with
  | lzdIn => exact h.setLzd hm (h.mem .lzdOut) (h.shells .lzd) { h.lzd with }
  | tiuTiles => exact h.setTiu hm (h.mem .tiuPal) (h.mem .tiuRaster) (h.mem .tiuPalRgba) (h.shells .tiu) { h.tiu with }
  | tiuPal => exact h.setTiu (h.mem .tiuTiles) hm (h.mem .tiuRaster) (h.mem .tiuPalRgba) (h.shells .tiu) { h.tiu with }
  | gbcSrc => exact h.setGbc hm (h.mem .gbcOld) (h.mem .gbcTbl) (h.mem .gbcPix) (h.shells .gbc) { h.gbc with }
  | gbcOld => exact h.setGbc (h.mem .gbcSrc) hm (h.mem .gbcTbl) (h.mem .gbcPix) (h.shells .gbc) { h.gbc with }
  | ssrRaw => exact h.setSsr hm (h.mem .ssrSlotA) (h.mem .ssrSlotB) (h.mem .ssrOutImg) (h.shells .ssr) { h.ssr with }

theorem hostAction_keepsInv {s : State} (h : Inv s) (act : HostAction) : Ensures Inv (hostAction act s) := by
  cases act with
  | write w => exact .ite (fun _ => h) fun _ => .whenNotBusy h.writeReg
  | writeBuf b a bytes => exact .whenNotBusy fun _ => h.storeIn b a bytes
  | copyBuf src a n dst a' =>
    exact .whenNotBusy fun _ => .whenNotBusy fun _ => .withBytes fun bytes _ => h.storeIn dst a' bytes
  | readReg r =>
    have hlog : Inv (s.log (s.readReg r)) := h.congr rfl rfl rfl rfl
    exact .ite (fun _ => hlog) fun _ => .whenNotBusy fun _ => hlog
  | readBuf b a n => exact .whenNotBusy fun _ => .withBytes fun _ _ => h.congr rfl rfl rfl rfl
  | await u =>
    simp only [hostAction]
    split
    · exact h
    · exact h
    · exact h.congr rfl rfl rfl rfl
    · exact h.congr rfl rfl rfl rfl
  | reset => exact inv_reset.congr rfl rfl rfl rfl

theorem fetchHost_keepsInv {s : State} (h : Inv s) : Ensures Inv (runFetched (fetchHost s)) := by
  have hrest (rest : List HostAction) : Inv { s with host := rest } := h.congr rfl rfl rfl rfl
  unfold fetchHost
  split
  · exact h
  · next w rest _ =>
    split
    · next u _ =>
      rw [runFetched_run, exec_commandCode (by rfl)]
      exact (hrest rest).start u
    · exact hostAction_keepsInv (hrest rest) (.write w)
  · next act rest _ _ => exact hostAction_keepsInv (hrest rest) act

end Sys2Proof.Machine
end

section
/-!
Each outcome of each unit's turn keeps the invariant, and so does every step (O53).
-/

namespace Sys2Proof.Machine

variable {s : State}

/-! ## LZD -/

theorem copyLen_le (l : Nibble) : (copyLen l).toNat ≤ 18 := by
  simp only [copyLen, Config.lzMinLen]
  bv_omega

/-- One byte appended to the output: the tail after it is still zero (R104, R108). -/
theorem Lzd.Ok.append {u : Lzd} (h : u.Ok) (ho : u.outPos.toNat < u.size.toNat) {bytes : List Byte}
    (hl : bytes.length = 1) :
    ({ u with outBuf := u.outBuf.store u.outPos.toNat bytes, outPos := u.outPos + 1 } : Lzd).Ok := by
  have hpos : (u.outPos + 1).toNat = u.outPos.toNat + 1 := by bv_omega
  exact { h with
    outPos_le := hpos.trans_le ho
    copyDisp_lt := fun hp => hpos ▸ (h.copyDisp_lt hp).trans (Nat.lt_succ_self _)
    out_written := fun hp => (h.out_written hp).store _ _
    tail_zero := fun hp a ha hs => by
      have ha' : u.outPos.toNat + 1 ≤ a := hpos ▸ ha
      calc (u.outBuf.store u.outPos.toNat bytes).read a
        _ = u.outBuf.read a := Memory.read_store_outside _ _ _ _ (.inr (hl ▸ ha'))
        _ = some 0 := h.tail_zero hp a (by omega) hs }

theorem execLzHdr_keepsInv (h : Inv s) (size : BitVec 24) (ignored : Nibble) (hl : 4 ≤ s.lzd.inLen) :
    Ensures Inv (execLzHdr size ignored s) :=
  h.setLzd (h.mem .lzdIn) (Memory.zero_wf _ _ _ (h.mem .lzdOut)) (h.shells .lzd)
    { outPos_le := Nat.zero_le _
      bitsLeft_le := Nat.zero_le _
      copyLeft_le := Nat.zero_le _
      copyDisp_lt := nofun
      inPos_le := fun _ => hl
      out_written := fun _ => Written.zero _ _
      tail_zero := fun _ a _ ha => by simp [ha] }

theorem execLzCtrl_keepsInv (h : Inv s) (flags : Byte) (hi : s.lzd.inPos < s.lzd.inLen) :
    Ensures Inv (execLzCtrl flags s) :=
  h.setLzd (h.mem .lzdIn) (h.mem .lzdOut) (h.shells .lzd)
    { h.lzd with bitsLeft_le := Nat.le_refl 8, inPos_le := fun _ => hi }

theorem execLit_keepsInv (h : Inv s) (d : Byte) (ho : s.lzd.outPos.toNat < s.lzd.size.toNat)
    (hb : s.lzd.bitsLeft ≠ 0) (hi : s.lzd.inPos < s.lzd.inLen) : Ensures Inv (execLit d s) := by
  have hbits := h.lzd.bitsLeft_le
  exact h.setLzd (h.mem .lzdIn) (Memory.store_wf _ _ _ (h.mem .lzdOut)) (h.shells .lzd)
    { h.lzd.append ho (bytes := [d]) rfl with
      bitsLeft_le := show (s.lzd.bitsLeft - 1).toNat ≤ 8 by bv_omega
      inPos_le := fun _ => hi }

theorem execCopy_keepsInv (h : Inv s) (l : Nibble) (d : BitVec 12) (hp : s.lzd.phase = .token)
    (hb : s.lzd.bitsLeft ≠ 0) (hi : s.lzd.inPos + 2 ≤ s.lzd.inLen) : Ensures Inv (execCopy l d s) := by
  have hbits := h.lzd.bitsLeft_le
  have hp' : s.lzd.phase ≠ .hdr := by rw [hp]; nofun
  refine .ite (fun hd => ?decoded) fun _ => ?fault
  case decoded =>
    exact h.setLzd (h.mem .lzdIn) (h.mem .lzdOut) (h.shells .lzd)
      { h.lzd with
        bitsLeft_le := show (s.lzd.bitsLeft - 1).toNat ≤ 8 by bv_omega
        copyLeft_le := copyLen_le l
        copyDisp_lt := fun _ => hd
        inPos_le := fun _ => hi
        out_written := fun _ => h.lzd.out_written hp'
        tail_zero := fun _ => h.lzd.tail_zero hp' }
  case fault =>
    have hread : Inv (s.setLzd { s.lzd with inPos := s.lzd.inPos + 2 }) :=
      h.setLzd (h.mem .lzdIn) (h.mem .lzdOut) (h.shells .lzd) { h.lzd with inPos_le := fun _ => hi }
    exact hread.raise rfl

theorem lzdCopyStep_keepsInv (h : Inv s) (hb : s.busy .lzd) (hp : s.lzd.phase = .copy) :
    Ensures Inv (lzdCopyStep s) := by
  have hp' : s.lzd.phase ≠ .hdr := by rw [hp]; nofun
  refine .ite (fun _ => ?run_over) fun h0 => .ite (fun _ => h.finish hb) fun hfull => .ite (fun _ => trivial) fun _ =>
    .withBytes fun bytes hx => ?moved
  case run_over =>
    exact h.setLzd (h.mem .lzdIn) (h.mem .lzdOut) (h.shells .lzd)
      { h.lzd with
        copyDisp_lt := nofun
        out_written := fun _ => h.lzd.out_written hp'
        tail_zero := fun _ => h.lzd.tail_zero hp' }
  case moved =>
    have hle := h.lzd.outPos_le
    have hleft := h.lzd.copyLeft_le
    have ho : s.lzd.outPos.toNat < s.lzd.size.toNat := by bv_omega
    exact h.setLzd (h.mem .lzdIn) (Memory.store_wf _ _ _ (h.mem .lzdOut)) (h.shells .lzd)
      { h.lzd.append ho (Memory.load_length _ _ _ _ hx) with
        copyLeft_le := show (s.lzd.copyLeft - 1).toNat ≤ 18 by bv_omega }

theorem LzdTurn.keepsInv {o : Result} (ho : LzdTurn s o) (h : Inv s) (hb : s.busy .lzd) : Ensures Inv o := by
  cases ho with
  | unwritten a => trivial
  | shortHeader | badTag => exact h.raise rfl
  | header size ignored hp hl => exact execLzHdr_keepsInv h size ignored hl
  | stop => exact h.finish hb
  | control flags hp ho hf hi => exact execLzCtrl_keepsInv h flags hi
  | literal d hp ho hf hi => exact execLit_keepsInv h d ho hf hi
  | backref l d hp ho hf hi => exact execCopy_keepsInv h l d hp hf hi
  | copyStep hp => exact lzdCopyStep_keepsInv h hb hp

/-! ## TIU -/

theorem tiuCheck_keepsInv (h : Inv s) : Ensures Inv (tiuCheck s) := by
  refine .ite (fun _ => h.raise rfl) fun h0 => .ite (fun _ => h.raise rfl) fun h32 => .ite (fun _ => h.raise rfl)
    fun hpal => ?_
  have hlen : s.tiu.tilesLen = 32 * (s.tiu.tilesLen / 32) := by simp at h32; omega
  exact h.setTiu (h.mem .tiuTiles) (h.mem .tiuPal) (Memory.zero_wf _ _ _ (h.mem .tiuRaster)) (h.mem .tiuPalRgba)
    (h.shells .tiu)
    { pi_le := Nat.zero_le _
      wT_eq := fun _ => rfl
      hT_eq := fun _ => rfl
      raster_written := fun _ => Written.zero _ _
      lens := fun _ _ => ⟨hlen, by simp; omega, not_not.mp hpal⟩
      k_le := fun _ _ => Nat.zero_le _
      transparent := fun hpos => absurd hpos (Nat.lt_irrefl 0) }

theorem execTileByte_keepsInv (h : Inv s) (hi lo : Nibble) (hk : s.tiu.k < s.tiu.tilesLen) :
    Ensures Inv (execTileByte hi lo s) :=
  h.setTiu (h.mem .tiuTiles) (h.mem .tiuPal) (Memory.store_wf _ _ _ (h.mem .tiuRaster)) (h.mem .tiuPalRgba)
    (h.shells .tiu)
    { h.tiu with
      raster_written := fun hp => (h.tiu.raster_written hp).store _ _
      k_le := fun _ _ => hk }

theorem tiuTilesEnd_keepsInv (h : Inv s) (hp : s.tiu.phase = .tiles) : Ensures Inv (tiuTilesEnd s) := by
  have hp' : s.tiu.phase ≠ .check := by rw [hp]; nofun
  exact h.setTiu (h.mem .tiuTiles) (h.mem .tiuPal) (h.mem .tiuRaster) (h.mem .tiuPalRgba) (h.shells .tiu)
    { h.tiu with
      wT_eq := fun _ => h.tiu.wT_eq hp'
      hT_eq := fun _ => h.tiu.hT_eq hp'
      raster_written := fun _ => h.tiu.raster_written hp'
      lens := fun hb _ => h.tiu.lens hb hp'
      k_le := fun hb _ => h.tiu.k_le hb hp' }

/-- Entry 0 is stored with alpha 0, and no later entry reaches its bytes (R136, R137). -/
theorem read_paletteRgba_transparent {u : Tiu} (h : u.Ok) (b g r : BitVec 5) :
    (u.palRgba.store (4 * u.pi.toNat) (paletteRgba u.pi.toNat r g b)).read 3 = some 0 := by
  rcases Nat.eq_zero_or_pos u.pi.toNat with h0 | hpos
  · rw [h0, Memory.read_store]
    rfl
  · rw [Memory.read_store_outside _ _ _ _ (.inl (by omega))]
    exact h.transparent hpos

theorem execPalEntry_keepsInv (h : Inv s) (x : BitVec 1) (b g r : BitVec 5) (hi : s.tiu.pi.toNat < 16) :
    Ensures Inv (execPalEntry x b g r s) :=
  h.setTiu (h.mem .tiuTiles) (h.mem .tiuPal) (h.mem .tiuRaster) (Memory.store_wf _ _ _ (h.mem .tiuPalRgba))
    (h.shells .tiu)
    { h.tiu with
      pi_le := show (s.tiu.pi + 1).toNat ≤ 16 by bv_omega
      transparent := fun _ => read_paletteRgba_transparent h.tiu b g r }

theorem TiuTurn.keepsInv {o : Result} (ho : TiuTurn s o) (h : Inv s) (hb : s.busy .tiu) : Ensures Inv o := by
  cases ho with
  | unwritten b a => trivial
  | check => exact tiuCheck_keepsInv h
  | tile hi lo hp hk => exact execTileByte_keepsInv h hi lo hk
  | tilesEnd hp => exact tiuTilesEnd_keepsInv h hp
  | palette x b g r hp hi => exact execPalEntry_keepsInv h x b g r hi
  | paletteEnd => exact h.finish hb

/-! ## GBC: the check and merge steps -/

/-- Outside the parse phase a running GBC has selected no code point (R169). -/
theorem Gbc.Ok.curCp_eq_zero {u : Gbc} (h : u.Ok) (hp : u.phase ≠ .parse) (hb : u.shell.status = .busy) :
    u.curCp = 0 :=
  not_not.mp fun hc => hp (h.curCp_in hb hc).1

/-- The registers the header gives are bounded by nothing before the check has passed (R177). -/
theorem Inv.setHeader (h : Inv s) (hp : s.gbc.phase = .check) (start hdrCount : BitVec 16) (width rows : BitVec 8)
    (count : BitVec 17) (recSize : BitVec 6) :
    Inv (s.setGbc { s.gbc with hdrStart := start, hdrCount := hdrCount, hdrWidth := width, hdrRows := rows,
                               count := count, recSize := recSize }) :=
  h.setGbc (h.mem .gbcSrc) (h.mem .gbcOld) (h.mem .gbcTbl) (h.mem .gbcPix) (h.shells .gbc)
    { h.gbc with
      encode := fun _ hp' => by rw [hp] at hp'; simp at hp'
      decode := fun _ hp' => by rw [hp] at hp'; cases hp' }

theorem gbcDecodeCheck_keepsInv (h : Inv s) (start count : BitVec 16) (width rows : Byte) (hp : s.gbc.phase = .check)
    (hm : s.gbc.mode = 0) : Ensures Inv (gbcDecodeCheck start count width rows s) := by
  have hhdr := h.setHeader hp start count width rows
  refine .ite (fun _ => (hhdr _ _).raise rfl) fun hw => .ite (fun _ => (hhdr _ _).raise rfl) fun hr =>
    .ite (fun _ => (hhdr _ _).raise rfl) fun hl => ?_
  have hcount : (count.setWidth 17).toNat = count.toNat := BitVec.toNat_setWidth_of_le (by decide)
  have hlen : 8 + (count.setWidth 17).toNat * (recSizeOf width.toNat).toNat ≤ s.gbc.srcLen := hcount ▸ not_lt.mp hl
  have hpix : count.toNat * 16 * width.toNat = (count.setWidth 17).toNat * 16 * width.toNat := by rw [hcount]
  have hp' : s.gbc.phase ≠ .parse := by rw [hp]; nofun
  exact h.setGbc (h.mem .gbcSrc) (h.mem .gbcOld) (h.mem .gbcTbl) (h.mem .gbcPix) (h.shells .gbc)
    { h.gbc with
      encode := fun _ => nofun
      tbl_written := nofun
      curCp_in := fun hb hc => absurd (h.gbc.curCp_eq_zero hp' hb) hc
      decode := fun _ _ => ⟨hm, not_lt.mp hw, not_not.mp hr, hcount, rfl, hlen, Nat.zero_le _, hpix⟩ }

theorem gbcEncodeCheck_keepsInv (h : Inv s) (hp : s.gbc.phase = .check) (h3 : s.gbc.mode ≠ 3) (h0 : s.gbc.mode ≠ 0) :
    Ensures Inv (gbcEncodeCheck s) := by
  refine .ite (fun _ => h.raise rfl) fun hmin => .ite (fun _ => h.raise rfl) fun hmax => .ite (fun _ => h.raise rfl)
    fun hw => .ite (fun _ => h.raise rfl) fun hn => ?_
  have hmode : s.gbc.mode = 1 ∨ s.gbc.mode = 2 :=
    (by decide : ∀ m : BitVec 2, m ≠ 3 → m ≠ 0 → m = 1 ∨ m = 2) _ h3 h0
  have hcount : (BitVec.ofNat 17 (s.gbc.cpMax.toNat - s.gbc.cpMin.toNat + 1)).toNat =
      s.gbc.cpMax.toNat - s.gbc.cpMin.toNat + 1 := by
    rw [BitVec.toNat_ofNat]
    omega
  have hbound := hcount.trans_le (not_lt.mp hn)
  have hp' : s.gbc.phase ≠ .parse := by rw [hp]; nofun
  exact h.setGbc (h.mem .gbcSrc) (h.mem .gbcOld)
    (Memory.store_wf _ _ _ (Memory.zero_wf _ _ _ (h.mem .gbcTbl))) (h.mem .gbcPix) (h.shells .gbc)
    { h.gbc with
      encode := fun _ _ => ⟨hmode, not_lt.mp hmin, not_lt.mp hmax, not_lt.mp hw, hcount, hbound, rfl, rfl⟩
      tbl_written := fun _ => (Written.zero _ _).store _ _
      curCp_in := fun hb hc => absurd (h.gbc.curCp_eq_zero hp' hb) hc
      decode := fun _ => nofun }

/-- Bytes stored into TBL take no byte's value away. -/
theorem Inv.storeTbl (h : Inv s) (a : Nat) (bytes : List Byte) :
    Inv (s.setGbc { s.gbc with tbl := s.gbc.tbl.store a bytes }) :=
  h.setGbc (h.mem .gbcSrc) (h.mem .gbcOld) (Memory.store_wf _ _ _ (h.mem .gbcTbl)) (h.mem .gbcPix) (h.shells .gbc)
    { h.gbc with tbl_written := fun hp => (h.gbc.tbl_written hp).store _ _ }

theorem Inv.gbcParseFrom (h : Inv s) (hp : s.gbc.phase = .merge) : Inv (gbcParseFrom s) := by
  have hp' : s.gbc.phase ≠ .parse := by rw [hp]; nofun
  exact h.setGbc (h.mem .gbcSrc) (h.mem .gbcOld) (h.mem .gbcTbl) (h.mem .gbcPix) (h.shells .gbc)
    { h.gbc with
      srcPos_le := fun _ => Nat.zero_le _
      encode := fun hb _ => h.gbc.encode hb (.inl hp)
      tbl_written := fun _ => h.gbc.tbl_written (.inl hp)
      curCp_in := fun hb hc => absurd (h.gbc.curCp_eq_zero hp' hb) hc
      decode := fun _ => nofun }

theorem gbcMerge_keepsInv (h : Inv s) (start count : BitVec 16) (width : Byte) (hp : s.gbc.phase = .merge) :
    Ensures Inv (gbcMerge start count width s) :=
  .ite (fun _ => .ite (fun _ => h.raise rfl) fun _ => .withBytes fun records _ => (h.storeTbl 8 records).gbcParseFrom hp)
    fun _ => h.gbcParseFrom hp

/-! ## GBC: text lines -/

theorem Inv.pastLine (h : Inv s) (raw : List Byte) : Inv (s.pastLine raw) :=
  h.setGbc (h.mem .gbcSrc) (h.mem .gbcOld) (h.mem .gbcTbl) (h.mem .gbcPix) (h.shells .gbc)
    { h.gbc with srcPos_le := fun _ => Nat.min_le_right _ _ }

/-- The parser's registers: rows are counted up to 16, and a selected code point lies in the range (R167, R172). -/
theorem Inv.setParser (h : Inv s) (pstate : PState) (charset : Charset) {curCp : BitVec 16} {rowIdx : BitVec 5}
    (hrow : rowIdx.toNat ≤ 16)
    (hcp : s.busy .gbc → curCp ≠ 0 →
      s.gbc.phase = .parse ∧ s.gbc.cpMin.toNat ≤ curCp.toNat ∧ curCp.toNat ≤ s.gbc.cpMax.toNat) :
    Inv (s.setGbc { s.gbc with pstate := pstate, charset := charset, curCp := curCp, rowIdx := rowIdx }) :=
  h.setGbc (h.mem .gbcSrc) (h.mem .gbcOld) (h.mem .gbcTbl) (h.mem .gbcPix) (h.shells .gbc)
    { h.gbc with rowIdx_le := hrow, curCp_in := hcp }

theorem selectCp_in {u : Gbc} {code : Option (BitVec 32)} (h : selectCp u code ≠ 0) :
    u.cpMin.toNat ≤ (selectCp u code).toNat ∧ (selectCp u code).toNat ≤ u.cpMax.toNat := by
  cases code with
  | none => exact absurd rfl h
  | some n =>
    simp only [selectCp] at h ⊢
    split at h
    · next hin => rw [if_pos hin]; exact hin.2
    · exact absurd rfl h

theorem nextRow_le (rowIdx : BitVec 5) : (nextRow rowIdx).toNat ≤ 16 := by
  unfold nextRow
  split
  · bv_omega
  · decide

theorem execHexLine_keepsInv (h : Inv s) (cp : BitVec 32) (payload : List Byte) :
    Ensures Inv (execHexLine cp payload s) := by
  refine .ite (fun _ => h) fun _ => .ite (fun _ => h) fun _ => ?_
  cases hexRecord s.gbc.recSize payload with
  | none => exact h
  | some record => exact h.storeTbl _ record

theorem execBdfEncoding_keepsInv (h : Inv s) (code : Option (BitVec 32)) (hp : s.gbc.phase = .parse) :
    Ensures Inv (execBdfEncoding code s) :=
  .ite (fun _ => h.raise rfl) fun _ => h.setParser _ _ h.gbc.rowIdx_le fun _ hc => ⟨hp, selectCp_in hc⟩

theorem execBdfBitmap_keepsInv (h : Inv s) : Ensures Inv (execBdfBitmap s) := by
  simp only [execBdfBitmap]
  split
  · exact h.setParser .inBitmap _ (Nat.zero_le 16) h.gbc.curCp_in
  · exact (h.storeTbl _ _).setParser .inBitmap _ (Nat.zero_le 16) h.gbc.curCp_in

theorem execBdfRow_keepsInv (h : Inv s) (digits : Option (List Nibble)) : Ensures Inv (execBdfRow digits s) := by
  have hskip : Inv (s.setGbc { s.gbc with rowIdx := nextRow s.gbc.rowIdx }) :=
    h.setParser _ _ (nextRow_le _) h.gbc.curCp_in
  simp only [execBdfRow]
  split
  · split
    · exact (h.storeTbl _ _).setParser _ _ (nextRow_le _) h.gbc.curCp_in
    · exact hskip
  · exact hskip

theorem exec_line_keepsInv (h : Inv s) (hp : s.gbc.phase = .parse) {i : Instr} {mode : BitVec 2} {st : PState}
    (hi : i.place = if mode = 1 then .hexText else .bdfText st) : Ensures Inv (exec i s) := by
  cases i with
  | hexLine cp payload => exact execHexLine_keepsInv h cp payload
  | bdfCharset name => exact h.setParser _ _ h.gbc.rowIdx_le h.gbc.curCp_in
  | bdfEncoding code => exact execBdfEncoding_keepsInv h code hp
  | bdfBitmap => exact execBdfBitmap_keepsInv h
  | bdfEndchar => exact h.setParser _ _ h.gbc.rowIdx_le fun _ hc => absurd rfl hc
  | bdfRow digits => exact execBdfRow_keepsInv h digits
  | bdfOther => exact h
  | _ => split at hi <;> cases hi

/-! ## GBC: records, and the whole unit -/

theorem putPixels_keepsInv (h : Inv s) (r : Fin 16) {n : Nat} (w : BitVec n) : Inv (putPixels r w s) :=
  h.setGbc (h.mem .gbcSrc) (h.mem .gbcOld) (h.mem .gbcTbl) (Memory.store_wf _ _ _ (h.mem .gbcPix)) (h.shells .gbc)
    { h.gbc with }

theorem gbcGlyphEnd_keepsInv (h : Inv s) (hg : s.gbc.g ≠ s.gbc.count) : Ensures Inv (gbcGlyphEnd s) :=
  h.setGbc (h.mem .gbcSrc) (h.mem .gbcOld) (h.mem .gbcTbl) (h.mem .gbcPix) (h.shells .gbc)
    { h.gbc with
      decode := fun hb hp => by
        obtain ⟨hmode, hwidth, hrows, hcount, hrec, hlen, hgle, hpix⟩ := h.gbc.decode hb hp
        have hnext : (s.gbc.g + 1).toNat ≤ s.gbc.count.toNat := by bv_omega
        exact ⟨hmode, hwidth, hrows, hcount, hrec, hlen, hnext, hpix⟩ }

/-- The rows of a record leave the glyph cursor alone, so that it may move when they are done (R178). -/
theorem record_keepsInv (h : Inv s) (hg : s.gbc.g ≠ s.gbc.count) {rows : List Instr}
    (hr : ∀ i ∈ rows, IsGlyphRow i) :
    Ensures Inv (andThen (execAll rows s) gbcGlyphEnd) := by
  have hrow : ∀ i ∈ rows, ∀ t : State, Inv t ∧ t.gbc.g ≠ t.gbc.count →
      Ensures (fun t => Inv t ∧ t.gbc.g ≠ t.gbc.count) (exec i t) := by
    intro i hi t ⟨ht, htg⟩
    obtain ⟨r, p, rfl⟩ | ⟨r, p, rfl⟩ := hr i hi
    · exact ⟨putPixels_keepsInv ht r p, htg⟩
    · exact ⟨putPixels_keepsInv ht r p, htg⟩
  exact (Ensures.execAll ⟨h, hg⟩ hrow).andThen fun t ⟨ht, htg⟩ => gbcGlyphEnd_keepsInv ht htg

theorem GbcTurn.keepsInv {o : Result} (ho : GbcTurn s o) (h : Inv s) (hb : s.busy .gbc) : Ensures Inv o := by
  cases ho with
  | unwritten b a => trivial
  | badMode | shortTable => exact h.raise rfl
  | decodeCheck start count width rows hp hm => exact gbcDecodeCheck_keepsInv h start count width rows hp hm
  | encodeCheck hp h3 h0 => exact gbcEncodeCheck_keepsInv h hp h3 h0
  | noMerge hp => exact h.gbcParseFrom hp
  | merge start count width hp => exact gbcMerge_keepsInv h start count width hp
  | line raw i hp hi => exact exec_line_keepsInv (h.pastLine raw) hp hi
  | skippedLine raw hp => exact h.pastLine raw
  | record rows hp hg hr => exact record_keepsInv h hg hr
  | textEnd | recordsEnd => exact h.finish hb

/-! ## SSR -/

theorem ssrCheck_keepsInv (h : Inv s) : Ensures Inv (ssrCheck s) :=
  .ite (fun _ => h.raise rfl) fun hl =>
    h.setSsr (h.mem .ssrRaw) (Memory.zero_wf _ _ _ (h.mem .ssrSlotA)) (Memory.zero_wf _ _ _ (h.mem .ssrSlotB))
      (h.mem .ssrOutImg) (h.shells .ssr)
      { p_le := Nat.zero_le _
        p_emit := nofun
        lens := fun _ _ => ⟨not_lt.mp hl, rfl⟩
        slots_written := fun _ => ⟨Written.zero _ _, Written.zero _ _⟩ }

/-- A sector stored in either slot, and the cursor past it (R202). -/
theorem execSecTrailer_keepsInv (h : Inv s) (data : List Byte) (index : BitVec 16) (undescribed : BitVec 48)
    (counter : BitVec 32) (hp : s.ssr.phase = .gather) (h28 : s.ssr.p ≠ 28) :
    Ensures Inv (execSecTrailer data index undescribed counter s) := by
  have hle := h.ssr.p_le
  have hnext : (s.ssr.p + 1).toNat ≤ 28 := by bv_omega
  have hemit : s.ssr.phase = .emit → s.ssr.p + 1 = 28 := fun he => by rw [hp] at he; cases he
  refine .ite (fun _ => .ite (fun _ => ?slotA) fun _ => ?slotB) fun _ => ?dropped
  case slotA =>
    exact h.setSsr (h.mem .ssrRaw) (Memory.store_wf _ _ _ (h.mem .ssrSlotA)) (h.mem .ssrSlotB) (h.mem .ssrOutImg)
      (h.shells .ssr)
      { h.ssr with
        p_le := hnext
        p_emit := hemit
        slots_written := fun hc => ⟨(h.ssr.slots_written hc).1.store _ _, (h.ssr.slots_written hc).2⟩ }
  case slotB =>
    exact h.setSsr (h.mem .ssrRaw) (h.mem .ssrSlotA) (Memory.store_wf _ _ _ (h.mem .ssrSlotB)) (h.mem .ssrOutImg)
      (h.shells .ssr)
      { h.ssr with
        p_le := hnext
        p_emit := hemit
        slots_written := fun hc => ⟨(h.ssr.slots_written hc).1, (h.ssr.slots_written hc).2.store _ _⟩ }
  case dropped =>
    exact h.setSsr (h.mem .ssrRaw) (h.mem .ssrSlotA) (h.mem .ssrSlotB) (h.mem .ssrOutImg) (h.shells .ssr)
      { h.ssr with p_le := hnext, p_emit := hemit }

theorem ssrGatherEnd_keepsInv (h : Inv s) (hp : s.ssr.phase = .gather) (h28 : s.ssr.p = 28) :
    Ensures Inv (ssrGatherEnd s) := by
  have hp' : s.ssr.phase ≠ .check := by rw [hp]; nofun
  exact h.setSsr (h.mem .ssrRaw) (h.mem .ssrSlotA) (h.mem .ssrSlotB) (h.mem .ssrOutImg) (h.shells .ssr)
    { h.ssr with
      p_emit := fun _ => h28
      lens := fun hb _ => h.ssr.lens hb hp'
      slots_written := fun _ => h.ssr.slots_written hp' }

theorem ssrEmit_keepsInv (h : Inv s) (hb : s.busy .ssr) : Ensures Inv (ssrEmit s) := by
  unfold ssrEmit
  refine .withBytes fun ca _ => .withBytes fun cb _ => .withBytes fun a _ => .withBytes fun b _ => ?_
  -- with the length a variable, unification does not count the difference down from SLOTS_END
  generalize s.ssr.rawLen - Config.slotsEnd = n
  refine .withBytes fun tail _ => ?_
  refine Inv.finish (h.setSsr ?raw ?slotA ?slotB ?image ?shell ?regs) hb
  case raw => exact h.mem .ssrRaw
  case slotA => exact h.mem .ssrSlotA
  case slotB => exact h.mem .ssrSlotB
  case image => exact Memory.store_wf _ _ _ (h.mem .ssrOutImg)
  case shell => exact h.shells .ssr
  case regs => exact { h.ssr with }

theorem SsrTurn.keepsInv {o : Result} (ho : SsrTurn s o) (h : Inv s) (hb : s.busy .ssr) : Ensures Inv o := by
  cases ho with
  | unwritten a => trivial
  | check => exact ssrCheck_keepsInv h
  | sector data index undescribed counter hp h28 =>
    exact execSecTrailer_keepsInv h data index undescribed counter hp h28
  | gatherEnd hp h28 => exact ssrGatherEnd_keepsInv h hp h28
  | emit => exact ssrEmit_keepsInv h hb

/-! ## The block -/

theorem fetchUnit_keepsInv (h : Inv s) (u : UnitId) : Ensures Inv (runFetched (fetchUnit u s)) := by
  by_cases hb : s.busy u
  · simp only [fetchUnit, if_pos hb]
    cases u with
    | lzd => exact (fetchLzd_turn s).keepsInv h hb
    | tiu => exact (fetchTiu_turn s).keepsInv h hb
    | gbc => exact (fetchGbc_turn s).keepsInv h hb
    | ssr => exact (fetchSsr_turn s).keepsInv h hb
  · rw [fetchUnit_rest hb]
    exact h

theorem agentStep_keepsInv (h : Inv s) (a : Agent) : Ensures Inv (agentStep a s) := by
  cases a with
  | host => exact fetchHost_keepsInv h
  | unit u => exact fetchUnit_keepsInv h u

/-- Settles O53: a step is the turn of one agent, and each outcome of each turn keeps the invariant. -/
theorem everyStepKeepsTheInvariant : Obligations.EveryStepKeepsTheInvariant := by
  unfold Obligations.EveryStepKeepsTheInvariant
  intro s t h ht
  have hpop : Inv s.popSched := h.congr rfl rfl rfl rfl
  exact (agentStep_keepsInv hpop (nextAgent s)).of_next ht

/-- Settles O52: each unit's reset values are within its bounds. -/
theorem invariantHoldsAtReset : Obligations.InvariantHoldsAtReset := inv_reset

end Sys2Proof.Machine
end

section
/-!
What only the host writes: parameter registers and input buffers (R18, R41). No outcome of a unit's turn changes them.
-/

namespace Sys2Proof.Machine

/-- The block's parameter registers and input buffers, everything else as after reset. -/
def State.inputs (s : State) : State :=
  { State.reset with
    lzd := { Lzd.reset with inLen := s.lzd.inLen, inBuf := s.lzd.inBuf }
    tiu := { Tiu.reset with
      tilesLen := s.tiu.tilesLen, palLen := s.tiu.palLen, tiles := s.tiu.tiles, pal := s.tiu.pal }
    gbc := { Gbc.reset with
      mode := s.gbc.mode, cpMin := s.gbc.cpMin, cpMax := s.gbc.cpMax, width := s.gbc.width, srcLen := s.gbc.srcLen,
      oldLen := s.gbc.oldLen, src := s.gbc.src, old := s.gbc.old }
    ssr := { Ssr.reset with rawLen := s.ssr.rawLen, raw := s.ssr.raw } }

theorem State.inputs_buf (s : State) (b : InBuf) : s.inputs.buf b.name = s.buf b.name := by
  cases b <;> rfl

/-- The outcome changes no parameter register and no input buffer of `s`. -/
abbrev KeepsInputs (s : State) (o : Result) : Prop := Ensures (fun t => t.inputs = s.inputs) o

variable {s : State}

theorem execCopy_keepsInputs (l : Nibble) (d : BitVec 12) : KeepsInputs s (execCopy l d s) :=
  .ite (fun _ => rfl) fun _ => rfl

theorem lzdCopyStep_keepsInputs : KeepsInputs s (lzdCopyStep s) :=
  .ite (fun _ => rfl) fun _ => .ite (fun _ => rfl) fun _ => .ite (fun _ => trivial) fun _ =>
    .withBytes fun _ _ => rfl

theorem tiuCheck_keepsInputs : KeepsInputs s (tiuCheck s) :=
  .ite (fun _ => rfl) fun _ => .ite (fun _ => rfl) fun _ => .ite (fun _ => rfl) fun _ => rfl

theorem gbcDecodeCheck_keepsInputs (start count : BitVec 16) (width rows : Byte) :
    KeepsInputs s (gbcDecodeCheck start count width rows s) :=
  .ite (fun _ => rfl) fun _ => .ite (fun _ => rfl) fun _ => .ite (fun _ => rfl) fun _ => rfl

theorem gbcEncodeCheck_keepsInputs : KeepsInputs s (gbcEncodeCheck s) :=
  .ite (fun _ => rfl) fun _ => .ite (fun _ => rfl) fun _ => .ite (fun _ => rfl) fun _ =>
    .ite (fun _ => rfl) fun _ => rfl

theorem gbcMerge_keepsInputs (start count : BitVec 16) (width : Byte) : KeepsInputs s (gbcMerge start count width s) :=
  .ite (fun _ => .ite (fun _ => rfl) fun _ => .withBytes fun _ _ => rfl) fun _ => rfl

theorem execHexLine_keepsInputs (cp : BitVec 32) (payload : List Byte) : KeepsInputs s (execHexLine cp payload s) := by
  refine .ite (fun _ => rfl) fun _ => .ite (fun _ => rfl) fun _ => ?_
  cases hexRecord s.gbc.recSize payload <;> rfl

theorem execBdfRow_keepsInputs (digits : Option (List Nibble)) : KeepsInputs s (execBdfRow digits s) := by
  simp only [execBdfRow]
  split
  · split <;> rfl
  · rfl

theorem exec_line_keepsInputs {i : Instr} {mode : BitVec 2} {st : PState}
    (hi : i.place = if mode = 1 then .hexText else .bdfText st) : KeepsInputs s (exec i s) := by
  cases i with
  | hexLine cp payload => exact execHexLine_keepsInputs cp payload
  | bdfRow digits => exact execBdfRow_keepsInputs digits
  | bdfEncoding code => exact .ite (fun _ => rfl) fun _ => rfl
  | bdfCharset | bdfBitmap | bdfEndchar | bdfOther => rfl
  | _ => split at hi <;> cases hi

theorem record_keepsInputs {rows : List Instr} (hr : ∀ i ∈ rows, IsGlyphRow i) :
    KeepsInputs s (andThen (execAll rows s) gbcGlyphEnd) := by
  have hrow : ∀ i ∈ rows, ∀ t : State, t.inputs = s.inputs → KeepsInputs s (exec i t) := by
    intro i hi t ht
    obtain ⟨r, p, rfl⟩ | ⟨r, p, rfl⟩ := hr i hi
    · exact ht
    · exact ht
  exact (Ensures.execAll (P := fun t => t.inputs = s.inputs) rfl hrow).andThen fun _ ht => ht

theorem execSecTrailer_keepsInputs (data : List Byte) (index : BitVec 16) (undescribed : BitVec 48)
    (counter : BitVec 32) : KeepsInputs s (execSecTrailer data index undescribed counter s) :=
  .ite (fun _ => .ite (fun _ => rfl) fun _ => rfl) fun _ => rfl

theorem ssrEmit_keepsInputs : KeepsInputs s (ssrEmit s) := by
  unfold ssrEmit
  refine .withBytes fun _ _ => .withBytes fun _ _ => .withBytes fun _ _ => .withBytes fun _ _ => ?_
  -- with the length a variable, unification does not count the difference down from SLOTS_END
  generalize s.ssr.rawLen - Config.slotsEnd = n
  exact .withBytes fun _ _ => rfl

theorem LzdTurn.keepsInputs {o : Result} (ho : LzdTurn s o) : KeepsInputs s o := by
  cases ho with
  | unwritten a => trivial
  | backref l d => exact execCopy_keepsInputs l d
  | copyStep => exact lzdCopyStep_keepsInputs
  | shortHeader | badTag | header | stop | control | literal => rfl

theorem TiuTurn.keepsInputs {o : Result} (ho : TiuTurn s o) : KeepsInputs s o := by
  cases ho with
  | unwritten b a => trivial
  | check => exact tiuCheck_keepsInputs
  | tile | tilesEnd | palette | paletteEnd => rfl

theorem GbcTurn.keepsInputs {o : Result} (ho : GbcTurn s o) : KeepsInputs s o := by
  cases ho with
  | unwritten b a => trivial
  | decodeCheck start count width rows => exact gbcDecodeCheck_keepsInputs start count width rows
  | encodeCheck => exact gbcEncodeCheck_keepsInputs
  | merge start count width => exact gbcMerge_keepsInputs start count width
  | line raw i hp hi => exact exec_line_keepsInputs (s := s.pastLine raw) hi
  | record rows hp hg hr => exact record_keepsInputs hr
  | badMode | shortTable | noMerge | skippedLine | textEnd | recordsEnd => rfl

theorem SsrTurn.keepsInputs {o : Result} (ho : SsrTurn s o) : KeepsInputs s o := by
  cases ho with
  | unwritten a => trivial
  | check => exact .ite (fun _ => rfl) fun _ => rfl
  | sector data index undescribed counter => exact execSecTrailer_keepsInputs data index undescribed counter
  | gatherEnd => rfl
  | emit => exact ssrEmit_keepsInputs

theorem agentStep_unit_keepsInputs (u : UnitId) : KeepsInputs s (agentStep (.unit u) s) := by
  by_cases hb : s.busy u
  · cases u with
    | lzd => exact agentStep_lzd hb ▸ (fetchLzd_turn s).keepsInputs
    | tiu => exact agentStep_tiu hb ▸ (fetchTiu_turn s).keepsInputs
    | gbc => exact agentStep_gbc hb ▸ (fetchGbc_turn s).keepsInputs
    | ssr => exact agentStep_ssr hb ▸ (fetchSsr_turn s).keepsInputs
  · simp only [agentStep, fetch, fetchUnit_rest hb]
    rfl

/-- Settles O51: each register and buffer is read off the inputs, which every outcome of a unit's turn keeps. -/
theorem unitsNeverWriteParametersOrInputs : Obligations.UnitsNeverWriteParametersOrInputs := by
  unfold Obligations.UnitsNeverWriteParametersOrInputs
  intro s t u ht
  have h : t.inputs = s.inputs := (agentStep_unit_keepsInputs u).of_next ht
  refine ⟨fun b => ?buffers, congrArg (·.lzd.inLen) h, congrArg (·.tiu.tilesLen) h, congrArg (·.tiu.palLen) h,
    congrArg (·.gbc.mode) h, congrArg (·.gbc.cpMin) h, congrArg (·.gbc.cpMax) h, congrArg (·.gbc.width) h,
    congrArg (·.gbc.srcLen) h, congrArg (·.gbc.oldLen) h, congrArg (·.ssr.rawLen) h⟩
  rw [← t.inputs_buf, h, s.inputs_buf]

end Sys2Proof.Machine
end

section
/-!
The host's accesses (R13, R18, R19, R49, R252, R259): which go ahead, what they change, and what a read answers.
-/

namespace Sys2Proof.Machine

/-! ## Register writes -/

/-- A parameter write to a resting unit goes ahead (R18, R19). -/
theorem hostAction_write {s : State} {w : RegWrite} (hw : w.isStart = false) (h : ¬ s.busy w.unit) :
    hostAction (.write w) s = .next (s.writeReg w) := by
  simp only [hostAction, hw, Bool.false_eq_true, if_false]
  exact whenNotBusy_idle s w.unit _ h

/-- Settles O47: the write goes ahead, and each register's write is a record update. -/
theorem hostWritesOneParameterRegister : Obligations.HostWritesOneParameterRegister := by
  unfold Obligations.HostWritesOneParameterRegister
  intro s
  exact ⟨fun h _ => hostAction_write rfl h, fun h _ => ⟨hostAction_write rfl h, hostAction_write rfl h⟩,
    fun h => ⟨fun _ => hostAction_write rfl h,
      fun _ => ⟨hostAction_write rfl h, hostAction_write rfl h, hostAction_write rfl h⟩,
      fun _ => ⟨hostAction_write rfl h, hostAction_write rfl h⟩⟩,
    fun h _ => hostAction_write rfl h⟩

/-! ## Buffer loads and reads -/

section

variable (s : State) (b : InBuf) (a : Nat) (bytes : List Byte)

@[simp] theorem State.storeIn_shell (u : UnitId) : (s.storeIn b a bytes).shell u = s.shell u := by
  cases b <;> cases u <;> rfl

theorem State.storeIn_buf (b' : BufName) :
    (s.storeIn b a bytes).buf b' = if b' = b.name then (s.buf b').store a bytes else s.buf b' := by
  cases b <;> cases b' <;> rfl

theorem State.storeIn_othersKept : OthersKept b.name.unit s (s.storeIn b a bytes) := by
  cases b <;> simp [OthersKept, State.storeIn, InBuf.name, BufName.unit]

/-- No register speaks of what a buffer holds. -/
theorem State.storeIn_readReg (r : RegName) : (s.storeIn b a bytes).readReg r = s.readReg r := by
  cases r with
  | status u | errClass u | errCause u => simp only [State.readReg, State.storeIn_shell]
  | _ => cases b <;> rfl

end

/-- A read writes the log alone. -/
theorem sameUnit_log (s : State) (v : HostValue) (u : UnitId) : SameUnit u (s.log v) s := by
  cases u <;> rfl

theorem hostAction_writeBuf {s : State} {b : InBuf} (h : ¬ s.busy b.name.unit) (a : Nat) (bytes : List Byte) :
    hostAction (.writeBuf b a bytes) s = .next (s.storeIn b a bytes) :=
  whenNotBusy_idle s b.name.unit _ h

theorem hostAction_readBuf {s : State} {b : BufName} {a n : Nat} {bytes : List Byte} (h : ¬ s.busy b.unit)
    (hx : (s.buf b).load a n = .ok bytes) : hostAction (.readBuf b a n) s = .next (s.log (.bytes bytes)) := by
  simp only [hostAction, hx, withBytes_ok]
  exact whenNotBusy_idle s b.unit _ h

/-- Settles O45: a load is one store into its buffer, a read one entry of the log. -/
theorem hostLoadsAndReadsBuffersOfARestingUnit : Obligations.HostLoadsAndReadsBuffersOfARestingUnit := by
  unfold Obligations.HostLoadsAndReadsBuffersOfARestingUnit
  refine ⟨fun s b a bytes h => ?load, fun s b a n bytes h hx => ?read⟩
  case load =>
    have hbuf : (s.storeIn b a bytes).buf b.name = (s.buf b.name).store a bytes := by
      rw [State.storeIn_buf, if_pos rfl]
    refine ⟨_, hostAction_writeBuf h a bytes, s.storeIn_othersKept b a bytes, s.storeIn_shell b a bytes,
      fun k hk => ?stored, fun k hk => ?outside, fun b' hb => ?other, s.storeIn_readReg b a bytes⟩
    case stored => rw [hbuf, Memory.read_store, if_pos (by omega), Nat.add_sub_cancel_left]
    case outside => rw [hbuf, Memory.read_store_outside _ _ _ _ hk]
    case other => rw [State.storeIn_buf, if_neg hb]
  case read =>
    refine ⟨_, hostAction_readBuf h hx, rfl, sameUnit_log s _, rfl, rfl, fun hm => ?_⟩
    obtain ⟨hlen, hread⟩ := (Memory.load_eq_ok _ a n bytes hm).mp hx
    exact ⟨hlen, fun k hk => (hread k hk).symm⟩

/-! ## Register reads -/

/-- STATUS is read in every state, any other register of a resting unit (R19). -/
theorem hostAction_readReg {s : State} {r : RegName} (h : r.isStatus = true ∨ ¬ s.busy r.unit) :
    hostAction (.readReg r) s = .next (s.log (s.readReg r)) := by
  simp only [hostAction]
  split
  · rfl
  · next hr => exact whenNotBusy_idle s r.unit _ (h.resolve_left hr)

/-- Settles O58: the read is one entry of the log, and each register's value is a field of its unit. -/
theorem hostReadsEveryRegisterOfARestingUnit : Obligations.HostReadsEveryRegisterOfARestingUnit := by
  unfold Obligations.HostReadsEveryRegisterOfARestingUnit
  refine fun s => ⟨fun r h => ?read, ?lzd, ?tiu, ?gbc, ?ssr, fun u => ⟨rfl, rfl, rfl⟩⟩
  case read => exact ⟨_, hostAction_readReg (.inr h), rfl, sameUnit_log s _, rfl, rfl⟩
  case lzd => exact ⟨rfl, rfl, rfl, rfl, rfl, rfl, rfl, rfl, rfl⟩
  case tiu => exact ⟨rfl, rfl, rfl, rfl, rfl, rfl, rfl, rfl⟩
  case gbc =>
    exact ⟨rfl, rfl, rfl, rfl, rfl, rfl, rfl, rfl, rfl, rfl, rfl, rfl, rfl, rfl, rfl, rfl, rfl, rfl, rfl, rfl, rfl⟩
  case ssr => exact ⟨rfl, rfl, rfl, rfl, rfl, rfl, rfl⟩

/-- Settles O48: the numbers are the definitions'; TRUNCATED compares the registers as numbers. -/
theorem statusRegistersReadAsNumbered : Obligations.StatusRegistersReadAsNumbered := by
  unfold Obligations.StatusRegistersReadAsNumbered
  refine ⟨⟨rfl, rfl, rfl, rfl⟩, ⟨rfl, rfl, rfl, rfl, rfl⟩, rfl, fun s => ⟨?truncated, fun u => ⟨rfl, rfl, rfl⟩⟩⟩
  simp only [State.truncated, Bool.and_eq_true, decide_eq_true_eq, BitVec.lt_def]

/-- Settles O7: reset gives every register its value, and every buffer is empty. -/
theorem resetValuesOfEveryRegister : Obligations.ResetValuesOfEveryRegister := by
  unfold Obligations.ResetValuesOfEveryRegister
  exact ⟨rfl, rfl, rfl, rfl, fun b _ => by cases b <;> rfl⟩

/-! ## Accesses to a running unit -/

section

variable {s : State} {u : UnitId} (h : s.busy u)
include h

theorem hostAction_write_busy {w : RegWrite} (hu : w.unit = u) (hw : w.isStart = false) :
    hostAction (.write w) s = .refused (.hostAccessWhileBusy u) := by
  subst hu
  simp only [hostAction, hw, Bool.false_eq_true, if_false]
  exact whenNotBusy_busy s w.unit _ h

theorem hostAction_readReg_busy {r : RegName} (hu : r.unit = u) (hr : r ≠ .status u) :
    hostAction (.readReg r) s = .refused (.hostAccessWhileBusy u) := by
  subst hu
  have hstatus : r.isStatus = false := by
    cases r with
    | status v => exact absurd rfl hr
    | _ => rfl
  simp only [hostAction, hstatus, Bool.false_eq_true, if_false]
  exact whenNotBusy_busy s r.unit _ h

/-- A copy is refused for its source if that runs, else for its destination (R45). -/
theorem hostAction_copyBuf_busy {src : BufName} {dst : InBuf} (hu : src.unit = u ∨ dst.name.unit = u) (a n a' : Nat) :
    ∃ v, s.busy v ∧ hostAction (.copyBuf src a n dst a') s = .refused (.hostAccessWhileBusy v) := by
  by_cases hsrc : s.busy src.unit
  · exact ⟨src.unit, hsrc, whenNotBusy_busy s src.unit _ hsrc⟩
  · have hdst : s.busy dst.name.unit := by
      rcases hu with rfl | rfl
      · exact absurd h hsrc
      · exact h
    refine ⟨dst.name.unit, hdst, ?_⟩
    simp only [hostAction, whenNotBusy_idle s src.unit _ hsrc]
    exact whenNotBusy_busy s dst.name.unit _ hdst

/-- A START pulse to a running unit is taken off the host's list and has no other effect (R61). -/
theorem agentStep_host_start_busy {w : RegWrite} {rest : List HostAction} (hw : w.startOf = some u)
    (hs : s.host = .write w :: rest) : agentStep .host s = .next { s with host := rest } := by
  have hb : State.busy { s with host := rest } u := by cases u <;> exact h
  calc agentStep .host s
    _ = runFetched (fetchHost s) := rfl
    _ = exec (decodeCommand (commandCode s u)) { s with host := rest } := by
      rw [fetchHost_start hs hw, runFetched_run]
    _ = .next (State.start { s with host := rest } u) := exec_commandCode (by rfl) u
    _ = .next { s with host := rest } := by rw [State.start_busy _ u hb]

end

/-- Settles O44: each access by itself; STATUS reads 1, and a START pulse is the START that has no effect. -/
theorem hostAccessToARunningUnitIsRefused : Obligations.HostAccessToARunningUnitIsRefused := by
  unfold Obligations.HostAccessToARunningUnitIsRefused
  intro s u h
  refine ⟨fun _ => hostAction_write_busy h, fun b a bytes hu => ?load, fun b a n hu => ?read,
    fun _ => hostAction_readReg_busy h, fun _ a n _ a' hu => hostAction_copyBuf_busy h hu a n a',
    ⟨_, hostAction_readReg (.inl rfl), ?status, sameUnit_log s _, rfl, rfl⟩,
    fun _ _ => agentStep_host_start_busy h⟩
  case load => subst hu; exact whenNotBusy_busy s b.name.unit _ h
  case read => subst hu; exact whenNotBusy_busy s b.unit _ h
  case status =>
    have hread : s.readReg (.status u) = .num 1 := by simp only [State.readReg, h]; rfl
    rw [State.log_hostLog, hread]

end Sys2Proof.Machine
end

section
/-!
Whose turn it is and in what order (R9, R53): the agent a step moves (log entry 8), and that steps of different units
commute, since each is local to its unit (R2).
-/

namespace Sys2Proof.Machine

/-! ## Steps of different units -/

/-- Grafts of two different units commute: they replace different fields of the block. -/
theorem State.graft_comm {u v : UnitId} (h : u ≠ v) (s s' r : State) :
    State.graft u s (State.graft v s' r) = State.graft v s' (State.graft u s r) := by
  cases u <;> cases v <;> trivial

/-- A unit's step is the graft of that unit onto the block it started from. -/
theorem agentStep_unit_eq_graft {u : UnitId} {s t : State} (h : agentStep (.unit u) s = .next t) :
    t = State.graft u t s := by
  have hg := agentStep_graft h s
  rw [State.graft_self, h] at hg
  exact Host.Outcome.next.inj hg

/-- A unit other than the one that may change is the same unit. -/
theorem OthersKept.sameUnit {u v : UnitId} {s t : State} (h : OthersKept u s t) (hv : u ≠ v) : SameUnit v s t := by
  obtain ⟨hlzd, htiu, hgbc, hssr, -, -, -⟩ := h
  cases v with
  | lzd => exact (hlzd hv).symm
  | tiu => exact (htiu hv).symm
  | gbc => exact (hgbc hv).symm
  | ssr => exact (hssr hv).symm

/-- A unit's step is still there, and grafts the same unit, after a step of another unit. -/
theorem agentStep_unit_after {s t t' : State} {u v : UnitId} (huv : u ≠ v) (hu : agentStep (.unit u) s = .next t)
    (hv : agentStep (.unit v) s = .next t') : agentStep (.unit v) t = .next (State.graft v t' t) := by
  have hg := agentStep_graft hv t
  rwa [((agentStep_unit_frame hu).sameUnit huv).graft_eq] at hg

/-- Settles O50: each step grafts its own unit onto the block, and grafts of different units commute. -/
theorem stepsOfDifferentUnitsCommute : Obligations.StepsOfDifferentUnitsCommute := by
  unfold Obligations.StepsOfDifferentUnitsCommute
  intro s t t' u v huv hu hv
  have hr : State.graft v t' t = State.graft u t t' := calc
    State.graft v t' t = State.graft v t' (State.graft u t s) := by rw [← agentStep_unit_eq_graft hu]
    _ = State.graft u t (State.graft v t' s) := (State.graft_comm huv t t' s).symm
    _ = State.graft u t t' := by rw [← agentStep_unit_eq_graft hv]
  exact ⟨_, agentStep_unit_after huv hu hv, hr ▸ agentStep_unit_after huv.symm hv hu⟩

/-! ## The agent a step moves -/

theorem step_of_sched_cons {s : State} {a : Agent} {rest : List Agent} (h : s.sched = a :: rest) :
    step s = agentStep a { s with sched := rest } := by
  simp only [step, nextAgent, State.popSched, h, List.tail_cons]

section

variable {s : State} (h : s.sched = [])
include h

/-- With no schedule there is none to shorten. -/
theorem State.popSched_eq_self : s.popSched = s := by
  calc s.popSched
    _ = { s with sched := [] } := by rw [State.popSched, h, List.tail_nil]
    _ = s := by rw [← h]

/-- With no schedule the first BUSY unit moves, else the host (log entry 8). -/
theorem step_unscheduled :
    step s = agentStep (if s.busy .lzd then .unit .lzd else if s.busy .tiu then .unit .tiu
      else if s.busy .gbc then .unit .gbc else if s.busy .ssr then .unit .ssr else .host) s := by
  rw [step, State.popSched_eq_self h, nextAgent, h]
  rfl

theorem step_unscheduled_resting (hr : ∀ u, ¬ s.busy u) : step s = agentStep .host s := by
  rw [step_unscheduled h, if_neg (hr _), if_neg (hr _), if_neg (hr _), if_neg (hr _)]

end

/-- With no action left the host's turn changes nothing (R20, R250). -/
theorem agentStep_host_nil {s : State} (h : s.host = []) : agentStep .host s = .next s := by
  simp only [agentStep, fetch, fetchHost, h, runFetched_other]

/-- Settles O57: the schedule's head, or the first BUSY unit of the four. -/
theorem aStepMovesTheScheduledAgent : Obligations.AStepMovesTheScheduledAgent := by
  unfold Obligations.AStepMovesTheScheduledAgent
  refine fun s => ⟨fun a rest hs => step_of_sched_cons hs, fun hs =>
    ⟨fun h => ?lzd, fun h1 h => ?tiu, fun h1 h2 h => ?gbc, fun h1 h2 h3 h => ?ssr, step_unscheduled_resting hs,
      fun hr hh => (step_unscheduled_resting hs hr).trans (agentStep_host_nil hh)⟩⟩
  case lzd => rw [step_unscheduled hs, if_pos h]
  case tiu => rw [step_unscheduled hs, if_neg h1, if_pos h]
  case gbc => rw [step_unscheduled hs, if_neg h1, if_neg h2, if_pos h]
  case ssr => rw [step_unscheduled hs, if_neg h1, if_neg h2, if_neg h3, if_pos h]

end Sys2Proof.Machine
end

section
/-!
A host copy is a load of the bytes it reads (R45, R54).
-/

namespace Sys2Proof.Machine

/-- With neither unit running, copying bytes that are read is loading them (R45, R252). -/
theorem hostAction_copyBuf {s : State} {src : BufName} {a n : Nat} {dst : InBuf} {bytes : List Byte}
    (hsrc : ¬ s.busy src.unit) (hdst : ¬ s.busy dst.name.unit) (hx : (s.buf src).load a n = .ok bytes) (a' : Nat) :
    hostAction (.copyBuf src a n dst a') s = hostAction (.writeBuf dst a' bytes) s := by
  rw [hostAction_writeBuf hdst]
  simp only [hostAction, whenNotBusy_idle s src.unit _ hsrc, whenNotBusy_idle s dst.name.unit _ hdst, hx, withBytes_ok]

/-- Settles O46: the copy is the load of O45 of the bytes the source holds. -/
theorem hostCopiesOneBufferIntoAnother : Obligations.HostCopiesOneBufferIntoAnother := by
  unfold Obligations.HostCopiesOneBufferIntoAnother
  intro s src a n dst a' bytes hsrc hdst hm hx
  obtain ⟨rfl, hread⟩ := (Memory.load_eq_ok _ a n bytes hm).mp hx
  obtain ⟨t, ht, hothers, -, hstored, hkept, hbufs, hregs⟩ :=
    hostLoadsAndReadsBuffersOfARestingUnit.1 s dst a' bytes hdst
  exact ⟨t, (hostAction_copyBuf hsrc hdst hx a').trans ht, hothers,
    fun k hk => (hstored k hk).trans (hread k hk).symm, hkept, hbufs, hregs⟩

end Sys2Proof.Machine
end

section
/-!
Text lines (R80, R82): what stripping leaves, where the first token ends, and what unquoting removes. Trimming, tokens and
the colon of a hex-row line are one fact about scans: a scan stops where the first part ends.
-/

namespace Sys2Proof

open Machine

/-! ## Scans -/

section

variable {α : Type} {p : α → Bool} {l₁ l₂ : List α} (h₁ : ∀ a ∈ l₁, p a = true) (h₂ : ∀ a ∈ l₂.head?, p a = false)
include h₁ h₂

theorem dropWhile_append_of_stop : (l₁ ++ l₂).dropWhile p = l₂ := by
  rw [List.dropWhile_append_of_pos h₁]
  cases l₂ with
  | nil => rfl
  | cons a l => exact List.dropWhile_cons_of_neg (by simp [h₂ a rfl])

theorem takeWhile_append_of_stop : (l₁ ++ l₂).takeWhile p = l₁ := by
  rw [List.takeWhile_append_of_pos h₁]
  cases l₂ with
  | nil => exact List.append_nil l₁
  | cons a l => rw [List.takeWhile_cons_of_neg (by simp [h₂ a rfl]), List.append_nil]

end

theorem isBlank_iff {b : Byte} : isBlank b = true ↔ Blank b := by
  simp only [isBlank, Bool.or_eq_true, beq_iff_eq]

theorem isBlank_eq_false_iff {b : Byte} : isBlank b = false ↔ ¬ Blank b := by
  rw [← isBlank_iff, Bool.not_eq_true]

/-! ## Stripping (R80) -/

theorem trimStart_blanks_append {lead rest : List Byte} (hlead : ∀ b ∈ lead, Blank b)
    (hrest : ∀ b ∈ rest.head?, ¬ Blank b) : trimStart (lead ++ rest) = rest :=
  dropWhile_append_of_stop (fun b hb => isBlank_iff.mpr (hlead b hb)) fun b hb => isBlank_eq_false_iff.mpr (hrest b hb)

/-- Trimming at the end is trimming the reversed line at its start. -/
theorem trimEnd_append_blanks {body tail : List Byte} (htail : ∀ b ∈ tail, Blank b)
    (hbody : ∀ b ∈ body.getLast?, ¬ Blank b) : trimEnd (body ++ tail) = body := by
  have hrev : trimStart (tail.reverse ++ body.reverse) = body.reverse :=
    trimStart_blanks_append (fun b hb => htail b (List.mem_reverse.mp hb)) (by rwa [List.head?_reverse])
  calc trimEnd (body ++ tail)
    _ = (trimStart (body ++ tail).reverse).reverse := rfl
    _ = body := by rw [List.reverse_append, hrev, List.reverse_reverse]

theorem trim_eq_of_trimmed {lead body tail : List Byte} (hblank : ∀ b ∈ lead ++ tail, Blank b) (hbody : Trimmed body) :
    trim (lead ++ body ++ tail) = body := by
  obtain ⟨hlead, htail⟩ := List.forall_mem_append.mp hblank
  obtain ⟨hhead, hlast⟩ := hbody
  cases body with
  | nil =>
    have hall : trimStart (lead ++ tail ++ []) = [] := trimStart_blanks_append hblank nofun
    rw [trim, List.append_nil, ← List.append_nil (lead ++ tail), hall]
    rfl
  | cons b body =>
    have hstart : trimStart (lead ++ (b :: body ++ tail)) = b :: body ++ tail := trimStart_blanks_append hlead hhead
    rw [trim, List.append_assoc, hstart, trimEnd_append_blanks htail hlast]

@[simp] theorem dropReturn_append_return (l : List Byte) : dropReturn (l ++ [0x0D]) = l := by
  simp [dropReturn]

theorem dropReturn_of_getLast?_ne {l : List Byte} (h : l.getLast? ≠ some 0x0D) : dropReturn l = l := if_neg h

/-! ## The first token (R82) -/

section

variable {tok rest : List Byte} (htok : ∀ b ∈ tok, ¬ Blank b) (hrest : ∀ b ∈ rest.head?, Blank b)
include htok hrest

theorem firstToken_append : firstToken (tok ++ rest) = tok :=
  takeWhile_append_of_stop (fun b hb => by rw [isBlank_eq_false_iff.mpr (htok b hb)]; rfl)
    fun b hb => by rw [isBlank_iff.mpr (hrest b hb)]; rfl

theorem afterToken_append : afterToken (tok ++ rest) = rest :=
  dropWhile_append_of_stop (fun b hb => by rw [isBlank_eq_false_iff.mpr (htok b hb)]; rfl)
    fun b hb => by rw [isBlank_iff.mpr (hrest b hb)]; rfl

end

/-- A line that has a first token is not empty. -/
theorem ne_nil_of_firstToken {line tok : List Byte} (h : firstToken line = tok) (ht : tok ≠ []) : line ≠ [] := by
  rintro rfl
  exact ht h.symm

/-! ## Quotes (R82) -/

theorem dropLeadQuote_of_head?_ne {l : List Byte} (h : l.head? ≠ some quote) : dropLeadQuote l = l := by
  cases l with
  | nil => rfl
  | cons b l => exact if_neg fun hb => h (congrArg some hb)

theorem unquote_of_quote_last {l name : List Byte} (h : dropLeadQuote l = name ++ [quote]) : unquote l = name := by
  simp [unquote, h]

theorem unquote_of_no_quote_last {l name : List Byte} (h : dropLeadQuote l = name) (hl : name.getLast? ≠ some quote) :
    unquote l = name := by
  subst h
  exact if_neg hl

theorem unquote_append_quote {name : List Byte} (h : name.head? ≠ some quote) : unquote (name ++ [quote]) = name := by
  cases name with
  | nil => rfl
  | cons b name => exact unquote_of_quote_last (dropLeadQuote_of_head?_ne h)

end Sys2Proof
end

section
/-!
Digits (R80, R81, R82): which bytes are digits, and the numbers and bytes that strings of them spell.
-/

namespace Sys2Proof

theorem hexDigit?_eq_some_iff (b : Byte) (d : Nibble) : hexDigit? b = some d ↔
    (d.toNat < 10 ∧ b.toNat = 0x30 + d.toNat) ∨
      (10 ≤ d.toNat ∧ (b.toNat = 0x41 + (d.toNat - 10) ∨ b.toNat = 0x61 + (d.toNat - 10))) := by
  have hb := b.isLt
  have hd := d.isLt
  simp only [hexDigit?, BitVec.le_def, BitVec.reduceToNat]
  split_ifs with decimal upper lower
  case neg => simp only [false_iff]; omega
  all_goals
    rw [Option.some_inj, ← BitVec.toNat_inj, BitVec.toNat_setWidth, BitVec.toNat_sub]
    simp only [BitVec.reduceToNat]
    omega

theorem hexDigits?_cons (b : Byte) (row : List Byte) :
    hexDigits? (b :: row) = (hexDigit? b).bind fun d => (hexDigits? row).map (d :: ·) := by
  rw [hexDigits?]
  cases hexDigit? b <;> cases hexDigits? row <;> rfl

/-- Every byte is a digit, and the digits are their values. -/
theorem hexDigits?_eq_some_iff_map {row : List Byte} {digits : List Nibble} :
    hexDigits? row = some digits ↔ row.map hexDigit? = digits.map some := by
  induction row generalizing digits with
  | nil => cases digits <;> simp [hexDigits?]
  | cons b row ih =>
    cases digits with
    | nil => simp [hexDigits?_cons, Option.bind_eq_some_iff]
    | cons d digits =>
      rw [List.map_cons, List.map_cons, List.cons.injEq, ← ih]
      simp [hexDigits?_cons, Option.bind_eq_some_iff]

theorem length_of_hexDigits? {row : List Byte} {digits : List Nibble} (h : hexDigits? row = some digits) :
    digits.length = row.length := by
  simpa using (congrArg List.length (hexDigits?_eq_some_iff_map.mp h)).symm

theorem hexDigits?_eq_some_iff {row : List Byte} {digits : List Nibble} : hexDigits? row = some digits ↔
    digits.length = row.length ∧ ∀ (k : Nat) (b : Byte), row[k]? = some b → hexDigit? b = digits[k]? := by
  constructor
  · intro h
    refine ⟨length_of_hexDigits? h, fun k b hk => ?_⟩
    obtain ⟨hlt, -⟩ := List.getElem?_eq_some_iff.mp hk
    rw [← length_of_hexDigits? h] at hlt
    have hmap : (row.map hexDigit?)[k]? = (digits.map some)[k]? := by rw [hexDigits?_eq_some_iff_map.mp h]
    simpa [hk, List.getElem?_eq_getElem hlt] using hmap
  · rintro ⟨hlen, hdig⟩
    refine hexDigits?_eq_some_iff_map.mpr (List.ext_getElem (by simp [hlen]) fun k hr hd => ?_)
    rw [List.length_map] at hr hd
    simp [hdig k row[k] (List.getElem?_eq_getElem hr)]

theorem ne_colon_of_hexDigits? {row : List Byte} {digits : List Nibble} (h : hexDigits? row = some digits) :
    ∀ b ∈ row, b ≠ colon := by
  rintro b hb rfl
  have hmem : hexDigit? colon ∈ digits.map some := hexDigits?_eq_some_iff_map.mp h ▸ List.mem_map_of_mem hb
  have hnone : hexDigit? colon = none := rfl
  rw [hnone] at hmem
  simp at hmem

theorem hexValue_append_singleton (ds : List Nibble) (d : Nibble) :
    hexValue (ds ++ [d]) = 16 * hexValue ds + d.toNat := by
  simp only [hexValue, List.foldl_append, List.foldl_cons, List.foldl_nil]

theorem hexValue_lt (ds : List Nibble) : hexValue ds < 16 ^ ds.length := by
  induction ds using List.reverseRecOn with
  | nil => decide
  | append_singleton ds d ih =>
    have hd := d.isLt
    rw [hexValue_append_singleton, List.length_append, List.length_singleton, Nat.pow_succ]
    omega

theorem length_pairDigits : ∀ ds : List Nibble, (pairDigits ds).length = ds.length / 2
  | [] => rfl
  | [_] => by simp [pairDigits]
  | h :: l :: rest => by
    rw [pairDigits, List.length_cons, length_pairDigits rest, List.length_cons, List.length_cons]
    omega

theorem getElem?_pairDigits {ds : List Nibble} {j : Nat} {h l : Nibble} (hh : ds[2 * j]? = some h)
    (hl : ds[2 * j + 1]? = some l) : (pairDigits ds)[j]? = some (h ++ l) := by
  induction j generalizing ds with
  | zero =>
    obtain _ | ⟨a, _ | ⟨b, rest⟩⟩ := ds
    · cases hh
    · cases hl
    · cases hh; cases hl; rfl
  | succ j ih =>
    obtain _ | ⟨a, _ | ⟨b, rest⟩⟩ := ds
    · cases hh
    · cases hh
    · rw [pairDigits, List.getElem?_cons_succ, ih hh hl]

/-- A decimal digit (R82). -/
abbrev DecimalDigit (b : Byte) : Prop := 0x30 ≤ b.toNat ∧ b.toNat ≤ 0x39

theorem decDigit?_eq (b : Byte) : decDigit? b = if DecimalDigit b then some (b.toNat - 0x30) else none := by
  unfold decDigit?
  refine if_ctx_congr ?_ (fun h => ?_) fun _ => rfl
  · simp [BitVec.le_def]
  · rw [BitVec.toNat_sub_of_le (by simp [BitVec.le_def, h.1])]; rfl

/-- The number digits spell, going on from `acc`. -/
abbrev decimalValue (acc : Nat) (bs : List Byte) : Nat := bs.foldl (fun v b => 10 * v + (b.toNat - 0x30)) acc

theorem decValue?_eq (acc : Nat) (bs : List Byte) :
    decValue? acc bs = if ∀ b ∈ bs, DecimalDigit b then some (decimalValue acc bs) else none := by
  induction bs generalizing acc with
  | nil => rfl
  | cons b bs ih =>
    rw [decValue?, decDigit?_eq]
    by_cases hb : DecimalDigit b
    · simp only [if_pos hb, ih, List.forall_mem_cons, and_iff_right hb, List.foldl_cons]
    · rw [if_neg hb, if_neg fun h => hb (h b List.mem_cons_self)]

theorem decodeCode_eq_some {rest tok : List Byte} (ht : tok = firstToken (trimStart rest)) (hne : tok ≠ [])
    (hd : ∀ b ∈ tok, DecimalDigit b) (hv : decimalValue 0 tok < 2 ^ 32) :
    decodeCode rest = some (BitVec.ofNat 32 (decimalValue 0 tok)) := by
  simp only [decodeCode, ← ht, List.isEmpty_iff, if_neg hne, decValue?_eq, if_pos hd, if_pos hv]

theorem decodeCode_eq_none {rest tok : List Byte} (ht : tok = firstToken (trimStart rest))
    (h : ¬ (tok ≠ [] ∧ ∀ b ∈ tok, DecimalDigit b) ∨ 2 ^ 32 ≤ decimalValue 0 tok) : decodeCode rest = none := by
  simp only [decodeCode, ← ht, List.isEmpty_iff, decValue?_eq]
  by_cases hne : tok = []
  · rw [if_pos hne]
  · rw [if_neg hne]
    by_cases hd : ∀ b ∈ tok, DecimalDigit b
    · have hv : ¬ decimalValue 0 tok < 2 ^ 32 := Nat.not_lt.mpr (h.resolve_left (not_not.mpr ⟨hne, hd⟩))
      simp only [if_pos hd, if_neg hv]
    · simp only [if_neg hd]

end Sys2Proof
end

section
/-!
From a raw line to its class (R80, R82): a stripped line that is not empty is decoded by its place; one equation per class
of structured text.
-/

namespace Sys2Proof

theorem decodeText_line {raw : List Byte} (hf : lineFeed ∉ raw) (hne : stripLine raw ≠ [])
    (k : List Byte → Except Reject Instr) : decodeText raw k = k (stripLine raw) := by
  simp only [decodeText, List.contains_iff_mem, List.isEmpty_iff, if_neg hf, if_neg hne]

theorem decodeText_blank {raw : List Byte} (hf : lineFeed ∉ raw) (he : stripLine raw = [])
    (k : List Byte → Except Reject Instr) : decodeText raw k = .error .emptyLine := by
  simp only [decodeText, List.contains_iff_mem, List.isEmpty_iff, if_neg hf, if_pos he]

theorem decode_hexText_line {raw : List Byte} (hf : lineFeed ∉ raw) (hne : stripLine raw ≠ []) :
    decode .hexText raw = decodeHexLine (stripLine raw) := by
  rw [decode, decodeText_line hf hne]

theorem decode_bdfText_line {raw : List Byte} (hf : lineFeed ∉ raw) (hne : stripLine raw ≠ []) (st : PState) :
    decode (.bdfText st) raw = .ok (decodeBdfLine st (stripLine raw)) := by
  rw [decode, decodeText_line hf hne]

section

variable {line : List Byte}

theorem decodeBdfLine_charset (h : firstToken line = kwCharset) :
    decodeBdfLine .scanning line = .bdfCharset (unquote (trim (afterToken line))) := if_pos h

theorem decodeBdfLine_encoding (h : firstToken line = kwEncoding) :
    decodeBdfLine .scanning line = .bdfEncoding (decodeCode (afterToken line)) := by
  simp only [decodeBdfLine, h]; rfl

theorem decodeBdfLine_bitmap (h : firstToken line = kwBitmap) : decodeBdfLine .scanning line = .bdfBitmap := by
  simp only [decodeBdfLine, h]; rfl

theorem decodeBdfLine_other (h1 : firstToken line ≠ kwCharset) (h2 : firstToken line ≠ kwEncoding)
    (h3 : firstToken line ≠ kwBitmap) : decodeBdfLine .scanning line = .bdfOther := by
  simp only [decodeBdfLine, if_neg h1, if_neg h2, if_neg h3]

theorem decodeBdfLine_endchar (h : firstToken line = kwEndchar) : decodeBdfLine .inBitmap line = .bdfEndchar := if_pos h

theorem decodeBdfLine_row (h : firstToken line ≠ kwEndchar) :
    decodeBdfLine .inBitmap line = .bdfRow (hexDigits? line) := if_neg h

end

/-! ## The statements -/

/-- Settles O2: each word is decoded. -/
theorem specWordsDecodeToTheirInstructions : Obligations.SpecWordsDecodeToTheirInstructions := by
  unfold Obligations.SpecWordsDecodeToTheirInstructions
  decide

/-- Settles O4: the scans, the quotes and the digits each by their lemma; a line's class by its first token. -/
theorem textLineClassFollowsFirstTokenAndState : Obligations.TextLineClassFollowsFirstTokenAndState := by
  unfold Obligations.TextLineClassFollowsFirstTokenAndState
  refine ⟨rfl, rfl, rfl, rfl, fun tok rest htok hrest => ⟨firstToken_append htok hrest, afterToken_append htok hrest⟩,
    fun lead body tail => trim_eq_of_trimmed, fun name => ⟨fun hh => ?_, ?_, ?_, unquote_append_quote⟩,
    fun row digits => hexDigits?_eq_some_iff, fun raw hf hne => ?line⟩
  · exact unquote_of_no_quote_last (dropLeadQuote_of_head?_ne hh)
  · exact unquote_of_quote_last rfl
  · exact unquote_of_no_quote_last rfl
  case line =>
    simp only [decode_bdfText_line hf hne, Except.ok.injEq]
    exact ⟨decodeBdfLine_charset, decodeBdfLine_encoding, decodeBdfLine_bitmap, decodeBdfLine_other,
      decodeBdfLine_endchar, decodeBdfLine_row⟩

/-- Settles O60: the operand is the code `decodeCode` reads from the second token. -/
theorem encodingOperandIsADecimalCode : Obligations.EncodingOperandIsADecimalCode := by
  unfold Obligations.EncodingOperandIsADecimalCode
  refine ⟨fun lead rest => trimStart_blanks_append, fun raw hf hkw tok htok => ?_⟩
  have hne : stripLine raw ≠ [] := ne_nil_of_firstToken hkw (by decide)
  have hline : decode (.bdfText .scanning) raw = .ok (.bdfEncoding (decodeCode (afterToken (stripLine raw)))) := by
    rw [decode_bdfText_line hf hne, decodeBdfLine_encoding hkw]
  rw [hline]
  exact ⟨fun ⟨ht, hd⟩ hv => by rw [decodeCode_eq_some htok ht hd hv], fun h => by rw [decodeCode_eq_none htok h]⟩

end Sys2Proof
end

section
/-!
Hex-row lines (R81, R159): the form the decoder accepts, and that it accepts no other.
-/

namespace Sys2Proof

/-- The accepted form `C:P` of a hex-row line, with the digits of its two parts (R81). -/
structure HexForm (line cs ps : List Byte) (ds es : List Nibble) : Prop where
  line_eq : line = cs ++ colon :: ps
  code : hexDigits? cs = some ds
  payload : hexDigits? ps = some es
  code_pos : 1 ≤ cs.length
  code_le : cs.length ≤ 8
  payload_length : ps.length = 32 ∨ ps.length = 64

theorem decodeHexLine_of_form {line cs ps : List Byte} {ds es : List Nibble} (h : HexForm line cs ps ds es) :
    decodeHexLine line = .ok (.hexLine (BitVec.ofNat 32 (hexValue ds)) (pairDigits es)) := by
  obtain ⟨rfl, hcs, hps, hpos, hle, hlen⟩ := h
  have hscan : ∀ b ∈ cs, (b != colon) = true := fun b hb => bne_iff_ne.mpr (ne_colon_of_hexDigits? hcs b hb)
  have hstop : ∀ b ∈ (colon :: ps).head?, (b != colon) = false := by rintro _ ⟨⟩; rfl
  rw [← length_of_hexDigits? hcs] at hpos hle
  rw [← length_of_hexDigits? hps] at hlen
  simp only [decodeHexLine, dropWhile_append_of_stop hscan hstop, takeWhile_append_of_stop hscan hstop, hcs,
    hps, if_pos (And.intro hpos (And.intro hle hlen))]

theorem HexForm.line_ne_nil {line cs ps : List Byte} {ds es : List Nibble} (h : HexForm line cs ps ds es) : line ≠ [] := by
  rw [h.line_eq]
  exact List.append_ne_nil_of_right_ne_nil cs (List.cons_ne_nil colon ps)

/-- At most eight digits spell a 32-bit number. -/
theorem HexForm.code_toNat {line cs ps : List Byte} {ds es : List Nibble} (h : HexForm line cs ps ds es) :
    (BitVec.ofNat 32 (hexValue ds)).toNat = hexValue ds := by
  have hle : ds.length ≤ 8 := length_of_hexDigits? h.code ▸ h.code_le
  exact Nat.mod_eq_of_lt ((hexValue_lt ds).trans_le (Nat.pow_le_pow_right (by decide) hle))

theorem HexForm.two_mul_payload_length {line cs ps : List Byte} {ds es : List Nibble}
    (h : HexForm line cs ps ds es) : 2 * (pairDigits es).length = ps.length := by
  rw [length_pairDigits, length_of_hexDigits? h.payload]
  have := h.payload_length
  omega

/-- A line with a colon falls into the parts the decoder looks at. -/
theorem eq_append_colon_of_dropWhile {line p : List Byte} {b : Byte} (h : line.dropWhile (· != colon) = b :: p) :
    line = line.takeWhile (· != colon) ++ colon :: p := by
  have hb : b = colon := by
    have hstop := List.head?_dropWhile_not (· != colon) line
    rw [h] at hstop
    simpa using hstop
  subst hb
  rw [← h, List.takeWhile_append_dropWhile]

theorem decodeHexLine_of_no_form {line : List Byte} (h : ¬ ∃ cs ps ds es, HexForm line cs ps ds es) :
    decodeHexLine line = .error .unrecognisedLine := by
  unfold decodeHexLine
  split
  · rfl
  · next p hdrop =>
    split
    · next cs ps hcs hps =>
      refine if_neg fun ⟨hpos, hle, hlen⟩ => h ⟨_, _, _, _, eq_append_colon_of_dropWhile hdrop, hcs, hps, ?_, ?_, ?_⟩
      · rwa [← length_of_hexDigits? hcs]
      · rwa [← length_of_hexDigits? hcs]
      · rwa [← length_of_hexDigits? hps]
    · rfl

/-- Settles O59: the accepted form decodes to its digits' numbers, and a line without the form is rejected. -/
theorem hexLineIsAcceptedInItsOneForm : Obligations.HexLineIsAcceptedInItsOneForm := by
  unfold Obligations.HexLineIsAcceptedInItsOneForm
  refine ⟨rfl, rfl, fun lead body tail hblank hbody => ⟨?withReturn, fun hr => ?withoutReturn⟩, hexDigit?_eq_some_iff, rfl,
    hexValue_append_singleton, fun raw hf => ?lines⟩
  case withReturn => rw [stripLine, dropReturn_append_return, trim_eq_of_trimmed hblank hbody]
  case withoutReturn => rw [stripLine, dropReturn_of_getLast?_ne hr, trim_eq_of_trimmed hblank hbody]
  case lines =>
    intro digits accepted
    have hform (cs ps ds es) : accepted cs ps ds es ↔ HexForm (stripLine raw) cs ps ds es :=
      ⟨fun ⟨hl, hc, hp, hpos, hle, hlen⟩ =>
        ⟨hl, hexDigits?_eq_some_iff.mpr hc, hexDigits?_eq_some_iff.mpr hp, hpos, hle, hlen⟩,
      fun h => ⟨h.line_eq, hexDigits?_eq_some_iff.mp h.code, hexDigits?_eq_some_iff.mp h.payload, h.code_pos,
        h.code_le, h.payload_length⟩⟩
    refine ⟨fun he => decodeText_blank hf he _, fun cs ps ds es ha => ?_, fun hne hno => ?_⟩
    · have h := (hform cs ps ds es).mp ha
      refine ⟨_, _, ?_, h.code_toNat, h.two_mul_payload_length, fun _ _ _ => getElem?_pairDigits⟩
      rw [decode_hexText_line hf h.line_ne_nil, decodeHexLine_of_form h]
    · rw [decode_hexText_line hf hne]
      refine decodeHexLine_of_no_form fun ⟨cs, ps, ds, es, h⟩ => hno ⟨cs, ps, ds, es, (hform ..).mpr h⟩

end Sys2Proof
end

section
/-!
Commands (R60, R61): the START write's command, what START sets and keeps; and the charset line (R83, R166).
-/

namespace Sys2Proof.Machine

/-! ## Frames of the state's operations -/

theorem othersKept_setGbc (s : State) (u : Gbc) : OthersKept .gbc s (s.setGbc u) :=
  othersKept_graft .gbc (s.setGbc u) s

/-- START writes its own unit only: it is the graft of that unit (R2, R61). -/
theorem othersKept_start (s : State) (u : UnitId) : OthersKept u s (s.start u) := by
  have hg := State.start_graft u s s
  rw [State.graft_self] at hg
  exact hg ▸ othersKept_graft u (s.start u) s

/-! ## Commands -/

/-- The host's turn with a START pulse runs the command its code names (R60). -/
theorem agentStep_host_start {s : State} {w : RegWrite} {u : UnitId} {rest : List HostAction} {i : Instr}
    (hs : s.host = .write w :: rest) (hw : w.startOf = some u) (hi : decodeCommand (commandCode s u) = i) :
    agentStep .host s = exec i { s with host := rest } := by
  rw [agentStep, fetch, fetchHost_start hs hw, runFetched_run, hi]

/-- A write of 0 to a START register pulses no unit and changes nothing (R61). -/
theorem agentStep_host_noPulse {s : State} {w : RegWrite} {rest : List HostAction} (hs : s.host = .write w :: rest)
    (hw : w.isStart = true) (h0 : w.startOf = none) : agentStep .host s = .next { s with host := rest } := by
  simp only [agentStep, fetch, fetchHost, hs, h0, runFetched_other, hostAction, hw, if_true]

/-- Settles O5: the codes are evaluated; the host's turn runs the command of its pulse's code. -/
theorem startWriteRunsTheCommand : Obligations.StartWriteRunsTheCommand := by
  unfold Obligations.StartWriteRunsTheCommand
  refine ⟨by decide, rfl, rfl, rfl, rfl, fun s rest => ⟨fun hs => agentStep_host_start hs rfl ?lzd,
    fun hs => agentStep_host_start hs rfl ?tiu, fun hs => agentStep_host_start hs rfl ?ssr, fun hs => ?gbc⟩⟩
  case lzd | tiu | ssr => rw [commandCode]; rfl
  have hgbc {m : BitVec 2} {i : Instr} (hi : decodeCommand ((0b10 : BitVec 2) ++ m) = i) (hm : s.gbc.mode = m) :
      agentStep .host s = exec i { s with host := rest } :=
    agentStep_host_start hs rfl (by rw [commandCode, hm, hi])
  exact ⟨hgbc rfl, hgbc rfl, hgbc rfl, hgbc rfl⟩

/-- A GBC command met with its own mode in MODE is GBC's START (R60, log entry 9). -/
theorem exec_gbcCommand {s : State} {c : Instr}
    (h : (c = .gbcDecode ∧ s.gbc.mode = 0) ∨ (c = .gbcEncHex ∧ s.gbc.mode = 1) ∨ (c = .gbcEncBdf ∧ s.gbc.mode = 2) ∨
      (c = .gbcReserved ∧ s.gbc.mode = 3)) : exec c s = .next (s.start .gbc) := by
  rw [← State.startGbc_mode]
  obtain ⟨rfl, hm⟩ | ⟨rfl, hm⟩ | ⟨rfl, hm⟩ | ⟨rfl, hm⟩ := h <;> (rw [hm]; rfl)

theorem State.startGbc_busy {s : State} (h : s.busy .gbc) (mode : BitVec 2) : s.startGbc mode = s := if_pos h

/-- Settles O6: each command is its unit's START, which writes the one unit; a START while BUSY, and a write of 0, change
nothing. -/
theorem startClearsWorkingRegistersAndSetsBusy : Obligations.StartClearsWorkingRegistersAndSetsBusy := by
  unfold Obligations.StartClearsWorkingRegistersAndSetsBusy
  refine ⟨fun s (h : ¬ s.busy .lzd) => ⟨s.start .lzd, rfl, othersKept_start s .lzd, ?lzd⟩,
    fun s (h : ¬ s.busy .tiu) => ⟨s.start .tiu, rfl, othersKept_start s .tiu, ?tiu⟩,
    fun s c (h : ¬ s.busy .gbc) hc => ⟨s.start .gbc, exec_gbcCommand hc, othersKept_start s .gbc, ?gbc⟩,
    fun s (h : ¬ s.busy .ssr) => ⟨s.start .ssr, rfl, othersKept_start s .ssr, ?ssr⟩,
    fun s => ⟨fun h => ?lzdBusy, fun h => ?tiuBusy, fun h => ?gbcBusy, fun h => ?ssrBusy⟩, fun s w rest hw hs => ?zero⟩
  case lzd | tiu | gbc | ssr => rw [State.start, if_neg h]; rfl
  case lzdBusy => exact congrArg Host.Outcome.next (s.start_busy .lzd h)
  case tiuBusy => exact congrArg Host.Outcome.next (s.start_busy .tiu h)
  case ssrBusy => exact congrArg Host.Outcome.next (s.start_busy .ssr h)
  case gbcBusy =>
    have hgbc (mode : BitVec 2) : Host.Outcome.next (s.startGbc mode) = (.next s : Result) := by
      rw [State.startGbc_busy h]
    exact ⟨hgbc 0, hgbc 1, hgbc 2, hgbc 3⟩
  case zero =>
    obtain rfl | rfl | rfl | rfl := hw <;> exact agentStep_host_noPulse hs rfl rfl

/-! ## The charset line -/

/-- The names that start with `JISX0208` are all of one class (R83). -/
theorem charsetOf_of_jisPrefix {name : List Byte} (h : [0x4A, 0x49, 0x53, 0x58, 0x30, 0x32, 0x30, 0x38] <+: name) :
    charsetOf name = .jisx0208 := by
  obtain ⟨rest, rfl⟩ := h
  rfl

theorem charsetOf_unknown {name : List Byte} (hiso : name ≠ [0x49, 0x53, 0x4F, 0x31, 0x30, 0x36, 0x34, 0x36])
    (hjis : ¬ [0x4A, 0x49, 0x53, 0x58, 0x30, 0x32, 0x30, 0x38] <+: name) : charsetOf name = .unknown := by
  rw [charsetOf, if_neg hiso, if_neg fun h => hjis (List.prefix_iff_eq_take.mpr h.symm)]

/-- Settles O33: the record update touches CHARSET, which takes the class of the name. -/
theorem charsetLineSetsTheClassOfTheName : Obligations.CharsetLineSetsTheClassOfTheName := by
  unfold Obligations.CharsetLineSetsTheClassOfTheName
  intro s name
  exact ⟨s.setGbc { s.gbc with charset := charsetOf name }, rfl, othersKept_setGbc s _, rfl, fun h => h ▸ rfl,
    charsetOf_of_jisPrefix, charsetOf_unknown⟩

end Sys2Proof.Machine
end

section
/-!
LZD's single steps (R101 to R109): what a store keeps, the fetch where a step decodes nothing, the decoding of the
header and of a back-reference, and the move of one copied byte.
-/

namespace Sys2Proof.Machine

/-! ## Frames of LZD's writes -/

theorem othersKept_setLzd (s : State) (u : Lzd) : OthersKept .lzd s (s.setLzd u) :=
  othersKept_graft .lzd (s.setLzd u) s

theorem keptOutside_store (m : Memory) (a : Nat) (bytes : List Byte) :
    KeptOutside m (m.store a bytes) a bytes.length :=
  Memory.read_store_outside m a bytes

theorem keptOutside_zero (m : Memory) (a n : Nat) : KeptOutside m (m.zero a n) a n := by
  have h := keptOutside_store m a (List.replicate n 0)
  rwa [List.length_replicate] at h

@[simp] theorem Memory.read_store_one (m : Memory) (a : Nat) (v : Byte) : (m.store a [v]).read a = some v := by
  simp [Memory.read_store]

/-! ## The decoding of the header and of a back-reference (R62, R65, R106) -/

theorem decode_lzHeader (b0 b1 b2 b3 : Byte) : decode .lzHeader [b0, b1, b2, b3] =
    if b0.extractLsb' 0 4 = 1 then .ok (.lzHdr (b3 ++ b2 ++ b1) (b0.extractLsb' 4 4)) else .error .badTag := by
  have htag : (le32 b0 b1 b2 b3).extractLsb' 0 4 = b0.extractLsb' 0 4 :=
    BitVec.extractLsb'_append_eq_of_add_le (by decide)
  have hsize : (le32 b0 b1 b2 b3).extractLsb' 8 24 = b3 ++ b2 ++ b1 :=
    BitVec.extractLsb'_append_eq_left
  have hignored : (le32 b0 b1 b2 b3).extractLsb' 4 4 = b0.extractLsb' 4 4 :=
    BitVec.extractLsb'_append_eq_of_add_le (by decide)
  simp only [decode, decodeLzHdr, Config.lzTagShift, htag, hsize, hignored]

theorem decode_backref (b1 b2 : Byte) : decode (.lzToken true) [b1, b2] =
    .ok (.copy (b1.extractLsb' 4 4) (b1.extractLsb' 0 4 ++ b2)) := by
  have hlen : (be16 b1 b2).extractLsb' 12 4 = b1.extractLsb' 4 4 :=
    BitVec.extractLsb'_append_eq_of_le (by decide)
  have hdisp : (be16 b1 b2).extractLsb' 0 12 = b1.extractLsb' 0 4 ++ b2 := by
    rw [be16, BitVec.extractLsb'_append_eq_ite]
    simp
  simp only [decode, decodeCopy, hlen, hdisp]

theorem copyLen_eq (l : Nibble) : copyLen l = BitVec.ofNat 5 (l.toNat + 3) := by
  simp only [copyLen, Config.lzMinLen]
  bv_omega

/-! ## The steps of one turn -/

section

variable {s : State}

/-- The header step on four bytes of input (R101). -/
theorem agentStep_lzd_header (hb : s.busy .lzd) (hp : s.lzd.phase = .hdr) (hl : 4 ≤ s.lzd.inLen) {bytes : List Byte}
    (hx : s.lzd.inBuf.load 0 4 = .ok bytes) :
    agentStep (.unit .lzd) s = runFetched (runDecoded .lzHeader bytes s (lzdBadTag s)) := by
  rw [agentStep_lzd hb, fetchLzd_header hp hl, hx, fetchBytes_ok]

theorem agentStep_lzd_full (hb : s.busy .lzd) (hp : s.lzd.phase = .token)
    (ho : s.lzd.size.toNat ≤ s.lzd.outPos.toNat) : agentStep (.unit .lzd) s = lzdStop s := by
  simp only [agentStep_lzd hb, fetchLzd, hp, if_pos ho, runFetched_other]

/-- R105's three ways to run out of input: for a control byte, for a literal, for a back-reference. -/
theorem agentStep_lzd_exhausted (hb : s.busy .lzd) (hp : s.lzd.phase = .token)
    (ho : s.lzd.outPos.toNat < s.lzd.size.toNat)
    (hx : (s.lzd.bitsLeft = 0 ∧ s.lzd.inPos = s.lzd.inLen) ∨
      (s.lzd.bitsLeft ≠ 0 ∧ s.lzd.ctrl.getLsbD 7 = false ∧ s.lzd.inPos = s.lzd.inLen) ∨
      (s.lzd.bitsLeft ≠ 0 ∧ s.lzd.ctrl.getLsbD 7 = true ∧ s.lzd.inLen - s.lzd.inPos < 2)) :
    agentStep (.unit .lzd) s = lzdStop s := by
  have hm : s.lzd.ctrl.msb = s.lzd.ctrl.getLsbD 7 := BitVec.msb_eq_getLsbD_last _
  simp only [agentStep_lzd hb, fetchLzd, hp, if_neg (not_le.mpr ho), hm]
  obtain ⟨h0, hi⟩ | ⟨h0, hc, hi⟩ | ⟨h0, hc, hi⟩ := hx
  case inl => rw [if_pos h0, if_pos hi.ge, runFetched_other]
  case inr.inl => rw [if_neg h0, if_neg (by rw [hc]; nofun), if_pos hi.ge, runFetched_other]
  case inr.inr =>
    have hi' : s.lzd.inLen < s.lzd.inPos + 2 := by omega
    rw [if_neg h0, if_pos hc, if_pos hi', runFetched_other]

theorem agentStep_lzd_copyStep (hb : s.busy .lzd) (hp : s.lzd.phase = .copy) :
    agentStep (.unit .lzd) s = lzdCopyStep s := by
  simp only [agentStep_lzd hb, fetchLzd, hp, runFetched_other]

theorem agentStep_lzd_control (hb : s.busy .lzd) (hp : s.lzd.phase = .token)
    (ho : s.lzd.outPos.toNat < s.lzd.size.toNat) (h0 : s.lzd.bitsLeft = 0) (hi : s.lzd.inPos < s.lzd.inLen) {f : Byte}
    (hx : s.lzd.inBuf.load s.lzd.inPos 1 = .ok [f]) : agentStep (.unit .lzd) s = exec (.lzCtrl f) s :=
  (agentStep_lzd hb).trans (runFetched_read_decoded (fetchLzd_control hp ho h0 hi) hx rfl)

theorem agentStep_lzd_literal (hb : s.busy .lzd) (hp : s.lzd.phase = .token)
    (ho : s.lzd.outPos.toNat < s.lzd.size.toNat) (h0 : s.lzd.bitsLeft ≠ 0) (hc : s.lzd.ctrl.getLsbD 7 = false)
    (hi : s.lzd.inPos < s.lzd.inLen) {b : Byte} (hx : s.lzd.inBuf.load s.lzd.inPos 1 = .ok [b]) :
    agentStep (.unit .lzd) s = exec (.lit b) s :=
  (agentStep_lzd hb).trans (runFetched_read_decoded (fetchLzd_literal hp ho h0 hc hi) hx rfl)

theorem agentStep_lzd_backref (hb : s.busy .lzd) (hp : s.lzd.phase = .token)
    (ho : s.lzd.outPos.toNat < s.lzd.size.toNat) (h0 : s.lzd.bitsLeft ≠ 0) (hc : s.lzd.ctrl.getLsbD 7 = true)
    (hi : s.lzd.inPos + 2 ≤ s.lzd.inLen) {bytes : List Byte} {i : Instr}
    (hx : s.lzd.inBuf.load s.lzd.inPos 2 = .ok bytes) (hd : decode (.lzToken true) bytes = .ok i) :
    agentStep (.unit .lzd) s = exec i s :=
  (agentStep_lzd hb).trans (runFetched_read_decoded (fetchLzd_backref hp ho h0 hc hi) hx hd)

/-- One byte moved forward (R108): the copy is not over, there is room, and the source byte lies in the output. -/
theorem lzdCopyStep_move (hm : s.lzd.outBuf.wf) (h0 : s.lzd.copyLeft ≠ 0) (hroom : s.lzd.outPos ≠ s.lzd.size)
    (hd : s.lzd.copyDisp.toNat < s.lzd.outPos.toNat) {v : Byte}
    (hv : s.lzd.outBuf.read (s.lzd.outPos.toNat - s.lzd.copyDisp.toNat - 1) = some v) :
    lzdCopyStep s = .next (s.setLzd { s.lzd with
      outBuf := s.lzd.outBuf.store s.lzd.outPos.toNat [v]
      outPos := s.lzd.outPos + 1
      copyLeft := s.lzd.copyLeft - 1 }) := by
  simp only [lzdCopyStep, if_neg h0, if_neg hroom, if_neg (not_le.mpr hd), (Memory.load_one _ _ _ hm).mpr hv,
    withBytes_ok]

end

/-! ## The statements -/

/-- Settles O12: the zero fill is the only store, and the tag decides what the four bytes decode to. -/
theorem lzdHeaderStepSetsUpTheOutput : Obligations.LzdHeaderStepSetsUpTheOutput := by
  unfold Obligations.LzdHeaderStepSetsUpTheOutput
  refine ⟨fun s size ignored => ?effect, fun s hb hp => ⟨fun hl => ?short, fun b0 b1 b2 b3 hl hx => ?tested⟩⟩
  case effect =>
    exact ⟨_, rfl, othersKept_setLzd s _, rfl, fun a ha => by simp [ha], keptOutside_zero _ _ _⟩
  case short =>
    simp only [agentStep_lzd hb, fetchLzd, hp, if_pos hl, runFetched_other, lzdShortHeader]
  case tested =>
    have hd := decode_lzHeader b0 b1 b2 b3
    refine ⟨fun htag => ?_, fun htag => ?_⟩
    · rw [if_neg htag] at hd
      exact (agentStep_lzd_header hb hp hl hx).trans (runFetched_decoded_error _ _ hd)
    · rw [if_pos htag] at hd
      exact (agentStep_lzd_header hb hp hl hx).trans (runFetched_decoded_ok _ _ hd)

/-- Settles O13: the first test of the token phase. -/
theorem lzdStopsWhenTheOutputIsFull : Obligations.LzdStopsWhenTheOutputIsFull := by
  unfold Obligations.LzdStopsWhenTheOutputIsFull
  intro s hb hp ho
  exact ⟨s.finish .lzd, agentStep_lzd_full hb hp (ho ▸ Nat.le_refl _), othersKept_setLzd s _, rfl⟩

/-- Settles O14: the record update, and the fetch at the control place. -/
theorem controlByteIsFetchedWhenNoFlagIsLeft : Obligations.ControlByteIsFetchedWhenNoFlagIsLeft := by
  unfold Obligations.ControlByteIsFetchedWhenNoFlagIsLeft
  exact ⟨fun s f => ⟨_, rfl, othersKept_setLzd s _, rfl⟩, fun s f hb hp ho h0 hi hx =>
    agentStep_lzd_control hb hp ho h0 hi hx⟩

/-- Settles O15: the only store is the literal at OUT_POS, and the fetch is the one at the literal place. -/
theorem literalAppendsOneByte : Obligations.LiteralAppendsOneByte := by
  unfold Obligations.LiteralAppendsOneByte
  exact ⟨fun s b => ⟨_, rfl, othersKept_setLzd s _, rfl, Memory.read_store_one _ _ _, keptOutside_store _ _ [b]⟩,
    fun s b hb hp ho h0 hc hi hx => agentStep_lzd_literal hb hp ho h0 hc hi hx⟩

/-- Settles O16: each way to run out of input ends in the stop step; the invariant gives the zero tail. -/
theorem exhaustedInputEndsDoneWithAZeroTail : Obligations.ExhaustedInputEndsDoneWithAZeroTail := by
  unfold Obligations.ExhaustedInputEndsDoneWithAZeroTail
  intro s h hb hp ho hx
  have hp' : s.lzd.phase ≠ .hdr := by rw [hp]; nofun
  refine ⟨s.finish .lzd, agentStep_lzd_exhausted hb hp ho hx, othersKept_setLzd s _, rfl, ?truncated,
    h.lzd.tail_zero hp'⟩
  simpa [State.truncated, BitVec.lt_def] using ho

/-- Settles O17: COPY tests the displacement against OUT_POS; the fetch is the one at the back-reference place. -/
theorem backReferenceIsDecodedOrFaults : Obligations.BackReferenceIsDecodedOrFaults := by
  unfold Obligations.BackReferenceIsDecodedOrFaults
  exact ⟨fun s l d hd => ⟨_, if_pos hd, othersKept_setLzd s _, by rw [State.setLzd_lzd, copyLen_eq]⟩,
    fun s l d hd => ⟨_, if_neg (not_lt.mpr hd), othersKept_setLzd s _, rfl⟩,
    fun s b1 b2 hb hp ho h0 hc hi hx => agentStep_lzd_backref hb hp ho h0 hc hi hx (decode_backref b1 b2)⟩

/-- Settles O18: the copy step's tests in their order. -/
theorem copyStepMovesOneByteForward : Obligations.CopyStepMovesOneByteForward := by
  unfold Obligations.CopyStepMovesOneByteForward
  intro s hb hp
  rw [agentStep_lzd_copyStep hb hp]
  refine ⟨fun h0 => ⟨_, if_pos h0, othersKept_setLzd s _, rfl⟩,
    fun h0 hfull => ⟨_, (if_neg h0).trans (if_pos hfull), othersKept_setLzd s _, rfl⟩,
    fun v hm h0 hroom hd hv => ?move⟩
  exact ⟨_, lzdCopyStep_move hm h0 hroom hd hv, othersKept_setLzd s _, rfl, Memory.read_store_one _ _ _,
    keptOutside_store _ _ [v]⟩

/-! ## Progress (R112) -/

/-- R112 for one step from `s` to `t`: the operation ends, or the cursors' sum rises below its bound, or a copy ends
and moves neither cursor. -/
def LzdProgress (s t : State) : Prop :=
  s.lzd.inPos ≤ t.lzd.inPos ∧
    (t.ended .lzd ∨
      (t.lzd.inPos + t.lzd.outPos.toNat ≤ t.lzd.inLen + t.lzd.size.toNat ∧ t.lzd.inLen = s.lzd.inLen ∧
        t.lzd.size = s.lzd.size ∧
        (s.lzd.inPos + s.lzd.outPos.toNat < t.lzd.inPos + t.lzd.outPos.toNat ∨
          (s.lzd.phase = .copy ∧ s.lzd.copyLeft = 0 ∧ t.lzd.phase = .token ∧ t.lzd.inPos = s.lzd.inPos ∧
            t.lzd.outPos = s.lzd.outPos))))

section

variable {s : State}

/-- A step that ends the operation. -/
theorem LzdProgress.of_done {u : Lzd} (hi : s.lzd.inPos ≤ u.inPos)
    (hu : u.shell.status = .done ∨ u.shell.status = .error) : LzdProgress s (s.setLzd u) := ⟨hi, .inl hu⟩

/-- A step that moves a cursor and stays in bounds. -/
theorem LzdProgress.of_lt {u : Lzd} (hi : s.lzd.inPos ≤ u.inPos) (hl : u.inLen = s.lzd.inLen)
    (hz : u.size = s.lzd.size) (hle : u.inPos + u.outPos.toNat ≤ s.lzd.inLen + s.lzd.size.toNat)
    (hlt : s.lzd.inPos + s.lzd.outPos.toNat < u.inPos + u.outPos.toNat) : LzdProgress s (s.setLzd u) :=
  ⟨hi, .inr ⟨by simp only [State.setLzd_lzd, hl, hz, hle], hl, hz, .inl hlt⟩⟩

theorem toNat_add_one_of_toNat_lt {p q : BitVec 24} (h : p.toNat < q.toNat) : (p + 1).toNat = p.toNat + 1 := by
  bv_omega

theorem lzdCopyStep_progress (h : Inv s) (hb : s.busy .lzd) (hp : s.lzd.phase = .copy) :
    Ensures (LzdProgress s) (lzdCopyStep s) := by
  have hin : s.lzd.inPos ≤ s.lzd.inLen := h.lzd.inPos_le hb
  have hout := h.lzd.outPos_le
  refine .ite (fun h0 => ?run_over) fun h0 => .ite (fun _ => .of_done (Nat.le_refl _) (.inl rfl)) fun hroom =>
    .ite (fun _ => trivial) fun _ => .withBytes fun bytes hx => ?move
  case run_over =>
    refine ⟨Nat.le_refl _, .inr ⟨?_, rfl, rfl, .inr ⟨hp, h0, rfl, rfl, rfl⟩⟩⟩
    simp only [State.setLzd_lzd]
    omega
  case move =>
    have ho : s.lzd.outPos.toNat < s.lzd.size.toNat := by bv_omega
    have hsucc := toNat_add_one_of_toNat_lt ho
    exact .of_lt (Nat.le_refl _) rfl rfl (by dsimp only; omega) (by dsimp only; omega)

theorem LzdTurn.progress {o : Result} (ho : LzdTurn s o) (h : Inv s) (hb : s.busy .lzd) (hp : s.lzd.phase ≠ .hdr) :
    Ensures (LzdProgress s) o := by
  have hin : s.lzd.inPos ≤ s.lzd.inLen := h.lzd.inPos_le hb
  have hout := h.lzd.outPos_le
  cases ho with
  | unwritten a => trivial
  | shortHeader hh | badTag hh | header size ignored hh => exact absurd hh hp
  | stop => exact .of_done (Nat.le_refl _) (.inl rfl)
  | control flags _ ho _ hi => exact .of_lt (Nat.le_succ _) rfl rfl (by dsimp only; omega) (by dsimp only; omega)
  | literal d _ ho _ hi =>
    have hsucc := toNat_add_one_of_toNat_lt ho
    exact .of_lt (Nat.le_succ _) rfl rfl (by dsimp only; omega) (by dsimp only; omega)
  | backref l d _ ho _ hi =>
    exact .ite (fun _ => .of_lt (Nat.le_add_right _ 2) rfl rfl (by dsimp only; omega) (by dsimp only; omega))
      fun _ => .of_done (Nat.le_add_right _ 2) (.inr rfl)
  | copyStep hc => exact lzdCopyStep_progress h hb hc

end

/-- Settles O20: a case per outcome of LZD's turn. -/
theorem lzdStepsMakeProgress : Obligations.LzdStepsMakeProgress := by
  unfold Obligations.LzdStepsMakeProgress
  intro s t h hb hp ht
  have hturn : Ensures (LzdProgress s) (runFetched (fetchLzd s)) := (fetchLzd_turn s).progress h hb hp
  exact hturn.of_next ((agentStep_lzd hb).symm.trans ht)

end Sys2Proof.Machine
end

section
/-!
A whole copy (R108, R113, R255): by induction on the bytes left to copy, each copy step appends what the reference
builder appends. First what block reads say of appended bytes, and what a run of one unit leaves alone.
-/

namespace Sys2Proof.Machine

/-! ## Block reads of appended bytes -/

theorem Memory.load_zero (m : Memory) (a : Nat) : m.load a 0 = .ok [] := by
  cases m <;> rfl

section

variable {m : Memory} (hm : m.wf)
include hm

theorem Memory.read_of_load {a n k : Nat} {bytes : List Byte} (h : m.load a n = .ok bytes) (hk : k < n) :
    m.read (a + k) = bytes[k]? :=
  ((Memory.load_eq_ok m a n bytes hm).mp h).2 k hk

theorem Memory.load_append_left {a n : Nat} {xs ys : List Byte} (h : m.load a n = .ok (xs ++ ys)) :
    m.load a xs.length = .ok xs := by
  obtain ⟨hl, hr⟩ := (Memory.load_eq_ok m a n _ hm).mp h
  refine (Memory.load_eq_ok m a _ xs hm).mpr ⟨rfl, fun k hk => ?_⟩
  rw [List.length_append] at hl
  rw [hr k (by omega), List.getElem?_append_left hk]

theorem Memory.load_append_right {a n : Nat} {xs ys : List Byte} (h : m.load a n = .ok (xs ++ ys)) :
    m.load (a + xs.length) (n - xs.length) = .ok ys := by
  obtain ⟨hl, hr⟩ := (Memory.load_eq_ok m a n _ hm).mp h
  rw [List.length_append] at hl
  refine (Memory.load_eq_ok m _ _ ys hm).mpr ⟨by omega, fun k hk => ?_⟩
  rw [Nat.add_assoc, hr _ (by omega), List.getElem?_append_right (by omega), Nat.add_sub_cancel_left]

/-- One byte stored after the bytes read extends the block. -/
theorem Memory.load_store_append_one {n : Nat} {bytes : List Byte} (h : m.load 0 n = .ok bytes) (v : Byte) :
    (m.store n [v]).load 0 (n + 1) = .ok (bytes ++ [v]) := by
  have hl : bytes.length = n := Memory.load_length m 0 n bytes h
  refine (Memory.load_eq_ok _ _ _ _ (Memory.store_wf m n [v] hm)).mpr ⟨by simp [hl], fun k hk => ?_⟩
  rw [Nat.zero_add]
  obtain hk | rfl : k < n ∨ k = n := by omega
  · have hr := Memory.read_of_load hm h hk
    rw [Nat.zero_add] at hr
    rw [Memory.read_store_outside m n [v] k (.inl hk), hr, List.getElem?_append_left (hl ▸ hk)]
  · rw [Memory.read_store_one, ← hl, List.getElem?_concat_length]

end

/-! ## Runs of one unit -/

theorem OthersKept.refl (u : UnitId) (s : State) : OthersKept u s s :=
  ⟨fun _ => rfl, fun _ => rfl, fun _ => rfl, fun _ => rfl, rfl, rfl, rfl⟩

theorem OthersKept.trans {u : UnitId} {s t r : State} (h : OthersKept u s t) (h' : OthersKept u t r) :
    OthersKept u s r := by
  obtain ⟨h1, h2, h3, h4, h5, h6, h7⟩ := h
  obtain ⟨h1', h2', h3', h4', h5', h6', h7'⟩ := h'
  exact ⟨fun hu => (h1' hu).trans (h1 hu), fun hu => (h2' hu).trans (h2 hu), fun hu => (h3' hu).trans (h3 hu),
    fun hu => (h4' hu).trans (h4 hu), h5'.trans h5, h6'.trans h6, h7'.trans h7⟩

/-- What every step of a unit keeps, a run of it keeps. -/
theorem unitSteps_induction {P : State → Prop} {u : UnitId}
    (hstep : ∀ s t, agentStep (.unit u) s = .next t → P s → P t) {n : Nat} {s t : State}
    (h : unitSteps u n s = .next t) (hs : P s) : P t := by
  induction n generalizing s with
  | zero => cases h; exact hs
  | succ n ih =>
    obtain ⟨s1, h1, h2⟩ := andThen_eq_next h
    exact ih h2 (hstep s s1 h1 hs)

theorem unitSteps_frame {u : UnitId} {n : Nat} {s t : State} (h : unitSteps u n s = .next t) : OthersKept u s t :=
  unitSteps_induction (P := OthersKept u s) (fun _ _ h1 hk => hk.trans (agentStep_unit_frame h1)) h
    (OthersKept.refl u s)

theorem unitSteps_keepsInv {u : UnitId} {n : Nat} {s t : State} (h : unitSteps u n s = .next t) (hs : Inv s) : Inv t :=
  unitSteps_induction (fun _ _ h1 hi => (agentStep_keepsInv hi _).of_next h1) h hs

theorem unitSteps_keepsInputs {u : UnitId} {n : Nat} {s t : State} (h : unitSteps u n s = .next t) :
    t.inputs = s.inputs :=
  unitSteps_induction (P := fun r => r.inputs = s.inputs)
    (fun _ _ h1 hk => ((agentStep_unit_keepsInputs u).of_next h1).trans hk) h rfl

theorem unitSteps_succ {u : UnitId} {n : Nat} {s t : State} (h : agentStep (.unit u) s = .next t) :
    unitSteps u (n + 1) s = unitSteps u n t := by
  rw [unitSteps, h, andThen_next]

/-! ## The copy -/

/-- A copy whose source lies in the output has a byte to append at each step. -/
theorem getElem?_copySource {out : List Byte} {d : Nat} (h : d < out.length) :
    ∃ v, out[out.length - d - 1]? = some v :=
  ⟨_, List.getElem?_eq_getElem (by omega)⟩

theorem length_appendCopy (n : Nat) {d : Nat} {out : List Byte} (h : d < out.length) :
    (appendCopy n d out).length = out.length + n := by
  induction n generalizing out with
  | zero => rfl
  | succ n ih =>
    obtain ⟨v, hv⟩ := getElem?_copySource h
    have hl : (out ++ [v]).length = out.length + 1 := by simp
    rw [appendCopy, hv, Option.toList_some, ih (by omega), hl]
    omega

/-- The copy steps of a back-reference that fits, from any point of the copy on. -/
theorem copyRun (n : Nat) (s : State) (out : List Byte) (h : Inv s) (hb : s.busy .lzd) (hp : s.lzd.phase = .copy)
    (hn : s.lzd.copyLeft.toNat = n) (hfit : s.lzd.outPos.toNat + n ≤ s.lzd.size.toNat)
    (hout : s.lzd.outBuf.load 0 s.lzd.outPos.toNat = .ok out) :
    ∃ t, unitSteps .lzd n s = .next t ∧
      t.lzd = { s.lzd with
        outPos := s.lzd.outPos + s.lzd.copyLeft.setWidth 24, copyLeft := 0, outBuf := t.lzd.outBuf } ∧
      t.lzd.outBuf.load 0 t.lzd.outPos.toNat = .ok (appendCopy n s.lzd.copyDisp.toNat out) ∧
      KeptOutside s.lzd.outBuf t.lzd.outBuf s.lzd.outPos.toNat n := by
  induction n generalizing s out with
  | zero =>
    have h0 : s.lzd.copyLeft = 0 := BitVec.eq_of_toNat_eq hn
    have hpos : s.lzd.outPos + s.lzd.copyLeft.setWidth 24 = s.lzd.outPos := by simp [h0]
    exact ⟨s, rfl, by rw [hpos, ← h0], hout, fun _ _ => rfl⟩
  | succ n ih =>
    have hm : s.lzd.outBuf.wf := h.mem .lzdOut
    have hd : s.lzd.copyDisp.toNat < s.lzd.outPos.toNat := h.lzd.copyDisp_lt hp
    have hlen : out.length = s.lzd.outPos.toNat := Memory.load_length _ _ _ _ hout
    have h0 : s.lzd.copyLeft ≠ 0 := fun e => by simp [e] at hn
    have hroom : s.lzd.outPos ≠ s.lzd.size := fun e => by rw [e] at hfit; omega
    obtain ⟨v, hv⟩ := getElem?_copySource (hlen ▸ hd)
    have hread : s.lzd.outBuf.read (s.lzd.outPos.toNat - s.lzd.copyDisp.toNat - 1) = some v := by
      have hr := Memory.read_of_load hm hout (show s.lzd.outPos.toNat - s.lzd.copyDisp.toNat - 1 < _ by omega)
      rw [Nat.zero_add] at hr
      rw [hr, ← hlen, hv]
    have hstep := (agentStep_lzd_copyStep hb hp).trans (lzdCopyStep_move hm h0 hroom hd hread)
    have hroom' : s.lzd.outPos.toNat < s.lzd.size.toNat := by omega
    have hpos := toNat_add_one_of_toNat_lt hroom'
    have hleft : (s.lzd.copyLeft - 1).toNat = n := by bv_omega
    obtain ⟨t, ht, hreg, hload, hkept⟩ := ih _ (out ++ [v]) ((agentStep_keepsInv h _).of_next hstep) hb hp hleft
      (show (s.lzd.outPos + 1).toNat + n ≤ s.lzd.size.toNat by omega)
      (hpos ▸ Memory.load_store_append_one hm hout v)
    refine ⟨t, (unitSteps_succ hstep).trans ht, ?registers, ?appended, fun k hk => ?kept⟩
    case registers =>
      have hsum : s.lzd.outPos + 1 + (s.lzd.copyLeft - 1).setWidth 24 = s.lzd.outPos + s.lzd.copyLeft.setWidth 24 := by
        bv_omega
      rw [hreg]
      simp [← hsum]
    case appended =>
      rw [hload, appendCopy, hv, Option.toList_some, State.setLzd_lzd]
    case kept =>
      have hafter : t.lzd.outBuf.read k = (s.lzd.outBuf.store s.lzd.outPos.toNat [v]).read k :=
        hkept k (show k < (s.lzd.outPos + 1).toNat ∨ (s.lzd.outPos + 1).toNat + n ≤ k by omega)
      rw [hafter, Memory.read_store_outside _ _ [v] k (by simp; omega)]

/-- Settles O19: the run of the copy, its frame that of any run of one unit. -/
theorem copyRunAppendsAsTheReferenceBuilder : Obligations.CopyRunAppendsAsTheReferenceBuilder := by
  unfold Obligations.CopyRunAppendsAsTheReferenceBuilder
  intro s out h hb hp hfit hout
  obtain ⟨t, ht, hrest⟩ := copyRun _ s out h hb hp rfl hfit hout
  exact ⟨t, ht, unitSteps_frame ht, hrest⟩

end Sys2Proof.Machine
end

section
/-!
A valid encoded stream decompresses to the reference builder's string (R92, R111, R113): while tokens are left, LZD is
in its token phase with the rest of the stream from IN_POS on and the reference builder's output so far in OUT; each
token keeps this, and with no token left the output is full.
-/

namespace Sys2Proof

/-! ## The header and a back-reference read back (R42, R62, R65) -/

theorem le32_byteOf (w : BitVec 32) : le32 (byteOf 0 w) (byteOf 1 w) (byteOf 2 w) (byteOf 3 w) = w := by
  have h32 : byteOf 3 w ++ byteOf 2 w = w.extractLsb' 16 16 :=
    BitVec.extractLsb'_append_extractLsb'_eq_extractLsb' rfl
  have h321 : w.extractLsb' 16 16 ++ byteOf 1 w = w.extractLsb' 8 24 :=
    BitVec.extractLsb'_append_extractLsb'_eq_extractLsb' rfl
  rw [le32, h32, h321]
  exact (BitVec.extractLsb'_append_extractLsb'_eq_extractLsb' rfl).trans BitVec.extractLsb'_eq_self

theorem be16_byteOf (w : BitVec 16) : be16 (byteOf 1 w) (byteOf 0 w) = w :=
  (BitVec.extractLsb'_append_extractLsb'_eq_extractLsb' rfl).trans BitVec.extractLsb'_eq_self

theorem decode_encode_lzHdr (size : BitVec 24) (ignored : Nibble) :
    decode .lzHeader (encode (.lzHdr size ignored)) = .ok (.lzHdr size ignored) := by
  have htag : (encodeLzHdr size ignored).extractLsb' 0 4 = 1 := BitVec.extractLsb'_append_eq_right
  have hsize : (encodeLzHdr size ignored).extractLsb' 8 24 = size :=
    (BitVec.extractLsb'_append_eq_of_le (by decide)).trans BitVec.extractLsb'_append_eq_left
  have hignored : (encodeLzHdr size ignored).extractLsb' 4 4 = ignored :=
    (BitVec.extractLsb'_append_eq_of_le (by decide)).trans BitVec.extractLsb'_append_eq_right
  simp only [encode, decode, le32_byteOf, decodeLzHdr, Config.lzTagShift, htag, hsize, hignored, if_true]

theorem decode_encode_copy (l : Nibble) (d : BitVec 12) :
    decode (.lzToken true) (encode (.copy l d)) = .ok (.copy l d) := by
  simp only [encode, decode, be16_byteOf, decodeCopy, BitVec.extractLsb'_append_eq_left,
    BitVec.extractLsb'_append_eq_right]

end Sys2Proof

namespace Sys2Proof.Machine

/-! ## The control byte (R63, R92) -/

/-- The flag of token `t`, shifted to its place in the control byte. -/
theorem getLsbD_flagBit (t : Instr) {k : Nat} (hk : k < 8) (i : Nat) :
    (if tokenFlag t then 1#8 <<< k else 0).getLsbD i = (decide (k = i) && tokenFlag t) := by
  split
  case isTrue hf =>
    have hpow : (1#8 <<< k).getLsbD i = (decide (k < 8) && decide (k = i)) := BitVec.getLsbD_twoPow k i
    rw [hpow, decide_eq_true hk, Bool.true_and, hf, Bool.and_true]
  case isFalse hf => simp [hf]

/-- The flag of the first of the next `k` tokens is bit `k - 1`, and no bit above it is set. -/
theorem getLsbD_controlOf (k : Nat) (tokens : List Instr) (i : Nat) (hk : k ≤ 8) :
    (controlOf k tokens).getLsbD i = (decide (i < k) && tokens[k - 1 - i]?.any tokenFlag) := by
  induction k generalizing tokens with
  | zero => simp [controlOf]
  | succ k ih =>
    cases tokens with
    | nil => simp [controlOf]
    | cons t rest =>
      rw [controlOf, BitVec.getLsbD_or, getLsbD_flagBit t hk, ih rest (by omega), Nat.add_sub_cancel]
      obtain hi | rfl | hi := Nat.lt_trichotomy i k
      · have hsucc : k - i = k - 1 - i + 1 := by omega
        simp [hi, hi.ne', hi.trans (Nat.lt_succ_self k), hsucc]
      · simp
      · simp [hi.ne, hi.not_gt, hi.not_ge]

/-- The flags of a control byte stand from its top bit down, one per token (R63). -/
theorem getMsbD_controlOf (tokens : List Instr) {j : Nat} (hj : j < 8) :
    (controlOf 8 tokens).getMsbD j = tokens[j]?.any tokenFlag := by
  have hsub : 8 - 1 - (8 - 1 - j) = j := by omega
  rw [BitVec.getMsbD_eq_getLsbD, decide_eq_true hj, Bool.true_and, getLsbD_controlOf 8 _ _ (Nat.le_refl 8), hsub,
    decide_eq_true (by omega), Bool.true_and]

/-! ## The reference builder -/

/-- What the reference builder accepts next is a literal, or a back-reference into the output (R113). -/
theorem buildFrom_cons {out final : List Byte} {i : Instr} {rest : List Instr}
    (h : buildFrom out (i :: rest) = some final) :
    (∃ b, i = .lit b ∧ buildFrom (out ++ [b]) rest = some final) ∨
    ∃ l d, i = .copy l d ∧ d.toNat < out.length ∧
      buildFrom (appendCopy (l.toNat + 3) d.toNat out) rest = some final := by
  cases i with
  | lit b => exact .inl ⟨b, rfl, h⟩
  | copy l d =>
    rw [buildFrom] at h
    split at h
    case isTrue hd => exact .inr ⟨l, d, rfl, hd, h⟩
    case isFalse => cases h
  | _ => cases h

/-- Every token appends at least one byte. -/
theorem length_add_length_le_of_buildFrom {out final : List Byte} {tokens : List Instr}
    (h : buildFrom out tokens = some final) : out.length + tokens.length ≤ final.length := by
  induction tokens generalizing out with
  | nil => cases h; exact Nat.le_refl _
  | cons i rest ih =>
    rw [List.length_cons]
    obtain ⟨b, -, h⟩ | ⟨l, d, -, hd, h⟩ := buildFrom_cons h
    · have hle := ih h
      rw [List.length_append, List.length_singleton] at hle
      omega
    · have hle := ih h
      rw [length_appendCopy _ hd] at hle
      omega

/-! ## Reaching a state by some steps of LZD -/

/-- Some number of LZD's steps lead from `s` to `t`. -/
def LzdReaches (s t : State) : Prop := ∃ n, unitSteps .lzd n s = .next t

theorem LzdReaches.of_step {s t : State} (h : agentStep (.unit .lzd) s = .next t) : LzdReaches s t :=
  ⟨1, unitSteps_succ h⟩

theorem LzdReaches.trans {s t r : State} (h : LzdReaches s t) (h' : LzdReaches t r) : LzdReaches s r := by
  obtain ⟨m, hm⟩ := h
  obtain ⟨n, hn⟩ := h'
  exact ⟨m + n, by rw [unitSteps_add, hm, andThen_next, hn]⟩

theorem LzdReaches.keepsInv {s t : State} (h : LzdReaches s t) (hs : Inv s) : Inv t := by
  obtain ⟨n, hn⟩ := h
  exact unitSteps_keepsInv hn hs

/-- A copy that fits leads back to the token phase, and moves no register but OUT_POS and COPY_LEFT. -/
theorem lzdReaches_token_after_copy {n : Nat} {s : State} {out : List Byte} (hn : s.lzd.copyLeft.toNat = n) (h : Inv s)
    (hb : s.busy .lzd) (hp : s.lzd.phase = .copy) (hfit : s.lzd.outPos.toNat + n ≤ s.lzd.size.toNat)
    (hout : s.lzd.outBuf.load 0 s.lzd.outPos.toNat = .ok out) :
    ∃ t, LzdReaches s t ∧
      t.lzd = { s.lzd with outPos := t.lzd.outPos, copyLeft := 0, phase := .token, outBuf := t.lzd.outBuf } ∧
      t.lzd.outBuf.load 0 t.lzd.outPos.toNat = .ok (appendCopy n s.lzd.copyDisp.toNat out) := by
  obtain ⟨r, hr, hreg, hload, -⟩ := copyRun n s out h hb hp hn hfit hout
  have hrb : r.busy .lzd := (congrArg (·.shell.status) hreg).trans hb
  have hrp : r.lzd.phase = .copy := (congrArg (·.phase) hreg).trans hp
  have hr0 : r.lzd.copyLeft = 0 := congrArg (·.copyLeft) hreg
  have hend : agentStep (.unit .lzd) r = .next (r.setLzd { r.lzd with phase := .token }) :=
    (agentStep_lzd_copyStep hrb hrp).trans (if_pos hr0)
  refine ⟨_, LzdReaches.trans ⟨n, hr⟩ (.of_step hend), ?_, hload⟩
  rw [State.setLzd_lzd, hreg]

/-! ## Between two tokens -/

/-- LZD runs in its token phase: under the current control byte `left` tokens are still to come, `tokens` are left of
the stream, the builder has produced `out`, and the whole string is `final`. -/
structure Decoding (s : State) (left : Nat) (tokens : List Instr) (out final : List Byte) : Prop where
  inv : Inv s
  busy : s.busy .lzd
  phase : s.lzd.phase = .token
  bits : s.lzd.bitsLeft.toNat = left
  flags : ∀ j, j < left → s.lzd.ctrl.getMsbD j = tokens[j]?.any tokenFlag
  input : s.lzd.inBuf.load s.lzd.inPos (s.lzd.inLen - s.lzd.inPos) = .ok (streamFrom left tokens)
  output : s.lzd.outBuf.load 0 s.lzd.outPos.toNat = .ok out
  size : s.lzd.size.toNat = final.length
  build : buildFrom out tokens = some final

section

variable {s : State} {left k : Nat} {i : Instr} {rest tokens : List Instr} {out final : List Byte}

theorem Decoding.outPos (h : Decoding s left tokens out final) : s.lzd.outPos.toNat = out.length :=
  (Memory.load_length _ _ _ _ h.output).symm

/-- While a token is left the output is not full. -/
theorem Decoding.room (h : Decoding s left (i :: rest) out final) : s.lzd.outPos.toNat < s.lzd.size.toNat := by
  have hle := length_add_length_le_of_buildFrom h.build
  rw [List.length_cons] at hle
  rw [h.outPos, h.size]
  omega

theorem Decoding.inLen (h : Decoding s left tokens out final) :
    s.lzd.inLen = s.lzd.inPos + (streamFrom left tokens).length := by
  have hi := h.inv.lzd.inPos_le h.busy
  have hl := Memory.load_length _ _ _ _ h.input
  omega

/-- The flag of the next token (R63). -/
theorem Decoding.flag (h : Decoding s (k + 1) (i :: rest) out final) : s.lzd.ctrl.getLsbD 7 = tokenFlag i :=
  h.flags 0 (Nat.succ_pos k)

theorem Decoding.flag_left (h : Decoding s (k + 1) tokens out final) : s.lzd.bitsLeft ≠ 0 := fun e => by
  have hb := h.bits
  rw [e] at hb
  cases hb

/-- The flags after the next one, once CTRL has shifted. -/
theorem Decoding.flags_shift (h : Decoding s (k + 1) (i :: rest) out final) (j : Nat) (hj : j < k) :
    (s.lzd.ctrl <<< 1).getMsbD j = rest[j]?.any tokenFlag := by
  rw [BitVec.getMsbD_shiftLeft]
  exact h.flags (j + 1) (Nat.succ_lt_succ hj)

theorem Decoding.bits_pred (h : Decoding s (k + 1) tokens out final) : (s.lzd.bitsLeft - 1).toNat = k := by
  have hb := h.bits
  bv_omega

/-- The bytes of a token, and the stream after them. -/
theorem Decoding.input_token (h : Decoding s (k + 1) (i :: rest) out final) :
    s.lzd.inBuf.load s.lzd.inPos (encode i).length = .ok (encode i) ∧
      s.lzd.inPos + (encode i).length ≤ s.lzd.inLen ∧
      s.lzd.inBuf.load (s.lzd.inPos + (encode i).length) (s.lzd.inLen - (s.lzd.inPos + (encode i).length)) =
        .ok (streamFrom k rest) := by
  have hm : s.lzd.inBuf.wf := h.inv.mem .lzdIn
  have hl := h.inLen
  have hright := Memory.load_append_right hm h.input
  rw [Nat.sub_sub] at hright
  rw [streamFrom, List.length_append] at hl
  exact ⟨Memory.load_append_left hm h.input, by omega, hright⟩

/-- A control byte fetched: eight flags (R103). -/
theorem Decoding.control (h : Decoding s 0 (i :: rest) out final) :
    ∃ t, LzdReaches s t ∧ Decoding t 8 (i :: rest) out final := by
  have hm : s.lzd.inBuf.wf := h.inv.mem .lzdIn
  have hx := Memory.load_append_left hm (xs := [controlOf 8 (i :: rest)]) h.input
  have hrest := Memory.load_append_right hm (xs := [controlOf 8 (i :: rest)]) h.input
  rw [Nat.sub_sub] at hrest
  have hi : s.lzd.inPos < s.lzd.inLen := by
    have hl := h.inLen
    rw [streamFrom, List.length_cons] at hl
    omega
  have hstep := agentStep_lzd_control h.busy h.phase h.room (BitVec.eq_of_toNat_eq h.bits) hi hx
  exact ⟨_, .of_step hstep,
    { h with
      inv := (LzdReaches.of_step hstep).keepsInv h.inv
      bits := rfl
      flags := fun _ hj => getMsbD_controlOf _ hj
      input := hrest }⟩

/-- A literal (R104). -/
theorem Decoding.literal {b : Byte} (h : Decoding s (k + 1) (.lit b :: rest) out final)
    (hbuild : buildFrom (out ++ [b]) rest = some final) :
    ∃ t, LzdReaches s t ∧ Decoding t k rest (out ++ [b]) final := by
  obtain ⟨hx, hi, hrest⟩ := h.input_token
  have hstep := agentStep_lzd_literal h.busy h.phase h.room h.flag_left h.flag hi hx
  have hpos := toNat_add_one_of_toNat_lt h.room
  exact ⟨_, .of_step hstep,
    { h with
      inv := (LzdReaches.of_step hstep).keepsInv h.inv
      bits := h.bits_pred
      flags := h.flags_shift
      input := hrest
      output := hpos ▸ Memory.load_store_append_one (h.inv.mem .lzdOut) h.output b
      build := hbuild }⟩

/-- A back-reference: its decode (R106), the copy (R108), and the copy's end. -/
theorem Decoding.backref {l : Nibble} {d : BitVec 12} (h : Decoding s (k + 1) (.copy l d :: rest) out final)
    (hd : d.toNat < out.length) (hbuild : buildFrom (appendCopy (l.toNat + 3) d.toNat out) rest = some final) :
    ∃ t, LzdReaches s t ∧ Decoding t k rest (appendCopy (l.toNat + 3) d.toNat out) final := by
  obtain ⟨hx, hi, hrest⟩ := h.input_token
  have hdecode : agentStep (.unit .lzd) s = exec (.copy l d) s :=
    agentStep_lzd_backref h.busy h.phase h.room h.flag_left h.flag hi hx (decode_encode_copy l d)
  have hstep := hdecode.trans (if_pos (h.outPos ▸ hd))
  have hlen : (copyLen l).toNat = l.toNat + 3 := by
    rw [copyLen_eq, BitVec.toNat_ofNat]; omega
  have hfit : s.lzd.outPos.toNat + (l.toNat + 3) ≤ s.lzd.size.toNat := by
    rw [h.outPos, h.size, ← length_appendCopy _ hd]
    exact (Nat.le_add_right _ _).trans (length_add_length_le_of_buildFrom hbuild)
  have hinv := (LzdReaches.of_step hstep).keepsInv h.inv
  obtain ⟨t, ht, hreg, hload⟩ := lzdReaches_token_after_copy hlen hinv h.busy rfl hfit h.output
  have hreach := (LzdReaches.of_step hstep).trans ht
  exact ⟨t, hreach,
    { inv := hreach.keepsInv h.inv
      busy := (congrArg (·.shell.status) hreg).trans h.busy
      phase := congrArg (·.phase) hreg
      bits := (congrArg (·.bitsLeft.toNat) hreg).trans h.bits_pred
      flags := fun j hj => (congrArg (·.ctrl.getMsbD j) hreg).trans (h.flags_shift j hj)
      input := (congrArg (fun u => u.inBuf.load u.inPos (u.inLen - u.inPos)) hreg).trans hrest
      output := hload
      size := (congrArg (·.size.toNat) hreg).trans h.size
      build := hbuild }⟩

/-- The next token, whichever it is. -/
theorem Decoding.token (h : Decoding s (k + 1) (i :: rest) out final) :
    ∃ t out', LzdReaches s t ∧ Decoding t k rest out' final := by
  obtain ⟨b, rfl, hbuild⟩ | ⟨l, d, rfl, hd, hbuild⟩ := buildFrom_cons h.build
  · obtain ⟨t, ht⟩ := h.literal hbuild
    exact ⟨t, _, ht⟩
  · obtain ⟨t, ht⟩ := h.backref hd hbuild
    exact ⟨t, _, ht⟩

/-- LZD's operation is over, all of its input consumed and OUT holding the string. -/
structure Decompressed (t : State) (final : List Byte) : Prop where
  done : t.lzd.shell.status = .done
  size : t.lzd.size.toNat = final.length
  outPos : t.lzd.outPos.toNat = final.length
  inPos : t.lzd.inPos = t.lzd.inLen
  output : t.lzd.outBuf.load 0 final.length = .ok final

/-- No token left: the output is full (R102). -/
theorem Decoding.finish (h : Decoding s left [] out final) : ∃ t, LzdReaches s t ∧ Decompressed t final := by
  obtain rfl : out = final := Option.some.inj h.build
  have hin := h.inLen
  exact ⟨s.finish .lzd, .of_step (agentStep_lzd_full h.busy h.phase (h.size.trans h.outPos.symm).le),
    { done := rfl
      size := h.size
      outPos := h.outPos
      inPos := by cases left <;> exact hin.symm
      output := h.outPos ▸ h.output }⟩

/-- Token by token, with a control byte fetched where no flag is left, down to the end of the stream. -/
theorem Decoding.decompressed (h : Decoding s left tokens out final) :
    ∃ t, LzdReaches s t ∧ Decompressed t final := by
  induction tokens generalizing s left out with
  | nil => exact h.finish
  | cons i rest ih =>
    have hflags : ∃ s1 k, LzdReaches s s1 ∧ Decoding s1 (k + 1) (i :: rest) out final := by
      cases left with
      | zero =>
        obtain ⟨s1, hs1, h1⟩ := h.control
        exact ⟨s1, 7, hs1, h1⟩
      | succ k => exact ⟨s, k, ⟨0, rfl⟩, h⟩
    obtain ⟨s1, k, hs1, h1⟩ := hflags
    obtain ⟨s2, out', hs2, h2⟩ := h1.token
    obtain ⟨t, ht, hfinal⟩ := ih h2
    exact ⟨t, (hs1.trans hs2).trans ht, hfinal⟩

end

/-- The header step of a compressed block (R101). -/
theorem decoding_of_header {s : State} {tokens : List Instr} {out : List Byte} (hbuild : buildFrom [] tokens = some out)
    (hsize : out.length < 2 ^ 24) (h : Inv s) (hb : s.busy .lzd) (hp : s.lzd.phase = .hdr)
    (hl : s.lzd.inLen = (compressedBlock out.length tokens).length)
    (hx : s.lzd.inBuf.load 0 s.lzd.inLen = .ok (compressedBlock out.length tokens)) :
    ∃ t, LzdReaches s t ∧ Decoding t 0 tokens [] out := by
  have hm : s.lzd.inBuf.wf := h.mem .lzdIn
  have hfour : 4 ≤ s.lzd.inLen := by
    rw [hl, compressedBlock, List.length_append]
    exact Nat.le_add_right _ _
  have hrest := Memory.load_append_right hm hx
  rw [Nat.zero_add] at hrest
  have hstep : agentStep (.unit .lzd) s = exec (.lzHdr (BitVec.ofNat 24 out.length) 0) s :=
    (agentStep_lzd_header hb hp hfour (Memory.load_append_left hm hx)).trans
      (runFetched_decoded_ok _ _ (decode_encode_lzHdr _ 0))
  exact ⟨_, .of_step hstep,
    { inv := (LzdReaches.of_step hstep).keepsInv h
      busy := hb
      phase := rfl
      bits := rfl
      flags := nofun
      input := hrest
      output := Memory.load_zero _ _
      size := (BitVec.toNat_ofNat _ _).trans (Nat.mod_eq_of_lt hsize)
      build := hbuild }⟩

/-- Settles O21: the header step sets up the decoding, an induction on the tokens ends it, and a unit never changes its
input length. -/
theorem validStreamDecompressesToTheReferenceString : Obligations.ValidStreamDecompressesToTheReferenceString := by
  unfold Obligations.ValidStreamDecompressesToTheReferenceString
  intro tokens out s hbuild hsize h hb hp hl hx
  obtain ⟨s1, hs1, h1⟩ := decoding_of_header hbuild hsize h hb hp hl hx
  obtain ⟨t, ht, hend⟩ := h1.decompressed
  obtain ⟨n, hn⟩ := hs1.trans ht
  have hlen : t.lzd.inLen = s.lzd.inLen := congrArg (·.lzd.inLen) (unitSteps_keepsInputs hn)
  exact ⟨n, t, hn, unitSteps_frame hn, hend.done, hend.size, hend.outPos, hend.inPos.trans hlen, hend.output⟩

end Sys2Proof.Machine
end

section
/-!
The raster's geometry (R131 to R134): the address of a pixel by tile, row and column; pixels of a grid lie in the raster
and no two share an address; and the two pixels of a tile byte.
-/

namespace Sys2Proof.Machine

/-! ## The width table (R131) -/

theorem toNat_widthTiles (n : Nat) :
    (widthTiles n).toNat = if 64 ≤ n then 8 else if 16 ≤ n then 4 else if 4 ≤ n then 2 else 1 := by
  simp only [widthTiles, apply_ite BitVec.toNat]
  rfl

theorem toNat_widthTiles_pos (n : Nat) : 0 < (widthTiles n).toNat := by
  rw [toNat_widthTiles]
  split_ifs <;> decide

/-! ## Pixels -/

/-- The raster address of the pixel in row `r` and column `c` of tile `t`, for a raster `w` tiles wide (R132). -/
def pixelAddr (w t r c : Nat) : Nat := (8 * (t / w) + r) * 8 * w + (8 * (t % w) + c)

/-- Row and column of the whole raster are quotient and remainder of the address by the raster's width. -/
theorem pixelAddr_div_mod {w : Nat} (hw : 0 < w) (t r : Nat) {c : Nat} (hc : c < 8) :
    pixelAddr w t r c / (8 * w) = 8 * (t / w) + r ∧ pixelAddr w t r c % (8 * w) = 8 * (t % w) + c := by
  have hcol : 8 * (t % w) + c < 8 * w := by have := Nat.mod_lt t hw; omega
  exact (Nat.div_mod_unique (by omega)).mpr ⟨by rw [pixelAddr]; ring, hcol⟩

theorem pixelAddr_inj {w t t' r r' c c' : Nat} (hw : 0 < w) (hr : r < 8) (hr' : r' < 8) (hc : c < 8) (hc' : c' < 8)
    (h : pixelAddr w t r c = pixelAddr w t' r' c') : t = t' ∧ r = r' ∧ c = c' := by
  obtain ⟨hrow, hcol⟩ := pixelAddr_div_mod hw t r hc
  obtain ⟨hrow', hcol'⟩ := pixelAddr_div_mod hw t' r' hc'
  rw [h] at hrow hcol
  have hdiv : t / w = t' / w := by omega
  have hmod : t % w = t' % w := by omega
  exact ⟨Nat.ext_div_mod hdiv hmod, by omega, by omega⟩

theorem pixelAddr_ne_of_tile_ne {w t t' r r' c c' : Nat} (hw : 0 < w) (hr : r < 8) (hr' : r' < 8) (hc : c < 8)
    (hc' : c' < 8) (ht : t ≠ t') : pixelAddr w t r c ≠ pixelAddr w t' r' c' := fun h =>
  ht (pixelAddr_inj hw hr hr' hc hc' h).1

/-- A tile of a grid `w` wide and `h` high has its pixels in the raster. -/
theorem pixelAddr_lt {w h t r c : Nat} (ht : t < w * h) (hr : r < 8) (hc : c < 8) : pixelAddr w t r c < 64 * w * h := by
  have hw : 0 < w := Nat.pos_of_lt_mul_right ht
  have hgrid : t / w < h := Nat.div_lt_of_lt_mul ht
  obtain ⟨hrow, -⟩ := pixelAddr_div_mod hw t r hc
  have hsize : 64 * w * h = 8 * h * (8 * w) := by ring
  rw [hsize]
  exact (Nat.div_lt_iff_lt_mul (by omega)).mp (by omega)

theorem le_mul_ceilDiv {w : Nat} (hw : 0 < w) (n : Nat) : n ≤ w * ceilDiv n w := by
  have hd := Nat.div_add_mod (n + w - 1) w
  have hm := Nat.mod_lt (n + w - 1) hw
  rw [ceilDiv]
  omega

/-! ## The two pixels of a tile byte (R133, R134) -/

theorem rasterAddr_eq_pixelAddr (w k : Nat) : rasterAddr w k = pixelAddr w (k / 32) (k % 32 / 4) (2 * (k % 4)) := rfl

theorem rasterAddr_succ_eq_pixelAddr (w k : Nat) :
    rasterAddr w k + 1 = pixelAddr w (k / 32) (k % 32 / 4) (2 * (k % 4) + 1) := rfl

/-- Tile byte `b` of row `r` of tile `t` (R70, R133). -/
theorem rasterAddr_of_place (w t : Nat) {r b : Nat} (hr : r < 8) (hb : b < 4) :
    rasterAddr w (32 * t + 4 * r + b) = pixelAddr w t r (2 * b) := by
  have ht : (32 * t + 4 * r + b) / 32 = t := by omega
  have hrow : (32 * t + 4 * r + b) % 32 / 4 = r := by omega
  have hcol : (32 * t + 4 * r + b) % 4 = b := by omega
  rw [rasterAddr_eq_pixelAddr, ht, hrow, hcol]

theorem rasterAddr_distinct {w k k' : Nat} (hw : 0 < w) (hk : k ≠ k') :
    rasterAddr w k ≠ rasterAddr w k' ∧ rasterAddr w k ≠ rasterAddr w k' + 1 := by
  have hr : k % 32 / 4 < 8 := by omega
  have hr' : k' % 32 / 4 < 8 := by omega
  refine ⟨fun h => ?left, fun h => ?right⟩
  case left =>
    rw [rasterAddr_eq_pixelAddr, rasterAddr_eq_pixelAddr] at h
    obtain ⟨htile, hrow, hcol⟩ := pixelAddr_inj hw hr hr' (by omega) (by omega) h
    omega
  case right =>
    rw [rasterAddr_eq_pixelAddr, rasterAddr_succ_eq_pixelAddr] at h
    obtain ⟨-, -, hcol⟩ := pixelAddr_inj hw hr hr' (by omega) (by omega) h
    omega

/-- Settles O24: both bytes are pixels of a tile of the grid, and pixels have different addresses. -/
theorem rasterAddressesAreInBoundsAndDistinct : Obligations.RasterAddressesAreInBoundsAndDistinct := by
  unfold Obligations.RasterAddressesAreInBoundsAndDistinct
  intro n _ w h
  have hw : 0 < w := toNat_widthTiles_pos n
  have hgrid : n ≤ w * h := le_mul_ceilDiv hw n
  refine ⟨fun k hk => ?bounds, fun k k' _ _ hne => rasterAddr_distinct hw hne⟩
  have htile : k / 32 < w * h := by omega
  have hrow : k % 32 / 4 < 8 := by omega
  have hcol : 2 * (k % 4) + 1 < 8 := by omega
  rw [rasterAddr_succ_eq_pixelAddr]
  exact pixelAddr_lt htile hrow hcol

end Sys2Proof.Machine
end

section
/-!
TIU's single steps (R130 to R137): the tile grid a check step sets up, the two pixels of a tile byte, the four bytes of
a palette entry, and the ends of the two phases.
-/

namespace Sys2Proof.Machine

theorem othersKept_setTiu (s : State) (u : Tiu) : OthersKept .tiu s (s.setTiu u) :=
  othersKept_graft .tiu (s.setTiu u) s

theorem Memory.read_store_two (m : Memory) (b : Nat) (x y : Byte) (a : Nat) :
    (m.store b [x, y]).read a = if a = b then some x else if a = b + 1 then some y else m.read a := by
  rw [Memory.read_store]
  obtain rfl | rfl | hout : a = b ∨ a = b + 1 ∨ (a ≠ b ∧ a ≠ b + 1) := by omega
  · simp
  · simp
  · rw [if_neg hout.1, if_neg hout.2, if_neg (by simp; omega)]

/-! ## The check step (R130, R131) -/

/-- TIU after a check step that passes. -/
def Tiu.grid (u : Tiu) : Tiu :=
  let n := u.tilesLen / 32
  let w := widthTiles n
  let h := ceilDiv n w.toNat
  { u with
    count := n, wT := w, hT := h, raster := u.raster.zero 0 (64 * w.toNat * h), k := 0, pi := 0, phase := .tiles }

section

variable {s : State}

theorem agentStep_tiu_check (hb : s.busy .tiu) (hp : s.tiu.phase = .check) :
    agentStep (.unit .tiu) s = tiuCheck s := by
  simp only [agentStep_tiu hb, fetchTiu, hp, runFetched_other]

theorem tiuCheck_noTiles (h0 : s.tiu.tilesLen = 0) : tiuCheck s = .next (s.raise .tiu .tiuNoTiles) := if_pos h0

theorem tiuCheck_partialTile (h32 : s.tiu.tilesLen % 32 ≠ 0) :
    tiuCheck s = .next (s.raise .tiu .tiuPartialTile) :=
  (if_neg fun h0 => h32 (by rw [h0])).trans (if_pos h32)

theorem tiuCheck_badPaletteLen (h0 : s.tiu.tilesLen ≠ 0) (h32 : s.tiu.tilesLen % 32 = 0) (hl : s.tiu.palLen ≠ 32) :
    tiuCheck s = .next (s.raise .tiu .tiuBadPaletteLen) :=
  (if_neg h0).trans ((if_neg (not_not.mpr h32)).trans (if_pos hl))

theorem tiuCheck_passed (h0 : s.tiu.tilesLen ≠ 0) (h32 : s.tiu.tilesLen % 32 = 0) (hl : s.tiu.palLen = 32) :
    tiuCheck s = .next (s.setTiu s.tiu.grid) :=
  (if_neg h0).trans ((if_neg (not_not.mpr h32)).trans (if_neg (not_not.mpr hl)))

/-! ## Tile bytes (R133) -/

theorem agentStep_tiu_tile (hb : s.busy .tiu) (hp : s.tiu.phase = .tiles) (hk : s.tiu.k < s.tiu.tilesLen) {v : Byte}
    (hx : s.tiu.tiles.load s.tiu.k 1 = .ok [v]) :
    agentStep (.unit .tiu) s = exec (.tileByte (v.extractLsb' 4 4) (v.extractLsb' 0 4)) s :=
  (agentStep_tiu hb).trans (runFetched_read_decoded (fetchTiu_tile hp hk) hx rfl)

theorem agentStep_tiu_tilesEnd (hb : s.busy .tiu) (hp : s.tiu.phase = .tiles) (hk : s.tiu.tilesLen ≤ s.tiu.k) :
    agentStep (.unit .tiu) s = .next (s.setTiu { s.tiu with phase := .palette }) := by
  simp only [agentStep_tiu hb, fetchTiu, hp, if_pos hk, runFetched_other, tiuTilesEnd]

/-! ## Palette entries (R135 to R137) -/

/-- The four bytes of entry `i` of a converted palette (R135, R137). -/
def HoldsEntry (m : Memory) (i : Nat) (r g b : BitVec 5) : Prop :=
  m.read (4 * i) = some (Config.chanLut r) ∧ m.read (4 * i + 1) = some (Config.chanLut g) ∧
    m.read (4 * i + 2) = some (Config.chanLut b) ∧ m.read (4 * i + 3) = some (if i = 0 then 0 else 255)

theorem holdsEntry_store (m : Memory) (i : Nat) (r g b : BitVec 5) :
    HoldsEntry (m.store (4 * i) (paletteRgba i r g b)) i r g b := by
  simp [HoldsEntry, paletteRgba, Memory.read_store]

/-- Storing another entry keeps an entry. -/
theorem HoldsEntry.store {m : Memory} {i j : Nat} {r g b : BitVec 5} (h : HoldsEntry m j r g b) (hj : j ≠ i)
    (r' g' b' : BitVec 5) : HoldsEntry (m.store (4 * i) (paletteRgba i r' g' b')) j r g b := by
  have hlen : (paletteRgba i r' g' b').length = 4 := rfl
  have hkept (c : Nat) (hc : c < 4) :
      (m.store (4 * i) (paletteRgba i r' g' b')).read (4 * j + c) = m.read (4 * j + c) :=
    Memory.read_store_outside _ _ _ _ (by omega)
  obtain ⟨h0, h1, h2, h3⟩ := h
  exact ⟨(hkept 0 (by decide)).trans h0, (hkept 1 (by decide)).trans h1, (hkept 2 (by decide)).trans h2,
    (hkept 3 (by decide)).trans h3⟩

theorem agentStep_tiu_palette (hb : s.busy .tiu) (hp : s.tiu.phase = .palette) (hlt : s.tiu.pi.toNat < 16)
    {lo hi : Byte} (hx : s.tiu.pal.load (2 * s.tiu.pi.toNat) 2 = .ok [lo, hi]) :
    agentStep (.unit .tiu) s = exec (decodePalEntry (hi ++ lo)) s :=
  (agentStep_tiu hb).trans (runFetched_read_decoded (fetchTiu_palette hp hlt) hx rfl)

theorem agentStep_tiu_paletteEnd (hb : s.busy .tiu) (hp : s.tiu.phase = .palette) (hi : s.tiu.pi = 16) :
    agentStep (.unit .tiu) s = .next (s.finish .tiu) := by
  have h16 : Config.palEntries ≤ s.tiu.pi.toNat := by rw [hi]; decide
  simp only [agentStep_tiu hb, fetchTiu, hp, if_pos h16, runFetched_other, tiuPaletteEnd]

end

/-! ## The statements -/

/-- Settles O22: the tests in their order; the grid's only store is the zero fill. -/
theorem tiuCheckStepInfersTheTileGrid : Obligations.TiuCheckStepInfersTheTileGrid := by
  unfold Obligations.TiuCheckStepInfersTheTileGrid
  intro s hb hp
  rw [agentStep_tiu_check hb hp]
  refine ⟨tiuCheck_noTiles, tiuCheck_partialTile, tiuCheck_badPaletteLen, fun h0 h32 hl => ?passed⟩
  intro n w h
  have hw : (widthTiles n).toNat = w := toNat_widthTiles n
  have hwT : BitVec.ofNat 4 w = widthTiles n := by rw [← hw, BitVec.ofNat_toNat, BitVec.setWidth_eq]
  have hh : s.tiu.grid.hT = h := congrArg (ceilDiv n) hw
  have hraster : s.tiu.grid.raster = s.tiu.raster.zero 0 (64 * w * h) := by rw [← hh, ← hw]; rfl
  refine ⟨_, tiuCheck_passed h0 h32 hl, othersKept_setTiu s _, ?registers, fun a ha => ?zero, ?frame⟩
  case registers => rw [hwT, ← hh]; rfl
  case zero => simp [hraster, ha]
  case frame => exact hraster ▸ keptOutside_zero _ _ _

/-- Settles O23: the only store is that of the two pixels, and the fetch is the one at the tile place. -/
theorem tileByteStoresTwoPixels : Obligations.TileByteStoresTwoPixels := by
  unfold Obligations.TileByteStoresTwoPixels
  refine ⟨fun s h l => ⟨_, rfl, othersKept_setTiu s _, rfl, rfl, ?left, ?right, ?frame⟩,
    fun s hb hp => ⟨fun hk => ?ended, fun v hk hx => agentStep_tiu_tile hb hp hk hx⟩⟩
  case left => exact (Memory.read_store_two ..).trans (if_pos rfl)
  case right => exact (Memory.read_store_two ..).trans ((if_neg (Nat.succ_ne_self _)).trans (if_pos rfl))
  case frame => exact keptOutside_store _ _ [l.setWidth 8, h.setWidth 8]
  case ended => exact ⟨_, agentStep_tiu_tilesEnd hb hp hk.ge, othersKept_setTiu s _, rfl⟩

/-- Settles O25: the only store is that of the entry's four bytes, and the fetch is the one at the palette place. -/
theorem paletteEntryIsConvertedThroughTheTable : Obligations.PaletteEntryIsConvertedThroughTheTable := by
  unfold Obligations.PaletteEntryIsConvertedThroughTheTable
  refine ⟨fun s x b g r => ?effect, fun s hb hp => ⟨fun hi => ?ended, fun lo hi hlt hx => ?entry⟩⟩
  case effect =>
    obtain ⟨hred, hgreen, hblue, halpha⟩ := holdsEntry_store s.tiu.palRgba s.tiu.pi.toNat r g b
    have hzero : s.tiu.pi.toNat = 0 ↔ s.tiu.pi = 0 := BitVec.toNat_inj (y := 0)
    simp only [hzero] at halpha
    exact ⟨_, rfl, othersKept_setTiu s _, rfl, hred, hgreen, hblue, halpha,
      keptOutside_store _ _ (paletteRgba s.tiu.pi.toNat r g b)⟩
  case ended => exact ⟨s.finish .tiu, agentStep_tiu_paletteEnd hb hp hi, othersKept_setTiu s _, rfl⟩
  case entry => exact agentStep_tiu_palette hb hp hlt hx

end Sys2Proof.Machine
end

section
/-!
TIU as a whole (R138, R254). Two inductions: after `k` tile bytes the raster holds the pixels of the first `k` bytes and
is zero elsewhere; after `i` palette steps the first `i` entries are converted. The check step and the two ends join
them.
-/

namespace Sys2Proof.Machine

/-! ## Runs and reads -/

theorem unitSteps_trans {u : UnitId} {m n : Nat} {s t r : State} (h : unitSteps u m s = .next t)
    (h' : unitSteps u n t = .next r) : unitSteps u (m + n) s = .next r := by
  rw [unitSteps_add, h, andThen_next, h']

/-- A run and one step more. -/
theorem unitSteps_snoc {u : UnitId} {n : Nat} {s t r : State} (h : unitSteps u n s = .next t)
    (h' : agentStep (.unit u) t = .next r) : unitSteps u (n + 1) s = .next r :=
  unitSteps_trans h (unitSteps_succ h')

theorem Written.read {m : Memory} {n a : Nat} (h : Written m n) (ha : a < n) : ∃ v, m.read a = some v :=
  Option.ne_none_iff_exists'.mp (h a ha)

theorem Memory.load_two {m : Memory} (hm : m.wf) {a : Nat} {x y : Byte} (hx : m.read a = some x)
    (hy : m.read (a + 1) = some y) : m.load a 2 = .ok [x, y] := by
  refine (Memory.load_eq_ok m a 2 _ hm).mpr ⟨rfl, fun k hk => ?_⟩
  obtain rfl | rfl : k = 0 ∨ k = 1 := by omega
  · exact hx
  · exact hy

/-! ## Tile bytes -/

/-- A raster `w` tiles wide that holds the pixels of the first `k` tile bytes, its other bytes below `size` zero. -/
structure HoldsPixels (tiles : Memory) (w size k : Nat) (raster : Memory) : Prop where
  pixels : ∀ j v, j < k → tiles.read j = some v →
    raster.read (rasterAddr w j) = some ((v.extractLsb' 0 4).setWidth 8) ∧
      raster.read (rasterAddr w j + 1) = some ((v.extractLsb' 4 4).setWidth 8)
  blank : ∀ a, a < size → (∀ j, j < k → a ≠ rasterAddr w j ∧ a ≠ rasterAddr w j + 1) → raster.read a = some 0

theorem holdsPixels_zero (tiles : Memory) (w size : Nat) (raster : Memory) :
    HoldsPixels tiles w size 0 (raster.zero 0 size) where
  pixels _ _ hj := absurd hj (Nat.not_lt_zero _)
  blank a ha _ := by simp [ha]

/-- The two pixels of the next tile byte join those already there (R134). -/
theorem HoldsPixels.store {tiles raster : Memory} {w size k : Nat} (h : HoldsPixels tiles w size k raster) (hw : 0 < w)
    {v : Byte} (hv : tiles.read k = some v) :
    HoldsPixels tiles w size (k + 1)
      (raster.store (rasterAddr w k) [(v.extractLsb' 0 4).setWidth 8, (v.extractLsb' 4 4).setWidth 8]) where
  pixels j x hj hx := by
    simp only [Memory.read_store_two]
    obtain rfl | hlt : j = k ∨ j < k := by omega
    · obtain rfl : v = x := Option.some.inj (hv.symm.trans hx)
      simp
    · obtain ⟨hne, hne'⟩ := rasterAddr_distinct hw hlt.ne
      obtain ⟨-, hne''⟩ := rasterAddr_distinct hw hlt.ne'
      rw [if_neg hne, if_neg hne', if_neg hne''.symm, if_neg (by omega)]
      exact h.pixels j x hlt hx
  blank a ha hout := by
    obtain ⟨hne, hne'⟩ := hout k (Nat.lt_succ_self k)
    rw [Memory.read_store_two, if_neg hne, if_neg hne']
    exact h.blank a ha fun j hj => hout j (Nat.lt_succ_of_lt hj)

/-- The first `k` tile bytes of an unpack whose raster is still zero. -/
theorem tileRun {s : State} (hb : s.busy .tiu) (hm : s.tiu.tiles.wf) (hp : s.tiu.phase = .tiles)
    (hw : 0 < s.tiu.wT.toNat) (hwritten : Written s.tiu.tiles s.tiu.tilesLen) (h0 : s.tiu.k = 0) {size : Nat}
    (hzero : HoldsPixels s.tiu.tiles s.tiu.wT.toNat size 0 s.tiu.raster) (k : Nat) (hk : k ≤ s.tiu.tilesLen) :
    ∃ raster, unitSteps .tiu k s = .next (s.setTiu { s.tiu with k := k, raster := raster }) ∧
      HoldsPixels s.tiu.tiles s.tiu.wT.toNat size k raster := by
  induction k with
  | zero =>
    have hs : s = s.setTiu { s.tiu with k := 0, raster := s.tiu.raster } := by rw [← h0]; rfl
    exact ⟨_, congrArg Host.Outcome.next hs, hzero⟩
  | succ k ih =>
    obtain ⟨raster, hrun, hpixels⟩ := ih (by omega)
    obtain ⟨v, hv⟩ := hwritten.read hk
    have hstep := agentStep_tiu_tile (s := s.setTiu { s.tiu with k := k, raster := raster }) hb hp hk
      ((Memory.load_one _ _ _ hm).mpr hv)
    exact ⟨_, unitSteps_snoc hrun hstep, hpixels.store hw hv⟩

/-! ## Palette entries -/

/-- The first `i` entries of a palette, converted. -/
def HoldsEntries (pal : Memory) (i : Nat) (rgba : Memory) : Prop :=
  ∀ (j : Nat) (lo hi : Byte), j < i → pal.read (2 * j) = some lo → pal.read (2 * j + 1) = some hi →
    let c : BitVec 16 := hi ++ lo
    HoldsEntry rgba j (c.extractLsb' 0 5) (c.extractLsb' 5 5) (c.extractLsb' 10 5)

theorem HoldsEntries.store {pal rgba : Memory} {i : Nat} (h : HoldsEntries pal i rgba) {lo hi : Byte}
    (hlo : pal.read (2 * i) = some lo) (hhi : pal.read (2 * i + 1) = some hi) :
    let c : BitVec 16 := hi ++ lo
    HoldsEntries pal (i + 1)
      (rgba.store (4 * i) (paletteRgba i (c.extractLsb' 0 5) (c.extractLsb' 5 5) (c.extractLsb' 10 5))) := by
  intro c j x y hj hx hy
  obtain rfl | hlt : j = i ∨ j < i := by omega
  · obtain rfl : lo = x := Option.some.inj (hlo.symm.trans hx)
    obtain rfl : hi = y := Option.some.inj (hhi.symm.trans hy)
    exact holdsEntry_store ..
  · exact (h j x y hlt hx hy).store hlt.ne ..

/-- The first `i` palette steps. -/
theorem paletteRun {s : State} (hb : s.busy .tiu) (hm : s.tiu.pal.wf) (hp : s.tiu.phase = .palette)
    (hwritten : Written s.tiu.pal 32) (h0 : s.tiu.pi = 0) (i : Nat) (hi : i ≤ 16) :
    ∃ pi rgba, unitSteps .tiu i s = .next (s.setTiu { s.tiu with pi := pi, palRgba := rgba }) ∧ pi.toNat = i ∧
      HoldsEntries s.tiu.pal i rgba := by
  induction i with
  | zero => exact ⟨s.tiu.pi, s.tiu.palRgba, rfl, by rw [h0]; rfl, fun _ _ _ hj => absurd hj (Nat.not_lt_zero _)⟩
  | succ i ih =>
    obtain ⟨pi, rgba, hrun, rfl, hentries⟩ := ih (by omega)
    obtain ⟨lo, hlo⟩ := hwritten.read (show 2 * pi.toNat < 32 by omega)
    obtain ⟨high, hhigh⟩ := hwritten.read (show 2 * pi.toNat + 1 < 32 by omega)
    have hstep := agentStep_tiu_palette (s := s.setTiu { s.tiu with pi := pi, palRgba := rgba }) hb hp hi
      (Memory.load_two hm hlo hhigh)
    have hnext : (pi + 1).toNat = pi.toNat + 1 := by bv_omega
    exact ⟨_, _, unitSteps_snoc hrun hstep, hnext, hentries.store hlo hhigh⟩

/-! ## The whole operation -/

/-- The check step, the tile bytes, the end of the tiles, the palette steps and the end of the palette (R254). -/
theorem unpackRun {s : State} (h : Inv s) (hb : s.busy .tiu) (hp : s.tiu.phase = .check) (hl : s.loaded .tiu)
    (h0 : s.tiu.tilesLen ≠ 0) (h32 : s.tiu.tilesLen % 32 = 0) (hpal : s.tiu.palLen = 32) :
    ∃ raster rgba,
      unitSteps .tiu (s.tiu.tilesLen + 19) s = .next (s.setTiu { s.tiu.grid with
        shell := { s.tiu.shell with status := .done }
        k := s.tiu.tilesLen, phase := .palette, pi := 16, raster := raster, palRgba := rgba }) ∧
      HoldsPixels s.tiu.tiles s.tiu.grid.wT.toNat (64 * s.tiu.grid.wT.toNat * s.tiu.grid.hT) s.tiu.tilesLen raster ∧
      HoldsEntries s.tiu.pal 16 rgba := by
  obtain ⟨htiles, hentries⟩ := hl
  have hcheck : unitSteps .tiu 1 s = .next (s.setTiu s.tiu.grid) :=
    unitSteps_succ ((agentStep_tiu_check hb hp).trans (tiuCheck_passed h0 h32 hpal))
  obtain ⟨raster, htileRun, hpixels⟩ := tileRun (s := s.setTiu s.tiu.grid) hb (h.mem .tiuTiles) rfl
    (toNat_widthTiles_pos _) htiles rfl (holdsPixels_zero _ _ _ _) s.tiu.tilesLen (Nat.le_refl _)
  have htilesEnd := agentStep_tiu_tilesEnd
    (s := s.setTiu { s.tiu.grid with k := s.tiu.tilesLen, raster := raster }) hb rfl (Nat.le_refl _)
  obtain ⟨pi, rgba, hpaletteRun, hpi, hrgba⟩ := paletteRun
    (s := s.setTiu { s.tiu.grid with k := s.tiu.tilesLen, raster := raster, phase := .palette }) hb (h.mem .tiuPal) rfl
    (hpal ▸ hentries) rfl 16 (Nat.le_refl _)
  obtain rfl : pi = 16 := BitVec.eq_of_toNat_eq hpi
  have hpaletteEnd := agentStep_tiu_paletteEnd
    (s := s.setTiu { s.tiu.grid with
      k := s.tiu.tilesLen, raster := raster, phase := .palette, pi := 16, palRgba := rgba }) hb rfl rfl
  have hcount : s.tiu.tilesLen + 19 = 1 + s.tiu.tilesLen + 1 + 16 + 1 := by omega
  have hconverting := unitSteps_snoc (unitSteps_trans hcheck htileRun) htilesEnd
  have hend := unitSteps_snoc (unitSteps_trans hconverting hpaletteRun) hpaletteEnd
  exact ⟨raster, rgba, hcount ▸ hend, hpixels, hrgba⟩

/-- A cell of the grid that no tile fills stays zero (R138). -/
theorem HoldsPixels.blank_cell {tiles raster : Memory} {w height n tile r c : Nat}
    (h : HoldsPixels tiles w (64 * w * height) (32 * n) raster) (hn : n ≤ tile) (ht : tile < w * height) (hrow : r < 8)
    (hcol : c < 8) : raster.read (pixelAddr w tile r c) = some 0 := by
  have hw : 0 < w := Nat.pos_of_lt_mul_right ht
  refine h.blank _ (pixelAddr_lt ht hrow hcol) fun j hj => ?_
  have htile : tile ≠ j / 32 := by omega
  rw [rasterAddr_succ_eq_pixelAddr, rasterAddr_eq_pixelAddr]
  exact ⟨pixelAddr_ne_of_tile_ne hw hrow (by omega) hcol (by omega) htile,
    pixelAddr_ne_of_tile_ne hw hrow (by omega) hcol (by omega) htile⟩

/-- Settles O26: the run's last state, read tile by tile, cell by cell and entry by entry. -/
theorem unpackProducesTheRasterAndThePalette : Obligations.UnpackProducesTheRasterAndThePalette := by
  unfold Obligations.UnpackProducesTheRasterAndThePalette
  intro s hi hb hp hl h0 h32 hpal n w h
  obtain ⟨raster, rgba, hrun, hpixels, hrgba⟩ := unpackRun hi hb hp hl h0 h32 hpal
  have hw : s.tiu.grid.wT.toNat = w := toNat_widthTiles n
  have hh : s.tiu.grid.hT = h := congrArg (ceilDiv n) hw
  have hlen : s.tiu.tilesLen = 32 * n := by omega
  rw [hw, hh, hlen] at hpixels
  refine ⟨_, hrun, othersKept_setTiu s _, rfl, rfl, hw, hh, fun tile r b v ht hr hb4 hv => ?pixels,
    fun tile r c hn ht hr hc => hpixels.blank_cell hn ht hr hc, hrgba⟩
  have hplace := hpixels.pixels _ v (by omega) hv
  rwa [rasterAddr_of_place w tile hr hb4] at hplace

end Sys2Proof.Machine
end

section
/-!
GBC's check and merge steps (R150 to R154, R177): the new table's header and zeros, the records merged from an old
table, and the registers a decode reads from the header.
-/

namespace Sys2Proof.Machine

/-! ## Blocks of a buffer -/

/-- Byte `k` of a stored block reads back at its place. -/
theorem Memory.read_store_add (m : Memory) (a : Nat) {bytes : List Byte} {k : Nat} (hk : k < bytes.length) :
    (m.store a bytes).read (a + k) = bytes[k]? := by
  rw [Memory.read_store, if_pos (by omega), Nat.add_sub_cancel_left]

theorem Memory.read_store_of_getElem? (m : Memory) (a : Nat) {bytes : List Byte} {k : Nat} {v : Byte}
    (h : bytes[k]? = some v) : (m.store a bytes).read (a + k) = some v :=
  (Memory.read_store_add m a (List.getElem?_eq_some_iff.mp h).1).trans h

theorem KeptOutside.refl (m : Memory) (a n : Nat) : KeptOutside m m a n := fun _ _ => rfl

/-- A store within the block is not seen outside it. -/
theorem KeptOutside.store {m m' : Memory} {a n b : Nat} {bytes : List Byte} (h : KeptOutside m m' a n) (ha : a ≤ b)
    (hn : b + bytes.length ≤ a + n) : KeptOutside m (m'.store b bytes) a n := fun k hk =>
  (Memory.read_store_outside m' b bytes k (by omega)).trans (h k hk)

/-! ## The new table (R75, R78, R153) -/

theorem recSizeOf_eq (width : Nat) : recSizeOf width = BitVec.ofNat 6 (if width ≤ 8 then 16 else 32) := by
  rw [recSizeOf]
  split <;> rfl

theorem toNat_recSize (width : Nat) :
    (BitVec.ofNat 6 (if width ≤ 8 then 16 else 32)).toNat = if width ≤ 8 then 16 else 32 := by
  split <;> rfl

theorem byteOf_zero {n : Nat} (x : BitVec n) : byteOf 0 x = BitVec.ofNat 8 x.toNat := rfl

theorem byteOf_one {n : Nat} (x : BitVec n) : byteOf 1 x = BitVec.ofNat 8 (x.toNat / 256) := by
  rw [byteOf, BitVec.extractLsb', Nat.shiftRight_eq_div_pow]

theorem headerBytes_eq {cpMin width : BitVec 32} {count : Nat} (hmin : cpMin.toNat ≤ 0xFFFF) (hcount : count ≤ 0xFFFF) :
    headerBytes cpMin (BitVec.ofNat 17 count) width =
      [BitVec.ofNat 8 cpMin.toNat, BitVec.ofNat 8 (cpMin.toNat / 256), BitVec.ofNat 8 count,
        BitVec.ofNat 8 (count / 256), BitVec.ofNat 8 width.toNat, 16, 0, 0] := by
  have hstart : (cpMin.setWidth 16).toNat = cpMin.toNat := by
    rw [BitVec.toNat_setWidth]
    omega
  have hrecords : ((BitVec.ofNat 17 count).setWidth 16).toNat = count := by
    rw [BitVec.toNat_setWidth, BitVec.toNat_ofNat]
    omega
  simp only [headerBytes, encode, byteOf_zero, byteOf_one, hstart, hrecords]
  rfl

/-- A table of `len` bytes with its header, the rest zero (R153). -/
def newTable (m : Memory) (len : Nat) (header : List Byte) : Memory := (m.zero 0 len).store 0 header

section

variable {m : Memory} {len : Nat} {header : List Byte}

theorem read_newTable_header {a : Nat} (ha : a < header.length) : (newTable m len header).read a = header[a]? := by
  have h := Memory.read_store_add (m.zero 0 len) 0 ha
  rwa [Nat.zero_add] at h

theorem read_newTable_blank {a : Nat} (ha : header.length ≤ a) (hlen : a < len) :
    (newTable m len header).read a = some 0 := by
  rw [newTable, Memory.read_store_outside _ _ _ _ (by omega), Memory.read_zero, if_pos (by omega)]

theorem keptOutside_newTable (h : header.length ≤ len) : KeptOutside m (newTable m len header) 0 len :=
  (keptOutside_zero m 0 len).store (Nat.le_refl 0) (by omega)

end

/-- GBC after an encode check step that passes, for `count` code points (R152, R153). -/
def Gbc.withNewTable (u : Gbc) (count : Nat) : Gbc :=
  let recSize := if u.width.toNat ≤ 8 then 16 else 32
  let len := 8 + count * recSize
  { u with
    count := BitVec.ofNat 17 count, recSize := BitVec.ofNat 6 recSize, tblLen := len, phase := .merge,
    tbl := newTable u.tbl len (headerBytes u.cpMin (BitVec.ofNat 17 count) u.width) }

/-! ## The check step -/

section

variable {s : State}

theorem agentStep_gbc_badMode (hb : s.busy .gbc) (hp : s.gbc.phase = .check) (hm : s.gbc.mode = 3) :
    agentStep (.unit .gbc) s = .next (s.raise .gbc .glyBadMode) := by
  simp only [agentStep_gbc hb, fetchGbc, hp, if_pos hm, runFetched_other, gbcBadMode]

theorem agentStep_gbc_encodeCheck (hb : s.busy .gbc) (hp : s.gbc.phase = .check)
    (hm : s.gbc.mode = 1 ∨ s.gbc.mode = 2) : agentStep (.unit .gbc) s = gbcEncodeCheck s := by
  have hm' : s.gbc.mode ≠ 3 ∧ s.gbc.mode ≠ 0 := by obtain h | h := hm <;> rw [h] <;> decide
  simp only [agentStep_gbc hb, fetchGbc, hp, if_neg hm'.1, if_neg hm'.2, runFetched_other]

theorem agentStep_gbc_shortTable (hb : s.busy .gbc) (hp : s.gbc.phase = .check) (hm : s.gbc.mode = 0)
    (hl : s.gbc.srcLen < 8) : agentStep (.unit .gbc) s = .next (s.raise .gbc .glyTableTruncated) := by
  have h3 : s.gbc.mode ≠ 3 := by rw [hm]; decide
  simp only [agentStep_gbc hb, fetchGbc, hp, if_neg h3, if_pos hm, if_pos hl, runFetched_other, gbcShortTable]

theorem agentStep_gbc_tableHeader (hb : s.busy .gbc) (hp : s.gbc.phase = .check) (hm : s.gbc.mode = 0)
    (hl : 8 ≤ s.gbc.srcLen) {bytes : List Byte} {i : Instr} (hx : s.gbc.src.load 0 8 = .ok bytes)
    (hi : decode .glyphHeader bytes = .ok i) : agentStep (.unit .gbc) s = exec i s :=
  (agentStep_gbc hb).trans (runFetched_read_decoded (fetchGbc_tableHeader hp hm hl) hx hi)

theorem gbcEncodeCheck_minGtMax (h : s.gbc.cpMax.toNat < s.gbc.cpMin.toNat) :
    gbcEncodeCheck s = .next (s.raise .gbc .glyMinGtMax) := if_pos h

section

variable (hrange : s.gbc.cpMin.toNat ≤ s.gbc.cpMax.toNat)
include hrange

theorem gbcEncodeCheck_maxTooBig (h : 0xFFFF < s.gbc.cpMax.toNat) :
    gbcEncodeCheck s = .next (s.raise .gbc .glyMaxTooBig) := (if_neg (not_lt.mpr hrange)).trans (if_pos h)

variable (hmax : s.gbc.cpMax.toNat ≤ 0xFFFF)
include hmax

theorem gbcEncodeCheck_widthTooBig (h : 16 < s.gbc.width.toNat) :
    gbcEncodeCheck s = .next (s.raise .gbc .glyWidthTooBig) :=
  (if_neg (not_lt.mpr hrange)).trans ((if_neg (not_lt.mpr hmax)).trans (if_pos h))

variable (hwidth : s.gbc.width.toNat ≤ 16)
include hwidth

theorem gbcEncodeCheck_countOverflow (h : 0xFFFF < s.gbc.cpMax.toNat - s.gbc.cpMin.toNat + 1) :
    gbcEncodeCheck s = .next (s.raise .gbc .glyCountOverflow) :=
  (if_neg (not_lt.mpr hrange)).trans
    ((if_neg (not_lt.mpr hmax)).trans ((if_neg (not_lt.mpr hwidth)).trans (if_pos h)))

theorem gbcEncodeCheck_passed (h : s.gbc.cpMax.toNat - s.gbc.cpMin.toNat + 1 ≤ 0xFFFF) :
    gbcEncodeCheck s = .next (s.setGbc (s.gbc.withNewTable (s.gbc.cpMax.toNat - s.gbc.cpMin.toNat + 1))) := by
  have hcount : (BitVec.ofNat 17 (s.gbc.cpMax.toNat - s.gbc.cpMin.toNat + 1)).toNat =
      s.gbc.cpMax.toNat - s.gbc.cpMin.toNat + 1 := by
    rw [BitVec.toNat_ofNat]
    omega
  simp only [gbcEncodeCheck, if_neg (not_lt.mpr hrange), if_neg (not_lt.mpr hmax), if_neg (not_lt.mpr hwidth),
    if_neg (not_lt.mpr h), hcount, recSizeOf_eq, toNat_recSize, Gbc.withNewTable, newTable]

end

end

/-- Settles O27: the tests in their order; the table is the zero fill with the header stored over it. -/
theorem encodeCheckStepInitialisesTheTable : Obligations.EncodeCheckStepInitialisesTheTable := by
  unfold Obligations.EncodeCheckStepInitialisesTheTable
  intro s hb hp
  refine ⟨agentStep_gbc_badMode hb hp, fun bytes start count width rows reserved hm hl hx hi =>
    agentStep_gbc_tableHeader hb hp hm hl hx hi, fun hm => ?encode⟩
  rw [agentStep_gbc_encodeCheck hb hp hm]
  refine ⟨gbcEncodeCheck_minGtMax, gbcEncodeCheck_maxTooBig, gbcEncodeCheck_widthTooBig, gbcEncodeCheck_countOverflow,
    fun hrange hmax hwidth hcount => ?passed⟩
  intro count recSize len
  have hheader := headerBytes_eq (width := s.gbc.width) (hrange.trans hmax) hcount
  have hlen : 8 ≤ len := Nat.le_add_right _ _
  have hread {a : Nat} (ha : a < 8) : (s.gbc.withNewTable count).tbl.read a = _ :=
    (read_newTable_header (m := s.gbc.tbl) (len := len) ha).trans (by rw [hheader])
  refine ⟨_, gbcEncodeCheck_passed hrange hmax hwidth hcount, othersKept_setGbc s _, rfl, hread (a := 0) (by decide),
    hread (a := 1) (by decide), hread (a := 2) (by decide), hread (a := 3) (by decide), hread (a := 4) (by decide),
    hread (a := 5) (by decide), fun a h6 ha => ?blank, keptOutside_newTable hlen⟩
  obtain h8 | rfl | rfl : 8 ≤ a ∨ a = 6 ∨ a = 7 := by omega
  · exact read_newTable_blank h8 ha
  · exact hread (by decide)
  · exact hread (by decide)

/-! ## The glyph table header (R154, R177) -/

section

variable {s : State}

theorem exec_glyHdr_merge (hp : s.gbc.phase = .merge) (start count : BitVec 16) (width rows : Byte)
    (reserved : BitVec 16) : exec (.glyHdr start count width rows reserved) s = gbcMerge start count width s := by
  simp only [exec, execGlyHdr, hp]

theorem exec_glyHdr_check (hp : s.gbc.phase = .check) (start count : BitVec 16) (width rows : Byte)
    (reserved : BitVec 16) :
    exec (.glyHdr start count width rows reserved) s = gbcDecodeCheck start count width rows s := by
  simp only [exec, execGlyHdr, hp]

theorem agentStep_gbc_noMerge (hb : s.busy .gbc) (hp : s.gbc.phase = .merge) (hl : s.gbc.oldLen < 8) :
    agentStep (.unit .gbc) s = .next (gbcParseFrom s) := by
  simp only [agentStep_gbc hb, fetchGbc, hp, if_pos hl, runFetched_other, gbcNoMerge]

theorem agentStep_gbc_mergeHeader (hb : s.busy .gbc) (hp : s.gbc.phase = .merge) (hl : 8 ≤ s.gbc.oldLen)
    {bytes : List Byte} {i : Instr} (hx : s.gbc.old.load 0 8 = .ok bytes) (hi : decode .glyphHeader bytes = .ok i) :
    agentStep (.unit .gbc) s = exec i s :=
  (agentStep_gbc hb).trans (runFetched_read_decoded (fetchGbc_mergeHeader hp hl) hx hi)

theorem gbcMerge_mismatch {start count : BitVec 16} {width : Byte}
    (h : start.toNat ≠ s.gbc.cpMin.toNat ∨ width.toNat ≠ s.gbc.width.toNat) :
    gbcMerge start count width s = .next (gbcParseFrom s) :=
  if_neg (not_and_or.mpr h)

section

variable {start count : BitVec 16} {width : Byte} (hstart : start.toNat = s.gbc.cpMin.toNat)
  (hwidth : width.toNat = s.gbc.width.toNat)
include hstart hwidth

theorem gbcMerge_short
    (hl : s.gbc.oldLen < 8 + min count.toNat s.gbc.count.toNat * s.gbc.recSize.toNat) :
    gbcMerge start count width s = .next (s.raise .gbc .glyOldTruncated) :=
  (if_pos ⟨hstart, hwidth⟩).trans (if_pos hl)

theorem gbcMerge_records {records : List Byte}
    (hl : 8 + min count.toNat s.gbc.count.toNat * s.gbc.recSize.toNat ≤ s.gbc.oldLen)
    (hx : s.gbc.old.load 8 (min count.toNat s.gbc.count.toNat * s.gbc.recSize.toNat) = .ok records) :
    gbcMerge start count width s = .next (gbcParseFrom (s.setGbc { s.gbc with tbl := s.gbc.tbl.store 8 records })) := by
  simp only [gbcMerge, if_pos (And.intro hstart hwidth), if_neg (not_lt.mpr hl), hx, withBytes_ok]

end

end

/-- Settles O28: of a matching table the records are the only store; else the merge step moves on to the text. -/
theorem mergeCopiesRecordsOfAMatchingTable : Obligations.MergeCopiesRecordsOfAMatchingTable := by
  unfold Obligations.MergeCopiesRecordsOfAMatchingTable
  refine ⟨fun s start count width rows reserved hp => ?header, fun s hb hp => ⟨fun hl => ?short,
    fun b0 b1 b2 b3 b4 b5 b6 b7 hl hx => agentStep_gbc_mergeHeader hb hp hl hx rfl⟩⟩
  case short => exact ⟨_, agentStep_gbc_noMerge hb hp hl, othersKept_setGbc s _, rfl⟩
  case header =>
    intro n size
    rw [exec_glyHdr_merge hp]
    refine ⟨fun hstart hwidth => ⟨gbcMerge_short hstart hwidth, fun records hl hx => ?records⟩, fun h =>
      ⟨_, gbcMerge_mismatch h, othersKept_setGbc s _, rfl⟩⟩
    have hlen : records.length = size := Memory.load_length _ _ _ _ hx
    refine ⟨_, gbcMerge_records hstart hwidth hl hx, othersKept_setGbc s _, rfl, fun a ha => ?_, ?_⟩
    · exact Memory.read_store_add _ _ (hlen ▸ ha)
    · exact hlen ▸ keptOutside_store _ _ records

/-- Settles O29: the header registers first, then the tests in their order. -/
theorem decodeCheckStepReadsTheHeader : Obligations.DecodeCheckStepReadsTheHeader := by
  unfold Obligations.DecodeCheckStepReadsTheHeader
  refine ⟨fun s start count width rows reserved hp => ?header, fun s hb hp hm => ⟨agentStep_gbc_shortTable hb hp hm,
    fun b0 b1 b2 b3 b4 b5 b6 b7 hl hx => agentStep_gbc_tableHeader hb hp hm hl hx rfl⟩⟩
  intro recSize hdr
  simp only [exec_glyHdr_check hp, gbcDecodeCheck, recSizeOf_eq, toNat_recSize]
  refine ⟨fun hw => ⟨_, if_pos hw, othersKept_setGbc s _, rfl⟩,
    fun hw hr => ⟨_, (if_neg (not_lt.mpr hw)).trans (if_pos hr), othersKept_setGbc s _, rfl⟩,
    fun hw hr hl => ?truncated, fun hw hr hl => ?passed⟩
  case truncated =>
    exact ⟨_, (if_neg (not_lt.mpr hw)).trans ((if_neg (not_not.mpr hr)).trans (if_pos hl)), othersKept_setGbc s _, rfl⟩
  case passed =>
    exact ⟨_, (if_neg (not_lt.mpr hw)).trans ((if_neg (not_not.mpr hr)).trans (if_neg (not_lt.mpr hl))),
      othersKept_setGbc s _, rfl⟩

end Sys2Proof.Machine
end

section
/-!
The decode step (R178, R179): a row instruction stores one row of pixels; the sixteen rows of a record, by induction on
the rows left, each going in behind the one before.
-/

namespace Sys2Proof.Machine

/-! ## One row -/

@[simp] theorem length_pixels (n : Nat) {m : Nat} (p : BitVec m) : (pixels n p).length = n := by simp [pixels]

/-- Bit `c` of a row is its column `c`. -/
theorem getElem?_pixels {n c : Nat} (hc : c < n) {m : Nat} (p : BitVec m) :
    (pixels n p)[c]? = some (if p.getLsbD c then 1 else 0) := by
  simp [pixels, hc]

theorem read_putPixels (s : State) (r : Fin 16) {n : Nat} (p : BitVec n) {c : Nat} (hc : c < s.gbc.hdrWidth.toNat) :
    (putPixels r p s).gbc.pix.read ((s.gbc.g.toNat * 16 + r.val) * s.gbc.hdrWidth.toNat + c) =
      some (if p.getLsbD c then 1 else 0) :=
  (Memory.read_store_add _ _ (by rwa [length_pixels])).trans (getElem?_pixels hc p)

theorem keptOutside_putPixels (s : State) (r : Fin 16) {n : Nat} (p : BitVec n) :
    KeptOutside s.gbc.pix (putPixels r p s).gbc.pix ((s.gbc.g.toNat * 16 + r.val) * s.gbc.hdrWidth.toNat)
      s.gbc.hdrWidth.toNat := by
  have h := keptOutside_store s.gbc.pix ((s.gbc.g.toNat * 16 + r.val) * s.gbc.hdrWidth.toNat)
    (pixels s.gbc.hdrWidth.toNat p)
  rwa [length_pixels] at h

/-- Settles O30: the only store is that of the row's pixels. -/
theorem glyphRowWritesItsPixels : Obligations.GlyphRowWritesItsPixels := by
  unfold Obligations.GlyphRowWritesItsPixels
  exact fun s r =>
    ⟨fun p => ⟨putPixels r p s, rfl, othersKept_setGbc s _, rfl, fun c => read_putPixels s r p,
      keptOutside_putPixels s r p⟩,
    fun p => ⟨putPixels r p s, rfl, othersKept_setGbc s _, rfl, fun c => read_putPixels s r p,
      keptOutside_putPixels s r p⟩⟩

/-! ## The rows of a record -/

/-- The number of a row instruction's row (R76, R77). -/
def rowNumber : Instr → Nat
  | .glyRow8 r _ | .glyRow16 r _ => r.val
  | _ => 0

/-- The first `w` pixels of a row instruction's row (R178). -/
def rowPixels (w : Nat) : Instr → List Byte
  | .glyRow8 _ p => pixels w p
  | .glyRow16 _ p => pixels w p
  | _ => []

theorem exec_glyphRow {i : Instr} (hi : IsGlyphRow i) (s : State) :
    exec i s = .next (s.setGbc { s.gbc with
      pix := s.gbc.pix.store ((s.gbc.g.toNat * 16 + rowNumber i) * s.gbc.hdrWidth.toNat)
        (rowPixels s.gbc.hdrWidth.toNat i) }) := by
  obtain ⟨r, p, rfl⟩ | ⟨r, p, rfl⟩ := hi <;> rfl

theorem length_rowPixels (w : Nat) {i : Instr} (hi : IsGlyphRow i) : (rowPixels w i).length = w := by
  obtain ⟨r, p, rfl⟩ | ⟨r, p, rfl⟩ := hi <;> exact length_pixels w p

/-- Row instructions of the rows from `k` on, in order. -/
def RowsFrom (k : Nat) (rows : List Instr) : Prop := ∀ j i, rows[j]? = some i → IsGlyphRow i ∧ rowNumber i = k + j

theorem RowsFrom.tail {k : Nat} {i : Instr} {rows : List Instr} (h : RowsFrom k (i :: rows)) :
    RowsFrom (k + 1) rows := fun j i' hj => by
  rw [Nat.add_right_comm, Nat.add_assoc]
  exact h (j + 1) i' hj

/-- A buffer that holds the rows from `k` on of glyph `g`, `w` pixels wide, and is as `m` elsewhere. -/
structure HoldsRows (g w k : Nat) (rows : List Instr) (m m' : Memory) : Prop where
  row : ∀ j i c, rows[j]? = some i → c < w → m'.read ((g * 16 + (k + j)) * w + c) = (rowPixels w i)[c]?
  frame : KeptOutside m m' ((g * 16 + k) * w) (rows.length * w)

/-- A row put in front: the later rows leave it alone. -/
theorem HoldsRows.cons {g w k : Nat} {i : Instr} {rows : List Instr} {m m' : Memory} (hlen : (rowPixels w i).length = w)
    (h : HoldsRows g w (k + 1) rows (m.store ((g * 16 + k) * w) (rowPixels w i)) m') :
    HoldsRows g w k (i :: rows) m m' := by
  have hnext : (g * 16 + (k + 1)) * w = (g * 16 + k) * w + w := by rw [← Nat.add_assoc, Nat.succ_mul]
  obtain ⟨hrow, hframe⟩ := h
  rw [hnext] at hframe
  refine ⟨fun j i' c hj hc => ?row, fun x hx => ?frame⟩
  case row =>
    cases j with
    | zero =>
      obtain rfl : i = i' := Option.some.inj hj
      rw [Nat.add_zero, hframe _ (.inl (Nat.add_lt_add_left hc _)), Memory.read_store_add _ _ (by rwa [hlen])]
    | succ j =>
      rw [← Nat.add_assoc k, Nat.add_right_comm k]
      exact hrow j i' c hj hc
  case frame =>
    rw [List.length_cons, Nat.succ_mul] at hx
    rw [hframe x (by omega), Memory.read_store_outside _ _ _ _ (by omega)]

/-- The rows of glyph G, run in order. -/
theorem execAll_rows {rows : List Instr} {k : Nat} (h : RowsFrom k rows) (s : State) :
    ∃ pix, execAll rows s = .next (s.setGbc { s.gbc with pix := pix }) ∧
      HoldsRows s.gbc.g.toNat s.gbc.hdrWidth.toNat k rows s.gbc.pix pix := by
  induction rows generalizing k s with
  | nil => exact ⟨s.gbc.pix, rfl, nofun, KeptOutside.refl _ _ _⟩
  | cons i rows ih =>
    obtain ⟨hi, hk⟩ := h 0 i rfl
    have hexec := exec_glyphRow hi s
    rw [hk, Nat.add_zero] at hexec
    obtain ⟨pix, hrun, hrows⟩ := ih h.tail (s.setGbc { s.gbc with
      pix := s.gbc.pix.store ((s.gbc.g.toNat * 16 + k) * s.gbc.hdrWidth.toNat) (rowPixels s.gbc.hdrWidth.toNat i) })
    exact ⟨pix, by rw [execAll, hexec, andThen_next, hrun]; rfl, hrows.cons (length_rowPixels _ hi)⟩

/-! ## The bytes of a record (R76, R77) -/

theorem length_rows8 (k : Nat) (bytes : List Byte) : (rows8 k bytes).length = bytes.length := by
  induction bytes generalizing k with
  | nil => rfl
  | cons b bytes ih => rw [rows8, List.length_cons, List.length_cons, ih]

theorem length_rows16 (k : Nat) (bytes : List Byte) : (rows16 k bytes).length = bytes.length / 2 := by
  fun_induction rows16 k bytes with
  | case1 k b0 b1 rest ih => simp only [List.length_cons, ih]; omega
  | case2 bytes k hshort =>
    match bytes, hshort with
    | [], _ => rfl
    | [_], _ => simp
    | b0 :: b1 :: rest, hshort => exact absurd rfl (hshort b0 b1 rest)

theorem rowsFrom_rows8 {bytes : List Byte} (h : bytes.length = 16) : RowsFrom 0 (rows8 0 bytes) := fun j i hj => by
  rw [getElem?_rows8] at hj
  obtain ⟨b, hb, rfl⟩ := Option.map_eq_some_iff.mp hj
  have hlt : j < 16 := h ▸ (List.getElem?_eq_some_iff.mp hb).1
  refine ⟨.inl ⟨_, _, rfl⟩, ?_⟩
  rw [Nat.zero_add]
  exact Nat.mod_eq_of_lt hlt

theorem rowsFrom_rows16 {bytes : List Byte} (h : bytes.length = 32) : RowsFrom 0 (rows16 0 bytes) := fun j i hj => by
  have hlt : j < (rows16 0 bytes).length := (List.getElem?_eq_some_iff.mp hj).1
  rw [length_rows16, h] at hlt
  have hrow := getElem?_rows16 (k := 0) (List.getElem?_eq_getElem (l := bytes) (i := 2 * j) (by omega))
    (List.getElem?_eq_getElem (l := bytes) (i := 2 * j + 1) (by omega))
  obtain rfl := Option.some.inj (hj.symm.trans hrow)
  refine ⟨.inr ⟨_, _, rfl⟩, ?_⟩
  rw [Nat.zero_add]
  exact Nat.mod_eq_of_lt hlt

/-- The row instructions of a record (R178). -/
def recordRows (recSize : BitVec 6) (bytes : List Byte) : List Instr :=
  if recSize = 16 then rows8 0 bytes else rows16 0 bytes

theorem recordRows_16 (bytes : List Byte) : recordRows 16 bytes = rows8 0 bytes := if_pos rfl

theorem recordRows_32 (bytes : List Byte) : recordRows 32 bytes = rows16 0 bytes := if_neg (by decide)

/-- Both record sizes hold the rows 0 to 15. -/
theorem rowsFrom_recordRows {recSize : BitVec 6} (hrec : recSize = 16 ∨ recSize = 32) {bytes : List Byte}
    (hlen : bytes.length = recSize.toNat) :
    RowsFrom 0 (recordRows recSize bytes) ∧ (recordRows recSize bytes).length = 16 := by
  obtain rfl | rfl := hrec
  · rw [recordRows_16]
    exact ⟨rowsFrom_rows8 hlen, (length_rows8 0 bytes).trans hlen⟩
  · rw [recordRows_32]
    exact ⟨rowsFrom_rows16 hlen, by rw [length_rows16, hlen]; rfl⟩

section

variable {s : State} (hb : s.busy .gbc) (hp : s.gbc.phase = .decode)
include hb hp

theorem agentStep_gbc_recordsEnd (hg : s.gbc.g = s.gbc.count) : agentStep (.unit .gbc) s = .next (s.finish .gbc) := by
  simp only [agentStep_gbc hb, fetchGbc, hp, if_pos hg, runFetched_other, gbcStop]

/-- The sixteen rows of the record run, then the glyph cursor moves (R178). -/
theorem agentStep_gbc_record (hg : s.gbc.g ≠ s.gbc.count) (hrec : s.gbc.recSize = 16 ∨ s.gbc.recSize = 32)
    {bytes : List Byte}
    (hx : s.gbc.src.load (8 + s.gbc.g.toNat * s.gbc.recSize.toNat) s.gbc.recSize.toNat = .ok bytes) :
    ∃ pix, agentStep (.unit .gbc) s = .next (s.setGbc { s.gbc with g := s.gbc.g + 1, pix := pix }) ∧
      (recordRows s.gbc.recSize bytes).length = 16 ∧
      HoldsRows s.gbc.g.toNat s.gbc.hdrWidth.toNat 0 (recordRows s.gbc.recSize bytes) s.gbc.pix pix := by
  obtain ⟨hrows, hcount⟩ := rowsFrom_recordRows hrec (Memory.load_length _ _ _ _ hx)
  obtain ⟨pix, hrun, hholds⟩ := execAll_rows hrows s
  have hrecord : agentStep (.unit .gbc) s = andThen (execAll (recordRows s.gbc.recSize bytes) s) gbcGlyphEnd := by
    rw [agentStep_gbc hb, fetchGbc_record hp hg, hx, fetchBytes_ok, runFetched_record, recordRows]
  exact ⟨pix, by rw [hrecord, hrun, andThen_next]; rfl, hcount, hholds⟩

end

/-- Settles O31: the rows of the record are the only store; each row of pixels is that of its bytes. -/
theorem decodeStepWritesOneGlyph : Obligations.DecodeStepWritesOneGlyph := by
  unfold Obligations.DecodeStepWritesOneGlyph
  refine fun s hb hp => ⟨fun hg => ⟨_, agentStep_gbc_recordsEnd hb hp hg, othersKept_setGbc s _, rfl⟩,
    fun bytes hg hrec _ hx => ?record⟩
  intro w a
  obtain ⟨pix, hstep, hcount, hrow, hframe⟩ := agentStep_gbc_record hb hp hg hrec hx
  have hpixel (r c : Nat) (i : Instr) (hi : (recordRows s.gbc.recSize bytes)[r]? = some i) (hc : c < w) :
      pix.read ((s.gbc.g.toNat * 16 + r) * w + c) = (rowPixels w i)[c]? := by
    have h := hrow r i c hi hc
    rwa [Nat.zero_add] at h
  rw [hcount] at hframe
  refine ⟨_, hstep, othersKept_setGbc s _, rfl, fun r c b _ hc h16 hbr => ?row8,
    fun r c b0 b1 _ hc h32 h0 h1 => ?row16, hframe⟩
  case row8 =>
    have hi : (recordRows s.gbc.recSize bytes)[r]? = some (.glyRow8 (Fin.ofNat 16 (0 + r)) b) := by
      rw [h16, recordRows_16, getElem?_rows8, hbr, Option.map_some]
    exact (hpixel r c _ hi hc).trans (getElem?_pixels hc b)
  case row16 =>
    have hi : (recordRows s.gbc.recSize bytes)[r]? = some (.glyRow16 (Fin.ofNat 16 (0 + r)) (le16 b0 b1)) := by
      rw [h32, recordRows_32, getElem?_rows16 h0 h1]
    exact (hpixel r c _ hi hc).trans (getElem?_pixels hc (le16 b0 b1))

end Sys2Proof.Machine
end

section
/-!
Hex-row lines (R160): the record a line stores, row by row, and the round trip of R180 (a) through the decode's rows.
-/

namespace Sys2Proof.Machine

/-! ## Fullwidth rows in a record (R156) -/

theorem length_flatMap_rowBytes16 (ms : List (BitVec 16)) : (ms.flatMap rowBytes16).length = 2 * ms.length := by
  induction ms with
  | nil => rfl
  | cons m ms ih => rw [List.flatMap_cons, List.length_append, ih, List.length_cons, Nat.mul_succ, Nat.add_comm]; rfl

/-- Row `r` is stored reversed, low byte first. -/
theorem getElem?_flatMap_rowBytes16 {ms : List (BitVec 16)} {r : Nat} {m : BitVec 16} (h : ms[r]? = some m) :
    (ms.flatMap rowBytes16)[2 * r]? = some ((rev16 m).extractLsb' 0 8) ∧
      (ms.flatMap rowBytes16)[2 * r + 1]? = some ((rev16 m).extractLsb' 8 8) := by
  induction ms generalizing r with
  | nil => cases h
  | cons m' ms ih =>
    cases r with
    | zero => cases h; exact ⟨rfl, rfl⟩
    | succ r => exact ih h

theorem length_payloadRows16 (payload : List Byte) : (payloadRows16 payload).length = payload.length / 2 := by
  fun_induction payloadRows16 payload with
  | case1 b0 b1 rest ih => simp only [List.length_cons, ih]; omega
  | case2 bytes hshort =>
    match bytes, hshort with
    | [], _ => rfl
    | [_], _ => simp
    | b0 :: b1 :: rest, hshort => exact absurd rfl (hshort b0 b1 rest)

theorem getElem?_payloadRows16 {payload : List Byte} {r : Nat} {b0 b1 : Byte} (h0 : payload[2 * r]? = some b0)
    (h1 : payload[2 * r + 1]? = some b1) : (payloadRows16 payload)[r]? = some (b0 ++ b1) := by
  induction r generalizing payload with
  | zero =>
    obtain _ | ⟨c0, _ | ⟨c1, rest⟩⟩ := payload
    · cases h0
    · cases h1
    · cases h0; cases h1; rfl
  | succ r ih =>
    obtain _ | ⟨c0, _ | ⟨c1, rest⟩⟩ := payload
    · cases h0
    · cases h0
    · exact ih h0 h1

/-! ## The record of a line (R160) -/

section

variable {recSize : BitVec 6} {payload : List Byte}

theorem hexRecord_halfwidth (hl : payload.length = 16) : hexRecord 16 payload = some (payload.map rev8) := by
  rw [hexRecord, if_pos hl, if_pos rfl, List.map_eq_flatMap]
  rfl

theorem hexRecord_centred (hl : payload.length = 16) :
    hexRecord 32 payload = some ((payload.map center).flatMap rowBytes16) := by
  rw [hexRecord, if_pos hl, if_neg (by decide), List.flatMap_map]

theorem hexRecord_fullwidth (hl : payload.length = 32) :
    hexRecord 32 payload = some ((payloadRows16 payload).flatMap rowBytes16) := by
  rw [hexRecord, if_neg (by omega), if_pos ⟨hl, by decide⟩]

theorem hexRecord_unfit (hl : payload.length ≠ 16) (hw : payload.length ≠ 32 ∨ recSize = 16) :
    hexRecord recSize payload = none := by
  rw [hexRecord, if_neg hl, if_neg fun h => hw.elim (absurd h.1) h.2]

theorem exists_hexRecord (hl : payload.length = 16 ∨ payload.length = 32) (hrec : recSize = 16 ∨ recSize = 32)
    (hfit : payload.length = 16 ∨ recSize = 32) : ∃ record, hexRecord recSize payload = some record := by
  obtain hl | hl := hl
  · obtain rfl | rfl := hrec
    · exact ⟨_, hexRecord_halfwidth hl⟩
    · exact ⟨_, hexRecord_centred hl⟩
  · obtain h16 | rfl := hfit
    · omega
    · exact ⟨_, hexRecord_fullwidth hl⟩

/-- A record fills its slot. -/
theorem length_hexRecord (hrec : recSize = 16 ∨ recSize = 32) {record : List Byte}
    (h : hexRecord recSize payload = some record) : record.length = recSize.toNat := by
  by_cases hl : payload.length = 16
  · obtain rfl | rfl := hrec
    · rw [hexRecord_halfwidth hl] at h
      cases h
      rw [List.length_map, hl]
      rfl
    · rw [hexRecord_centred hl] at h
      cases h
      rw [length_flatMap_rowBytes16, List.length_map, hl]
      rfl
  · by_cases hw : payload.length = 32 ∧ recSize = 32
    · obtain ⟨hl', rfl⟩ := hw
      rw [hexRecord_fullwidth hl'] at h
      cases h
      rw [length_flatMap_rowBytes16, length_payloadRows16, hl']
      rfl
    · rw [hexRecord_unfit hl ((not_and_or.mp hw).imp_right hrec.resolve_right)] at h
      cases h

end

/-! ## The line -/

section

variable {s : State} {cp : BitVec 32} {payload : List Byte}

theorem exec_hexLine_outOfRange (h : cp.toNat < s.gbc.cpMin.toNat ∨ s.gbc.cpMax.toNat < cp.toNat) :
    exec (.hexLine cp payload) s = .next s := if_pos h

theorem exec_hexLine_zero (h : cp = 0) : exec (.hexLine cp payload) s = .next s := by
  simp only [exec, execHexLine, if_pos h, ite_self]

theorem exec_hexLine_unfit (h : hexRecord s.gbc.recSize payload = none) : exec (.hexLine cp payload) s = .next s := by
  simp only [exec, execHexLine, h, ite_self]

theorem exec_hexLine_stored (hmin : s.gbc.cpMin.toNat ≤ cp.toNat) (hmax : cp.toNat ≤ s.gbc.cpMax.toNat) (h0 : cp ≠ 0)
    {record : List Byte} (h : hexRecord s.gbc.recSize payload = some record) :
    exec (.hexLine cp payload) s =
      .next (s.setGbc { s.gbc with tbl := s.gbc.tbl.store (s.gbc.slot cp.toNat) record }) := by
  have hin : ¬ (cp.toNat < s.gbc.cpMin.toNat ∨ s.gbc.cpMax.toNat < cp.toNat) := by omega
  simp only [exec, execHexLine, if_neg hin, if_neg h0, h, Gbc.putRows, Nat.zero_mul, Nat.add_zero]

end

/-- Settles O32: the tests in their order; the only store is that of the record, whose bytes are those of the rows. -/
theorem hexLineWritesOrSkipsItsRecord : Obligations.HexLineWritesOrSkipsItsRecord := by
  unfold Obligations.HexLineWritesOrSkipsItsRecord
  refine fun s cp payload hl hrec => ⟨fun hskip => ?skipped, fun hmin hmax h0 hfit => ?stored⟩
  case skipped =>
    obtain h | h | h | ⟨h32, h16⟩ := hskip
    · exact exec_hexLine_outOfRange (.inl h)
    · exact exec_hexLine_outOfRange (.inr h)
    · exact exec_hexLine_zero h
    · exact exec_hexLine_unfit (hexRecord_unfit (by omega) (.inr h16))
  case stored =>
    obtain ⟨record, hrecord⟩ := exists_hexRecord hl hrec hfit
    have hlen : record.length = s.gbc.recSize.toNat := length_hexRecord hrec hrecord
    have hkept := keptOutside_store s.gbc.tbl (s.gbc.slot cp.toNat) record
    rw [hlen] at hkept
    refine ⟨_, exec_hexLine_stored hmin hmax h0 hrecord, othersKept_setGbc s _, rfl, rfl, hkept,
      fun r m8 hl16 h16 hr => ?halfwidth, fun r m8 hl16 h32 hr => ?centred, fun r b0 b1 hl32 hr0 hr1 => ?fullwidth⟩
    case halfwidth =>
      rw [h16, hexRecord_halfwidth hl16] at hrecord
      cases hrecord
      exact Memory.read_store_of_getElem? _ _ (by rw [List.getElem?_map, hr, Option.map_some])
    case centred =>
      rw [h32, hexRecord_centred hl16] at hrecord
      cases hrecord
      have hrow : (payload.map center)[r]? = some (center m8) := by rw [List.getElem?_map, hr, Option.map_some]
      obtain ⟨hlow, hhigh⟩ := getElem?_flatMap_rowBytes16 hrow
      exact ⟨Memory.read_store_of_getElem? _ _ hlow, Memory.read_store_of_getElem? _ _ hhigh⟩
    case fullwidth =>
      rw [hfit.resolve_left (by omega), hexRecord_fullwidth hl32] at hrecord
      cases hrecord
      obtain ⟨hlow, hhigh⟩ := getElem?_flatMap_rowBytes16 (getElem?_payloadRows16 hr0 hr1)
      exact ⟨Memory.read_store_of_getElem? _ _ hlow, Memory.read_store_of_getElem? _ _ hhigh⟩

/-- Settles O39: the stored row is the reversed source row (R160), and the decode reads column `c` from its bit `c`
(R178). -/
theorem encodedRowsDecodeToTheSourcePixels : Obligations.EncodedRowsDecodeToTheSourcePixels := by
  unfold Obligations.EncodedRowsDecodeToTheSourcePixels
  intro s t s' cp payload r ht hmin hmax h0 slot a
  obtain ⟨hdecode8, hdecode16⟩ := glyphRowWritesItsPixels s' r
  refine ⟨fun m8 p hl hrec hm hp => ?halfwidth, fun b0 b1 p0 p1 hl hrec hb0 hb1 hp0 hp1 => ?fullwidth⟩
  case halfwidth =>
    obtain ⟨t1, ht1, -, -, -, -, hstored, -⟩ :=
      (hexLineWritesOrSkipsItsRecord s cp payload (.inl hl) (.inl hrec)).2 hmin hmax h0 (.inl hl)
    obtain rfl : t = t1 := Host.Outcome.next.inj (ht.symm.trans ht1)
    obtain rfl : rev8 m8 = p := Option.some.inj ((hstored r m8 hl hrec hm).symm.trans hp)
    obtain ⟨t', ht', -, -, hpix, -⟩ := hdecode8 (rev8 m8)
    exact ⟨t', ht', fun c hc h8 => by rw [hpix c hc, rev8, getLsbD_reverse_of_lt m8 h8]⟩
  case fullwidth =>
    obtain ⟨t1, ht1, -, -, -, -, -, -, hstored⟩ :=
      (hexLineWritesOrSkipsItsRecord s cp payload (.inr hl) (.inr hrec)).2 hmin hmax h0 (.inr hrec)
    obtain rfl : t = t1 := Host.Outcome.next.inj (ht.symm.trans ht1)
    obtain ⟨hlow, hhigh⟩ := hstored r b0 b1 hl hb0 hb1
    obtain rfl : (rev16 (b0 ++ b1)).extractLsb' 0 8 = p0 := Option.some.inj (hlow.symm.trans hp0)
    obtain rfl : (rev16 (b0 ++ b1)).extractLsb' 8 8 = p1 := Option.some.inj (hhigh.symm.trans hp1)
    have hword : (rev16 (b0 ++ b1)).extractLsb' 8 8 ++ (rev16 (b0 ++ b1)).extractLsb' 0 8 = rev16 (b0 ++ b1) :=
      be16_byteOf _
    rw [hword]
    obtain ⟨t', ht', -, -, hpix, -⟩ := hdecode16 (rev16 (b0 ++ b1))
    exact ⟨t', ht', fun c hc h16 => by rw [hpix c hc, rev16, getLsbD_reverse_of_lt _ h16]⟩

end Sys2Proof.Machine
end

section
/-!
Structured-text lines (R167 to R173): the code point an ENCODING line selects, the cleared slot, and one row.
-/

namespace Sys2Proof.Machine

/-! ## The code point (R167, R168, R169) -/

/-- The code point has a slot: it is not 0 and lies in the range (R169). -/
def Gbc.InRange (u : Gbc) (cp : Nat) : Prop := cp ≠ 0 ∧ u.cpMin.toNat ≤ cp ∧ cp ≤ u.cpMax.toNat

section

variable {u : Gbc} {n : BitVec 32} {cp : BitVec 16}

theorem selectCp_of_inRange (hcp : remap u.charset n = cp) (h : u.InRange cp.toNat) : selectCp u (some n) = cp := by
  obtain ⟨h0, hmin, hmax⟩ := h
  have h0' : cp ≠ 0 := by rintro rfl; exact h0 rfl
  simp only [selectCp, hcp]
  exact if_pos ⟨h0', hmin, hmax⟩

theorem selectCp_of_not_inRange (hcp : remap u.charset n = cp) (h : ¬ u.InRange cp.toNat) :
    selectCp u (some n) = 0 := by
  simp only [selectCp, hcp]
  exact if_neg fun ⟨h0, hmin, hmax⟩ => h ⟨fun e => h0 (BitVec.eq_of_toNat_eq e), hmin, hmax⟩

theorem selectCp_of_remap_zero (hcp : remap u.charset n = 0) : selectCp u (some n) = 0 :=
  selectCp_of_not_inRange hcp fun h => h.1 rfl

end

section

variable {n : BitVec 32}

theorem remap_tooLarge (c : Charset) (h : 0xFFFF < n.toNat) : remap c n = 0 := if_pos h

variable (h : n.toNat ≤ 0xFFFF)
include h

theorem remap_iso10646 : remap .iso10646 n = n.setWidth 16 := if_neg (not_lt.mpr h)

/-- A byte of the pair is outside the table's rows and cells. -/
theorem remap_jisx0208_outside (hcell : byteOf 0 n < 0x21 ∨ 0x7E < byteOf 0 n ∨ byteOf 1 n < 0x21 ∨ 0x7E < byteOf 1 n) :
    remap .jisx0208 n = 0 := by
  rw [remap, if_neg (not_lt.mpr h)]
  by_cases hlo : byteOf 0 n < 0x21 ∨ 0x7E < byteOf 0 n
  · exact if_pos hlo
  · have hhi : byteOf 1 n < 0x21 ∨ 0x7E < byteOf 1 n := by tauto
    exact (if_neg hlo).trans (if_pos hhi)

theorem remap_jisx0208_inside (hlo : 0x21 ≤ byteOf 0 n) (hlo' : byteOf 0 n ≤ 0x7E) (hhi : 0x21 ≤ byteOf 1 n)
    (hhi' : byteOf 1 n ≤ 0x7E) :
    remap .jisx0208 n = (Config.jis0208 (byteOf 1 n) (byteOf 0 n)).elim 0 Subtype.val := by
  have hlo2 : ¬ (byteOf 0 n < 0x21 ∨ 0x7E < byteOf 0 n) :=
    not_or.mpr ⟨BitVec.not_lt.mpr hlo, BitVec.not_lt.mpr hlo'⟩
  have hhi2 : ¬ (byteOf 1 n < 0x21 ∨ 0x7E < byteOf 1 n) :=
    not_or.mpr ⟨BitVec.not_lt.mpr hhi, BitVec.not_lt.mpr hhi'⟩
  simp only [remap, if_neg (not_lt.mpr h), if_neg hlo2, if_neg hhi2]
  cases Config.jis0208 (byteOf 1 n) (byteOf 0 n) <;> rfl

end

section

variable {s : State} {code : Option (BitVec 32)}

theorem exec_bdfEncoding_noCharset (h : s.gbc.charset = .none ∨ s.gbc.charset = .unknown) :
    exec (.bdfEncoding code) s = .next (s.raise .gbc .glyBadCharset) := if_pos h

theorem exec_bdfEncoding_charset (h : s.gbc.charset = .iso10646 ∨ s.gbc.charset = .jisx0208) :
    exec (.bdfEncoding code) s = .next (s.setGbc { s.gbc with curCp := selectCp s.gbc code }) := by
  have h' : ¬ (s.gbc.charset = .none ∨ s.gbc.charset = .unknown) := by
    obtain h | h := h <;> rw [h] <;> decide
  exact if_neg h'

end

/-- Settles O34: the charset is tested first; then the code is remapped and the code point's range decides. -/
theorem encodingLineSelectsTheCodePoint : Obligations.EncodingLineSelectsTheCodePoint := by
  unfold Obligations.EncodingLineSelectsTheCodePoint
  refine fun s code => ⟨exec_bdfEncoding_noCharset, fun hc => ⟨_, exec_bdfEncoding_charset hc, othersKept_setGbc s _,
    rfl, fun hnone => by rw [hnone]; rfl, fun n hn => ?code⟩⟩
  subst hn
  refine ⟨fun hlarge => selectCp_of_remap_zero (remap_tooLarge _ hlarge), fun hiso hn => ?iso, fun hjis hn => ?jis⟩
  case iso =>
    have hcp : remap s.gbc.charset n = n.setWidth 16 := by rw [hiso, remap_iso10646 hn]
    have hval : (n.setWidth 16).toNat = n.toNat := by
      rw [BitVec.toNat_setWidth]
      omega
    rw [← hval]
    exact ⟨fun h => congrArg BitVec.toNat (selectCp_of_inRange hcp h), selectCp_of_not_inRange hcp⟩
  case jis =>
    refine ⟨fun hcell => selectCp_of_remap_zero (by rw [hjis]; exact remap_jisx0208_outside hn hcell),
      fun hlo hlo' hhi hhi' => ?cell⟩
    have hcp := remap_jisx0208_inside hn hlo hlo' hhi hhi'
    rw [← hjis] at hcp
    refine ⟨fun hnone => selectCp_of_remap_zero (hcp.trans (congrArg (Option.elim · 0 Subtype.val) hnone)),
      fun u hu => ?_⟩
    have hcp' : remap s.gbc.charset n = u.val := hcp.trans (congrArg (Option.elim · 0 Subtype.val) hu)
    exact ⟨selectCp_of_inRange hcp', selectCp_of_not_inRange hcp'⟩

/-! ## The slot cleared, and the lines that store nothing (R170, R171, R173) -/

theorem exec_bdfBitmap_none {s : State} (h : s.gbc.curCp = 0) :
    exec .bdfBitmap s = .next (s.setGbc { s.gbc with pstate := .inBitmap, rowIdx := 0 }) := by
  simp only [exec, execBdfBitmap, if_pos h]

theorem exec_bdfBitmap_cleared {s : State} (h : s.gbc.curCp ≠ 0) :
    exec .bdfBitmap s = .next (s.setGbc { s.gbc with
      pstate := .inBitmap, rowIdx := 0
      tbl := s.gbc.tbl.zero (s.gbc.slot s.gbc.curCp.toNat) s.gbc.recSize.toNat }) := by
  simp only [exec, execBdfBitmap, if_neg h]

/-- Settles O35: BITMAP's only store is the zero fill of the slot; the other two lines store nothing. -/
theorem bitmapEndcharAndOtherLines : Obligations.BitmapEndcharAndOtherLines := by
  unfold Obligations.BitmapEndcharAndOtherLines
  refine fun s => ⟨?bitmap, ⟨_, rfl, othersKept_setGbc s _, rfl⟩, rfl⟩
  by_cases h : s.gbc.curCp = 0
  · exact ⟨_, exec_bdfBitmap_none h, othersKept_setGbc s _, rfl, fun _ => rfl, fun h' => absurd h h'⟩
  · refine ⟨_, exec_bdfBitmap_cleared h, othersKept_setGbc s _, rfl, fun h' => absurd h' h, fun _ =>
      ⟨fun a ha => ?zero, keptOutside_zero _ _ _⟩⟩
    exact (Memory.read_zero ..).trans (if_pos ⟨Nat.le_add_right _ a, Nat.add_lt_add_left ha _⟩)

/-! ## One row (R172) -/

theorem nextRow_eq (rowIdx : BitVec 5) : nextRow rowIdx = BitVec.ofNat 5 (min (rowIdx.toNat + 1) 16) := by
  rw [nextRow]
  split
  · have hmin : min (rowIdx.toNat + 1) 16 = rowIdx.toNat + 1 := by bv_omega
    rw [hmin]
    bv_omega
  · have hmin : min (rowIdx.toNat + 1) 16 = 16 := by bv_omega
    rw [hmin]
    rfl

section

variable {digits : List Nibble}

theorem bdfRowBytes_halfwidth (hd : 4 * digits.length ≤ 8) :
    bdfRowBytes 16 digits = some (rowBytes8 (leftAligned 8 digits)) := by
  rw [bdfRowBytes, if_pos (by omega), if_pos rfl]

/-- The row of a fullwidth table: one byte wide or less it is centred, else left-aligned (R172). -/
def fullwidthRow (digits : List Nibble) : BitVec 16 :=
  if 4 * digits.length ≤ 8 then center (leftAligned 8 digits) else leftAligned 16 digits

theorem bdfRowBytes_fullwidth (hd : 4 * digits.length ≤ 16) :
    bdfRowBytes 32 digits = some (rowBytes16 (fullwidthRow digits)) := by
  by_cases h2 : digits.length ≤ 2
  · rw [bdfRowBytes, if_pos h2, if_neg (by decide), fullwidthRow, if_pos (by omega)]
  · rw [bdfRowBytes, if_neg h2, if_pos ⟨by omega, by decide⟩, fullwidthRow, if_neg (by omega)]

theorem bdfRowBytes_tooWide {recSize : BitVec 6} (h2 : 8 < 4 * digits.length)
    (hw : 16 < 4 * digits.length ∨ recSize = 16) : bdfRowBytes recSize digits = none := by
  rw [bdfRowBytes, if_neg (by omega), if_neg fun h => hw.elim (by omega) h.2]

theorem length_rowBytes16 (m16 : BitVec 16) : (rowBytes16 m16).length = 2 := rfl

/-- A row is a sixteenth of its slot. -/
theorem length_bdfRowBytes {recSize : BitVec 6} (hrec : recSize = 16 ∨ recSize = 32) {row : List Byte}
    (h : bdfRowBytes recSize digits = some row) : 16 * row.length = recSize.toNat := by
  obtain rfl | rfl := hrec
  · by_cases hd : 4 * digits.length ≤ 8
    · rw [bdfRowBytes_halfwidth hd] at h
      cases h
      rfl
    · rw [bdfRowBytes_tooWide (not_le.mp hd) (.inr rfl)] at h
      cases h
  · by_cases hd : 4 * digits.length ≤ 16
    · rw [bdfRowBytes_fullwidth hd] at h
      cases h
      rw [length_rowBytes16]
      rfl
    · rw [bdfRowBytes_tooWide (by omega) (.inl (not_le.mp hd))] at h
      cases h

end

/-- TBL after a ROW line: the row is stored at row ROW_IDX of the slot of CUR_CP, if it is stored. -/
def Gbc.rowTable (u : Gbc) (digits : Option (List Nibble)) : Memory :=
  match digits.bind (bdfRowBytes u.recSize) with
  | some row =>
    if u.curCp ≠ 0 ∧ u.rowIdx.toNat < 16 then
      u.tbl.store (u.slot u.curCp.toNat + u.rowIdx.toNat * (u.recSize.toNat / 16)) row
    else u.tbl
  | none => u.tbl

theorem exec_bdfRow (s : State) (digits : Option (List Nibble)) : exec (.bdfRow digits) s =
    .next (s.setGbc { s.gbc with rowIdx := nextRow s.gbc.rowIdx, tbl := s.gbc.rowTable digits }) := by
  have hrow : s.gbc.rowIdx < 16 ↔ s.gbc.rowIdx.toNat < 16 := BitVec.lt_def
  simp only [exec, execBdfRow, Gbc.rowTable, hrow]
  cases digits.bind (bdfRowBytes s.gbc.recSize) with
  | none => simp only [ite_self]
  | some row => split <;> rfl

section

variable {u : Gbc} {digits : Option (List Nibble)}

theorem Gbc.rowTable_closed (h : u.curCp = 0 ∨ 16 ≤ u.rowIdx.toNat) : u.rowTable digits = u.tbl := by
  have hclosed : ¬ (u.curCp ≠ 0 ∧ u.rowIdx.toNat < 16) := by rwa [not_and_or, not_not, not_lt]
  rw [Gbc.rowTable]
  split
  · exact if_neg hclosed
  · rfl

theorem Gbc.rowTable_unfit (h : digits.bind (bdfRowBytes u.recSize) = none) : u.rowTable digits = u.tbl := by
  simp only [Gbc.rowTable, h]

theorem Gbc.rowTable_stored (hcp : u.curCp ≠ 0) (hrow : u.rowIdx.toNat < 16) {row : List Byte}
    (h : digits.bind (bdfRowBytes u.recSize) = some row) : u.rowTable digits =
      u.tbl.store (u.slot u.curCp.toNat + u.rowIdx.toNat * (u.recSize.toNat / 16)) row := by
  simp only [Gbc.rowTable, h, if_pos (And.intro hcp hrow)]

variable {ds : List Nibble} (hcp : u.curCp ≠ 0) (hrow : u.rowIdx.toNat < 16)
include hcp hrow

theorem Gbc.rowTable_halfwidth (h16 : u.recSize = 16) (hfit : 4 * ds.length ≤ 8) : u.rowTable (some ds) =
    u.tbl.store (u.slot u.curCp.toNat + u.rowIdx.toNat) (rowBytes8 (leftAligned 8 ds)) := by
  have h := Gbc.rowTable_stored (digits := some ds) hcp hrow (h16 ▸ bdfRowBytes_halfwidth hfit)
  rwa [h16, show (16 : BitVec 6).toNat / 16 = 1 from rfl, Nat.mul_one] at h

theorem Gbc.rowTable_fullwidth (h32 : u.recSize = 32) (hfit : 4 * ds.length ≤ 16) : u.rowTable (some ds) =
    u.tbl.store (u.slot u.curCp.toNat + 2 * u.rowIdx.toNat) (rowBytes16 (fullwidthRow ds)) := by
  have h := Gbc.rowTable_stored (digits := some ds) hcp hrow (h32 ▸ bdfRowBytes_fullwidth hfit)
  rwa [h32, show (32 : BitVec 6).toNat / 16 = 2 from rfl, Nat.mul_comm _ 2] at h

end

/-- A fullwidth row, stored reversed, low byte first (R156). -/
theorem read_store_rowBytes16 (m : Memory) (a : Nat) (m16 : BitVec 16) :
    (m.store a (rowBytes16 m16)).read a = some ((rev16 m16).extractLsb' 0 8) ∧
      (m.store a (rowBytes16 m16)).read (a + 1) = some ((rev16 m16).extractLsb' 8 8) ∧
      KeptOutside m (m.store a (rowBytes16 m16)) a 2 :=
  ⟨Memory.read_store_of_getElem? (k := 0) m a rfl, Memory.read_store_of_getElem? (k := 1) m a rfl,
    keptOutside_store m a (rowBytes16 m16)⟩

/-- Settles O36: the only store is that of the row, if it is stored; its width decides how. -/
theorem rowLineWritesOrSkipsOneRow : Obligations.RowLineWritesOrSkipsOneRow := by
  unfold Obligations.RowLineWritesOrSkipsOneRow
  intro s digits hrec row slot
  refine ⟨_, exec_bdfRow s digits, othersKept_setGbc s _, by rw [nextRow_eq]; rfl, fun hskip => ?skipped,
    fun ds hds _ hcp hrow => ?row⟩
  case skipped =>
    obtain h | h | h := hskip
    · exact Gbc.rowTable_closed (.inl h)
    · exact Gbc.rowTable_closed (.inr h)
    · exact Gbc.rowTable_unfit (by rw [h]; rfl)
  case row =>
    subst hds
    intro v bits
    refine ⟨fun h16 hfit => ?halfwidth, fun h16 hwide => ?tooWide16, fun h32 hfit => ?fullwidth,
      fun _ hwide => ?tooWide32⟩
    case halfwidth =>
      simp only [State.setGbc_gbc, Gbc.rowTable_halfwidth hcp hrow h16 hfit]
      exact ⟨Memory.read_store_one _ _ _, keptOutside_store _ _ (rowBytes8 _)⟩
    case fullwidth =>
      simp only [State.setGbc_gbc, Gbc.rowTable_fullwidth hcp hrow h32 hfit]
      exact read_store_rowBytes16 _ _ (fullwidthRow ds)
    case tooWide16 => exact Gbc.rowTable_unfit (bdfRowBytes_tooWide hwide (.inr h16))
    case tooWide32 => exact Gbc.rowTable_unfit (bdfRowBytes_tooWide (by omega) (.inl hwide))

end Sys2Proof.Machine
end

section
/-!
The parse step (R155, R158): one line is taken and run. What a line may store, said once for every line
(`StoresOnlyIn`), and that the slot of a code point in the range lies behind the header and within the table (R156,
R180).
-/

namespace Sys2Proof.Machine

/-! ## One line -/

section

variable {s : State} (hb : s.busy .gbc) (hp : s.gbc.phase = .parse)
include hb hp

theorem agentStep_gbc_textEnd (hl : s.gbc.srcLen ≤ s.gbc.srcPos) :
    agentStep (.unit .gbc) s = .next (s.finish .gbc) := by
  simp only [agentStep_gbc hb, fetchGbc, hp, fetchLine, if_pos hl, runFetched_other, gbcStop]

theorem agentStep_gbc_line (hl : s.gbc.srcPos < s.gbc.srcLen) {raw : List Byte}
    (hx : s.gbc.src.lineAt s.gbc.srcPos (s.gbc.srcLen - s.gbc.srcPos) = .ok raw) :
    agentStep (.unit .gbc) s = runFetched (runDecoded (if s.gbc.mode = 1 then .hexText else .bdfText s.gbc.pstate) raw
      (s.pastLine raw) (.next (s.pastLine raw))) := by
  rw [agentStep_gbc hb, fetchGbc_line hp hl, hx, fetchBytes_ok]

end

/-- Settles O37: the bytes up to the line feed are the line read, and its decoding decides what runs. -/
theorem parseStepConsumesOneLine : Obligations.ParseStepConsumesOneLine := by
  unfold Obligations.ParseStepConsumesOneLine
  refine fun s hb hp => ⟨fun hl => ⟨_, agentStep_gbc_textEnd hb hp hl, othersKept_setGbc s _, rfl⟩,
    fun raw hm hle hl hraw hlf hend => ?line⟩
  intro moved place
  have hx : s.gbc.src.lineAt s.gbc.srcPos (s.gbc.srcLen - s.gbc.srcPos) = .ok raw :=
    (Memory.lineAt_eq_ok _ _ _ _ hm).mpr ⟨by omega, hraw, hlf, fun hshort => hend.resolve_left (by omega)⟩
  rw [agentStep_gbc_line hb hp hl hx]
  exact ⟨fun i hi => runFetched_decoded_ok _ _ hi, fun e he => runFetched_decoded_error _ _ he⟩

/-! ## What a line stores (R169) -/

/-- TBL is stored to only in the slot of code point `cp`, nowhere for `cp = 0`, and the table's geometry is kept. -/
structure StoresOnlyIn (cp : Nat) (u v : Gbc) : Prop where
  none : cp = 0 → v.tbl = u.tbl
  slot : cp ≠ 0 → KeptOutside u.tbl v.tbl (u.slot cp) u.recSize.toNat
  count : v.count = u.count
  recSize : v.recSize = u.recSize
  tblLen : v.tblLen = u.tblLen

/-- An update that leaves TBL and the geometry alone. -/
theorem StoresOnlyIn.of_kept (cp : Nat) {u v : Gbc} (htbl : v.tbl = u.tbl) (hcount : v.count = u.count)
    (hrecSize : v.recSize = u.recSize) (hlen : v.tblLen = u.tblLen) : StoresOnlyIn cp u v :=
  ⟨fun _ => htbl, fun _ => htbl ▸ KeptOutside.refl _ _ _, hcount, hrecSize, hlen⟩

section

variable {s : State}

theorem execHexLine_storesOnlyIn (hrec : s.gbc.recSize = 16 ∨ s.gbc.recSize = 32) (cp : BitVec 32)
    (payload : List Byte) : Ensures (fun t => StoresOnlyIn (s.gbc.lineCp (.hexLine cp payload)) s.gbc t.gbc)
      (exec (.hexLine cp payload) s) := by
  have hskip (h : exec (.hexLine cp payload) s = .next s) :
      Ensures (fun t => StoresOnlyIn (s.gbc.lineCp (.hexLine cp payload)) s.gbc t.gbc)
        (exec (.hexLine cp payload) s) := by
    rw [h]
    exact .of_kept _ rfl rfl rfl rfl
  by_cases hin : cp.toNat < s.gbc.cpMin.toNat ∨ s.gbc.cpMax.toNat < cp.toNat
  · exact hskip (exec_hexLine_outOfRange hin)
  by_cases h0 : cp = 0
  · exact hskip (exec_hexLine_zero h0)
  cases hrecord : hexRecord s.gbc.recSize payload with
  | none => exact hskip (exec_hexLine_unfit hrecord)
  | some record =>
    have hcp : s.gbc.lineCp (.hexLine cp payload) = cp.toNat := if_pos (by omega)
    have hkept := keptOutside_store s.gbc.tbl (s.gbc.slot cp.toNat) record
    rw [length_hexRecord hrec hrecord] at hkept
    rw [exec_hexLine_stored (by omega) (by omega) h0 hrecord, hcp]
    exact ⟨fun h => absurd (BitVec.eq_of_toNat_eq h) h0, fun _ => hkept, rfl, rfl, rfl⟩

theorem execBdfBitmap_storesOnlyIn (s : State) :
    Ensures (fun t => StoresOnlyIn s.gbc.curCp.toNat s.gbc t.gbc) (exec .bdfBitmap s) := by
  by_cases h : s.gbc.curCp = 0
  · rw [exec_bdfBitmap_none h]
    exact .of_kept _ rfl rfl rfl rfl
  · rw [exec_bdfBitmap_cleared h]
    exact ⟨fun h0 => absurd (BitVec.eq_of_toNat_eq h0) h, fun _ => keptOutside_zero _ _ _, rfl, rfl, rfl⟩

/-- The row stored at row ROW_IDX lies in the slot. -/
theorem Gbc.keptOutside_rowTable {u : Gbc} (hrec : u.recSize = 16 ∨ u.recSize = 32) (digits : Option (List Nibble)) :
    KeptOutside u.tbl (u.rowTable digits) (u.slot u.curCp.toNat) u.recSize.toNat := by
  by_cases hclosed : u.curCp = 0 ∨ 16 ≤ u.rowIdx.toNat
  · rw [Gbc.rowTable_closed hclosed]
    exact KeptOutside.refl _ _ _
  obtain ⟨hcp, hrow⟩ := not_or.mp hclosed
  cases hbytes : digits.bind (bdfRowBytes u.recSize) with
  | none =>
    rw [Gbc.rowTable_unfit hbytes]
    exact KeptOutside.refl _ _ _
  | some row =>
    obtain ⟨ds, -, hds⟩ := Option.bind_eq_some_iff.mp hbytes
    have hlen : 16 * row.length = u.recSize.toNat := length_bdfRowBytes hrec hds
    have hplace : u.rowIdx.toNat * row.length + row.length ≤ 16 * row.length := by
      rw [← Nat.succ_mul]
      exact Nat.mul_le_mul_right _ (not_le.mp hrow)
    rw [Gbc.rowTable_stored hcp (not_le.mp hrow) hbytes, ← hlen, Nat.mul_div_cancel_left _ (by decide)]
    exact (KeptOutside.refl _ _ _).store (Nat.le_add_right _ _) (by omega)

theorem execBdfRow_storesOnlyIn (hrec : s.gbc.recSize = 16 ∨ s.gbc.recSize = 32) (digits : Option (List Nibble)) :
    Ensures (fun t => StoresOnlyIn s.gbc.curCp.toNat s.gbc t.gbc) (exec (.bdfRow digits) s) := by
  rw [exec_bdfRow]
  exact ⟨fun h0 => Gbc.rowTable_closed (.inl (BitVec.eq_of_toNat_eq h0)), fun _ => Gbc.keptOutside_rowTable hrec digits,
    rfl, rfl, rfl⟩

/-- Every text line, whatever its place (R158). -/
theorem exec_line_storesOnlyIn (hrec : s.gbc.recSize = 16 ∨ s.gbc.recSize = 32) {i : Instr} {mode : BitVec 2}
    {st : PState} (hi : i.place = if mode = 1 then .hexText else .bdfText st) :
    Ensures (fun t => StoresOnlyIn (s.gbc.lineCp i) s.gbc t.gbc) (exec i s) := by
  cases i with
  | hexLine cp payload => exact execHexLine_storesOnlyIn hrec cp payload
  | bdfBitmap => exact execBdfBitmap_storesOnlyIn s
  | bdfRow digits => exact execBdfRow_storesOnlyIn hrec digits
  | bdfEncoding code => exact .ite (fun _ => .of_kept _ rfl rfl rfl rfl) fun _ => .of_kept _ rfl rfl rfl rfl
  | bdfCharset | bdfEndchar | bdfOther => exact .of_kept _ rfl rfl rfl rfl
  | _ => split at hi <;> cases hi

end

/-! ## Where the slots lie (R156, R169) -/

theorem Gbc.Ok.recSize_eq {u : Gbc} (h : u.Ok) (hb : u.shell.status = .busy) (hp : u.phase = .parse) :
    u.recSize = 16 ∨ u.recSize = 32 := by
  obtain ⟨-, -, -, -, -, -, hrec, -⟩ := h.encode hb (.inr hp)
  rw [hrec, recSizeOf]
  split
  · exact .inl rfl
  · exact .inr rfl

/-- The code point a line names is one of the range. -/
theorem Gbc.Ok.lineCp_in {u : Gbc} (h : u.Ok) (hb : u.shell.status = .busy) {i : Instr} (h0 : u.lineCp i ≠ 0) :
    u.cpMin.toNat ≤ u.lineCp i ∧ u.lineCp i ≤ u.cpMax.toNat := by
  cases i with
  | hexLine cp payload =>
    by_cases hin : u.cpMin.toNat ≤ cp.toNat ∧ cp.toNat ≤ u.cpMax.toNat
    · rwa [Gbc.lineCp, if_pos hin]
    · exact absurd (if_neg hin) h0
  | bdfBitmap | bdfRow =>
    have hcp : u.curCp ≠ 0 := fun e => h0 (congrArg BitVec.toNat e)
    exact (h.curCp_in hb hcp).2
  | _ => exact absurd rfl h0

/-- The slot of a code point of the range ends within the table. -/
theorem Gbc.Ok.slot_end_le {u : Gbc} (h : u.Ok) (hb : u.shell.status = .busy) (hp : u.phase = .parse) {cp : Nat}
    (hmax : cp ≤ u.cpMax.toNat) : u.slot cp + u.recSize.toNat ≤ u.tblLen := by
  obtain ⟨-, hmin, -, -, hcount, -, -, hlen⟩ := h.encode hb (.inr hp)
  have hplace : (cp - u.cpMin.toNat) * u.recSize.toNat + u.recSize.toNat ≤ u.count.toNat * u.recSize.toNat := by
    rw [← Nat.succ_mul]
    exact Nat.mul_le_mul_right _ (by omega)
  rw [hlen, Gbc.slot, Nat.add_assoc]
  exact Nat.add_le_add_left hplace 8

/-- In a range from code point 0 on, the slot of a later one lies behind that of 0. -/
theorem Gbc.recSize_le_slot {u : Gbc} (hmin : u.cpMin = 0) {cp : Nat} (h0 : cp ≠ 0) :
    8 + u.recSize.toNat ≤ u.slot cp := by
  have hcp : 0 < cp - u.cpMin.toNat := by rw [hmin]; exact Nat.pos_of_ne_zero h0
  exact Nat.add_le_add_left (Nat.le_mul_of_pos_left _ hcp) 8

/-- A store within the slot of a code point of the range misses the header, all at or beyond TBL_LEN, and the slot of
code point 0 (R169, R180). -/
theorem StoresOnlyIn.outside {u v : Gbc} {cp : Nat} (hs : StoresOnlyIn cp u v) (h : u.Ok)
    (hb : u.shell.status = .busy) (hp : u.phase = .parse) (hcp : cp ≠ 0 → cp ≤ u.cpMax.toNat) :
    (∀ a, a < 8 ∨ u.tblLen ≤ a → v.tbl.read a = u.tbl.read a) ∧
      (u.cpMin = 0 → ∀ a, a < 8 + u.recSize.toNat → v.tbl.read a = u.tbl.read a) := by
  by_cases h0 : cp = 0
  · have htbl := hs.none h0
    exact ⟨fun a _ => by rw [htbl], fun _ a _ => by rw [htbl]⟩
  · have hstart : 8 ≤ u.slot cp := Nat.le_add_right _ _
    have hend := h.slot_end_le hb hp (hcp h0)
    exact ⟨fun a ha => hs.slot h0 a (by omega), fun hmin a ha =>
      hs.slot h0 a (.inl (ha.trans_le (Gbc.recSize_le_slot hmin h0)))⟩

/-! ## What a parse step stores -/

section

variable {s t : State} (h : Inv s) (hb : s.busy .gbc) (hp : s.gbc.phase = .parse)
  (ht : agentStep (.unit .gbc) s = .next t)

include hb hp ht in
theorem textEnd_storesOnlyIn (hl : s.gbc.srcLen ≤ s.gbc.srcPos) : StoresOnlyIn 0 s.gbc t.gbc := by
  rw [agentStep_gbc_textEnd hb hp hl] at ht
  cases ht
  exact .of_kept 0 rfl rfl rfl rfl

variable (hl : s.gbc.srcPos < s.gbc.srcLen) {raw : List Byte}
  (hx : s.gbc.src.lineAt s.gbc.srcPos (s.gbc.srcLen - s.gbc.srcPos) = .ok raw)

include hb hp ht hl hx in
theorem rejectedLine_storesOnlyIn {e : Reject}
    (he : decode (if s.gbc.mode = 1 then .hexText else .bdfText s.gbc.pstate) raw = .error e) :
    StoresOnlyIn 0 s.gbc t.gbc := by
  rw [agentStep_gbc_line hb hp hl hx, runFetched_decoded_error _ _ he] at ht
  cases ht
  exact .of_kept 0 rfl rfl rfl rfl

/-- Moving SRC_POS changes no code point a line names. -/
theorem lineCp_pastLine (s : State) (raw : List Byte) (i : Instr) :
    (s.pastLine raw).gbc.lineCp i = s.gbc.lineCp i := by
  cases i <;> rfl

include h hb hp ht hl hx in
theorem decodedLine_storesOnlyIn {i : Instr}
    (hi : decode (if s.gbc.mode = 1 then .hexText else .bdfText s.gbc.pstate) raw = .ok i) :
    StoresOnlyIn (s.gbc.lineCp i) s.gbc t.gbc := by
  rw [agentStep_gbc_line hb hp hl hx, runFetched_decoded_ok _ _ hi] at ht
  have hrec : (s.pastLine raw).gbc.recSize = 16 ∨ (s.pastLine raw).gbc.recSize = 32 := h.gbc.recSize_eq hb hp
  obtain ⟨hnone, hslot, hcount, hrecSize, hlen⟩ := (exec_line_storesOnlyIn hrec (decode_place hi)).of_next ht
  rw [lineCp_pastLine] at hnone hslot
  exact ⟨hnone, hslot, hcount, hrecSize, hlen⟩

include h hb hp ht in
/-- Every parse step stores in the slot of one code point of the range at most. -/
theorem parseStep_storesOnlyIn : ∃ cp, StoresOnlyIn cp s.gbc t.gbc ∧ (cp ≠ 0 → cp ≤ s.gbc.cpMax.toNat) := by
  by_cases hl : s.gbc.srcLen ≤ s.gbc.srcPos
  · exact ⟨0, textEnd_storesOnlyIn hb hp ht hl, fun h0 => absurd rfl h0⟩
  rw [not_le] at hl
  have hread := ht
  rw [agentStep_gbc hb, fetchGbc_line hp hl] at hread
  obtain ⟨raw, hx, -⟩ := runFetched_bytes hread
  cases hd : decode (if s.gbc.mode = 1 then .hexText else .bdfText s.gbc.pstate) raw with
  | error e => exact ⟨0, rejectedLine_storesOnlyIn hb hp ht hl hx hd, fun h0 => absurd rfl h0⟩
  | ok i => exact ⟨_, decodedLine_storesOnlyIn h hb hp ht hl hx hd, fun h0 => (h.gbc.lineCp_in hb h0).2⟩

end

/-- Settles O38: each line stores only in the slot it names, and that slot lies in the table, behind the header. -/
theorem parseStepsWriteOnlyNamedSlots : Obligations.ParseStepsWriteOnlyNamedSlots := by
  unfold Obligations.ParseStepsWriteOnlyNamedSlots
  intro s t h hb hp ht
  obtain ⟨cp, hstores, hcp⟩ := parseStep_storesOnlyIn h hb hp ht
  obtain ⟨hbounds, hzero⟩ := hstores.outside h.gbc hb hp hcp
  refine ⟨fun hl => (textEnd_storesOnlyIn hb hp ht hl).none rfl, fun raw hl hx => ⟨fun e he => ?rejected,
    fun i hi => ?decoded⟩, hbounds, hzero, hstores.count, hstores.recSize, hstores.tblLen⟩
  case rejected => exact (rejectedLine_storesOnlyIn hb hp ht hl hx he).none rfl
  case decoded =>
    have hline := decodedLine_storesOnlyIn h hb hp ht hl hx hi
    exact ⟨hline.none, hline.slot⟩

end Sys2Proof.Machine
end

section
/-!
SSR's single steps (R200 to R207): the slots a check step clears, the slot a sector goes to and the sector's bytes read
back from its fields, and the image an emit step writes.
-/

namespace Sys2Proof

/-! ## A sector's fields and its bytes (R90) -/

theorem byteOf_zero_append {n : Nat} (x : BitVec n) (b : Byte) : byteOf 0 (x ++ b) = b :=
  BitVec.extractLsb'_append_eq_right

theorem byteOf_succ_append (k : Nat) {n : Nat} (x : BitVec n) (b : Byte) : byteOf (k + 1) (x ++ b) = byteOf k x := by
  have hle : 8 ≤ 8 * (k + 1) := by omega
  rw [byteOf, BitVec.extractLsb'_append_eq_of_le hle, Nat.mul_succ, Nat.add_sub_cancel, byteOf]

theorem byteOf_zero_byte (b : Byte) : byteOf 0 b = b := BitVec.extractLsb'_eq_self

theorem encode_of_decodeTrailer {data last : List Byte} {i : Instr} (h : decodeTrailer data last = .ok i) :
    encode i = data ++ last := by
  unfold decodeTrailer at h
  split at h
  · cases h
    simp only [encode, le16, le32, byteOf_zero_append, byteOf_succ_append, byteOf_zero_byte]
  · cases h

theorem encode_of_decode_sector {bytes : List Byte} {i : Instr} (h : decode .sector bytes = .ok i) :
    encode i = bytes :=
  (encode_of_decodeTrailer h).trans (List.take_append_drop _ _)

end Sys2Proof

namespace Sys2Proof.Machine

theorem length_sectorBytes (data : List Byte) (index : BitVec 16) (undescribed : BitVec 48) (counter : BitVec 32) :
    (sectorBytes data index undescribed counter).length = data.length + 12 :=
  List.length_append

theorem othersKept_setSsr (s : State) (u : Ssr) : OthersKept .ssr s (s.setSsr u) :=
  othersKept_graft .ssr (s.setSsr u) s

/-! ## The check step (R200) -/

/-- SSR after a check step that passes. -/
def Ssr.cleared (u : Ssr) : Ssr :=
  { u with
    slotA := u.slotA.zero 0 0xE000, slotB := u.slotB.zero 0 0xE000, outLen := u.rawLen, p := 0, phase := .gather }

section

variable {s : State}

theorem agentStep_ssr_check (hb : s.busy .ssr) (hp : s.ssr.phase = .check) :
    agentStep (.unit .ssr) s = ssrCheck s := by
  simp only [agentStep_ssr hb, fetchSsr, hp, runFetched_other]

theorem ssrCheck_short (hl : s.ssr.rawLen < 0x1C000) : ssrCheck s = .next (s.raise .ssr .ssrShortImage) := if_pos hl

theorem ssrCheck_passed (hl : 0x1C000 ≤ s.ssr.rawLen) : ssrCheck s = .next (s.setSsr s.ssr.cleared) :=
  if_neg (not_lt.mpr hl)

end

/-! ## The gather steps (R201 to R203) -/

/-- A slot after a sector with logical index `index` has come: stored at its place, or dropped (R202, R203). -/
def Memory.putSector (slot : Memory) (index : Nat) (bytes : List Byte) : Memory :=
  if index < 14 then slot.store (0x1000 * index) bytes else slot

theorem Memory.putSector_dropped (slot : Memory) {index : Nat} (h : 14 ≤ index) (bytes : List Byte) :
    slot.putSector index bytes = slot := if_neg (not_lt.mpr h)

theorem Memory.putSector_stored (slot : Memory) {index : Nat} (h : index < 14) (bytes : List Byte) :
    slot.putSector index bytes = slot.store (0x1000 * index) bytes := if_pos h

/-- A stored sector holds its bytes at its place, and nothing else of the slot changes (R202). -/
theorem Memory.putSector_holds (slot : Memory) {index : Nat} (h : index < 14) {bytes : List Byte}
    (hl : bytes.length = 0x1000) :
    (∀ a, a < 0x1000 → (slot.putSector index bytes).read (0x1000 * index + a) = bytes[a]?) ∧
      KeptOutside slot (slot.putSector index bytes) (0x1000 * index) 0x1000 := by
  rw [Memory.putSector_stored slot h]
  exact ⟨fun a ha => Memory.read_store_add slot _ (hl ▸ ha), hl ▸ keptOutside_store slot _ bytes⟩

/-- SSR after the gather step for a sector (R202): region 0 feeds slot A, region 1 slot B. -/
def Ssr.gathered (u : Ssr) (index : Nat) (bytes : List Byte) : Ssr :=
  { u with
    p := u.p + 1
    slotA := if u.p.toNat < 14 then u.slotA.putSector index bytes else u.slotA
    slotB := if u.p.toNat < 14 then u.slotB else u.slotB.putSector index bytes }

theorem exec_secTrailer (s : State) (data : List Byte) (index : BitVec 16) (undescribed : BitVec 48)
    (counter : BitVec 32) :
    exec (.secTrailer data index undescribed counter) s =
      .next (s.setSsr (s.ssr.gathered index.toNat (sectorBytes data index undescribed counter))) := by
  have hexec : exec (.secTrailer data index undescribed counter) s =
      execSecTrailer data index undescribed counter s := rfl
  rw [hexec]
  simp only [execSecTrailer, Ssr.gathered, Memory.putSector]
  split_ifs <;> rfl

section

variable {s : State} (hb : s.busy .ssr)
include hb

theorem agentStep_ssr_sector (hp : s.ssr.phase = .gather) (h28 : s.ssr.p ≠ 28) {bytes : List Byte} {i : Instr}
    (hx : s.ssr.raw.load (0x1000 * s.ssr.p.toNat) 0x1000 = .ok bytes) (hi : decode .sector bytes = .ok i) :
    agentStep (.unit .ssr) s = exec i s :=
  (agentStep_ssr hb).trans (runFetched_read_decoded (fetchSsr_sector hp h28) hx hi)

theorem agentStep_ssr_gatherEnd (hp : s.ssr.phase = .gather) (h28 : s.ssr.p = 28) :
    agentStep (.unit .ssr) s = .next (s.setSsr { s.ssr with phase := .emit }) := by
  simp only [agentStep_ssr hb, fetchSsr, hp, if_pos h28, runFetched_other, ssrGatherEnd]

/-! ## The emit step (R205 to R207) -/

theorem agentStep_ssr_emit (hp : s.ssr.phase = .emit) : agentStep (.unit .ssr) s = ssrEmit s := by
  simp only [agentStep_ssr hb, fetchSsr, hp, runFetched_other]

end

theorem Memory.load_store (m : Memory) (hm : m.wf) (a : Nat) (bytes : List Byte) :
    (m.store a bytes).load a bytes.length = .ok bytes :=
  (Memory.load_eq_ok _ _ _ _ (Memory.store_wf m a bytes hm)).mpr ⟨rfl, fun _ hk => Memory.read_store_add m a hk⟩

/-- The two slots as the emit step orders them, then the tail (R206, R207). -/
def orderedImage (ca cb : BitVec 32) (a b tail : List Byte) : List Byte :=
  (if cb.toNat < ca.toNat then a ++ b else b ++ a) ++ tail

/-- SSR after the emit step, from the counters, the slots' bytes and the image's tail. -/
def Ssr.emitted (u : Ssr) (ca cb : BitVec 32) (a b tail : List Byte) : Ssr :=
  { u with
    shell := { u.shell with status := .done }, cntA := ca, cntB := cb
    first := if cb.toNat < ca.toNat then 0 else 1, outImg := u.outImg.store 0 (orderedImage ca cb a b tail) }

theorem firstSlot_eq_zero_iff (ca cb : BitVec 32) : firstSlot ca cb = 0 ↔ cb.toNat < ca.toNat := by
  rw [firstSlot, ← BitVec.lt_def]
  split <;> simp_all

/-- The bytes the emit step reads. -/
structure EmitReads (u : Ssr) (ca cb a b tail : List Byte) : Prop where
  counterA : u.slotA.load 0xFFC 4 = .ok ca
  counterB : u.slotB.load 0xFFC 4 = .ok cb
  slotA : u.slotA.load 0 0xE000 = .ok a
  slotB : u.slotB.load 0 0xE000 = .ok b
  tail : u.raw.load 0x1C000 (u.rawLen - 0x1C000) = .ok tail

theorem ssrEmit_of_reads {s : State} {ca cb a b tail : List Byte} (h : EmitReads s.ssr ca cb a b tail) :
    ssrEmit s = .next (s.setSsr (s.ssr.emitted (counterOf ca) (counterOf cb) a b tail)) := by
  obtain ⟨hca, hcb, ha, hb, ht⟩ := h
  simp only [ssrEmit, hca, hcb, ha, hb, ht, withBytes_ok, firstSlot_eq_zero_iff]
  rfl

theorem EmitReads.length_orderedImage {u : Ssr} {ca cb a b tail : List Byte} (h : EmitReads u ca cb a b tail)
    (hl : 0x1C000 ≤ u.rawLen) (x y : BitVec 32) : (orderedImage x y a b tail).length = u.rawLen := by
  have ha := Memory.load_length _ _ _ _ h.slotA
  have hb := Memory.load_length _ _ _ _ h.slotB
  have ht := Memory.load_length _ _ _ _ h.tail
  rw [orderedImage, List.length_append, ht]
  split <;> rw [List.length_append] <;> omega

/-! ## The statements -/

/-- Settles O40: the length test, then the two zero fills. -/
theorem ssrCheckStepZeroesTheSlots : Obligations.SsrCheckStepZeroesTheSlots := by
  unfold Obligations.SsrCheckStepZeroesTheSlots
  intro s hb hp
  rw [agentStep_ssr_check hb hp]
  refine ⟨ssrCheck_short, fun hl => ⟨_, ssrCheck_passed hl, othersKept_setSsr s _, rfl, fun a ha => ⟨?slotA, ?slotB⟩,
    keptOutside_zero _ _ _, keptOutside_zero _ _ _⟩⟩
  case slotA => exact (Memory.read_zero _ _ _ _).trans (if_pos ⟨Nat.zero_le a, by omega⟩)
  case slotB => exact (Memory.read_zero _ _ _ _).trans (if_pos ⟨Nat.zero_le a, by omega⟩)

/-- Settles O41: the cursor names the slot and the index the place; the fetch is the one at the sector place. -/
theorem sectorIsCopiedToItsLogicalPlaceOrDropped : Obligations.SectorIsCopiedToItsLogicalPlaceOrDropped := by
  unfold Obligations.SectorIsCopiedToItsLogicalPlaceOrDropped
  refine ⟨fun s data index undescribed counter hdata => ?trailer, fun s hb hp => ⟨fun h28 =>
    ⟨_, agentStep_ssr_gatherEnd hb hp h28, othersKept_setSsr s _, rfl⟩, fun bytes i h28 hx hi =>
    ⟨agentStep_ssr_sector hb hp h28 hx hi, encode_of_decode_sector hi⟩⟩⟩
  intro bytes
  have hlen : bytes.length = 0x1000 := (length_sectorBytes data index undescribed counter).trans (by rw [hdata])
  refine ⟨_, exec_secTrailer s data index undescribed counter, othersKept_setSsr s _, rfl, fun hi => ?dropped,
    fun hi hp => ?slotA, fun hi hp => ?slotB⟩
  case dropped =>
    simp only [State.setSsr_ssr, Ssr.gathered, Memory.putSector_dropped _ hi, ite_self, and_self]
  case slotA =>
    simp only [State.setSsr_ssr, Ssr.gathered, if_pos hp]
    exact ⟨trivial, Memory.putSector_holds _ hi hlen⟩
  case slotB =>
    simp only [State.setSsr_ssr, Ssr.gathered, if_neg (not_lt.mpr hp)]
    exact ⟨trivial, Memory.putSector_holds _ hi hlen⟩

/-- Settles O42: the reads succeed, and OUTIMG's only store is the ordered image. -/
theorem emitOrdersTheSlotsByCounter : Obligations.EmitOrdersTheSlotsByCounter := by
  unfold Obligations.EmitOrdersTheSlotsByCounter
  intro s a b tail a0 a1 a2 a3 b0 b1 b2 b3 hb hp ha hb' hl ht hca hcb hm ca cb image
  have hreads : EmitReads s.ssr _ _ a b tail := ⟨hca, hcb, ha, hb', ht⟩
  have hlen : image.length = s.ssr.rawLen := hreads.length_orderedImage hl ca cb
  rw [agentStep_ssr_emit hb hp, ← hlen]
  exact ⟨_, ssrEmit_of_reads hreads, othersKept_setSsr s _, rfl, Memory.load_store _ (hm .ssrOutImg) 0 image,
    keptOutside_store _ 0 image⟩

end Sys2Proof.Machine
end

section
/-!
SSR as a whole (R204, R208, R209, R254). After `n` gather steps each place of a slot holds the last of the sectors met so
far in its region that claims it, or zero; 28 steps meet every sector, and the emit step orders the slots.
-/

namespace Sys2Proof.Machine

/-! ## The sector at the cursor (R201) -/

theorem getElem?_sectorBytes_index {data : List Byte} (hd : data.length = 0xFF4) (index : BitVec 16)
    (undescribed : BitVec 48) (counter : BitVec 32) :
    (sectorBytes data index undescribed counter)[0xFF4]? = some (byteOf 0 index) ∧
      (sectorBytes data index undescribed counter)[0xFF5]? = some (byteOf 1 index) := by
  have h0 := hd.le
  have h1 : data.length ≤ 0xFF5 := by omega
  rw [sectorBytes, encode, List.getElem?_append_right h0, List.getElem?_append_right h1, hd]
  exact ⟨rfl, rfl⟩

theorem sectorIndex_of_load {raw : Memory} (hm : raw.wf) {p : Nat} {data : List Byte} {index : BitVec 16}
    {undescribed : BitVec 48} {counter : BitVec 32}
    (h : raw.load (0x1000 * p) 0x1000 = .ok (sectorBytes data index undescribed counter)) :
    sectorIndex raw p = some index.toNat := by
  have hlen := (length_sectorBytes data index undescribed counter).symm.trans (Memory.load_length _ _ _ _ h)
  obtain ⟨hlo, hhi⟩ := getElem?_sectorBytes_index (by omega : data.length = 0xFF4) index undescribed counter
  have hlo' := (Memory.read_of_load hm h (by decide : 0xFF4 < 0x1000)).trans hlo
  have hhi' := (Memory.read_of_load hm h (by decide : 0xFF5 < 0x1000)).trans hhi
  simp only [sectorIndex, hlo', hhi']
  exact congrArg (some ∘ BitVec.toNat) (be16_byteOf index)

/-- A gather step before the last sector reads one, whatever its bytes, and puts it where its index says (R202). -/
theorem agentStep_ssr_gather {s : State} (hb : s.busy .ssr) (hp : s.ssr.phase = .gather) (hm : s.ssr.raw.wf)
    (hw : Written s.ssr.raw 0x1C000) (h28 : s.ssr.p.toNat < 28) :
    ∃ index bytes, s.ssr.raw.load (0x1000 * s.ssr.p.toNat) 0x1000 = .ok bytes ∧
      sectorIndex s.ssr.raw s.ssr.p.toNat = some index ∧
      agentStep (.unit .ssr) s = .next (s.setSsr (s.ssr.gathered index bytes)) := by
  have hne : s.ssr.p ≠ 28 := fun e => absurd (e ▸ h28) (by decide)
  obtain ⟨bytes, hx, hlen⟩ := Memory.load_isOk s.ssr.raw (0x1000 * s.ssr.p.toNat) 0x1000 hm
    fun k hk => hw _ (by omega)
  obtain ⟨data, index, undescribed, counter, hd⟩ := decode_sector bytes hlen
  obtain rfl : sectorBytes data index undescribed counter = bytes := encode_of_decode_sector hd
  exact ⟨_, _, hx, sectorIndex_of_load hm hx,
    (agentStep_ssr_sector hb hp hne hx hd).trans (exec_secTrailer s data index undescribed counter)⟩

/-! ## The slots while they are rebuilt (R203, R204) -/

/-- The byte at offset `a` of a logical sector that physical sector `claim` claims last, or that none claims. -/
def claimedByte (raw : Memory) (a : Nat) (claim : Option Nat) : Option Byte :=
  claim.elim (some 0) fun p => raw.read (0x1000 * p + a)

/-- A slot that holds the first `n` physical sectors of the region from sector `first` on, at their places. -/
def HoldsSectors (raw : Memory) (first n : Nat) (slot : Memory) : Prop :=
  ∀ i a, i < 14 → a < 0x1000 → slot.read (0x1000 * i + a) = claimedByte raw a (lastClaim raw first i n)

theorem holdsSectors_zero (raw : Memory) (first : Nat) (slot : Memory) :
    HoldsSectors raw first 0 (slot.zero 0 0xE000) := fun i a hi ha =>
  (Memory.read_zero _ _ _ _).trans (if_pos ⟨Nat.zero_le _, by omega⟩)

/-- The next sector takes the place it claims from any sector before it (R204), and no other (R203). -/
theorem HoldsSectors.put {raw slot : Memory} {first n : Nat} (h : HoldsSectors raw first n slot) (hm : raw.wf)
    {index : Nat} {bytes : List Byte} (hx : raw.load (0x1000 * (first + n)) 0x1000 = .ok bytes)
    (hidx : sectorIndex raw (first + n) = some index) :
    HoldsSectors raw first (n + 1) (slot.putSector index bytes) := by
  intro i a hi ha
  have hlen := Memory.load_length _ _ _ _ hx
  rw [lastClaim, hidx]
  by_cases hclaim : index = i
  · subst hclaim
    rw [if_pos rfl, (Memory.putSector_holds slot hi hlen).1 a ha, ← Memory.read_of_load hm hx ha]
    rfl
  · rw [if_neg fun e => hclaim (Option.some.inj e), ← h i a hi ha]
    obtain hin | hout := lt_or_ge index 14
    · exact (Memory.putSector_holds slot hin hlen).2 _ (by omega)
    · rw [Memory.putSector_dropped slot hout]

/-- The two slots after the first `n` sectors of the image: region 0 goes to slot A, region 1 to slot B (R201). -/
structure HoldsRegions (raw : Memory) (n : Nat) (slotA slotB : Memory) : Prop where
  regionA : HoldsSectors raw 0 (min n 14) slotA
  regionB : HoldsSectors raw 14 (n - 14) slotB

theorem HoldsRegions.gathered {u : Ssr} (h : HoldsRegions u.raw u.p.toNat u.slotA u.slotB) (hm : u.raw.wf)
    {index : Nat} {bytes : List Byte} (hx : u.raw.load (0x1000 * u.p.toNat) 0x1000 = .ok bytes)
    (hidx : sectorIndex u.raw u.p.toNat = some index) :
    HoldsRegions u.raw (u.p.toNat + 1) (u.gathered index bytes).slotA (u.gathered index bytes).slotB := by
  obtain ⟨hA, hB⟩ := h
  simp only [Ssr.gathered]
  obtain hlt | hge := lt_or_ge u.p.toNat 14
  · rw [if_pos hlt, if_pos hlt]
    rw [min_eq_left hlt.le] at hA
    refine ⟨?_, ?_⟩
    · rw [min_eq_left hlt]
      exact hA.put hm (by rwa [Nat.zero_add]) (by rwa [Nat.zero_add])
    · rwa [Nat.sub_eq_zero_of_le hlt, ← Nat.sub_eq_zero_of_le hlt.le]
  · rw [if_neg (not_lt.mpr hge), if_neg (not_lt.mpr hge)]
    have hcursor : 14 + (u.p.toNat - 14) = u.p.toNat := Nat.add_sub_cancel' hge
    refine ⟨?_, ?_⟩
    · rwa [min_eq_right (Nat.le_succ_of_le hge), ← min_eq_right hge]
    · rw [Nat.sub_add_comm hge]
      exact hB.put hm (by rwa [hcursor]) (by rwa [hcursor])

/-- The first `n` gather steps. -/
theorem gatherRun {s : State} (hb : s.busy .ssr) (hp : s.ssr.phase = .gather) (hm : s.ssr.raw.wf)
    (hw : Written s.ssr.raw 0x1C000) (h0 : s.ssr.p = 0) (hzero : HoldsRegions s.ssr.raw 0 s.ssr.slotA s.ssr.slotB)
    (n : Nat) (hn : n ≤ 28) :
    ∃ p slotA slotB, unitSteps .ssr n s = .next (s.setSsr { s.ssr with p := p, slotA := slotA, slotB := slotB }) ∧
      p.toNat = n ∧ HoldsRegions s.ssr.raw n slotA slotB := by
  induction n with
  | zero => exact ⟨s.ssr.p, s.ssr.slotA, s.ssr.slotB, rfl, by rw [h0]; rfl, hzero⟩
  | succ n ih =>
    obtain ⟨p, slotA, slotB, hrun, rfl, hslots⟩ := ih (by omega)
    obtain ⟨index, bytes, hx, hidx, hstep⟩ := agentStep_ssr_gather
      (s := s.setSsr { s.ssr with p := p, slotA := slotA, slotB := slotB }) hb hp hm hw hn
    have hnext : (p + 1).toNat = p.toNat + 1 := by bv_omega
    exact ⟨_, _, _, unitSteps_snoc hrun hstep, hnext, HoldsRegions.gathered
      (u := { s.ssr with p := p, slotA := slotA, slotB := slotB }) hslots hm hx hidx⟩

/-- SSR at the emit step, with its slots rebuilt. -/
def Ssr.rebuilt (u : Ssr) (slotA slotB : Memory) : Ssr :=
  { u.cleared with p := 28, phase := .emit, slotA := slotA, slotB := slotB }

/-- The check step, the 28 sectors and the end of the gather phase (R254). -/
theorem rebuildRun {s : State} (h : Inv s) (hb : s.busy .ssr) (hp : s.ssr.phase = .check) (hw : s.loaded .ssr)
    (hl : 0x1C000 ≤ s.ssr.rawLen) :
    ∃ slotA slotB, unitSteps .ssr 30 s = .next (s.setSsr (s.ssr.rebuilt slotA slotB)) ∧
      HoldsSectors s.ssr.raw 0 14 slotA ∧ HoldsSectors s.ssr.raw 14 14 slotB := by
  have hcheck : unitSteps .ssr 1 s = .next (s.setSsr s.ssr.cleared) :=
    unitSteps_succ ((agentStep_ssr_check hb hp).trans (ssrCheck_passed hl))
  obtain ⟨p, slotA, slotB, hgather, hp28, hA, hB⟩ := gatherRun (s := s.setSsr s.ssr.cleared) hb rfl (h.mem .ssrRaw)
    (fun a ha => hw a (by omega)) rfl ⟨holdsSectors_zero _ _ _, holdsSectors_zero _ _ _⟩ 28 (Nat.le_refl _)
  obtain rfl : p = 28 := BitVec.eq_of_toNat_eq hp28
  have hgatherEnd := agentStep_ssr_gatherEnd
    (s := s.setSsr { s.ssr.cleared with p := 28, slotA := slotA, slotB := slotB }) hb rfl rfl
  exact ⟨slotA, slotB, unitSteps_snoc (unitSteps_trans hcheck hgather) hgatherEnd, hA, hB⟩

/-! ## What the emit step reads and writes (R205 to R207) -/

theorem exists_emitReads {s : State} (h : Inv s) (hp : s.ssr.phase ≠ .check) (hw : s.loaded .ssr) :
    ∃ ca cb a b tail, EmitReads s.ssr ca cb a b tail := by
  obtain ⟨hA, hB⟩ := h.ssr.slots_written hp
  obtain ⟨ca, hca, -⟩ := Memory.load_isOk _ 0xFFC 4 (h.mem .ssrSlotA) fun k hk => hA _ (by omega)
  obtain ⟨cb, hcb, -⟩ := Memory.load_isOk _ 0xFFC 4 (h.mem .ssrSlotB) fun k hk => hB _ (by omega)
  obtain ⟨a, ha, -⟩ := Memory.load_isOk _ 0 0xE000 (h.mem .ssrSlotA) fun k hk => hA _ (by omega)
  obtain ⟨b, hb, -⟩ := Memory.load_isOk _ 0 0xE000 (h.mem .ssrSlotB) fun k hk => hB _ (by omega)
  obtain ⟨tail, ht, -⟩ := Memory.load_isOk _ 0x1C000 (s.ssr.rawLen - 0x1C000) (h.mem .ssrRaw) fun k hk =>
    hw _ (by omega)
  exact ⟨ca, cb, a, b, tail, hca, hcb, ha, hb, ht⟩

/-- A counter's four bytes are its own, lowest first (R205). -/
theorem bytes_of_counterOf {bytes : List Byte} (h : bytes.length = 4) :
    bytes = [byteOf 0 (counterOf bytes), byteOf 1 (counterOf bytes), byteOf 2 (counterOf bytes),
      byteOf 3 (counterOf bytes)] := by
  match bytes, h with
  | [b0, b1, b2, b3], _ =>
    simp only [counterOf, le32, byteOf_zero_append, byteOf_succ_append, byteOf_zero_byte]

/-- An image that holds one slot, then another, then the tail of RAW (R207). -/
structure HoldsImage (image slotX slotY raw : Memory) (n : Nat) : Prop where
  slots : ∀ a, a < 0xE000 → image.read a = slotX.read a ∧ image.read (0xE000 + a) = slotY.read a
  tail : ∀ a, 0x1C000 ≤ a → a < n → image.read a = raw.read a

/-- Two blocks of the same bytes read alike. -/
theorem Memory.read_eq_of_load_eq {m m' : Memory} (hm : m.wf) (hm' : m'.wf) {a a' n k : Nat} {bytes : List Byte}
    (h : m.load a n = .ok bytes) (h' : m'.load a' n = .ok bytes) (hk : k < n) : m.read (a + k) = m'.read (a' + k) :=
  (Memory.read_of_load hm h hk).trans (Memory.read_of_load hm' h' hk).symm

theorem holdsImage_of_load {image slotX slotY raw : Memory} (hm : image.wf) (hX : slotX.wf) (hY : slotY.wf)
    (hR : raw.wf) {x y tail : List Byte} {n : Nat} (h : image.load 0 n = .ok (x ++ y ++ tail))
    (hx : slotX.load 0 0xE000 = .ok x) (hy : slotY.load 0 0xE000 = .ok y)
    (ht : raw.load 0x1C000 (n - 0x1C000) = .ok tail) : HoldsImage image slotX slotY raw n := by
  have hxlen := Memory.load_length _ _ _ _ hx
  have hlen : (x ++ y).length = 0x1C000 := by
    rw [List.length_append, hxlen, Memory.load_length _ _ _ _ hy]
  have hslots := Memory.load_append_left hm h
  have himageX := Memory.load_append_left hm hslots
  have himageY := Memory.load_append_right hm hslots
  have htail := Memory.load_append_right hm h
  rw [hxlen] at himageX
  rw [hlen, hxlen] at himageY
  rw [hlen] at htail
  refine ⟨fun a ha => ⟨?slotX, ?slotY⟩, fun a hge hlt => ?tail⟩
  case slotX => simpa using Memory.read_eq_of_load_eq hm hX himageX hx ha
  case slotY => simpa using Memory.read_eq_of_load_eq hm hY himageY hy ha
  case tail =>
    have hread := Memory.read_eq_of_load_eq hm hR htail ht (k := a - 0x1C000) (by omega)
    rwa [Nat.zero_add, Nat.add_sub_cancel' hge] at hread

theorem EmitReads.holdsImage {s : State} (hm : s.memWf) {ca cb a b tail : List Byte}
    (h : EmitReads s.ssr ca cb a b tail) (hl : 0x1C000 ≤ s.ssr.rawLen) (x y : BitVec 32) :
    HoldsImage (s.ssr.emitted x y a b tail).outImg
      (if (s.ssr.emitted x y a b tail).first = 0 then s.ssr.slotA else s.ssr.slotB)
      (if (s.ssr.emitted x y a b tail).first = 0 then s.ssr.slotB else s.ssr.slotA) s.ssr.raw s.ssr.rawLen := by
  have hwf := Memory.store_wf _ 0 (orderedImage x y a b tail) (hm .ssrOutImg)
  have hload := Memory.load_store _ (hm .ssrOutImg) 0 (orderedImage x y a b tail)
  rw [h.length_orderedImage hl] at hload
  by_cases hcmp : y.toNat < x.toNat
  · have hfirst : (s.ssr.emitted x y a b tail).first = 0 := if_pos hcmp
    have himage : orderedImage x y a b tail = a ++ b ++ tail := congrArg (· ++ tail) (if_pos hcmp)
    rw [if_pos hfirst, if_pos hfirst]
    exact holdsImage_of_load hwf (hm .ssrSlotA) (hm .ssrSlotB) (hm .ssrRaw) (hload.trans (congrArg _ himage)) h.slotA
      h.slotB h.tail
  · have hfirst : (s.ssr.emitted x y a b tail).first = 1 := if_neg hcmp
    have himage : orderedImage x y a b tail = b ++ a ++ tail := congrArg (· ++ tail) (if_neg hcmp)
    rw [hfirst, if_neg (by decide), if_neg (by decide)]
    exact holdsImage_of_load hwf (hm .ssrSlotB) (hm .ssrSlotA) (hm .ssrRaw) (hload.trans (congrArg _ himage)) h.slotB
      h.slotA h.tail

/-- Settles O43: the run of the gather phase rebuilds the slots, and the emit step orders them. -/
theorem reassembleRebuildsAndOrdersTheSlots : Obligations.ReassembleRebuildsAndOrdersTheSlots := by
  unfold Obligations.ReassembleRebuildsAndOrdersTheSlots
  intro s h hb hp hw hl
  obtain ⟨slotA, slotB, hrun, hA, hB⟩ := rebuildRun h hb hp hw hl
  have hinv := unitSteps_keepsInv hrun h
  obtain ⟨ca, cb, a, b, tail, hreads⟩ := exists_emitReads hinv nofun hw
  have hemit := (agentStep_ssr_emit (s := s.setSsr (s.ssr.rebuilt slotA slotB)) hb rfl).trans (ssrEmit_of_reads hreads)
  have hend := unitSteps_snoc hrun hemit
  obtain ⟨hslots, htail⟩ := hreads.holdsImage hinv.mem hl (counterOf ca) (counterOf cb)
  refine ⟨_, hend, unitSteps_frame hend, rfl, rfl, fun i a hi ha => ⟨?sectorA, ?sectorB⟩, ?counterA,
    ?counterB, rfl, hslots, htail⟩
  case sectorA => exact (hA i a hi ha).trans (by cases lastClaim s.ssr.raw 0 i 14 <;> rfl)
  case sectorB => exact (hB i a hi ha).trans (by cases lastClaim s.ssr.raw 14 i 14 <;> rfl)
  case counterA =>
    exact hreads.counterA.trans (congrArg Except.ok (bytes_of_counterOf (Memory.load_length _ _ _ _ hreads.counterA)))
  case counterB =>
    exact hreads.counterB.trans (congrArg Except.ok (bytes_of_counterOf (Memory.load_length _ _ _ _ hreads.counterB)))

end Sys2Proof.Machine
end

section
/-!
Resting units (R224, R226): error entry, and what changes the status triple of a unit that is not running.
-/

namespace Sys2Proof.Machine

/-- A unit that is not BUSY takes no step (R226). -/
theorem agentStep_unit_resting {s : State} {u : UnitId} (h : ¬ s.busy u) : agentStep (.unit u) s = .next s := by
  rw [agentStep, fetch, fetchUnit_rest h, runFetched_other]

/-- Putting a unit's triple back undoes error entry (R224). -/
theorem State.raise_setShell (s : State) (u : UnitId) (c : Cause) : (s.raise u c).setShell (s.shell u) u = s := by
  cases u <;> rfl

/-- Settles O9: the triple is all that error entry writes, and ERROR is not BUSY. -/
theorem raiseWritesTheTripleAndNothingElse : Obligations.RaiseWritesTheTripleAndNothingElse := by
  unfold Obligations.RaiseWritesTheTripleAndNothingElse
  intro s u c
  have hraised : (s.raise u c).shell u = { status := .error, errClass := c.errClass, errCause := c } := by
    rw [State.raise_shell, if_pos rfl]
  have hrest : ¬ (s.raise u c).busy u := by rw [State.busy, hraised]; nofun
  exact ⟨hraised, s.raise_setShell u c, agentStep_unit_resting hrest⟩

/-! ## What changes a resting unit's triple -/

theorem SameUnit.shell_eq {u : UnitId} {s t : State} (h : SameUnit u s t) : t.shell u = s.shell u := by
  rw [← State.graft_shell u s t, h.graft_eq]

/-- No unit's step changes the triple of a resting unit: its own step is none, and another unit's is local (R2). -/
theorem agentStep_unit_keepsShell {s t : State} {u v : UnitId} (hu : ¬ s.busy u)
    (h : agentStep (.unit v) s = .next t) : t.shell u = s.shell u := by
  by_cases hv : v = u
  · rw [hv, agentStep_unit_resting hu] at h
    rw [Host.Outcome.next.inj h]
  · exact ((agentStep_unit_frame h).sameUnit hv).shell_eq

@[simp] theorem State.withHost_shell (s : State) (rest : List HostAction) (u : UnitId) :
    State.shell { s with host := rest } u = s.shell u := by
  cases u <;> rfl

@[simp] theorem State.writeReg_shell (s : State) (w : RegWrite) (u : UnitId) : (s.writeReg w).shell u = s.shell u := by
  cases w <;> cases u <;> rfl

/-- Beside commands, reset is the one action of the host that writes a status triple. -/
theorem hostAction_keepsShell (s : State) (u : UnitId) {act : HostAction} (h : act ≠ .reset) :
    Ensures (fun t => t.shell u = s.shell u) (hostAction act s) := by
  cases act with
  | write w => exact .ite (fun _ => rfl) fun _ => .whenNotBusy fun _ => s.writeReg_shell w u
  | writeBuf b a bytes => exact .whenNotBusy fun _ => s.storeIn_shell b a bytes u
  | copyBuf src a n dst a' =>
    exact .whenNotBusy fun _ => .whenNotBusy fun _ => .withBytes fun bytes _ => s.storeIn_shell dst a' bytes u
  | readReg r =>
    have hlog (v : HostValue) : (s.log v).shell u = s.shell u := (sameUnit_log s v u).shell_eq.symm
    exact .ite (fun _ => hlog _) fun _ => .whenNotBusy fun _ => hlog _
  | readBuf b a n => exact .whenNotBusy fun _ => .withBytes fun _ _ => (sameUnit_log s _ u).shell_eq.symm
  | await v =>
    simp only [hostAction]
    split
    · rfl
    · rfl
    · exact s.withHost_shell _ u
    · exact s.withHost_shell _ u
  | reset => exact absurd rfl h

/-- The host's turn changes a triple by reset or by a START pulse of that unit only (R61, R250). -/
theorem fetchHost_keepsShell {s : State} {u : UnitId} (hreset : ∀ rest, s.host ≠ .reset :: rest)
    (hstart : ∀ w rest, s.host = .write w :: rest → w.startOf ≠ some u) :
    Ensures (fun t => t.shell u = s.shell u) (runFetched (fetchHost s)) := by
  have haction (act : HostAction) (rest : List HostAction) (h : act ≠ .reset) :
      Ensures (fun t => t.shell u = s.shell u) (hostAction act { s with host := rest }) := by
    rw [← s.withHost_shell rest u]
    exact hostAction_keepsShell _ u h
  unfold fetchHost
  split
  · rfl
  · next w rest hs =>
    split
    · next v hw =>
      have huv : u ≠ v := fun e => hstart w rest hs (e ▸ hw)
      rw [runFetched_run, exec_commandCode (by rfl)]
      exact (State.start_shell_other _ v u huv).trans (s.withHost_shell rest u)
    · exact haction (.write w) rest nofun
  · next act rest _ hs => exact haction act rest fun e => hreset rest (e ▸ hs)

/-- Settles O10: a unit's step leaves a resting triple alone, and so does every turn of the host but those two. -/
theorem onlyStartOrResetLeavesARestingStatus : Obligations.OnlyStartOrResetLeavesARestingStatus := by
  unfold Obligations.OnlyStartOrResetLeavesARestingStatus
  refine ⟨fun s u h => agentStep_unit_resting h, fun s t a u hu ht hne => ?_⟩
  cases a with
  | unit v => exact absurd (agentStep_unit_keepsShell hu ht) hne
  | host =>
    refine ⟨rfl, ?_⟩
    by_contra hother
    have hreset (rest : List HostAction) (hs : s.host = .reset :: rest) : False := hother ⟨rest, .inl hs⟩
    have hstart (w : RegWrite) (rest : List HostAction) (hs : s.host = .write w :: rest) : w.startOf ≠ some u :=
      fun hw => hother ⟨rest, .inr ⟨w, hs, hw⟩⟩
    exact hne ((fetchHost_keepsShell hreset hstart).of_next ht)

end Sys2Proof.Machine
end

section
/-!
Error entry, cause by cause (R221, R227): every next state of a running unit's turn that is in ERROR was raised with a
cause of R221 under that cause's condition. The conditions are read off the tests of the fetch and of the instruction
that come before the raise.
-/

namespace Sys2Proof

/-- The instructions of the place cannot raise, and they are no commands. -/
def Place.raisesNothing : Place → Bool
  | .lzHeader | .lzControl | .lzToken false | .tile | .palette | .glyphRow8 _ | .glyphRow16 _ => true
  | .hexText | .bdfText .inBitmap | .sector => true
  | .command | .lzToken true | .glyphHeader | .bdfText .scanning => false

/-- Any eight bytes are a glyph table header (R75). -/
theorem decode_glyphHeader {bytes : List Byte} (h : bytes.length = 8) :
    ∃ start count width rows reserved, decode .glyphHeader bytes = .ok (.glyHdr start count width rows reserved) := by
  match bytes, h with
  | [_, _, _, _, _, _, _, _], _ => exact ⟨_, _, _, _, _, rfl⟩

/-- Four bytes that are no header word have the wrong tag (R62). -/
theorem decode_lzHeader_error {bytes : List Byte} {e : Reject} (h : bytes.length = 4)
    (he : decode .lzHeader bytes = .error e) : e = .badTag := by
  match bytes, h with
  | [b0, b1, b2, b3], _ =>
    rw [Machine.decode_lzHeader] at he
    split at he
    · cases he
    · cases he; rfl

end Sys2Proof

namespace Sys2Proof.Machine

/-! ## What holds of every next state of a fetch -/

/-- The first eight bytes of a buffer are the glyph table header with these fields (R75). -/
def HeaderIs (m : Memory) (start count : BitVec 16) (width rows : Byte) : Prop :=
  HeaderWith m fun start' count' width' rows' => start' = start ∧ count' = count ∧ width' = width ∧ rows' = rows

/-- The header has every property its fields have. -/
theorem HeaderIs.headerWith {m : Memory} {start count : BitVec 16} {width rows : Byte}
    (h : HeaderIs m start count width rows) {P : BitVec 16 → BitVec 16 → Byte → Byte → Prop}
    (hP : P start count width rows) : HeaderWith m P := by
  obtain ⟨bytes, _, _, _, _, reserved, hx, hd, rfl, rfl, rfl, rfl⟩ := h
  exact ⟨bytes, _, _, _, _, reserved, hx, hd, hP⟩

section

variable {P Q : State → Prop}

theorem Ensures.mono {o : Result} (h : Ensures Q o) (hPQ : ∀ t, Q t → P t) : Ensures P o := by
  cases o with
  | next t => exact hPQ t h
  | fault _ => trivial
  | refused _ => trivial

theorem Ensures.fetchIte {c : Prop} {_ : Decidable c} {f f' : Fetched} (h : c → Ensures P (runFetched f))
    (h' : ¬ c → Ensures P (runFetched f')) : Ensures P (runFetched (if c then f else f')) := by
  rw [apply_ite runFetched]
  exact .ite h h'

theorem Ensures.fetchBytes {b : BufName} {x : Except Nat (List Byte)} {k : List Byte → Fetched}
    (h : ∀ bytes, x = .ok bytes → Ensures P (runFetched (k bytes))) :
    Ensures P (runFetched (fetchBytes b x k)) := by
  cases x with
  | ok bytes => exact h bytes rfl
  | error _ => trivial

theorem Ensures.runDecoded {p : Place} {bytes : List Byte} {s : State} {o : Result}
    (run : ∀ i, decode p bytes = .ok i → Ensures P (exec i s))
    (reject : ∀ e, decode p bytes = .error e → Ensures P o) : Ensures P (runFetched (runDecoded p bytes s o)) := by
  cases hd : decode p bytes with
  | ok i =>
    rw [runFetched_decoded_ok s o hd]
    exact run i hd
  | error e =>
    rw [runFetched_decoded_error s o hd]
    exact reject e hd

/-- A glyph table header that is read is decoded: its eight bytes are never rejected (R75). -/
theorem Ensures.fetchHeader {b : BufName} {m : Memory} {s : State} {o : Result}
    (h : ∀ start count width rows reserved, HeaderIs m start count width rows →
      Ensures P (exec (.glyHdr start count width rows reserved) s)) :
    Ensures P (runFetched (Machine.fetchBytes b (m.load 0 8) fun bytes =>
      Machine.runDecoded .glyphHeader bytes s o)) := by
  refine .fetchBytes fun bytes hx => ?_
  obtain ⟨start, count, width, rows, reserved, hd⟩ := decode_glyphHeader (Memory.load_length _ _ _ _ hx)
  rw [runFetched_decoded_ok s o hd]
  exact h start count width rows reserved ⟨bytes, _, _, _, _, _, hx, hd, rfl, rfl, rfl, rfl⟩

end

/-! ## Instructions that raise nothing -/

theorem exec_keepsShell {i : Instr} (hi : i.place.raisesNothing = true) (s : State) :
    Ensures (fun t => t.shell i.unit = s.shell i.unit) (exec i s) := by
  cases i with
  | lzHdr | lzCtrl | lit | tileByte | palEntry | glyRow8 | glyRow16 | bdfEndchar => rfl
  | hexLine cp payload =>
    refine .ite (fun _ => rfl) fun _ => .ite (fun _ => rfl) fun _ => ?_
    cases hexRecord s.gbc.recSize payload <;> rfl
  | bdfRow digits =>
    simp only [exec, execBdfRow]
    split
    · split <;> rfl
    · rfl
  | secTrailer data index undescribed counter =>
    exact .ite (fun _ => .ite (fun _ => rfl) fun _ => rfl) fun _ => rfl
  | _ => cases hi

/-! ## The causes (R221) -/

/-- R221's table: unit `u` may raise a cause in state `s`. Each condition includes that the tests before it have passed
(R227). GLY_WIDTH_TOO_BIG and GLY_TABLE_TRUNCATED have two rows each, for the two steps and tests that raise them. -/
inductive Raises (s : State) : UnitId → Cause → Prop
  | lzShortHeader (hp : s.lzd.phase = .hdr) (hl : s.lzd.inLen < 4) : Raises s .lzd .lzShortHeader
  | lzBadTag {bytes : List Byte} (hp : s.lzd.phase = .hdr) (hl : 4 ≤ s.lzd.inLen)
      (hx : s.lzd.inBuf.load 0 4 = .ok bytes) (hd : decode .lzHeader bytes = .error .badTag) : Raises s .lzd .lzBadTag
  | lzBackrefRange {bytes : List Byte} {l : Nibble} {d : BitVec 12} (hp : s.lzd.phase = .token)
      (ho : s.lzd.outPos.toNat < s.lzd.size.toNat) (hb : s.lzd.bitsLeft ≠ 0) (hc : s.lzd.ctrl.getLsbD 7 = true)
      (hl : s.lzd.inPos + 2 ≤ s.lzd.inLen) (hx : s.lzd.inBuf.load s.lzd.inPos 2 = .ok bytes)
      (hd : decode (.lzToken true) bytes = .ok (.copy l d)) (hfar : s.lzd.outPos.toNat ≤ d.toNat) :
      Raises s .lzd .lzBackrefRange
  | tiuNoTiles (hp : s.tiu.phase = .check) (h0 : s.tiu.tilesLen = 0) : Raises s .tiu .tiuNoTiles
  | tiuPartialTile (hp : s.tiu.phase = .check) (h32 : s.tiu.tilesLen % 32 ≠ 0) : Raises s .tiu .tiuPartialTile
  | tiuBadPaletteLen (hp : s.tiu.phase = .check) (h0 : s.tiu.tilesLen ≠ 0) (h32 : s.tiu.tilesLen % 32 = 0)
      (hpal : s.tiu.palLen ≠ 32) : Raises s .tiu .tiuBadPaletteLen
  | glyBadMode (hp : s.gbc.phase = .check) (hm : s.gbc.mode = 3) : Raises s .gbc .glyBadMode
  | glyMinGtMax (hp : s.gbc.phase = .check) (hm : s.gbc.mode = 1 ∨ s.gbc.mode = 2)
      (hlt : s.gbc.cpMax.toNat < s.gbc.cpMin.toNat) : Raises s .gbc .glyMinGtMax
  | glyMaxTooBig (hp : s.gbc.phase = .check) (hm : s.gbc.mode = 1 ∨ s.gbc.mode = 2)
      (hrange : s.gbc.cpMin.toNat ≤ s.gbc.cpMax.toNat) (hmax : 0xFFFF < s.gbc.cpMax.toNat) :
      Raises s .gbc .glyMaxTooBig
  | glyWidthTooBig (hp : s.gbc.phase = .check) (hm : s.gbc.mode = 1 ∨ s.gbc.mode = 2)
      (hrange : s.gbc.cpMin.toNat ≤ s.gbc.cpMax.toNat) (hmax : s.gbc.cpMax.toNat ≤ 0xFFFF)
      (hw : 16 < s.gbc.width.toNat) : Raises s .gbc .glyWidthTooBig
  | glyCountOverflow (hp : s.gbc.phase = .check) (hm : s.gbc.mode = 1 ∨ s.gbc.mode = 2)
      (hmin : s.gbc.cpMin.toNat = 0) (hmax : s.gbc.cpMax.toNat = 0xFFFF) (hw : s.gbc.width.toNat ≤ 16) :
      Raises s .gbc .glyCountOverflow
  | glyShortTable (hp : s.gbc.phase = .check) (hm : s.gbc.mode = 0) (hl : s.gbc.srcLen < 8) :
      Raises s .gbc .glyTableTruncated
  | glyHeaderWidthTooBig (hp : s.gbc.phase = .check) (hm : s.gbc.mode = 0) (hl : 8 ≤ s.gbc.srcLen)
      (hh : HeaderWith s.gbc.src fun _ _ width _ => 16 < width.toNat) : Raises s .gbc .glyWidthTooBig
  | glyBadRows (hp : s.gbc.phase = .check) (hm : s.gbc.mode = 0) (hl : 8 ≤ s.gbc.srcLen)
      (hh : HeaderWith s.gbc.src fun _ _ width rows => width.toNat ≤ 16 ∧ rows ≠ 16) : Raises s .gbc .glyBadRows
  | glyTableTruncated (hp : s.gbc.phase = .check) (hm : s.gbc.mode = 0) (hl : 8 ≤ s.gbc.srcLen)
      (hh : HeaderWith s.gbc.src fun _ count width rows => width.toNat ≤ 16 ∧ rows = 16 ∧
        s.gbc.srcLen < 8 + count.toNat * (if width.toNat ≤ 8 then 16 else 32)) : Raises s .gbc .glyTableTruncated
  | glyOldTruncated (hp : s.gbc.phase = .merge) (hl : 8 ≤ s.gbc.oldLen)
      (hh : HeaderWith s.gbc.old fun start count width _ =>
        start.toNat = s.gbc.cpMin.toNat ∧ width.toNat = s.gbc.width.toNat ∧
          s.gbc.oldLen < 8 + min count.toNat s.gbc.count.toNat * s.gbc.recSize.toNat) : Raises s .gbc .glyOldTruncated
  | glyBadCharset {raw : List Byte} {code : Option (BitVec 32)} (hp : s.gbc.phase = .parse) (hm : s.gbc.mode ≠ 1)
      (hst : s.gbc.pstate = .scanning) (hc : s.gbc.charset = .none ∨ s.gbc.charset = .unknown)
      (hl : s.gbc.srcPos < s.gbc.srcLen)
      (hx : s.gbc.src.lineAt s.gbc.srcPos (s.gbc.srcLen - s.gbc.srcPos) = .ok raw)
      (hd : decode (.bdfText .scanning) raw = .ok (.bdfEncoding code)) : Raises s .gbc .glyBadCharset
  | ssrShortImage (hp : s.ssr.phase = .check) (hl : s.ssr.rawLen < 0x1C000) : Raises s .ssr .ssrShortImage

/-- If unit `u` is in ERROR in `t`, its triple is that of a cause it may raise in `s` (R221, R224). -/
def ErrorsAsListed (s : State) (u : UnitId) (t : State) : Prop :=
  (t.shell u).status = .error →
    (t.shell u).errClass = (t.shell u).errCause.errClass ∧ Raises s u (t.shell u).errCause

section

variable {s t : State} {u : UnitId}

theorem ErrorsAsListed.raise {c : Cause} (h : Raises s u c) : ErrorsAsListed s u (t.raise u c) := by
  intro _
  rw [State.raise_shell, if_pos rfl]
  exact ⟨rfl, h⟩

theorem ErrorsAsListed.finish : ErrorsAsListed s u (t.finish u) := by
  intro h
  rw [State.finish_shell, if_pos rfl] at h
  cases h

/-- A running unit whose triple is kept is not in ERROR. -/
theorem ErrorsAsListed.of_shell_eq (hb : s.busy u) (h : t.shell u = s.shell u) : ErrorsAsListed s u t := by
  intro he
  rw [h, hb] at he
  cases he

/-- What is decoded at a place that raises nothing keeps the triple. -/
theorem ErrorsAsListed.exec_of_raisesNothing (hb : s.busy u) (ht : t.shell u = s.shell u) {p : Place}
    (hp : p.unit = some u) (hq : p.raisesNothing = true) {bytes : List Byte} {i : Instr} (hd : decode p bytes = .ok i) :
    Ensures (ErrorsAsListed s u) (exec i t) := by
  have hunit := decode_unit hp hd
  have hkeeps := exec_keepsShell ((decode_place hd).symm ▸ hq) t
  rw [hunit] at hkeeps
  exact hkeeps.mono fun t' ht' => .of_shell_eq hb (ht'.trans ht)

end

/-! ## The units' turns -/

section

variable {s : State}

theorem fetchLzd_errorsAsListed (hb : s.busy .lzd) : Ensures (ErrorsAsListed s .lzd) (runFetched (fetchLzd s)) := by
  have hstop : Ensures (ErrorsAsListed s .lzd) (lzdStop s) := ErrorsAsListed.finish
  simp only [fetchLzd]
  cases hp : s.lzd.phase with
  | hdr =>
    refine .fetchIte (fun hl => ErrorsAsListed.raise (.lzShortHeader hp hl)) fun hl => .fetchBytes fun bytes hx =>
      .runDecoded (fun _ => ErrorsAsListed.exec_of_raisesNothing hb rfl rfl rfl) fun e he => ?tag
    cases decode_lzHeader_error (Memory.load_length _ _ _ _ hx) he
    exact ErrorsAsListed.raise (.lzBadTag hp (not_lt.mp hl) hx he)
  | token =>
    refine .fetchIte (fun _ => hstop) fun ho => .fetchIte (fun _ => ?control) fun h0 => .fetchIte (fun hc => ?backref)
      fun _ => ?literal
    case control =>
      exact .fetchIte (fun _ => hstop) fun _ => .fetchBytes fun bytes _ =>
        .runDecoded (fun _ => ErrorsAsListed.exec_of_raisesNothing hb rfl rfl rfl) fun _ _ => hstop
    case literal =>
      exact .fetchIte (fun _ => hstop) fun _ => .fetchBytes fun bytes _ =>
        .runDecoded (fun _ => ErrorsAsListed.exec_of_raisesNothing hb rfl rfl rfl) fun _ _ => hstop
    case backref =>
      refine .fetchIte (fun _ => hstop) fun hl => .fetchBytes fun bytes hx =>
        .runDecoded (fun i hd => ?_) fun _ _ => hstop
      cases i with
      | copy l d =>
        refine .ite (fun _ => ErrorsAsListed.of_shell_eq hb rfl) fun hfar => ErrorsAsListed.raise ?_
        rw [BitVec.msb_eq_getLsbD_last] at hc
        exact .lzBackrefRange hp (not_le.mp ho) h0 hc (not_lt.mp hl) hx hd (not_lt.mp hfar)
      | _ => cases decode_place hd
  | copy =>
    exact .ite (fun _ => ErrorsAsListed.of_shell_eq hb rfl) fun _ => .ite (fun _ => ErrorsAsListed.finish) fun _ =>
      .ite (fun _ => trivial) fun _ => .withBytes fun _ _ => ErrorsAsListed.of_shell_eq hb rfl

theorem TiuTurn.errorsAsListed {o : Result} (ho : TiuTurn s o) (hb : s.busy .tiu) :
    Ensures (ErrorsAsListed s .tiu) o := by
  cases ho with
  | unwritten b a => trivial
  | check hp =>
    refine .ite (fun h0 => ErrorsAsListed.raise (.tiuNoTiles hp h0)) fun h0 =>
      .ite (fun h32 => ErrorsAsListed.raise (.tiuPartialTile hp h32)) fun h32 =>
      .ite (fun hpal => ErrorsAsListed.raise (.tiuBadPaletteLen hp h0 (not_not.mp h32) hpal)) fun _ => ?passed
    exact ErrorsAsListed.of_shell_eq hb rfl
  | tile | tilesEnd | palette => exact ErrorsAsListed.of_shell_eq hb rfl
  | paletteEnd => exact ErrorsAsListed.finish

theorem gbcEncodeCheck_errorsAsListed (hb : s.busy .gbc) (hp : s.gbc.phase = .check)
    (hm : s.gbc.mode = 1 ∨ s.gbc.mode = 2) : Ensures (ErrorsAsListed s .gbc) (gbcEncodeCheck s) := by
  refine .ite (fun hlt => ErrorsAsListed.raise (.glyMinGtMax hp hm hlt)) fun hlt =>
    .ite (fun hmax => ErrorsAsListed.raise (.glyMaxTooBig hp hm (not_lt.mp hlt) hmax)) fun hmax =>
    .ite (fun hw => ErrorsAsListed.raise (.glyWidthTooBig hp hm (not_lt.mp hlt) (not_lt.mp hmax) hw)) fun hw =>
    .ite (fun hn => ErrorsAsListed.raise ?overflow) fun _ => ErrorsAsListed.of_shell_eq hb rfl
  exact .glyCountOverflow hp hm (by omega) (by omega) (not_lt.mp hw)

theorem gbcDecodeCheck_errorsAsListed (hb : s.busy .gbc) (hp : s.gbc.phase = .check) (hm : s.gbc.mode = 0)
    (hl : 8 ≤ s.gbc.srcLen) {start count : BitVec 16} {width rows : Byte}
    (hh : HeaderIs s.gbc.src start count width rows) :
    Ensures (ErrorsAsListed s .gbc) (gbcDecodeCheck start count width rows s) := by
  refine .ite (fun hw => ErrorsAsListed.raise (.glyHeaderWidthTooBig hp hm hl (hh.headerWith hw))) fun hw =>
    .ite (fun hr => ErrorsAsListed.raise (.glyBadRows hp hm hl (hh.headerWith ⟨not_lt.mp hw, hr⟩))) fun hr =>
    .ite (fun hlen => ErrorsAsListed.raise ?short) fun _ => ErrorsAsListed.of_shell_eq hb rfl
  rw [recSizeOf_eq, toNat_recSize] at hlen
  exact .glyTableTruncated hp hm hl (hh.headerWith ⟨not_lt.mp hw, not_not.mp hr, hlen⟩)

theorem gbcMerge_errorsAsListed (hb : s.busy .gbc) (hp : s.gbc.phase = .merge) (hl : 8 ≤ s.gbc.oldLen)
    {start count : BitVec 16} {width rows : Byte} (hh : HeaderIs s.gbc.old start count width rows) :
    Ensures (ErrorsAsListed s .gbc) (gbcMerge start count width s) := by
  refine .ite (fun ⟨hstart, hwidth⟩ => ?matching) fun _ => ErrorsAsListed.of_shell_eq hb rfl
  exact .ite (fun hlen => ErrorsAsListed.raise (.glyOldTruncated hp hl (hh.headerWith ⟨hstart, hwidth, hlen⟩))) fun _ =>
    .withBytes fun _ _ => ErrorsAsListed.of_shell_eq hb rfl

/-- Of the text lines only ENCODING can raise (R167). -/
theorem exec_line_errorsAsListed (hb : s.busy .gbc) (hp : s.gbc.phase = .parse) (hl : s.gbc.srcPos < s.gbc.srcLen)
    {raw : List Byte} {i : Instr} (hx : s.gbc.src.lineAt s.gbc.srcPos (s.gbc.srcLen - s.gbc.srcPos) = .ok raw)
    (hd : decode (if s.gbc.mode = 1 then .hexText else .bdfText s.gbc.pstate) raw = .ok i) :
    Ensures (ErrorsAsListed s .gbc) (exec i (s.pastLine raw)) := by
  by_cases hm : s.gbc.mode = 1
  · rw [if_pos hm] at hd
    exact ErrorsAsListed.exec_of_raisesNothing (t := s.pastLine raw) hb rfl rfl rfl hd
  · rw [if_neg hm] at hd
    cases hst : s.gbc.pstate with
    | inBitmap =>
      rw [hst] at hd
      exact ErrorsAsListed.exec_of_raisesNothing (t := s.pastLine raw) hb rfl rfl rfl hd
    | scanning =>
      rw [hst] at hd
      cases i with
      | bdfCharset | bdfBitmap | bdfOther => exact ErrorsAsListed.of_shell_eq hb rfl
      | bdfEncoding code =>
        exact .ite (fun hc => ErrorsAsListed.raise (.glyBadCharset hp hm hst hc hl hx hd)) fun _ =>
          ErrorsAsListed.of_shell_eq hb rfl
      | _ => cases decode_place hd

theorem fetchLine_errorsAsListed (hb : s.busy .gbc) (hp : s.gbc.phase = .parse) :
    Ensures (ErrorsAsListed s .gbc) (runFetched (fetchLine s)) :=
  .fetchIte (fun _ => ErrorsAsListed.finish) fun hl => .fetchBytes fun _ hx =>
    .runDecoded (fun _ => exec_line_errorsAsListed hb hp (not_le.mp hl) hx) fun _ _ => ErrorsAsListed.of_shell_eq hb rfl

theorem record_keepsShell {rows : List Instr} (hr : ∀ i ∈ rows, IsGlyphRow i) :
    Ensures (fun t => t.shell .gbc = s.shell .gbc) (andThen (execAll rows s) gbcGlyphEnd) := by
  have hrow : ∀ i ∈ rows, ∀ t : State, t.shell .gbc = s.shell .gbc →
      Ensures (fun t => t.shell .gbc = s.shell .gbc) (exec i t) := by
    intro i hi t ht
    obtain ⟨r, p, rfl⟩ | ⟨r, p, rfl⟩ := hr i hi
    · exact ht
    · exact ht
  exact (Ensures.execAll (P := fun t => t.shell .gbc = s.shell .gbc) rfl hrow).andThen fun _ ht => ht

theorem fetchGbc_errorsAsListed (hb : s.busy .gbc) : Ensures (ErrorsAsListed s .gbc) (runFetched (fetchGbc s)) := by
  simp only [fetchGbc]
  cases hp : s.gbc.phase with
  | check =>
    refine .fetchIte (fun hm => ErrorsAsListed.raise (.glyBadMode hp hm)) fun h3 =>
      .fetchIte (fun hm => ?table) fun h0 => ?encode
    case table =>
      refine .fetchIte (fun hl => ErrorsAsListed.raise (.glyShortTable hp hm hl)) fun hl => .fetchHeader
        fun start count width rows reserved hh => ?_
      rw [exec_glyHdr_check hp]
      exact gbcDecodeCheck_errorsAsListed hb hp hm (not_lt.mp hl) hh
    case encode =>
      have hm : s.gbc.mode = 1 ∨ s.gbc.mode = 2 :=
        (by decide : ∀ m : BitVec 2, m ≠ 3 → m ≠ 0 → m = 1 ∨ m = 2) _ h3 h0
      exact gbcEncodeCheck_errorsAsListed hb hp hm
  | merge =>
    refine .fetchIte (fun _ => ErrorsAsListed.of_shell_eq hb rfl) fun hl => .fetchHeader
      fun start count width rows reserved hh => ?_
    rw [exec_glyHdr_merge hp]
    exact gbcMerge_errorsAsListed hb hp (not_lt.mp hl) hh
  | parse => exact fetchLine_errorsAsListed hb hp
  | decode =>
    refine .fetchIte (fun _ => ErrorsAsListed.finish) fun hg => .fetchBytes fun bytes _ =>
      (record_keepsShell fun i hi => ?_).mono fun _ => .of_shell_eq hb
    split at hi
    · exact row_of_mem_rows8 hi
    · exact row_of_mem_rows16 hi

theorem ssrEmit_errorsAsListed : Ensures (ErrorsAsListed s .ssr) (ssrEmit s) := by
  unfold ssrEmit
  refine .withBytes fun _ _ => .withBytes fun _ _ => .withBytes fun _ _ => .withBytes fun _ _ => ?_
  -- with the length a variable, unification does not count the difference down from SLOTS_END
  generalize s.ssr.rawLen - Config.slotsEnd = n
  exact .withBytes fun _ _ => ErrorsAsListed.finish

theorem SsrTurn.errorsAsListed {o : Result} (ho : SsrTurn s o) (hb : s.busy .ssr) :
    Ensures (ErrorsAsListed s .ssr) o := by
  cases ho with
  | unwritten a => trivial
  | check hp =>
    exact .ite (fun hl => ErrorsAsListed.raise (.ssrShortImage hp hl)) fun _ => ErrorsAsListed.of_shell_eq hb rfl
  | sector data index undescribed counter =>
    exact .mono (exec_keepsShell (i := .secTrailer data index undescribed counter) rfl s) fun _ => .of_shell_eq hb
  | gatherEnd => exact ErrorsAsListed.of_shell_eq hb rfl
  | emit => exact ssrEmit_errorsAsListed

theorem agentStep_unit_errorsAsListed {u : UnitId} (hb : s.busy u) :
    Ensures (ErrorsAsListed s u) (agentStep (.unit u) s) := by
  cases u with
  | lzd => exact agentStep_lzd hb ▸ fetchLzd_errorsAsListed hb
  | tiu => exact agentStep_tiu hb ▸ (fetchTiu_turn s).errorsAsListed hb
  | gbc => exact agentStep_gbc hb ▸ fetchGbc_errorsAsListed hb
  | ssr => exact agentStep_ssr hb ▸ (fetchSsr_turn s).errorsAsListed hb

end

/-- Settles O11: the codes and classes are evaluated; a triple in ERROR after a unit's step is that of a raise of
R221's table. -/
theorem causesAreRaisedOnlyAsListed : Obligations.CausesAreRaisedOnlyAsListed := by
  unfold Obligations.CausesAreRaisedOnlyAsListed
  refine ⟨by decide, fun s t u hb ht he => ?_⟩
  obtain ⟨hclass, hraises⟩ := (agentStep_unit_errorsAsListed hb).of_next ht he
  refine ⟨hclass, ?_⟩
  generalize (t.shell u).errCause = c at hraises
  cases hraises with
  | lzShortHeader hp hl => exact ⟨rfl, hp, hl⟩
  | lzBadTag hp hl hx hd => exact ⟨rfl, hp, hl, _, hx, hd⟩
  | lzBackrefRange hp ho h0 hc hl hx hd hfar => exact ⟨rfl, hp, ho, h0, hc, hl, _, _, _, hx, hd, hfar⟩
  | tiuNoTiles hp h0 => exact ⟨rfl, hp, h0⟩
  | tiuPartialTile hp h32 => exact ⟨rfl, hp, h32⟩
  | tiuBadPaletteLen hp h0 h32 hpal => exact ⟨rfl, hp, h0, h32, hpal⟩
  | glyBadMode hp hm => exact ⟨rfl, hp, hm⟩
  | glyMinGtMax hp hm hlt => exact ⟨rfl, ⟨hp, hm⟩, hlt⟩
  | glyMaxTooBig hp hm hrange hmax => exact ⟨rfl, ⟨hp, hm⟩, hrange, hmax⟩
  | glyWidthTooBig hp hm hrange hmax hw => exact ⟨rfl, .inl ⟨⟨hp, hm⟩, ⟨hrange, hmax⟩, hw⟩⟩
  | glyHeaderWidthTooBig hp hm hl hh => exact ⟨rfl, .inr ⟨⟨hp, hm⟩, hl, hh⟩⟩
  | glyCountOverflow hp hm hmin hmax hw => exact ⟨rfl, ⟨hp, hm⟩, hmin, hmax, hw⟩
  | glyShortTable hp hm hl => exact ⟨rfl, ⟨hp, hm⟩, .inl hl⟩
  | glyTableTruncated hp hm hl hh => exact ⟨rfl, ⟨hp, hm⟩, .inr ⟨hl, hh⟩⟩
  | glyBadRows hp hm hl hh => exact ⟨rfl, ⟨hp, hm⟩, hl, hh⟩
  | glyOldTruncated hp hl hh => exact ⟨rfl, hp, hl, hh⟩
  | glyBadCharset hp hm hst hc hl hx hd => exact ⟨rfl, hp, hm, hst, hc, hl, _, _, hx, hd⟩
  | ssrShortImage hp hl => exact ⟨rfl, hp, hl⟩

end Sys2Proof.Machine
end

section
/-!
A running unit is never stuck (R254). A step answers a next state unless it reads a byte that holds no value (R21) or
copies from below address 0 of OUT. The bytes below the length registers are loaded (R252), the rest is the invariant's:
the cursors lie below the lengths, a copy's source lies in the output, and the buffers a unit reads back are written.
-/

namespace Sys2Proof.Machine

/-! ## Reads of written bytes -/

/-- The raw line is the block read up to its first line feed (R155). -/
theorem Memory.lineAt_of_load {m : Memory} {a n : Nat} {bytes : List Byte} (h : m.load a n = .ok bytes) :
    m.lineAt a n = .ok (bytes.takeWhile fun b => b ≠ lineFeed) := by
  induction m generalizing a n bytes with
  | nil =>
    cases n with
    | zero => cases h; rfl
    | succ n => cases h
  | cons c m ih =>
    obtain ⟨k, v⟩ := c
    cases n with
    | zero => cases h; rfl
    | succ n =>
      simp only [Memory.load] at h
      simp only [Memory.lineAt]
      split_ifs at h ⊢ with hlt heq hlf
      · exact ih h
      · split at h
        · cases h
          simp [hlf]
        · cases h
      · split at h
        · next vs hvs =>
          cases h
          rw [ih hvs, List.takeWhile_cons_of_pos (by simpa using hlf)]
        · cases h

theorem Written.load {m : Memory} {n : Nat} (h : Written m n) (hm : m.wf) {a k : Nat} (hle : a + k ≤ n) :
    ∃ bytes, m.load a k = .ok bytes := by
  obtain ⟨bytes, hx, -⟩ := Memory.load_isOk m a k hm fun j hj => h _ (by omega)
  exact ⟨bytes, hx⟩

theorem Written.lineAt {m : Memory} {n : Nat} (h : Written m n) (hm : m.wf) {a k : Nat} (hle : a + k ≤ n) :
    ∃ raw, m.lineAt a k = .ok raw := by
  obtain ⟨bytes, hx⟩ := h.load hm hle
  exact ⟨_, Memory.lineAt_of_load hx⟩

/-! ## Outcomes that are next states -/

/-- The outcome is a next state: no fault and no refusal. -/
def Answers (o : Result) : Prop := ∃ t, o = .next t

theorem answers_next (t : State) : Answers (.next t) := ⟨t, rfl⟩

theorem Answers.ite {c : Prop} {_ : Decidable c} {o o' : Result} (h : c → Answers o) (h' : ¬ c → Answers o') :
    Answers (if c then o else o') := by
  split
  · exact h ‹_›
  · exact h' ‹_›

theorem Answers.fetchIte {c : Prop} {_ : Decidable c} {f f' : Fetched} (h : c → Answers (runFetched f))
    (h' : ¬ c → Answers (runFetched f')) : Answers (runFetched (if c then f else f')) := by
  rw [apply_ite runFetched]
  exact .ite h h'

theorem Answers.withBytes {α : Type} {b : BufName} {x : Except Nat α} {k : α → Result} (hx : ∃ bytes, x = .ok bytes)
    (h : ∀ bytes, Answers (k bytes)) : Answers (withBytes b x k) := by
  obtain ⟨bytes, rfl⟩ := hx
  exact h bytes

/-! ## Instructions -/

/-- Every instruction but the glyph table header, which may read OLD, answers a next state in every state. -/
theorem exec_answers {i : Instr} (hi : i.place ≠ .glyphHeader) (s : State) : Answers (exec i s) := by
  cases i with
  | glyHdr => exact absurd rfl hi
  | copy l d => exact .ite (fun _ => answers_next _) fun _ => answers_next _
  | bdfEncoding code => exact .ite (fun _ => answers_next _) fun _ => answers_next _
  | secTrailer data index undescribed counter => exact ⟨_, exec_secTrailer s data index undescribed counter⟩
  | hexLine cp payload =>
    refine .ite (fun _ => answers_next _) fun _ => .ite (fun _ => answers_next _) fun _ => ?_
    cases hexRecord s.gbc.recSize payload <;> exact answers_next _
  | _ => exact answers_next _

/-- Bytes that are read and decoded, no glyph table header, answer a next state when the rejection does. -/
theorem Answers.fetchDecoded {b : BufName} {x : Except Nat (List Byte)} {p : Place} {t : List Byte → State}
    {o : List Byte → Result} (hp : p ≠ .glyphHeader) (hx : ∃ bytes, x = .ok bytes) (ho : ∀ bytes, Answers (o bytes)) :
    Answers (runFetched (fetchBytes b x fun bytes => runDecoded p bytes (t bytes) (o bytes))) := by
  obtain ⟨bytes, rfl⟩ := hx
  rw [fetchBytes_ok]
  cases hd : decode p bytes with
  | ok i =>
    rw [runFetched_decoded_ok _ _ hd]
    exact exec_answers (decode_place hd ▸ hp) _
  | error e =>
    rw [runFetched_decoded_error _ _ hd]
    exact ho bytes

/-! ## The units' turns -/

/-- The unit runs on loaded input, in a state that meets the invariant. -/
structure Live (u : UnitId) (s : State) : Prop where
  inv : Inv s
  busy : s.busy u
  loaded : s.loaded u

section

variable {s : State}

/-- The source of a copy step lies in the output, which is written (R106, R108, R114). -/
theorem lzdCopyStep_answers (h : Live .lzd s) (hp : s.lzd.phase = .copy) : Answers (lzdCopyStep s) := by
  have hd := h.inv.lzd.copyDisp_lt hp
  have hle := h.inv.lzd.outPos_le
  have hw := h.inv.lzd.out_written (by rw [hp]; nofun)
  exact .ite (fun _ => answers_next _) fun _ => .ite (fun _ => answers_next _) fun _ =>
    .ite (fun hbelow => absurd hd (not_lt.mpr hbelow)) fun _ =>
      .withBytes (hw.load (h.inv.mem .lzdOut) (by omega)) fun _ => answers_next _

theorem fetchLzd_answers (h : Live .lzd s) : Answers (runFetched (fetchLzd s)) := by
  have hm := h.inv.mem .lzdIn
  have hw : Written s.lzd.inBuf s.lzd.inLen := h.loaded
  have hstop : Answers (lzdStop s) := answers_next _
  simp only [fetchLzd]
  cases hp : s.lzd.phase with
  | hdr =>
    exact .fetchIte (fun _ => answers_next _) fun hl =>
      .fetchDecoded nofun (hw.load hm (by omega)) fun _ => answers_next _
  | token =>
    have hread {n : Nat} {p : Place} (hplace : p ≠ .glyphHeader) (hle : s.lzd.inPos + n ≤ s.lzd.inLen) :
        Answers (runFetched (fetchBytes .lzdIn (s.lzd.inBuf.load s.lzd.inPos n) fun bytes =>
          runDecoded p bytes s (lzdStop s))) :=
      .fetchDecoded hplace (hw.load hm hle) fun _ => hstop
    refine .fetchIte (fun _ => hstop) fun _ => .fetchIte (fun _ => ?control) fun _ => .fetchIte (fun _ => ?backref)
      fun _ => ?literal
    case control => exact .fetchIte (fun _ => hstop) fun hl => hread nofun (not_le.mp hl)
    case backref => exact .fetchIte (fun _ => hstop) fun hl => hread nofun (not_lt.mp hl)
    case literal => exact .fetchIte (fun _ => hstop) fun hl => hread nofun (not_le.mp hl)
  | copy => exact lzdCopyStep_answers h hp

theorem fetchTiu_answers (h : Live .tiu s) : Answers (runFetched (fetchTiu s)) := by
  obtain ⟨htiles, hpal⟩ := h.loaded
  simp only [fetchTiu]
  cases hp : s.tiu.phase with
  | check =>
    exact .ite (fun _ => answers_next _) fun _ => .ite (fun _ => answers_next _) fun _ =>
      .ite (fun _ => answers_next _) fun _ => answers_next _
  | tiles =>
    exact .fetchIte (fun _ => answers_next _) fun hk =>
      .fetchDecoded nofun (htiles.load (h.inv.mem .tiuTiles) (by omega)) fun _ => answers_next _
  | palette =>
    obtain ⟨-, -, hlen⟩ := h.inv.tiu.lens h.busy (by rw [hp]; nofun)
    refine .fetchIte (fun _ => answers_next _) fun hi => ?_
    have hi' : s.tiu.pi.toNat < 16 := not_le.mp hi
    exact .fetchDecoded nofun (hpal.load (h.inv.mem .tiuPal) (by omega)) fun _ => answers_next _

theorem gbcDecodeCheck_answers (start count : BitVec 16) (width rows : Byte) (s : State) :
    Answers (gbcDecodeCheck start count width rows s) :=
  .ite (fun _ => answers_next _) fun _ => .ite (fun _ => answers_next _) fun _ => .ite (fun _ => answers_next _)
    fun _ => answers_next _

/-- The records a merge copies lie below OLD_LEN, which is tested first (R154). -/
theorem gbcMerge_answers (h : Live .gbc s) (start count : BitVec 16) (width : Byte) :
    Answers (gbcMerge start count width s) := by
  obtain ⟨-, hold⟩ := h.loaded
  exact .ite (fun _ => .ite (fun _ => answers_next _) fun hl =>
    .withBytes (hold.load (h.inv.mem .gbcOld) (not_lt.mp hl)) fun _ => answers_next _) fun _ => answers_next _

theorem gbcEncodeCheck_answers (s : State) : Answers (gbcEncodeCheck s) :=
  .ite (fun _ => answers_next _) fun _ => .ite (fun _ => answers_next _) fun _ => .ite (fun _ => answers_next _)
    fun _ => .ite (fun _ => answers_next _) fun _ => answers_next _

/-- Eight bytes that are read are a glyph table header (R75). -/
theorem Answers.fetchHeader {b : BufName} {m : Memory} {o : Result} (hx : ∃ bytes, m.load 0 8 = .ok bytes)
    (h : ∀ start count width rows reserved, Answers (exec (.glyHdr start count width rows reserved) s)) :
    Answers (runFetched (fetchBytes b (m.load 0 8) fun bytes => runDecoded .glyphHeader bytes s o)) := by
  obtain ⟨bytes, hx⟩ := hx
  obtain ⟨start, count, width, rows, reserved, hd⟩ := decode_glyphHeader (Memory.load_length _ _ _ _ hx)
  rw [hx, fetchBytes_ok, runFetched_decoded_ok _ _ hd]
  exact h start count width rows reserved

theorem recSizeOf_eq_or (width : Nat) : recSizeOf width = 16 ∨ recSizeOf width = 32 := by
  rw [recSizeOf]
  split
  · exact .inl rfl
  · exact .inr rfl

/-- While a glyph is left, its record lies below SRC_LEN: the decode step reads it and moves on (R177, R178). -/
theorem Live.recordStep (h : Live .gbc s) (hp : s.gbc.phase = .decode) (hg : s.gbc.g ≠ s.gbc.count) :
    ∃ pix, agentStep (.unit .gbc) s = .next (s.setGbc { s.gbc with g := s.gbc.g + 1, pix := pix }) := by
  obtain ⟨-, -, -, -, hrec, hlen, hgle, -⟩ := h.inv.gbc.decode h.busy hp
  have hlt : s.gbc.g.toNat < s.gbc.count.toNat := by bv_omega
  have hsize : s.gbc.recSize = 16 ∨ s.gbc.recSize = 32 := hrec ▸ recSizeOf_eq_or _
  have hend : s.gbc.g.toNat * s.gbc.recSize.toNat + s.gbc.recSize.toNat ≤ s.gbc.count.toNat * s.gbc.recSize.toNat := by
    rw [← Nat.succ_mul]
    exact Nat.mul_le_mul_right _ hlt
  obtain ⟨bytes, hx⟩ := h.loaded.1.load (h.inv.mem .gbcSrc) (by omega :
    8 + s.gbc.g.toNat * s.gbc.recSize.toNat + s.gbc.recSize.toNat ≤ s.gbc.srcLen)
  obtain ⟨pix, hstep, -⟩ := agentStep_gbc_record h.busy hp hg hsize hx
  exact ⟨pix, hstep⟩

theorem fetchGbc_answers (h : Live .gbc s) : Answers (runFetched (fetchGbc s)) := by
  obtain ⟨hsrc, hold⟩ := h.loaded
  cases hp : s.gbc.phase with
  | check =>
    simp only [fetchGbc, hp]
    refine .fetchIte (fun _ => answers_next _) fun _ => .fetchIte (fun _ => ?table) fun _ => gbcEncodeCheck_answers s
    refine .fetchIte (fun _ => answers_next _) fun hl => .fetchHeader (hsrc.load (h.inv.mem .gbcSrc) (by omega))
      fun start count width rows reserved => ?_
    rw [exec_glyHdr_check hp]
    exact gbcDecodeCheck_answers start count width rows s
  | merge =>
    simp only [fetchGbc, hp]
    refine .fetchIte (fun _ => answers_next _) fun hl => .fetchHeader (hold.load (h.inv.mem .gbcOld) (by omega))
      fun start count width rows reserved => ?_
    rw [exec_glyHdr_merge hp]
    exact gbcMerge_answers h start count width
  | parse =>
    simp only [fetchGbc, hp, fetchLine]
    refine .fetchIte (fun _ => answers_next _) fun hl => .fetchDecoded ?place
      (hsrc.lineAt (h.inv.mem .gbcSrc) (by omega)) fun _ => answers_next _
    split <;> nofun
  | decode =>
    by_cases hg : s.gbc.g = s.gbc.count
    · exact ⟨_, (agentStep_gbc h.busy).symm.trans (agentStep_gbc_recordsEnd h.busy hp hg)⟩
    · obtain ⟨pix, hstep⟩ := h.recordStep hp hg
      exact ⟨_, (agentStep_gbc h.busy).symm.trans hstep⟩

theorem fetchSsr_answers (h : Live .ssr s) : Answers (runFetched (fetchSsr s)) := by
  have hw : Written s.ssr.raw s.ssr.rawLen := h.loaded
  simp only [fetchSsr]
  cases hp : s.ssr.phase with
  | check => exact .ite (fun _ => answers_next _) fun _ => answers_next _
  | gather =>
    obtain ⟨hlen, -⟩ := h.inv.ssr.lens h.busy (by rw [hp]; nofun)
    have hle := h.inv.ssr.p_le
    refine .fetchIte (fun _ => answers_next _) fun h28 => ?_
    have hlt : s.ssr.p.toNat < 28 := by bv_omega
    have hend : 0x1000 * s.ssr.p.toNat + 0x1000 ≤ s.ssr.rawLen := by omega
    exact .fetchDecoded nofun (hw.load (h.inv.mem .ssrRaw) hend) fun _ => answers_next _
  | emit =>
    obtain ⟨ca, cb, a, b, tail, hreads⟩ := exists_emitReads h.inv (by rw [hp]; nofun) h.loaded
    exact ⟨_, ssrEmit_of_reads hreads⟩

end

theorem Live.answers {u : UnitId} {s : State} (h : Live u s) : Answers (agentStep (.unit u) s) := by
  cases u with
  | lzd => exact agentStep_lzd h.busy ▸ fetchLzd_answers h
  | tiu => exact agentStep_tiu h.busy ▸ fetchTiu_answers h
  | gbc => exact agentStep_gbc h.busy ▸ fetchGbc_answers h
  | ssr => exact agentStep_ssr h.busy ▸ fetchSsr_answers h

/-- Settles O54: each unit's turn answers a next state. -/
theorem aBusyUnitIsNeverStuck : Obligations.ABusyUnitIsNeverStuck := by
  unfold Obligations.ABusyUnitIsNeverStuck
  exact fun s u h hb hl => Live.answers ⟨h, hb, hl⟩

end Sys2Proof.Machine
end

section
/-!
Every operation ends (R254). TIU and SSR take the same number of steps whatever their input holds, unless the check step
ends them; the runs that O26 and O43 rest on count these steps. A decode takes one step per glyph. For LZD and a text
encode a number falls at each step: the distance of the cursors from their bounds, a step more while a copy lasts.
-/

namespace Sys2Proof.Machine

/-! ## Operations that have ended -/

section

variable {u : UnitId} {s t : State}

/-- A unit whose operation is over stays as it is (R254). -/
theorem unitSteps_of_ended (h : t.ended u) (n : Nat) : unitSteps u n t = .next t := by
  have hrest : ¬ t.busy u := by
    intro hb
    obtain he | he := h <;> exact nomatch hb.symm.trans he
  induction n with
  | zero => rfl
  | succ n ih => rw [unitSteps_succ (agentStep_unit_resting hrest), ih]

theorem ended_raise (s : State) (u : UnitId) (c : Cause) : (s.raise u c).ended u := by
  rw [State.ended, State.raise_shell, if_pos rfl]
  exact .inr rfl

theorem ended_finish (s : State) (u : UnitId) : (s.finish u).ended u := by
  rw [State.ended, State.finish_shell, if_pos rfl]
  exact .inl rfl

/-- The run of `n` steps of a unit ends its operation, at its last step or before. -/
def EndsWithin (u : UnitId) (n : Nat) (s : State) : Prop := ∃ t, unitSteps u n s = .next t ∧ t.ended u

theorem endsWithin_of_step (h : agentStep (.unit u) s = .next t) (ht : t.ended u) (n : Nat) : EndsWithin u (n + 1) s :=
  ⟨t, (unitSteps_succ h).trans (unitSteps_of_ended ht n), ht⟩

theorem EndsWithin.of_raise {c : Cause} (h : agentStep (.unit u) s = .next (s.raise u c)) (n : Nat) :
    EndsWithin u (n + 1) s :=
  endsWithin_of_step h (ended_raise s u c) n

theorem EndsWithin.step {n : Nat} (h : agentStep (.unit u) s = .next t) (ht : EndsWithin u n t) :
    EndsWithin u (n + 1) s := by
  obtain ⟨r, hr, he⟩ := ht
  exact ⟨r, (unitSteps_succ h).trans hr, he⟩

/-! ## Runs of a live unit -/

/-- What is loaded is told by the inputs alone. -/
theorem State.loaded_of_inputs_eq (h : t.inputs = s.inputs) (hl : s.loaded u) : t.loaded u := by
  have hs (r : State) : r.inputs.loaded u ↔ r.loaded u := by cases u <;> exact Iff.rfl
  rwa [← hs, h, hs]

/-- A unit that runs on after its step is live still. -/
theorem Live.next (h : Live u s) (ht : agentStep (.unit u) s = .next t) (hb : t.busy u) : Live u t :=
  ⟨(agentStep_keepsInv h.inv _).of_next ht, hb,
    State.loaded_of_inputs_eq ((agentStep_unit_keepsInputs u).of_next ht) h.loaded⟩

/-- A step that ends the operation, or keeps the unit running in a state of `P` and makes `left` smaller. -/
def Advances (u : UnitId) (P : State → Prop) (left : State → Nat) (s t : State) : Prop :=
  t.ended u ∨ (t.busy u ∧ P t ∧ left t < left s)

/-- A unit whose every step advances ends its operation within `left + 1` steps. -/
theorem Live.endsWithin {P : State → Prop} {left : State → Nat}
    (hadv : ∀ s t, Live u s → P s → agentStep (.unit u) s = .next t → Advances u P left s t) {n : Nat} (h : Live u s)
    (hs : P s) (hn : left s < n) : EndsWithin u n s := by
  induction n generalizing s with
  | zero => exact absurd hn (Nat.not_lt_zero _)
  | succ n ih =>
    obtain ⟨t, ht⟩ := h.answers
    obtain hend | ⟨hb, hP, hlt⟩ := hadv s t h hs ht
    · exact endsWithin_of_step ht hend n
    · exact (ih (h.next ht hb) hP (by omega)).step ht

end

variable {s : State}

/-! ## LZD -/

/-- A step of LZD ends its operation or leaves it running past the header. -/
theorem LzdTurn.ended_or_past_header {o : Result} (ho : LzdTurn s o) (hb : s.busy .lzd) :
    Ensures (fun t => t.ended .lzd ∨ (t.busy .lzd ∧ t.lzd.phase ≠ .hdr)) o := by
  cases ho with
  | unwritten a => trivial
  | shortHeader | badTag => exact .inl (ended_raise ..)
  | stop => exact .inl (ended_finish ..)
  | header => exact .inr ⟨hb, nofun⟩
  | control _ hp | literal _ hp => exact .inr ⟨hb, ne_of_eq_of_ne hp nofun⟩
  | backref => exact .ite (fun _ => .inr ⟨hb, nofun⟩) fun _ => .inl (ended_raise ..)
  | copyStep hp =>
    exact .ite (fun _ => .inr ⟨hb, nofun⟩) fun _ => .ite (fun _ => .inl (ended_finish ..)) fun _ =>
      .ite (fun _ => trivial) fun _ => .withBytes fun _ _ => .inr ⟨hb, ne_of_eq_of_ne hp nofun⟩

/-- What is left of a decompression: twice the distance of the cursors' sum from its bound, one more in a copy, whose
last step moves neither cursor (R112). -/
def lzdLeft (s : State) : Nat :=
  2 * (s.lzd.inLen + s.lzd.size.toNat - (s.lzd.inPos + s.lzd.outPos.toNat)) + if s.lzd.phase = .copy then 1 else 0

theorem LzdProgress.lzdLeft_lt {t : State} (h : LzdProgress s t) : t.ended .lzd ∨ lzdLeft t < lzdLeft s := by
  obtain ⟨-, hend | ⟨hbound, hlen, hsize, hlt | ⟨hcopy, -, htoken, hin, hout⟩⟩⟩ := h
  · exact .inl hend
  · refine .inr ?_
    rw [hlen, hsize] at hbound
    simp only [lzdLeft, hlen, hsize]
    split <;> split <;> omega
  · refine .inr ?_
    simp only [lzdLeft, hlen, hsize, hin, hout, hcopy, htoken]
    simp

theorem Live.lzdTurn (h : Live .lzd s) {t : State} (ht : agentStep (.unit .lzd) s = .next t) : LzdTurn s (.next t) := by
  rw [← ht, agentStep_lzd h.busy]
  exact fetchLzd_turn s

theorem Live.lzd_advances (h : Live .lzd s) (hp : s.lzd.phase ≠ .hdr) {t : State}
    (ht : agentStep (.unit .lzd) s = .next t) : Advances .lzd (fun t => t.lzd.phase ≠ .hdr) lzdLeft s t := by
  have hturn := h.lzdTurn ht
  obtain hend | ⟨hb, hpt⟩ := (hturn.ended_or_past_header h.busy).of_next rfl
  · exact .inl hend
  · exact ((hturn.progress h.inv h.busy hp).of_next rfl).lzdLeft_lt.imp_right fun hlt => ⟨hb, hpt, hlt⟩

/-- A first step, which may be the header step; from there on every step makes progress. -/
theorem Live.lzd_ends (h : Live .lzd s) : ∃ n, EndsWithin .lzd n s := by
  obtain ⟨t, ht⟩ := h.answers
  obtain hend | ⟨hb, hp⟩ := ((h.lzdTurn ht).ended_or_past_header h.busy).of_next rfl
  · exact ⟨1, endsWithin_of_step ht hend 0⟩
  · have hrest : EndsWithin .lzd (lzdLeft t + 1) t :=
      (h.next ht hb).endsWithin (fun _ _ hr hpr => hr.lzd_advances hpr) hp (Nat.lt_succ_self _)
    exact ⟨_, hrest.step ht⟩

/-! ## TIU -/

theorem Live.tiu_ends (h : Live .tiu s) (hp : s.tiu.phase = .check) : EndsWithin .tiu (s.tiu.tilesLen + 19) s := by
  have hstep := agentStep_tiu_check h.busy hp
  by_cases h0 : s.tiu.tilesLen = 0
  · exact .of_raise (hstep.trans (tiuCheck_noTiles h0)) _
  by_cases h32 : s.tiu.tilesLen % 32 = 0
  · by_cases hpal : s.tiu.palLen = 32
    · obtain ⟨raster, rgba, hrun, -⟩ := unpackRun h.inv h.busy hp h.loaded h0 h32 hpal
      exact ⟨_, hrun, .inl rfl⟩
    · exact .of_raise (hstep.trans (tiuCheck_badPaletteLen h0 h32 hpal)) _
  · exact .of_raise (hstep.trans (tiuCheck_partialTile h32)) _

/-! ## SSR -/

theorem Live.ssr_ends (h : Live .ssr s) (hp : s.ssr.phase = .check) : EndsWithin .ssr 31 s := by
  by_cases hl : 0x1C000 ≤ s.ssr.rawLen
  · obtain ⟨t, ht, -, hdone, -⟩ := reassembleRebuildsAndOrdersTheSlots s h.inv h.busy hp h.loaded hl
    exact ⟨t, ht, .inl hdone⟩
  · exact .of_raise ((agentStep_ssr_check h.busy hp).trans (ssrCheck_short (not_le.mp hl))) 30

/-! ## GBC: decode -/

/-- The records left and the stop step; COUNT is kept. -/
theorem Live.decodeRun (n : Nat) (h : Live .gbc s) (hp : s.gbc.phase = .decode)
    (hn : s.gbc.g.toNat + n = s.gbc.count.toNat) :
    ∃ t, unitSteps .gbc (n + 1) s = .next t ∧ t.ended .gbc ∧ t.gbc.count = s.gbc.count := by
  induction n generalizing s with
  | zero =>
    have hstep := agentStep_gbc_recordsEnd h.busy hp (BitVec.eq_of_toNat_eq hn)
    exact ⟨_, unitSteps_succ hstep, .inl rfl, rfl⟩
  | succ n ih =>
    have hg : s.gbc.g ≠ s.gbc.count := by
      intro e
      rw [e] at hn
      omega
    have hnext : (s.gbc.g + 1).toNat = s.gbc.g.toNat + 1 := by bv_omega
    obtain ⟨pix, hstep⟩ := h.recordStep hp hg
    have hleft : (s.gbc.g + 1).toNat + n = s.gbc.count.toNat := by omega
    obtain ⟨t, ht, hend, hcount⟩ := ih (h.next hstep h.busy) hp hleft
    exact ⟨t, (unitSteps_succ hstep).trans ht, hend, hcount⟩

/-- The check step of a decode ends the operation or leaves the first glyph next (R177). -/
theorem Live.decodeCheck_step (h : Live .gbc s) (hp : s.gbc.phase = .check) (hm : s.gbc.mode = 0) :
    Ensures (fun t => t.ended .gbc ∨ (t.busy .gbc ∧ t.gbc.phase = .decode ∧ t.gbc.g = 0))
      (agentStep (.unit .gbc) s) := by
  have hb := h.busy
  obtain hl | hl := lt_or_ge s.gbc.srcLen 8
  · rw [agentStep_gbc_shortTable hb hp hm hl]
    exact .inl (ended_raise ..)
  · rw [agentStep_gbc hb, fetchGbc_tableHeader hp hm hl]
    refine .fetchHeader fun start count width rows reserved _ => ?_
    rw [exec_glyHdr_check hp]
    exact .ite (fun _ => .inl (ended_raise ..)) fun _ => .ite (fun _ => .inl (ended_raise ..)) fun _ =>
      .ite (fun _ => .inl (ended_raise ..)) fun _ => .inr ⟨hb, rfl, rfl⟩

theorem Live.decode_ends (h : Live .gbc s) (hp : s.gbc.phase = .check) (hm : s.gbc.mode = 0) :
    ∃ n t, unitSteps .gbc n s = .next t ∧ t.ended .gbc ∧ n ≤ t.gbc.count.toNat + 2 := by
  obtain ⟨t, ht⟩ := h.answers
  obtain hend | ⟨hb, hpt, hg⟩ := (h.decodeCheck_step hp hm).of_next ht
  · exact ⟨1, t, unitSteps_succ ht, hend, by omega⟩
  · have hleft : t.gbc.g.toNat + t.gbc.count.toNat = t.gbc.count.toNat := by rw [hg]; exact Nat.zero_add _
    obtain ⟨r, hr, hend, hcount⟩ := (h.next ht hb).decodeRun _ hpt hleft
    exact ⟨_, r, (unitSteps_succ ht).trans hr, hend, by rw [hcount]⟩

/-! ## GBC: encode -/

/-- The steps left of an encode before the last: the check, the merge, and a line for each byte of text at most. -/
def encodeLeft (s : State) : Nat :=
  match s.gbc.phase with
  | .check => s.gbc.srcLen + 2
  | .merge => s.gbc.srcLen + 1
  | .parse | .decode => s.gbc.srcLen - s.gbc.srcPos

/-- A text line ends the operation, or moves neither PHASE nor SRC_POS. -/
theorem exec_line_step {i : Instr} {mode : BitVec 2} {st : PState}
    (hi : i.place = if mode = 1 then .hexText else .bdfText st) (hb : s.busy .gbc) :
    Ensures (fun t => t.ended .gbc ∨ (t.busy .gbc ∧ encodeLeft t = encodeLeft s)) (exec i s) := by
  cases i with
  | hexLine cp payload =>
    refine .ite (fun _ => .inr ⟨hb, rfl⟩) fun _ => .ite (fun _ => .inr ⟨hb, rfl⟩) fun _ => ?_
    cases hexRecord s.gbc.recSize payload <;> exact .inr ⟨hb, rfl⟩
  | bdfRow digits =>
    rw [exec_bdfRow]
    exact .inr ⟨hb, rfl⟩
  | bdfEncoding code => exact .ite (fun _ => .inl (ended_raise ..)) fun _ => .inr ⟨hb, rfl⟩
  | bdfCharset | bdfBitmap | bdfEndchar | bdfOther => exact .inr ⟨hb, rfl⟩
  | _ => split at hi <;> cases hi

theorem encodeLeft_pastLine (hp : s.gbc.phase = .parse) (hl : s.gbc.srcPos < s.gbc.srcLen) (raw : List Byte) :
    encodeLeft (s.pastLine raw) < encodeLeft s := by
  simp only [encodeLeft, State.pastLine, State.setGbc_gbc, hp]
  omega

theorem GbcTurn.encode_advances {o : Result} (ho : GbcTurn s o) (hb : s.busy .gbc) (hm : s.gbc.mode ≠ 0)
    (hd : s.gbc.phase ≠ .decode) (hl : s.gbc.phase = .parse → s.gbc.srcPos < s.gbc.srcLen) :
    Ensures (fun t => t.ended .gbc ∨ (t.busy .gbc ∧ encodeLeft t < encodeLeft s)) o := by
  have hmerge (hp : s.gbc.phase = .merge) (t : State) (ht : t.gbc.phase = .parse) (hlen : t.gbc.srcLen = s.gbc.srcLen) :
      encodeLeft t < encodeLeft s := by
    simp only [encodeLeft, hp, ht, hlen]
    omega
  cases ho with
  | unwritten b a => trivial
  | badMode => exact .inl (ended_raise ..)
  | textEnd => exact .inl (ended_finish ..)
  | shortTable hp h0 | decodeCheck _ _ _ _ hp h0 => exact absurd h0 hm
  | record _ hp | recordsEnd hp => exact absurd hp hd
  | encodeCheck hp =>
    refine .ite (fun _ => .inl (ended_raise ..)) fun _ => .ite (fun _ => .inl (ended_raise ..)) fun _ =>
      .ite (fun _ => .inl (ended_raise ..)) fun _ => .ite (fun _ => .inl (ended_raise ..)) fun _ => .inr ⟨hb, ?_⟩
    simp only [encodeLeft, hp, State.setGbc_gbc]
    omega
  | noMerge hp => exact .inr ⟨hb, hmerge hp _ rfl rfl⟩
  | merge start count width hp =>
    exact .ite (fun _ => .ite (fun _ => .inl (ended_raise ..)) fun _ =>
      .withBytes fun _ _ => .inr ⟨hb, hmerge hp _ rfl rfl⟩) fun _ => .inr ⟨hb, hmerge hp _ rfl rfl⟩
  | line raw i hp hi =>
    exact (exec_line_step (s := s.pastLine raw) hi hb).mono fun t ht => ht.imp_right fun ⟨hbt, hleft⟩ =>
      ⟨hbt, hleft ▸ encodeLeft_pastLine hp (hl hp) raw⟩
  | skippedLine raw hp => exact .inr ⟨hb, encodeLeft_pastLine hp (hl hp) raw⟩

theorem Live.encode_advances (h : Live .gbc s) (hm : s.gbc.mode ≠ 0) {t : State}
    (ht : agentStep (.unit .gbc) s = .next t) : Advances .gbc (fun t => t.gbc.mode ≠ 0) encodeLeft s t := by
  have hmt : t.gbc.mode ≠ 0 :=
    ne_of_eq_of_ne (congrArg (·.gbc.mode) ((agentStep_unit_keepsInputs .gbc).of_next ht)) hm
  have hd : s.gbc.phase ≠ .decode := fun hp => hm (h.inv.gbc.decode h.busy hp).1
  by_cases hover : s.gbc.phase = .parse ∧ s.gbc.srcLen ≤ s.gbc.srcPos
  · obtain rfl := Host.Outcome.next.inj ((agentStep_gbc_textEnd h.busy hover.1 hover.2).symm.trans ht)
    exact .inl (ended_finish ..)
  · have hturn := (fetchGbc_turn s).encode_advances h.busy hm hd fun hp => not_le.mp fun hl => hover ⟨hp, hl⟩
    exact (hturn.of_next ((agentStep_gbc h.busy).symm.trans ht)).imp_right fun ⟨hb, hlt⟩ => ⟨hb, hmt, hlt⟩

theorem Live.encode_ends (h : Live .gbc s) (hp : s.gbc.phase = .check) (hm : s.gbc.mode ≠ 0) :
    EndsWithin .gbc (s.gbc.srcLen + 3) s := by
  have hleft : encodeLeft s < s.gbc.srcLen + 3 := by
    simp only [encodeLeft, hp]
    omega
  exact h.endsWithin (fun _ _ hr hmr => hr.encode_advances hmr) hm hleft

/-! ## The statement -/

/-- Settles O55: LZD and the encode by what is left falling at each step, the others by counting their steps. -/
theorem everyOperationEnds : Obligations.EveryOperationEnds := by
  unfold Obligations.EveryOperationEnds
  intro s h
  exact ⟨fun hb hl => Live.lzd_ends ⟨h, hb, hl⟩, fun hb hl => Live.tiu_ends ⟨h, hb, hl⟩,
    fun hb hl => Live.encode_ends ⟨h, hb, hl⟩, fun hb hl => Live.decode_ends ⟨h, hb, hl⟩,
    fun hb hl => Live.ssr_ends ⟨h, hb, hl⟩⟩

end Sys2Proof.Machine
end

section
/-!
The reset input (R250, R251): the host's turn replaces all four units by their reset values.
-/

namespace Sys2Proof.Machine

theorem agentStep_host_reset {s : State} {rest : List HostAction} (hs : s.host = .reset :: rest) :
    agentStep .host s = .next (State.resetUnits { s with host := rest }) := by
  simp only [agentStep, fetch, fetchHost, hs, runFetched_other, hostAction]

theorem State.resetUnits_sameUnit (s : State) (u : UnitId) : SameUnit u s.resetUnits State.reset := by
  cases u <;> rfl

theorem State.resetUnits_status (s : State) (u : UnitId) : (s.resetUnits.shell u).status = .idle := by
  cases u <;> rfl

theorem State.resetUnits_buf (s : State) (b : BufName) : s.resetUnits.buf b = [] := by
  cases b <;> rfl

/-- Settles O8: each unit is replaced whatever its state, and IDLE is not BUSY. -/
theorem resetInputActsOnEveryUnit : Obligations.ResetInputActsOnEveryUnit := by
  unfold Obligations.ResetInputActsOnEveryUnit
  intro s rest hs
  refine ⟨_, agentStep_host_reset hs, State.resetUnits_sameUnit _, State.resetUnits_status _, fun b a => ?unwritten, rfl,
    rfl, rfl, fun u => agentStep_unit_resting ?resting⟩
  case unwritten => rw [State.resetUnits_buf, Memory.read_nil]
  case resting => rw [State.busy, State.resetUnits_status]; nofun

end Sys2Proof.Machine
end

section
/-!
Decode of encode (R60 to R90): the fields of each word are read back from its bytes; a text line the encoder writes is left
whole by stripping (R80), and its digits spell the number they were written from (R81, R82).
-/

namespace Sys2Proof

open Machine

/-! ## Words (R6, R60, R70, R72, R75, R77, R90) -/

theorem le16_byteOf (w : BitVec 16) : le16 (byteOf 0 w) (byteOf 1 w) = w := be16_byteOf w

theorem decode_encode_tileByte (h l : Nibble) : decode .tile (encode (.tileByte h l)) = .ok (.tileByte h l) := by
  simp only [encode, decode, BitVec.extractLsb'_append_eq_left, BitVec.extractLsb'_append_eq_right]

theorem decode_encode_palEntry (x : BitVec 1) (b g r : BitVec 5) :
    decode .palette (encode (.palEntry x b g r)) = .ok (.palEntry x b g r) := by
  have hx : (x ++ b ++ g ++ r).extractLsb' 15 1 = x :=
    (BitVec.extractLsb'_append_eq_of_le (by decide)).trans <|
      (BitVec.extractLsb'_append_eq_of_le (by decide)).trans BitVec.extractLsb'_append_eq_left
  have hb : (x ++ b ++ g ++ r).extractLsb' 10 5 = b :=
    (BitVec.extractLsb'_append_eq_of_le (by decide)).trans <|
      (BitVec.extractLsb'_append_eq_of_le (by decide)).trans BitVec.extractLsb'_append_eq_right
  have hg : (x ++ b ++ g ++ r).extractLsb' 5 5 = g :=
    (BitVec.extractLsb'_append_eq_of_le (by decide)).trans BitVec.extractLsb'_append_eq_right
  have hr : (x ++ b ++ g ++ r).extractLsb' 0 5 = r := BitVec.extractLsb'_append_eq_right
  simp only [encode, decode, le16_byteOf, decodePalEntry, hx, hb, hg, hr]

theorem decode_encode_glyHdr (start count : BitVec 16) (width rows : Byte) (reserved : BitVec 16) :
    decode .glyphHeader (encode (.glyHdr start count width rows reserved)) =
      .ok (.glyHdr start count width rows reserved) := by
  simp only [encode, decode, le16_byteOf]

theorem decode_encode_glyRow16 (r : Fin 16) (p : BitVec 16) :
    decode (.glyphRow16 r) (encode (.glyRow16 r p)) = .ok (.glyRow16 r p) := by
  simp only [encode, decode, le16_byteOf]

/-- The six bytes of a sector that R90 does not describe. -/
theorem byteOf_append_byteOf_48 (w : BitVec 48) :
    byteOf 5 w ++ byteOf 4 w ++ byteOf 3 w ++ byteOf 2 w ++ byteOf 1 w ++ byteOf 0 w = w := by
  have h54 : byteOf 5 w ++ byteOf 4 w = w.extractLsb' 32 16 :=
    BitVec.extractLsb'_append_extractLsb'_eq_extractLsb' rfl
  have h543 : w.extractLsb' 32 16 ++ byteOf 3 w = w.extractLsb' 24 24 :=
    BitVec.extractLsb'_append_extractLsb'_eq_extractLsb' rfl
  have h5432 : w.extractLsb' 24 24 ++ byteOf 2 w = w.extractLsb' 16 32 :=
    BitVec.extractLsb'_append_extractLsb'_eq_extractLsb' rfl
  have h54321 : w.extractLsb' 16 32 ++ byteOf 1 w = w.extractLsb' 8 40 :=
    BitVec.extractLsb'_append_extractLsb'_eq_extractLsb' rfl
  rw [h54, h543, h5432, h54321]
  exact (BitVec.extractLsb'_append_extractLsb'_eq_extractLsb' rfl).trans BitVec.extractLsb'_eq_self

theorem decode_encode_secTrailer {data : List Byte} (hd : data.length = Config.trailerIndexOff) (index : BitVec 16)
    (undescribed : BitVec 48) (counter : BitVec 32) :
    decode .sector (encode (.secTrailer data index undescribed counter)) =
      .ok (.secTrailer data index undescribed counter) := by
  simp only [encode, decode, List.take_left' hd, List.drop_left' hd, decodeTrailer, le16_byteOf, le32_byteOf,
    byteOf_append_byteOf_48]

/-! ## Lines that stripping leaves whole (R80) -/

/-- A byte that stripping removes at neither end. -/
abbrev Solid (b : Byte) : Prop := ¬ Blank b ∧ b ≠ 0x0D

theorem stripLine_of_solid_ends {line : List Byte} (hhead : ∀ b ∈ line.head?, Solid b)
    (hlast : ∀ b ∈ line.getLast?, Solid b) : stripLine line = line := by
  have hreturn : line.getLast? ≠ some 0x0D := fun h => (hlast _ h).2 rfl
  have htrim : trim ([] ++ line ++ []) = line :=
    trim_eq_of_trimmed nofun ⟨fun b hb => (hhead b hb).1, fun b hb => (hlast b hb).1⟩
  rw [stripLine, dropReturn_of_getLast?_ne hreturn]
  rwa [List.append_nil] at htrim

theorem stripLine_of_solid {line : List Byte} (h : ∀ b ∈ line, Solid b) : stripLine line = line :=
  stripLine_of_solid_ends (fun b hb => h b (List.mem_of_mem_head? hb)) fun b hb => h b (List.mem_of_mem_getLast? hb)

theorem firstToken_of_solid {line : List Byte} (h : ∀ b ∈ line, Solid b) : firstToken line = line := by
  have htok := firstToken_append (rest := []) (fun b hb => (h b hb).1) nofun
  rwa [List.append_nil] at htok

/-- The encoding of a structured-text line that stripping leaves whole is classified as it stands. -/
theorem decode_encode_bdfText {i : Instr} {st : PState} (hf : lineFeed ∉ encode i) (hne : encode i ≠ [])
    (hs : stripLine (encode i) = encode i) : decode (.bdfText st) (encode i) = .ok (decodeBdfLine st (encode i)) := by
  have hline := decode_bdfText_line hf (hs.symm ▸ hne) st
  rwa [hs] at hline

/-! ## Hex digits (R81, R84) -/

theorem solid_hexChar (d : Nibble) : Solid (hexChar d) := by
  revert d; decide

theorem solid_map_hexChar (ds : List Nibble) : ∀ b ∈ ds.map hexChar, Solid b :=
  List.forall_mem_map.mpr fun d _ => solid_hexChar d

/-- The two digits `hexPair` writes for a byte. -/
def byteDigits (b : Byte) : List Nibble := [b.extractLsb' 4 4, b.extractLsb' 0 4]

theorem flatMap_hexPair (bs : List Byte) : bs.flatMap hexPair = (bs.flatMap byteDigits).map hexChar := by
  rw [List.map_flatMap]
  rfl

theorem length_flatMap_hexPair (bs : List Byte) : (bs.flatMap hexPair).length = 2 * bs.length := by
  induction bs with
  | nil => rfl
  | cons b bs ih =>
    have hb : (hexPair b).length = 2 := rfl
    rw [List.flatMap_cons, List.length_append, hb, ih, List.length_cons]
    omega

theorem pairDigits_flatMap_byteDigits (bs : List Byte) : pairDigits (bs.flatMap byteDigits) = bs := by
  induction bs with
  | nil => rfl
  | cons b bs ih =>
    have hb : b.extractLsb' 4 4 ++ b.extractLsb' 0 4 = b :=
      (BitVec.extractLsb'_append_extractLsb'_eq_extractLsb' rfl).trans BitVec.extractLsb'_eq_self
    calc pairDigits (byteDigits b ++ bs.flatMap byteDigits)
      _ = (b.extractLsb' 4 4 ++ b.extractLsb' 0 4) :: pairDigits (bs.flatMap byteDigits) := rfl
      _ = b :: bs := by rw [hb, ih]

theorem hexValue_append_byteDigits (ds : List Nibble) (b : Byte) :
    hexValue (ds ++ byteDigits b) = 256 * hexValue ds + b.toNat := by
  have hb := b.isLt
  have hsplit : ds ++ byteDigits b = ds ++ [b.extractLsb' 4 4] ++ [b.extractLsb' 0 4] := by simp [byteDigits]
  rw [hsplit, hexValue_append_singleton, hexValue_append_singleton, BitVec.extractLsb'_toNat, BitVec.extractLsb'_toNat,
    Nat.shiftRight_eq_div_pow, Nat.shiftRight_zero]
  omega

/-- The bytes of a code point in the order the encoder writes their digits: most significant first. -/
def codeBytes (cp : BitVec 32) : List Byte := [byteOf 3 cp, byteOf 2 cp, byteOf 1 cp, byteOf 0 cp]

theorem length_codeBytes (cp : BitVec 32) : (codeBytes cp).length = 4 := rfl

theorem hexValue_codeBytes (cp : BitVec 32) : hexValue ((codeBytes cp).flatMap byteDigits) = cp.toNat := by
  have hcp := cp.isLt
  have hsplit : (codeBytes cp).flatMap byteDigits =
      [] ++ byteDigits (byteOf 3 cp) ++ byteDigits (byteOf 2 cp) ++ byteDigits (byteOf 1 cp) ++ byteDigits (byteOf 0 cp) :=
    rfl
  have hnil : hexValue [] = 0 := rfl
  simp only [hsplit, hexValue_append_byteDigits, hnil, byteOf, BitVec.extractLsb'_toNat, Nat.shiftRight_eq_div_pow]
  omega

theorem encode_hexLine (cp : BitVec 32) (payload : List Byte) :
    encode (.hexLine cp payload) = (codeBytes cp).flatMap hexPair ++ colon :: payload.flatMap hexPair := rfl

theorem hexForm_encode {cp : BitVec 32} {payload : List Byte} (hl : payload.length = 16 ∨ payload.length = 32) :
    HexForm (encode (.hexLine cp payload)) ((codeBytes cp).flatMap hexPair) (payload.flatMap hexPair)
      ((codeBytes cp).flatMap byteDigits) (payload.flatMap byteDigits) where
  line_eq := encode_hexLine cp payload
  code := by rw [flatMap_hexPair, hexDigits?_map_hexChar]
  payload := by rw [flatMap_hexPair, hexDigits?_map_hexChar]
  code_pos := by rw [length_flatMap_hexPair, length_codeBytes]; decide
  code_le := by rw [length_flatMap_hexPair, length_codeBytes]
  payload_length := by rw [length_flatMap_hexPair]; omega

theorem solid_encode_hexLine (cp : BitVec 32) (payload : List Byte) : ∀ b ∈ encode (.hexLine cp payload), Solid b := by
  rw [encode_hexLine, List.forall_mem_append, List.forall_mem_cons, flatMap_hexPair, flatMap_hexPair]
  exact ⟨solid_map_hexChar _, by decide, solid_map_hexChar _⟩

theorem decode_encode_hexLine (cp : BitVec 32) {payload : List Byte} (hw : (Instr.hexLine cp payload).wellFormed = true) :
    decode .hexText (encode (.hexLine cp payload)) = .ok (.hexLine cp payload) := by
  have hl : payload.length = 16 ∨ payload.length = 32 := by simpa [Instr.wellFormed] using hw
  obtain ⟨hf, hne⟩ := Laws.EncodedShape.hexLine cp payload hw
  have hs := stripLine_of_solid (solid_encode_hexLine cp payload)
  rw [decode_hexText_line hf (hs.symm ▸ hne), hs, decodeHexLine_of_form (hexForm_encode hl), hexValue_codeBytes,
    pairDigits_flatMap_byteDigits, BitVec.ofNat_toNat, BitVec.setWidth_eq]

/-! ## A keyword and its operand (R82) -/

section

variable {kw operand : List Byte}

theorem firstToken_keyword_append (hkw : ∀ b ∈ kw, ¬ Blank b) : firstToken (kw ++ 0x20 :: operand) = kw :=
  firstToken_append hkw (by rintro _ ⟨⟩; decide)

theorem afterToken_keyword_append (hkw : ∀ b ∈ kw, ¬ Blank b) : afterToken (kw ++ 0x20 :: operand) = 0x20 :: operand :=
  afterToken_append hkw (by rintro _ ⟨⟩; decide)

theorem stripLine_keyword_append (hkw : kw ≠ [] ∧ ∀ b ∈ kw, Solid b)
    (hlast : ∀ b ∈ (0x20 :: operand).getLast?, Solid b) :
    stripLine (kw ++ 0x20 :: operand) = kw ++ 0x20 :: operand := by
  refine stripLine_of_solid_ends (fun b hb => ?_) ?_
  · rw [List.head?_append_of_ne_nil _ hkw.1] at hb
    exact hkw.2 b (List.mem_of_mem_head? hb)
  · rwa [List.getLast?_append_cons]

end

theorem decode_encode_bdfCharset {name : List Byte} (hw : (Instr.bdfCharset name).wellFormed = true) :
    decode (.bdfText .scanning) (encode (.bdfCharset name)) = .ok (.bdfCharset name) := by
  obtain ⟨hf, hne⟩ := Laws.EncodedShape.bdfCharset name hw
  have hquote : (quote :: (name ++ [quote])).getLast? = some quote := List.getLast?_concat (l := quote :: name)
  have hlast : ∀ b ∈ (0x20 :: quote :: (name ++ [quote])).getLast?, Solid b := by
    rw [List.getLast?_cons_cons, hquote]; rintro _ ⟨⟩; decide
  have htrimmed : Trimmed (quote :: (name ++ [quote])) :=
    ⟨by rintro _ ⟨⟩; decide, by rw [hquote]; rintro _ ⟨⟩; decide⟩
  have htrim : trim (0x20 :: quote :: (name ++ [quote])) = quote :: (name ++ [quote]) := by
    have h := trim_eq_of_trimmed (lead := [0x20]) (tail := []) (by decide) htrimmed
    rwa [List.append_nil] at h
  have hline : encode (.bdfCharset name) = kwCharset ++ 0x20 :: quote :: (name ++ [quote]) := rfl
  rw [decode_encode_bdfText hf hne (hline ▸ stripLine_keyword_append (by decide) hlast), hline,
    decodeBdfLine_charset (firstToken_keyword_append (by decide)), afterToken_keyword_append (by decide), htrim,
    unquote_of_quote_last rfl]

/-! ## The decimal code (R82) -/

theorem toNat_decChar (n k : Nat) : (decChar n k).toNat = 0x30 + n / 10 ^ k % 10 := by
  rw [decChar, BitVec.toNat_ofNat]
  omega

theorem decimalDigit_decChar (n k : Nat) : DecimalDigit (decChar n k) := by
  rw [DecimalDigit, toNat_decChar]
  omega

theorem solid_of_decimalDigit {b : Byte} (h : DecimalDigit b) : Solid b := by
  refine ⟨?blank, ?carriageReturn⟩
  case blank => rintro (rfl | rfl) <;> exact absurd h (by decide)
  case carriageReturn => rintro rfl; exact absurd h (by decide)

theorem decimal10_eq_map (n : Nat) : decimal10 n = (List.range 10).reverse.map (decChar n) := rfl

/-- The digits below weight `10 ^ k` complete the number above it. -/
theorem decimalValue_map_decChar (n k : Nat) :
    decimalValue (n / 10 ^ k) ((List.range k).reverse.map (decChar n)) = n := by
  induction k with
  | zero => exact Nat.div_one n
  | succ k ih =>
    have hdigit : 10 * (n / 10 ^ (k + 1)) + ((decChar n k).toNat - 0x30) = n / 10 ^ k := by
      rw [toNat_decChar, Nat.add_sub_cancel_left, Nat.pow_succ, ← Nat.div_div_eq_div_mul]
      exact Nat.div_add_mod _ _
    rw [List.range_succ, List.reverse_append, List.reverse_singleton, List.singleton_append, List.map_cons, decimalValue,
      List.foldl_cons, hdigit]
    exact ih

theorem decimalValue_decimal10 {n : Nat} (h : n < 10 ^ 10) : decimalValue 0 (decimal10 n) = n := by
  have hvalue := decimalValue_map_decChar n 10
  rwa [Nat.div_eq_of_lt h] at hvalue

theorem decodeCode_decimal10 (n : BitVec 32) : decodeCode (0x20 :: decimal10 n.toNat) = some n := by
  have hdigit : ∀ b ∈ decimal10 n.toNat, DecimalDigit b := by
    rw [decimal10_eq_map]
    exact List.forall_mem_map.mpr fun k _ => decimalDigit_decChar _ k
  have hsolid : ∀ b ∈ decimal10 n.toNat, Solid b := fun b hb => solid_of_decimalDigit (hdigit b hb)
  have htrim : trimStart (0x20 :: decimal10 n.toNat) = decimal10 n.toNat :=
    trimStart_blanks_append (lead := [0x20]) (by decide) fun b hb => (hsolid b (List.mem_of_mem_head? hb)).1
  have htok : decimal10 n.toNat = firstToken (trimStart (0x20 :: decimal10 n.toNat)) := by
    rw [htrim, firstToken_of_solid hsolid]
  have hvalue : decimalValue 0 (decimal10 n.toNat) = n.toNat := decimalValue_decimal10 (n.isLt.trans (by decide))
  rw [decodeCode_eq_some htok (List.cons_ne_nil _ _) hdigit (hvalue.symm ▸ n.isLt), hvalue, BitVec.ofNat_toNat,
    BitVec.setWidth_eq]

theorem decode_encode_bdfEncoding_some (n : BitVec 32) :
    decode (.bdfText .scanning) (encode (.bdfEncoding (some n))) = .ok (.bdfEncoding (some n)) := by
  obtain ⟨hf, hne⟩ := Laws.EncodedShape.bdfEncoding (some n) rfl
  have hlast : ∀ b ∈ (0x20 :: decimal10 n.toNat).getLast?, Solid b := by
    rintro _ ⟨⟩; exact solid_of_decimalDigit (decimalDigit_decChar n.toNat 0)
  have hline : encode (.bdfEncoding (some n)) = kwEncoding ++ 0x20 :: decimal10 n.toNat := rfl
  rw [decode_encode_bdfText hf hne (hline ▸ stripLine_keyword_append (by decide) hlast), hline,
    decodeBdfLine_encoding (firstToken_keyword_append (by decide)), afterToken_keyword_append (by decide),
    decodeCode_decimal10]

theorem decode_encode_bdfEncoding (code : Option (BitVec 32)) :
    decode (.bdfText .scanning) (encode (.bdfEncoding code)) = .ok (.bdfEncoding code) := by
  cases code with
  | none => decide
  | some n => exact decode_encode_bdfEncoding_some n

/-! ## Rows (R84) -/

/-- Hex digits do not spell ENDCHAR. -/
theorem map_hexChar_ne_kwEndchar (ds : List Nibble) : ds.map hexChar ≠ kwEndchar := by
  intro h
  have hnone : hexDigits? kwEndchar = none := by decide
  have hsome := hexDigits?_map_hexChar ds
  rw [h, hnone] at hsome
  cases hsome

theorem decode_encode_bdfRow {digits : Option (List Nibble)} (hw : (Instr.bdfRow digits).wellFormed = true) :
    decode (.bdfText .inBitmap) (encode (.bdfRow digits)) = .ok (.bdfRow digits) := by
  cases digits with
  | none => decide
  | some ds =>
    obtain ⟨hf, hne⟩ := Laws.EncodedShape.bdfRow (some ds) hw
    have hsolid : ∀ b ∈ encode (.bdfRow (some ds)), Solid b := solid_map_hexChar ds
    have htok : firstToken (encode (.bdfRow (some ds))) ≠ kwEndchar := by
      rw [firstToken_of_solid hsolid]; exact map_hexChar_ne_kwEndchar ds
    rw [decode_encode_bdfText hf hne (stripLine_of_solid hsolid), decodeBdfLine_row htok, encode, hexDigits?_map_hexChar]

/-! ## The statement -/

/-- Settles O3: each instruction by its lemma; the words and lines without operands, and those of one whole byte, are
evaluated. -/
theorem decodeOfEncodeIsTheInstruction : Obligations.DecodeOfEncodeIsTheInstruction := by
  unfold Obligations.DecodeOfEncodeIsTheInstruction
  intro i hw
  cases i with
  | lzdDecompress | tiuUnpack | gbcDecode | gbcEncHex | gbcEncBdf | gbcReserved | ssrReassemble => rfl
  | lzCtrl | lit | glyRow8 => rfl
  | lzHdr size ignored => exact decode_encode_lzHdr size ignored
  | copy l d => exact decode_encode_copy l d
  | tileByte h l => exact decode_encode_tileByte h l
  | palEntry x b g r => exact decode_encode_palEntry x b g r
  | glyHdr start count width rows reserved => exact decode_encode_glyHdr start count width rows reserved
  | glyRow16 r p => exact decode_encode_glyRow16 r p
  | hexLine cp payload => exact decode_encode_hexLine cp hw
  | bdfCharset name => exact decode_encode_bdfCharset hw
  | bdfEncoding code => exact decode_encode_bdfEncoding code
  | bdfBitmap | bdfEndchar | bdfOther => decide
  | bdfRow digits => exact decode_encode_bdfRow hw
  | secTrailer data index undescribed counter =>
    exact decode_encode_secTrailer (eq_of_beq hw) index undescribed counter

end Sys2Proof
end
